-- ==== Sys2Proof/Word.lean ====
section
/-!
DEFINITION. The words of the EV4 and the decoded instruction fields (R7, R16, R37 to R52), and the tables every
part of the state is kept in: a list of (key, value) pairs with strictly rising keys.
-/
namespace Sys2Proof

/-- A 32-bit register word (R13). -/
abbrev Word := BitVec 32
/-- A 64-bit value: a register pair (R16), an address, a frame word. -/
abbrev DWord := BitVec 64
/-- A 128-bit value: a register quad (R16). -/
abbrev QWord := BitVec 128
/-- One byte of memory (R7). -/
abbrev Byte := BitVec 8
/-- One bit per logical lane; bit i stands for lane i (R191). -/
abbrev LaneMask := BitVec 64

/-- A table keyed by numbers, in one canonical form: keys strictly rising. -/
abbrev Table (α : Type) := List (Nat × α)

/-- The three instruction lengths (R34). -/
inductive Form where
  | short | medium | long
  deriving DecidableEq, Repr

/-- TYPE codes 0x00 to 0x17 (R41). `un` is code 0, an untyped instruction. -/
inductive Ty where
  | un | s8 | s16 | s32 | s64 | n8 | n16 | n32 | n64 | b8 | b16 | b32 | b64 | b128
  | f32 | f16 | bf16 | f16x2 | bf16x2 | e4m3 | e5m2 | e2m1 | f40 | i40
  deriving DecidableEq, Repr

/-- A 9-bit operand field (R43): vector, scalar, predicate, constant-table entry, or 511 (zero as a source, discard
as a destination). In the matrix stream the values 0 to 255 are plain numbers (R46) and stand as `v`. -/
inductive Operand where
  | v (n : Fin 256)
  | s (n : Fin 128)
  | p (n : Fin 48)
  | c (k : Fin 48)
  | zero
  deriving DecidableEq, Repr

/-- A guard field and its negate bit (R37, R47): `none` is field value 63, true in every lane. -/
structure Guard where
  pred : Option (Fin 48)
  neg  : Bool
  deriving DecidableEq, Repr

/-- Cache hints (R38, R49). -/
inductive Hint where
  | dflt | stream | keep | noAlloc
  deriving DecidableEq, Repr

/-- The fields of one instruction word, read once (R37 to R40). Fields that a short form does not carry hold the
values R39 fixes for them. -/
structure Fields where
  form   : Form
  guardA : Guard
  guardB : Guard
  gcomb  : Bool
  dst    : Operand
  a      : Operand
  b      : Operand
  c      : Operand
  flag   : Option (Fin 12)
  bimm   : Bool
  ty     : Ty
  fam    : BitVec 9
  hint   : Hint
  imm13  : BitVec 13
  imm32  : BitVec 32
  deriving DecidableEq, Repr

/-- The fields of a clause header (R51). A permitted flag is `none` for field value 15. -/
structure Header where
  wait   : BitVec 12
  flagX  : Option (Fin 12)
  flagY  : Option (Fin 12)
  prio   : BitVec 16
  yield  : Bool
  nodual : Bool
  deriving DecidableEq, Repr

/-- The trap causes (R406). -/
inductive Cause where
  | illegal | reserved | nonUniform | misaligned | translation | protection | integrity | rowLost | rowBusy
  | growRefused | localBounds | matrixShape | laneFault | malformed | watchdog | software | timer | breakpoint
  | poison | tagFailure | budget
  deriving DecidableEq, Repr

/-- Rounding modes of RND (R42, R81), and stochastic rounding, which only `cvts` uses (R87). -/
inductive Rnd where
  | rne | rz | ru | rd
  deriving DecidableEq, Repr

/-- Address spaces (R42, SPACE). -/
inductive Space where
  | g | l | k
  deriving DecidableEq, Repr

/-- Scopes (R42, R290). -/
inductive Scope where
  | grp | team | clu | die | mod | sys
  deriving DecidableEq, Repr

/-- Orders (R42). -/
inductive Order where
  | rlx | acq | rel | ar
  deriving DecidableEq, Repr

end Sys2Proof
end

