-- ==== Sys2Proof/Machine/Bits.lean ====
section
/-!
DEFINITION. Plain helpers the machine is written with: tables keyed by numbers in canonical form, fields of a number
packed from bit 0 upwards (R9), little-endian bytes (R7), and sets of lanes.
-/
namespace Sys2Proof.Machine
open Sys2Proof

/-- The value of key `k`, if listed. -/
def tfind {α : Type} : Table α → Nat → Option α
  | [], _ => none
  | (j, v) :: t, k => if j = k then some v else tfind t k

/-- `t` with key `k` holding `v`. -/
def tins {α : Type} : Table α → Nat → α → Table α
  | [], k, v => [(k, v)]
  | (j, w) :: t, k, v =>
    if k < j then (k, v) :: (j, w) :: t else if k = j then (k, v) :: t else (j, w) :: tins t k v

/-- `t` without key `k`. -/
def tdel {α : Type} : Table α → Nat → Table α
  | [], _ => []
  | (j, w) :: t, k => if j = k then tdel t k else (j, w) :: tdel t k

/-- The value of key `k`, an unlisted key holding `d`. -/
def tget {α : Type} (d : α) (t : Table α) (k : Nat) : α := (tfind t k).getD d

/-- `t` with key `k` holding `v`, where an unlisted key holds `d`: the canonical form lists no key that holds `d`. -/
def tput {α : Type} [DecidableEq α] (d : α) (t : Table α) (k : Nat) (v : α) : Table α :=
  if v = d then tdel t k else tins t k v

/-- `t` with the value of key `k` replaced, if listed. -/
def tadj {α : Type} : Table α → Nat → (α → α) → Table α
  | [], _, _ => []
  | (j, w) :: t, k, f => if j = k then (j, f w) :: t else (j, w) :: tadj t k f

/-- The keys strictly rise. -/
def rising {α : Type} : Table α → Bool
  | [] => true
  | [_] => true
  | (j, _) :: (k, w) :: t => decide (j < k) && rising ((k, w) :: t)

/-- The least key not below `n` that is not listed, looking at most `fuel` keys up. -/
def freshKey {α : Type} (t : Table α) : Nat → Nat → Nat
  | 0, n => n
  | fuel + 1, n => if (tfind t n).isNone then n else freshKey t fuel (n + 1)

/-- The values of `x` in consecutive fields of the widths `ws`, lowest first. -/
def unpackNat : List Nat → Nat → List Nat
  | [], _ => []
  | w :: ws, x => x % 2 ^ w :: unpackNat ws (x / 2 ^ w)

/-- The number whose consecutive fields, lowest first, are given as (width, value). -/
def packNat : List (Nat × Nat) → Nat
  | [] => 0
  | (w, v) :: t => v % 2 ^ w + 2 ^ w * packNat t

/-- Bits [hi:lo] of a number. -/
def bits (x hi lo : Nat) : Nat := x / 2 ^ lo % 2 ^ (hi + 1 - lo)

/-- Bit `i` of a number. -/
def bit (x i : Nat) : Bool := x / 2 ^ i % 2 == 1

/-- `x` with bits [hi:lo] replaced by `v`. -/
def setBits (x hi lo v : Nat) : Nat :=
  let w := hi + 1 - lo
  x % 2 ^ lo + 2 ^ lo * (v % 2 ^ w) + 2 ^ (hi + 1) * (x / 2 ^ (hi + 1))

/-- The number a list of bytes holds, lowest address first (R7). -/
def ofBytes : List Byte → Nat
  | [] => 0
  | b :: t => b.toNat + 256 * ofBytes t

/-- The `n` low bytes of a number, lowest address first. -/
def toBytes : Nat → Nat → List Byte
  | 0, _ => []
  | n + 1, x => BitVec.ofNat 8 x :: toBytes n (x / 256)

/-- 1 for true. -/
def b2n (b : Bool) : Nat := if b then 1 else 0

/-- `sext(x, 64)` of a 13-bit immediate (R134). -/
def sext13 (x : BitVec 13) : DWord := x.signExtend 64
/-- `sext(x, 64)` of a 32-bit immediate. -/
def sext32 (x : Word) : DWord := x.signExtend 64

/-- The signed value of the low `n` bits of `x`. -/
def toSigned (n x : Nat) : Int :=
  let y := x % 2 ^ n
  if n = 0 then 0 else if y < 2 ^ (n - 1) then (y : Int) else (y : Int) - (2 ^ n : Nat)

/-- The `n` low bits of an integer, as a number (two's complement). -/
def ofInt (n : Nat) (x : Int) : Nat := (x % ((2 ^ n : Nat) : Int)).toNat

/-- The low `n` numbers, ascending. -/
def upTo : Nat → List Nat
  | 0 => []
  | n + 1 => upTo n ++ [n]

/-- The low `n` numbers from `k`, ascending. -/
def fromTo (k : Nat) : Nat → List Nat
  | 0 => []
  | n + 1 => k :: fromTo (k + 1) n

/-- The lanes of a mask, ascending. -/
def lanesOf (m : LaneMask) : List Nat := (fromTo 0 64).filter fun l => m.getLsbD l

/-- The mask with the one lane `l`. -/
def laneBit (l : Nat) : LaneMask := 1#64 <<< l

/-- The mask of the low `n` lanes. -/
def lowLanes (n : Nat) : LaneMask := BitVec.ofNat 64 (2 ^ n - 1)

/-- The mask of a list of lanes. -/
def maskOf (ls : List Nat) : LaneMask := ls.foldl (fun m l => m ||| laneBit l) 0

/-- The number of set bits among the low `n` bits of `x`. -/
def popNat : Nat → Nat → Nat
  | 0, _ => 0
  | n + 1, x => x % 2 + popNat n (x / 2)

/-- The number of lanes in a mask. -/
def laneCount (m : LaneMask) : Nat := popNat 64 m.toNat

/-- `x` rounded up to a multiple of `m`. -/
def alignUp (x m : Nat) : Nat := (x + m - 1) / m * m

/-- `x` rounded down to a multiple of `m`. -/
def alignDown (x m : Nat) : Nat := x / m * m

/-- ceil(x / m). -/
def ceilDiv (x m : Nat) : Nat := (x + m - 1) / m

/-- The list with entry `i` replaced. -/
def setNth {α : Type} : List α → Nat → α → List α
  | [], _, _ => []
  | _ :: t, 0, v => v :: t
  | a :: t, i + 1, v => a :: setNth t i v

/-- The position of the first entry that satisfies `p`. -/
def indexOf? {α : Type} (p : α → Bool) : List α → Nat → Option Nat
  | [], _ => none
  | a :: t, i => if p a then some i else indexOf? p t (i + 1)

/-- Insertion of `a` before the first entry that `a` precedes strictly; equal entries keep their order. -/
def insertBy {α : Type} (lt : α → α → Bool) (a : α) : List α → List α
  | [] => [a]
  | b :: t => if lt a b then a :: b :: t else b :: insertBy lt a t

/-- A stable sort. -/
def sortBy {α : Type} (lt : α → α → Bool) (l : List α) : List α := l.foldl (fun acc a => insertBy lt a acc) []

end Sys2Proof.Machine
end

