-- ==== Sys2Proof/Syntax.lean ====
section
/-!
DEFINITION. The steps of the EV4, one constructor for each row of the opcode table: the encoded instructions of the
three streams (R56), which carry the fields of their word, and the machine's own steps and the calls and events that
reach it from outside, which carry what names them.
-/
namespace Sys2Proof

/-- One constructor per row of the opcode table. -/
inductive Instr where
  /-- CLAUSE_HEADER (R29). Control reaching a clause header waits on the header's wait-mask flags, takes its priority as PRIO and applies the frontier rules of R179. -/
  | clauseHeader (h : Header)
  /-- ADD (R100). Adds two integer sources, wrapping or saturating to the type width. -/
  | add (f : Fields)
  /-- SUB (R100). Subtracts two integer sources, wrapping or saturating to the type width. -/
  | sub (f : Fields)
  /-- ADDC (R101). Adds with a carry in from a predicate and writes the carry out back to that predicate. -/
  | addc (f : Fields)
  /-- SUBB (R101). Subtracts with a borrow in from a predicate and writes the borrow out back to that predicate. -/
  | subb (f : Fields)
  /-- MUL (R100). Multiplies two integer sources, wrapping or saturating to the type width. -/
  | mul (f : Fields)
  /-- MULHI (R102). Writes the high 32 bits of the 64-bit product of two sources. -/
  | mulhi (f : Fields)
  /-- MAD (R100). Computes a times b plus c, wrapping or saturating to the type width. -/
  | mad (f : Fields)
  /-- MADW (R102). Writes (a times b plus c) mod 2^64 to a register pair. -/
  | madw (f : Fields)
  /-- MIN (R100). Writes the lesser of two integers, compared by the type's signedness. -/
  | min (f : Fields)
  /-- MAX (R100). Writes the greater of two integers, compared by the type's signedness. -/
  | max (f : Fields)
  /-- AND (R103). Writes the bitwise AND of two sources. -/
  | and (f : Fields)
  /-- OR (R103). Writes the bitwise OR of two sources. -/
  | or (f : Fields)
  /-- XOR (R103). Writes the bitwise exclusive OR of two sources. -/
  | xor (f : Fields)
  /-- NOT (R103). Writes the bitwise complement of its source. -/
  | not (f : Fields)
  /-- SHL (R103). Shifts left by a count, either clamping the count or taking it modulo the width. -/
  | shl (f : Fields)
  /-- SHR (R103). Shifts right logically by a count, either clamping the count or taking it modulo the width. -/
  | shr (f : Fields)
  /-- SAR (R103). Shifts right arithmetically by a count. -/
  | sar (f : Fields)
  /-- SHF (R104). Funnel-shifts a 64-bit concatenation of two sources left or right. -/
  | shf (f : Fields)
  /-- BFX (R105). Extracts a bit field at a given position and length, with sign or zero extension. -/
  | bfx (f : Fields)
  /-- BFI (R105). Inserts a bit field into a copy of c. -/
  | bfi (f : Fields)
  /-- POPC (R106). Counts the set bits of its source. -/
  | popc (f : Fields)
  /-- CLZ (R106). Counts the leading zero bits of its source. -/
  | clz (f : Fields)
  /-- BREV (R106). Reverses the bit order of its source. -/
  | brev (f : Fields)
  /-- LEA (R107). Forms an address as a plus b shifted left, or a PC-relative address with .pc. -/
  | lea (f : Fields)
  /-- SEL (R108). Selects a or b according to condition c. -/
  | sel (f : Fields)
  /-- CMP (R109). Writes 1 or 0 according to an integer condition code. -/
  | cmp (f : Fields)
  /-- MOV (R108). Copies a register at the type's width. -/
  | mov (f : Fields)
  /-- MOVI (R108). Copies source B, which may be an immediate, into the destination. -/
  | movi (f : Fields)
  /-- DP4 (R110). Forms the exact four-byte dot product of a and b plus c, wrapping or saturating. -/
  | dp4 (f : Fields)
  /-- FADD (R111). Floating-point add with one rounding. -/
  | fadd (f : Fields)
  /-- FSUB (R111). Floating-point subtract with one rounding. -/
  | fsub (f : Fields)
  /-- FMUL (R111). Floating-point multiply with one rounding. -/
  | fmul (f : Fields)
  /-- FFMA (R111). Fused multiply-add that rounds once. -/
  | ffma (f : Fields)
  /-- FMIN (R112). Delivers the lesser operand under the NaN and signed-zero rules, without rounding. -/
  | fmin (f : Fields)
  /-- FMAX (R112). Delivers the greater operand under the NaN and signed-zero rules, without rounding. -/
  | fmax (f : Fields)
  /-- FCMP (R113). Floating-point comparison under a condition code. -/
  | fcmp (f : Fields)
  /-- FRND (R114). Rounds to an integral value in the same format. -/
  | frnd (f : Fields)
  /-- FFRAC (R114). Writes the rounded value of a minus floor(a). -/
  | ffrac (f : Fields)
  /-- FCLASS (R115). Writes a one-hot class mask of a floating-point value. -/
  | fclass (f : Fields)
  /-- FLDEXP (R116). Writes the rounded value of a times 2^b. -/
  | fldexp (f : Fields)
  /-- FRCP (R118). Reciprocal special function. -/
  | frcp (f : Fields)
  /-- FRSQ (R118). Reciprocal square root special function. -/
  | frsq (f : Fields)
  /-- FSQRT (R118). Correctly rounded square root. -/
  | fsqrt (f : Fields)
  /-- FEXP2 (R118). Base-2 exponential special function. -/
  | fexp2 (f : Fields)
  /-- FLOG2 (R118). Base-2 logarithm special function. -/
  | flog2 (f : Fields)
  /-- FSIN (R118). Sine of an angle given in turns. -/
  | fsin (f : Fields)
  /-- FCOS (R118). Cosine of an angle given in turns. -/
  | fcos (f : Fields)
  /-- FTANH (R118). Hyperbolic tangent special function. -/
  | ftanh (f : Fields)
  /-- FDP2 (R119). Two-element packed dot product plus an FP32 addend, rounded once. -/
  | fdp2 (f : Fields)
  /-- CVT (R120). Converts between types, with element selection for narrow formats. -/
  | cvt (f : Fields)
  /-- CVTS (R121). Converts with stochastic rounding, drawing once from RNG per lane. -/
  | cvts (f : Fields)
  /-- OSM_UPD (R123). Folds one tile row's maximum and sum into a running online-softmax state. -/
  | osmUpd (f : Fields)
  /-- OSM_FIN (R124). Writes the factor that rescales accumulators from an old softmax state to a new one. -/
  | osmFin (f : Fields)
  /-- OSM_FIN_NORM (R124). Writes the final normalisation factor 1/s of a softmax state. -/
  | osmFinNorm (f : Fields)
  /-- RNG (R122). Writes random bits or a uniform FP32 value and advances RNG. -/
  | rng (f : Fields)
  /-- XBOX (R130). Tests a ray against four boxes and writes the hit mask, the ordered indices and the hit count. -/
  | xbox (f : Fields)
  /-- XTRI (R131). Tests a ray against a triangle watertightly and writes t, u, v and flags. -/
  | xtri (f : Fields)
  /-- PLOP (R125). Computes a predicate from three predicates through a lookup table. -/
  | plop (f : Fields)
  /-- PMOV (R126). Sets a predicate where a 32-bit source is non-zero. -/
  | pmov (f : Fields)
  /-- PBITS_GET (R127). Packs 32 predicates into a vector register. -/
  | pbitsGet (f : Fields)
  /-- PBITS_SET (R127). Sets predicates from the bits of a vector under a mask. -/
  | pbitsSet (f : Fields)
  /-- PSET (R128). Sets a predicate from an any, all or none test of a AND b. -/
  | pset (f : Fields)
  /-- VOTE (R194). Combines a truth value across the lanes of exec as all, any, uni or ballot. -/
  | vote (f : Fields)
  /-- MATCH (R195). Compares values across lanes and writes lane masks. -/
  | matchLanes (f : Fields)
  /-- SHFL (R196). Moves values between lanes by index, up, down or butterfly. -/
  | shfl (f : Fields)
  /-- REDUX (R198). Reduces values over the lanes of exec in a pairwise tree. -/
  | redux (f : Fields)
  /-- SCAN (R199). Writes an inclusive or exclusive sequential prefix combination over lanes. -/
  | scan (f : Fields)
  /-- LMASK (R200). Writes a lane mask of the kind selected. -/
  | lmask (f : Fields)
  /-- LMAP (R201). Reports the lane sparing map of the slice. -/
  | lmap (f : Fields)
  /-- NOP (R57). Takes one issue slot and changes no state. -/
  | nop (f : Fields)
  /-- BRU (R135). Uniform branch; raises 0x03 when exec is neither empty nor the whole entry. -/
  | bru (f : Fields)
  /-- BR (R136). Divergent branch that moves the lanes of exec to a new frontier entry. -/
  | br (f : Fields)
  /-- BRX (R137). Indirect branch to a per-lane target. -/
  | brx (f : Fields)
  /-- CALL (R137). Writes the link and branches to a PC-relative target. -/
  | call (f : Fields)
  /-- CALX (R137). Writes the link and calls an indirect per-lane target. -/
  | calx (f : Fields)
  /-- RET (R137). Returns through a register pair with the effect of brx. -/
  | ret (f : Fields)
  /-- EXIT (R138). Ends the threads of the lanes in exec. -/
  | exit (f : Fields)
  /-- YLD (R139). Moves the frontier entry behind the other entries of its priority. -/
  | yld (f : Fields)
  /-- TRAP (R140). Raises a software trap 0x10 with a code. -/
  | trap (f : Fields)
  /-- BRK (R140). Raises a breakpoint 0x12 with a code. -/
  | brk (f : Fields)
  /-- VCALL (R141). Releases, writes a call record to the context's call ring and parks the group for the reply. -/
  | vcall (f : Fields)
  /-- LD (R144). Loads bytes from the global, local or constant space into registers. -/
  | ld (f : Fields)
  /-- ST (R144). Stores bytes to the global or local space. -/
  | st (f : Fields)
  /-- ATOM (R149). Indivisible read-modify-write that returns the old value; the operation is a parameter. -/
  | atom (f : Fields)
  /-- CAS (R150). Compare-and-swap that returns the old value. -/
  | cas (f : Fields)
  /-- RED (R151). Read-modify-write reduction without a register result. -/
  | red (f : Fields)
  /-- FENCE (R153). Orders the thread's memory accesses at an order and scope. -/
  | fence (f : Fields)
  /-- CINV_LINE (R154). Drops the L1 line that holds an address. -/
  | cinvLine (f : Fields)
  /-- CINV_ALL (R154). Drops every L1 line of a writable page in the core. -/
  | cinvAll (f : Fields)
  /-- PF (R155). Prefetches a line, with placement chosen by the hint; it never traps after decode. -/
  | pf (f : Fields)
  /-- LDK (R156). Loads from the constant space into scalars. -/
  | ldk (f : Fields)
  /-- LDI (R165). Loads one texel by integer coordinates. -/
  | ldi (f : Fields)
  /-- STI (R166). Stores one texel, converting its channels to the format. -/
  | sti (f : Fields)
  /-- SMP (R162). Samples and filters an image at floating-point coordinates. -/
  | smp (f : Fields)
  /-- SMPG (R164). Gathers one channel of the four texels of the linear footprint. -/
  | smpg (f : Fields)
  /-- TXQ (R167). Queries a dimension, the level count, the format or the dimensionality of an image. -/
  | txq (f : Fields)
  /-- VGROW (R207). Asks to raise the vector register count; allocates lines, refuses, or parks. -/
  | vgrow (f : Fields)
  /-- VSHRINK (R208). Lowers the vector register count and releases the lines. -/
  | vshrink (f : Fields)
  /-- SGROW (R209). Asks to raise the scalar register count. -/
  | sgrow (f : Fields)
  /-- RGN (R210). Stages up to three ranges of vector registers into the operand buffer. -/
  | rgn (f : Fields)
  /-- BTA (R204). Arrives at a team barrier and writes the phase of the arrival. -/
  | bta (f : Fields)
  /-- BTW (R204). Parks until a team barrier's phase differs from a token. -/
  | btw (f : Fields)
  /-- BT (R204). Arrives at a team barrier and waits on the phase of the arrival. -/
  | bt (f : Fields)
  /-- BCL (R205). Arrives at a cluster barrier and waits on the phase of the arrival. -/
  | bcl (f : Fields)
  /-- BCL_ARR (R205). Arrives at a cluster barrier without waiting. -/
  | bclArr (f : Fields)
  /-- BCL_WAIT (R205). Waits on a cluster barrier phase against a token. -/
  | bclWait (f : Fields)
  /-- CLUSTER_BARRIER_RESUME (R205). A group parked on a completed cluster barrier resumes within 64 clocks plus the mesh distance. -/
  | clusterBarrierResume (gid : Nat)
  /-- LNCH (R211). Posts launch packets into a device-side queue and parks until the front end answers. -/
  | lnch (f : Fields)
  /-- SRD (R212). Reads a special register, and with .clr also clears FSTAT. -/
  | srd (f : Fields)
  /-- MSYNC (R390). Arrives at a matrix barrier and waits on the phase of the arrival, writing LASTCODE. -/
  | msync (f : Fields)
  /-- MSYNC_ARR (R390). Arrives at a matrix barrier without waiting. -/
  | msyncArr (f : Fields)
  /-- MSYNC_WAIT (R390). Parks until a matrix barrier phase differs from a token. -/
  | msyncWait (f : Fields)
  /-- REEL_GO (R336). Posts a chain of transfer records to a Reel channel queue. -/
  | reelGo (f : Fields)
  /-- REEL_ADD (R337). Links a record after a running record, or posts it as a new chain. -/
  | reelAdd (f : Fields)
  /-- REEL_ST (R339). Writes a snapshot of a Reel channel for the context. -/
  | reelSt (f : Fields)
  /-- WCNT (R322). Parks until an outstanding counter is at most n. -/
  | wcnt (f : Fields)
  /-- BO_INIT (R326). Initialises a barrier object. -/
  | boInit (f : Fields)
  /-- BO_EXP (R328). Adds an expected byte count to a barrier object. -/
  | boExp (f : Fields)
  /-- BO_ARR (R328). Arrives at a barrier object, optionally with expected bytes, and returns the phase token. -/
  | boArr (f : Fields)
  /-- BO_WAIT (R330). Parks until a barrier object phase differs from a token. -/
  | boWait (f : Fields)
  /-- BO_TRY (R330). Tests a barrier object phase against a token without parking. -/
  | boTry (f : Fields)
  /-- LPQ (R323). Tests whether a scratchpad line is present. -/
  | lpq (f : Fields)
  /-- CRD_PUT (R360). Deposits a keyed entry per lane in the Carder, and the lanes leave the frontier. -/
  | crdPut (f : Fields)
  /-- CRD_FLUSH (R363). Makes every non-empty bin of the team ready. -/
  | crdFlush (f : Fields)
  /-- QPOP (R357). Takes the oldest entry of a Spindle queue, parking while the queue is empty and its job runs. -/
  | qpop (f : Fields)
  /-- QTRY (R357). Takes a Spindle queue entry if one is present, without parking. -/
  | qtry (f : Fields)
  /-- SP_GO (R358). Checks and starts a Spindle job bound to a queue. -/
  | spGo (f : Fields)
  /-- SP_STOP (R358). Ends the context's Spindle job on a queue and unbinds the queue. -/
  | spStop (f : Fields)
  /-- QPUSH (R356). A Spindle job appends an entry to its queue. -/
  | qpush (f : Fields)
  /-- ROW_ACT (R270). Opens an object row in its bank, closing another row first with .cls. -/
  | rowAct (f : Fields)
  /-- ROW_RD (R272). Consumes an open row into 2,048 bytes of scratchpad. -/
  | rowRd (f : Fields)
  /-- ROW_WR (R273). Writes 2,048 scratchpad bytes into an open row. -/
  | rowWr (f : Fields)
  /-- ROW_CLS (R274). Closes an object row. -/
  | rowCls (f : Fields)
  /-- ROW_ST (R275). Writes a snapshot of the bank state of an object row. -/
  | rowSt (f : Fields)
  /-- TRET (R417). Ends a trap handler and applies ACTION, replaying the queue or resuming, exiting or ending the cluster. -/
  | tret (f : Fields)
  /-- TFR (R416). Reads a frame word, a register, a control line, a captured operand or state of the trapped group. -/
  | tfr (f : Fields)
  /-- TINJ (R416). Writes a frame word, a register, a control line, a captured operand or state of the trapped group. -/
  | tinj (f : Fields)
  /-- CTX_FORK (R453). Creates a new context from the issuing template context. -/
  | ctxFork (f : Fields)
  /-- CTX_GATE_YIELD (R464). Gates the issuing context on the core until the next slice begins. -/
  | ctxGateYield (f : Fields)
  /-- CTX_GATE_OUT (R464). Writes the frame block and removes the group from the core in a save handler. -/
  | ctxGateOut (f : Fields)
  /-- TIER_REC_ADD (R462). Appends explicit pages to the working-set list. -/
  | tierRecAdd (f : Fields)
  /-- TIER_REC_CLR (R462). Empties the working-set list. -/
  | tierRecClr (f : Fields)
  /-- TIER_PIN (R463). Makes pages resident and pins them. -/
  | tierPin (f : Fields)
  /-- TIER_UNPIN (R463). Clears PIN on a range of pages. -/
  | tierUnpin (f : Fields)
  /-- SRW (R461). Writes the RW fields of a context register and returns the old value. -/
  | srw (f : Fields)
  /-- SRW_RD (R461). Reads a context register. -/
  | srwRd (f : Fields)
  /-- COBJ_MAP (R265). Maps or unmaps a column object handle on the core. -/
  | cobjMap (f : Fields)
  /-- TLB_INV_PAGE (R465). Invalidates the context's cached translations for one page on every core. -/
  | tlbInvPage (f : Fields)
  /-- TLB_INV_ALL (R465). Invalidates all of the context's cached translations. -/
  | tlbInvAll (f : Fields)
  /-- VENC (R513). Posts a frame descriptor to a frame encoder. -/
  | venc (f : Fields)
  /-- MMA (R378). Multiplies matrix operands and accumulates the product into a tile in chunk order. -/
  | mma (f : Fields)
  /-- MMB (R379). Binary XOR- or AND-popcount matrix product into INT40. -/
  | mmb (f : Fields)
  /-- TDEF (R380). Writes one 32-bit word of a tile descriptor. -/
  | tdef (f : Fields)
  /-- TLD (R380). Loads a tile descriptor from scratchpad. -/
  | tld (f : Fields)
  /-- AZERO (R381). Zeroes an accumulator tile. -/
  | azero (f : Fields)
  /-- ALD (R381). Loads a tile region from scratchpad. -/
  | ald (f : Fields)
  /-- AST (R382). Stores a tile region to scratchpad with conversion. -/
  | ast (f : Fields)
  /-- AST_STAT (R383). Stores the matrix status and clears it. -/
  | astStat (f : Fields)
  /-- ASCL (R384). Scales the rows of a tile by FP32 factors. -/
  | ascl (f : Fields)
  /-- MSIG (R387). The sequencer arrives at a matrix barrier with a code. -/
  | msig (f : Fields)
  /-- MWAIT (R387). The sequencer arrives at a matrix barrier and waits for the phase. -/
  | mwait (f : Fields)
  /-- MLOOP (R386). Closes a counted loop on a loop counter. -/
  | mloop (f : Fields)
  /-- MEND (R388). Drains and stops the matrix sequencer. -/
  | mend (f : Fields)
  /-- ROW_CON (R385). Consumes an object row into a descriptor's latch, re-activating on loss with .chk. -/
  | rowCon (f : Fields)
  /-- ASYNC_WRITE_LAND (R28). An asynchronous result is written or an instruction completes, decrementing its completion flag count. -/
  | asyncWriteLand (id : Nat)
  /-- STORE_PERFORM (R144). A store is performed at L2 or at its target scratchpad. -/
  | storePerform (id : Nat)
  /-- GROUP_RETIRE (R138). A group with no live lane and all counts at 0 retires and returns its slot and registers. -/
  | groupRetire (gid : Nat)
  /-- TRAP_ENTRY (R407). A cause stops a group, builds the replay queue and frame, and enters the handler. -/
  | trapEntry (gid : Nat)
  /-- FRAME_STORE_GRANT (R409). A group waiting for a frame store is granted one when a handler on the slice returns. -/
  | frameStoreGrant (gid : Nat)
  /-- STEP_TRAP (R429). After a tret with STEP set, one instruction issues and then the group traps with 0x12, SOURCE 4. -/
  | stepTrap (gid : Nat)
  /-- CALL_REPLY_POLL (R419). The device reads DONE of a parked call at least every 1,024 clocks and delivers the reply when it reads 1. -/
  | callReplyPoll (gid : Nat)
  /-- LANE_FAULT (R422). A residue mismatch stops the slice, updates the lane-remap map and raises 0x0D. -/
  | laneFault (gid datapath : Nat)
  /-- SFU_MISMATCH (R423). A special-function mismatch re-issues the instruction, or takes the slice out of service on a repeat. -/
  | sfuMismatch (gid : Nat)
  /-- PRESENCE_UNPARK (R234). A group parked on an absent scratchpad line resumes when the line becomes present. -/
  | presenceUnpark (gid : Nat)
  /-- REGISTER_GROW_RETRY (R207). Parked vgrow or sgrow requests are retried, oldest first, when lines return or banks are added. -/
  | registerGrowRetry (core slice ctx : Nat)
  /-- ISLAND_POWER_UP_DONE (R518). An island becomes eligible 1,500,000 clocks after power-up. -/
  | islandPowerUpDone (die island : Nat)
  /-- ENCODE_FRAME (R514). An encoder codes a queued frame and writes its completion record. -/
  | encodeFrame (enc : Nat)
  /-- ACTIVATE_ACCEPT (R270). A stalled activate is accepted once its bank is free and the activate windows of R278 allow it. -/
  | activateAccept (core bank : Nat)
  /-- CLOSE_START (R274). A pending close starts once the minimum open time has passed and every earlier accepted consume and write on the row has performed. -/
  | closeStart (core bank : Nat)
  /-- BANK_FREE (R276). A bank becomes free 14 clocks after a close starts, or 40 clocks after a refresh starts, releasing waiting activates and column accesses. -/
  | bankFree (core bank : Nat)
  /-- RETRAINING_END (R284). Retraining of the vertical bus ends 2,250 clocks after it began, so activates and row data may move again. -/
  | retrainingEnd (core : Nat)
  /-- DOORBELL (R219). A producer-index write makes ring packets ready, or halts the queue if the index is invalid. -/
  | doorbell (fn fe q : Nat) (p : Word)
  /-- PACKET_ACCEPT (R221). The front end copies a packet, checks it and numbers it, or rejects it and halts the queue. -/
  | packetAccept (fe q : Nat)
  /-- DEPENDENCE_POLL (R224). The front end re-reads a dependence word at least every 1,024 clocks until its condition holds. -/
  | dependencePoll (grid : Nat)
  /-- GRID_BEGIN (R224). A grid whose dependences are met begins, capturing its parameter block with an acquire. -/
  | gridBegin (grid : Nat)
  /-- CLUSTER_PLACE (R225). The front end searches for a rectangle, reserves it and binds the next cluster. -/
  | clusterPlace (fe : Nat)
  /-- CORESIDENT_PLACE (R227). Every cluster of a co-resident grid is placed in one step, or the reservations are undone. -/
  | coresidentPlace (fe : Nat)
  /-- GRID_BLOCKING (R225). A grid whose next cluster has not fitted for 1,048,576 clocks becomes blocking. -/
  | gridBlocking (grid : Nat)
  /-- GRID_COMPLETE (R224). A grid completes with a release and its completion word is written. -/
  | gridComplete (grid : Nat)
  /-- RING_SLOT_READ (R218). The front end reads a module-memory ring slot, waiting for residency or halting on a fault. -/
  | ringSlotRead (fe q : Nat)
  /-- PAGE_FAULT_SERVICE (R246). The tier engine makes the pages of a parked instruction resident, and the instruction issues again. -/
  | pageFaultService (core : Nat)
  /-- PAGE_MOVE (R248). The tier engine moves a page between tiers in four steps. -/
  | pageMove (ctx va tier : Nat)
  /-- TIER_PASS (R252). At each slice boundary the tier engine makes its pass over a context. -/
  | tierPass (ctx : Nat)
  /-- CONTENT_MERGE (R251). The content directory hashes a candidate, compares it and merges it into a shared frame. -/
  | contentMerge (ctx va : Nat)
  /-- FORK_REGION_BUILD (R454). Builds a pending level-1 region of a fork pair. -/
  | forkRegionBuild (ctx index : Nat)
  /-- INCOMING_MOVE (R450). The tier engine brings listed pages into module memory for a waiting grid. -/
  | incomingMove (ctx : Nat)
  /-- SLICE_BOUNDARY (R436). A partition slice begins and context balances are refilled. -/
  | sliceBoundary (fe : Nat)
  /-- BUDGET_EXHAUSTED (R437). A balance reaches 0 and the context is gated on the core until the next slice. -/
  | budgetExhausted (core slot : Nat)
  /-- WATCHDOG (R438). A group that has issued no real work for 2 × SL clocks takes 0x0F, or its cluster ends if it is in a handler. -/
  | watchdog (gid : Nat)
  /-- TIMER (R439). Context time reaches TIMERCMP, TIMERCMP is cleared and 0x11 is given to one group. -/
  | timer (ctx : Nat)
  /-- TEAM_SAVE (R443). After the last ctx.gate.out, the device drains and writes the team state into the save slot. -/
  | teamSave (tid : Nat)
  /-- CLUSTER_RESUME (R447). A saved cluster is placed, restored, re-posts its engine work and enters restore handlers. -/
  | clusterResume (cid : Nat)
  /-- ROW_READY (R276). An activated row becomes ready 20 clocks after acceptance, unparking its consumers. -/
  | rowReady (core bank : Nat)
  /-- ROW_FORCED_CLOSE (R277). A row open for 48,000 clocks is closed. -/
  | rowForcedClose (core bank : Nat)
  /-- ROW_DATA_LAND (R272). The lines of a row.rd or the data of a row.wr land, and the row counter retires it. -/
  | rowDataLand (core id : Nat)
  /-- ROW_DELIVERY (R278). An accepted consume waits for a delivery slot and is delivered. -/
  | rowDelivery (core id : Nat)
  /-- REFRESH_OPERATION (R281). A bank refresh falls due, closes the open row and refreshes 8 rows. -/
  | refreshOperation (core bank : Nat)
  /-- REFRESH_INTERVAL_STEP (R282). At the end of each window the refresh interval steps up, down or to the temperature cap. -/
  | refreshIntervalStep (core layer celsius : Nat)
  /-- PATROL_SCRUB (R283). The scrubber reads and corrects rows in idle banks. -/
  | patrolScrub (core bank row : Nat)
  /-- RETRAINING (R284). The vertical bus is retrained every 67,108,864 clocks, deferred while row data is pending. -/
  | retraining (core : Nat)
  /-- COLUMN_RELOCATE (R287). A column object is closed, copied and re-described under the same handle. -/
  | columnRelocate (core ctx handle : Nat) (desc : DWord)
  /-- REEL_RECORD (R334). The Reel processes one transfer record: it checks it, moves the data, writes the status and credits. -/
  | reelRecord (core channel : Nat)
  /-- REEL_CHUNK (R338). At each 4 KiB chunk boundary the Reel chooses a channel by priority, or pauses it for budget. -/
  | reelChunk (core : Nat)
  /-- GENERATION_DROP (R349). A write whose generation no longer matches its target is dropped. -/
  | generationDrop (id : Nat)
  /-- SPINDLE_ISSUE (R351). The Spindle slot issues one instruction per clock round-robin from the ready jobs. -/
  | spindleIssue (core : Nat)
  /-- SPINDLE_JOB_END (R359). An ended job pushes poison entries up to ENTRIES and writes FOFF and DONE. -/
  | spindleJobEnd (core queue : Nat)
  /-- CARDER_LAUNCH (R362). A ready Carder bin launches as a continuation group of its team. -/
  | carderLaunch (core : Nat)
  /-- CARDER_AUTO_FLUSH (R363). A team with no live or waiting group has its remaining bins flushed. -/
  | carderAutoFlush (tid : Nat)
  /-- RELEASE_FORWARD (R304). The die-edge switch forwards a held release once every counted write is acknowledged. -/
  | releaseForward (die core : Nat)
  /-- WRITE_ACK (R486). A home acknowledges a counted crossing write and its fence counter falls. -/
  | writeAck (die core : Nat)
  /-- LINK_DETOUR (R485). A link that cannot be retrained is taken down and its traffic is routed through the I/O die. -/
  | linkDetour (a b : Nat)
  /-- FLIT_REPLAY (R483). A flit that fails its link CRC is replayed. -/
  | flitReplay (a b : Nat)
  /-- PORT_AUTH_FAIL (R498). An external port whose flit fails authentication is taken down. -/
  | portAuthFail (port : Nat)
  /-- PCIE_ATOMIC (R501). A PCIe FetchAdd, Swap or CAS is performed at the home L2 slice. -/
  | pcieAtomic (fn ctx va op size : Nat) (x y : DWord)
  /-- IDE_FAILURE (R503). A selective IDE integrity failure drops the TLP and moves the TDI to ERROR. -/
  | ideFailure (fn : Nat)
  /-- KEY_SLOT_LOAD (R505). A trusted virtual machine loads a decrypt key slot over SPDM. -/
  | keySlotLoad (slot : Nat) (key : BitVec 256) (ctx : Nat)
  /-- KEY_SLOT_FREE (R505). A trusted virtual machine frees a decrypt key slot. -/
  | keySlotFree (slot : Nat)
  /-- GET_MEASUREMENTS (R507). SPDM returns the signed measurement registers. -/
  | getMeasurements (index : Nat)
  /-- BOOT (R506). At reset the boot ROM verifies and measures the security monitor, which starts the service firmware. -/
  | boot (monitor firmware : List Byte) (monitorOk firmwareOk : Bool) (later : List (Nat × List Byte))
  /-- FIRMWARE_RESTART (R508). The monitor restarts a service firmware that stops responding. -/
  | firmwareRestart
  /-- PART_SET (R215). Monitor call 0x01 sets a partition's core range. -/
  | partSet (fe base limit : Nat)
  /-- COLOUR_SET (R237). Monitor call 0x02 sets a partition's colour mask. -/
  | colourSet (fe mask : Nat)
  /-- SLICE_SET (R436). Monitor call 0x03 sets a partition's slice length from its next boundary. -/
  | sliceSet (fe sl : Nat)
  /-- MERGE_N (R251). Monitor call 0x04 sets the passes before a page becomes a merge candidate. -/
  | mergeN (n : Nat)
  /-- FORK_POLICY (R453). Monitor call 0x05 sets the partitions that ctx.fork may name. -/
  | forkPolicy (mask : Nat)
  /-- COLSPLIT_SET (R261). Monitor call 0x06 sets a core's column split. -/
  | colsplitSet (core value : Nat)
  /-- COMPACT (R451). Monitor call 0x07 compacts column objects out of leaving banks. -/
  | compact (core value : Nat)
  /-- CTX_CREATE (R509). Monitor call 0x08 creates a context. -/
  | ctxCreate (id part budget domain : Nat)
  /-- CTX_DESTROY (R509). Monitor call 0x09 destroys a context and its frames and keys. -/
  | ctxDestroy (id : Nat)
  /-- CTX_WORD (R509). Monitor call 0x0A writes PART, BUDGET or WSLEN. -/
  | ctxWord (id word value : Nat)
  /-- MAP (R509). Monitor call 0x0B maps pages into a context. -/
  | map (id va n attrs source : Nat)
  /-- UNMAP (R509). Monitor call 0x0C unmaps pages of a context. -/
  | unmap (id va n : Nat)
  /-- RESIDENT (R432). Monitor call 0x0D makes a context resident on a core, or frees its slot. -/
  | resident (id core slot n : Nat)
  /-- GATE (R433). Monitor call 0x0E gates or ungates a context on cores. -/
  | gate (id cores on : Nat)
  /-- LEAVE (R440). Monitor call 0x0F asks a context's groups to save, raising 0x15. -/
  | leave (id cores reason : Nat)
  /-- VACATE (R456). Monitor call 0x10 saves every cluster touching a set of cores. -/
  | vacate (fe cores : Nat)
  /-- MIGRATE (R490). Monitor call 0x11 moves a context's tables to another die. -/
  | migrate (id die : Nat)
  /-- QUEUE_SET (R218). Monitor call 0x12 sets up a host or device-side queue. -/
  | queueSet (fe q block : Nat)
  /-- QUEUE_RESUME (R221). Monitor call 0x13 resumes a halted queue. -/
  | queueResume (fe q : Nat)
  /-- VF_BIND (R502). Monitor call 0x14 binds a virtual function to a front end, its queues and its contexts. -/
  | vfBind (fn fe queues : Nat) (ctxs : List Nat)
  /-- ENC_BIND (R511). Monitor call 0x15 binds an encoder stream slot to a context. -/
  | encBind (enc slot id : Nat)
  /-- ENGINE_RESUME (R509). Monitor call 0x16 resumes halted engine work when no live group can take the trap. -/
  | engineResume (id core : Nat)
  /-- PROFILE (R516). Monitor call 0x17 selects the power profile. -/
  | profile (watts : Nat)
  /-- ISLAND (R518). Monitor call 0x18 powers a voltage island on or off. -/
  | island (die island on : Nat)
  /-- EVENTS (R510). Monitor call 0x19 sets the event ring. -/
  | events (ring count : Nat)
  /-- UNKNOWN_CALL (R509). A monitor call number not in the table returns status 2. -/
  | unknownCall (number : Nat)
  /-- POWER_CONTROL (R516). Every 1 ms the power controller sets each island's duty to hold the profile. -/
  | powerControl (power : List (Nat × Nat))
  /-- THERMAL_THROTTLE (R517). Over temperature, an island's duty is lowered by 1 every 1 ms. -/
  | thermalThrottle (die island logic layer : Nat)
  /-- THERMAL_TRIP (R517). Sustained over-temperature resets the compute dies. -/
  | thermalTrip (logic layer : Nat)
  /-- HOST_INGRESS (R496). A PCIe memory request from the host, or a request from a peer module through an external port, reads or writes module memory and has its CRC computed on entry. -/
  | hostIngress (port : Bool) (agent ctx address : Nat) (data : List Byte) (n : Nat)
  /-- PORT_TRAINING (R498). An external port trains: the two security monitors establish its keys and the peer advertises whether it holds the encoded form. -/
  | portTraining (port : Nat) (encoded : Bool)
  /-- TDISP_REQUEST (R503). A TDISP request from the host moves a virtual function's TDI into CONFIG_LOCKED or RUN, or out of those states. -/
  | tdispRequest (fn state : Nat)
  /-- SPDM_KEY_EXCHANGE (R501). An SPDM challenge or key-exchange request sets up the secured session that key-slot loads and secured messages use. -/
  | spdmKeyExchange (fn : Nat) (nonce : BitVec 256)
  deriving DecidableEq, Repr

end Sys2Proof
end

