-- ==== Sys2Proof/Machine/FieldTable.lean ====
section
/-!
DEFINITION. The field tables of the manual, one row for each encoded instruction: its opcode slot (R56), the operand
fields it uses and the classes each may name, its types, its FAM bits, immediates, hint and guard rule (R97, R98, R133,
R192, R193, R267, R319, R320, R376, R377, R390, R415, R459, R513), and the checks that decode makes on them (R53).
-/
namespace Sys2Proof.Machine
open Sys2Proof

/-- The classes of register an operand field may name (R43): vector, scalar, predicate, constant, and 511. -/
structure Cls where
  v : Bool
  s : Bool
  p : Bool
  c : Bool
  z : Bool
  deriving DecidableEq, Repr

/-- The stream an opcode is legal in (R55). -/
inductive Stream where
  | group | spindle | matrix
  deriving DecidableEq, Repr

/-- How an instruction uses its immediates: none; the low `n` bits of IMM13; IMM13 and IMM32 together as an address or
branch offset (R134); the low `n` bits of IMM13 with the whole of IMM32. -/
inductive Imm where
  | none
  | low (n : Nat)
  | offset
  | lowAnd32 (n : Nat)
  | only32
  deriving DecidableEq, Repr

/-- One row of the manual's field tables. -/
structure Row where
  opcode  : Nat
  dst     : Cls
  a       : Cls
  b       : Cls
  c       : Cls
  types   : List Ty
  fam     : BitVec 9
  bimm    : Bool := false
  hint    : Bool := false
  imm     : Imm := .none
  /-- GUARD_A 63 and GUARD_B at its R39 value (R139, R191, R390, R415, R459). -/
  guard63 : Bool := false
  /-- GUARD_B at its R39 value (R265, R267). -/
  noB     : Bool := false
  stream  : Stream := .group
  deriving DecidableEq, Repr

/-- A field that must hold 511. -/
def clsNone : Cls := ⟨false, false, false, false, true⟩
/-- Any source (R43). -/
def clsSrc : Cls := ⟨true, true, true, true, true⟩
/-- Any destination (R43). -/
def clsDst : Cls := ⟨true, true, true, false, true⟩
/-- A vector or scalar source pair, or 511. -/
def clsVsz : Cls := ⟨true, true, false, false, true⟩
/-- A vector or a scalar register. -/
def clsVs : Cls := ⟨true, true, false, false, false⟩
/-- A vector register. -/
def clsV : Cls := ⟨true, false, false, false, false⟩
/-- A vector register or 511. -/
def clsVz : Cls := ⟨true, false, false, false, true⟩
/-- A scalar register. -/
def clsS : Cls := ⟨false, true, false, false, false⟩
/-- A scalar register or 511. -/
def clsSz : Cls := ⟨false, true, false, false, true⟩
/-- A predicate. -/
def clsP : Cls := ⟨false, false, true, false, false⟩
/-- A predicate or 511. -/
def clsPz : Cls := ⟨false, false, true, false, true⟩
/-- A scalar, a constant-table entry or `zero`. -/
def clsScz : Cls := ⟨false, true, false, true, true⟩

def Cls.admits (k : Cls) : Operand → Bool
  | .v _ => k.v
  | .s _ => k.s
  | .p _ => k.p
  | .c _ => k.c
  | .zero => k.z

/-- `.s8`–`.s64`, `.n8`–`.n64`. -/
def tInt : List Ty := [.s8, .s16, .s32, .s64, .n8, .n16, .n32, .n64]
def tInt32 : List Ty := [.s8, .s16, .s32, .n8, .n16, .n32]
def tBits : List Ty := [.b8, .b16, .b32, .b64]
def tB : List Ty := [.b32, .b64]
def tFloat : List Ty := [.f32, .f16, .bf16, .f16x2, .bf16x2]
def tF3 : List Ty := [.f32, .f16, .bf16]
def tUn : List Ty := [.un]
/-- The types a conversion accepts on either side (R120). -/
def tCvt : List Ty := tInt ++ [.f32, .f16, .bf16, .e4m3, .e5m2, .e2m1, .f40, .i40]
/-- The types a load accepts (R133). -/
def tLoad : List Ty := [.s8, .s16, .n8, .n16, .b8, .b16, .b32, .b64, .b128]
def tStore : List Ty := [.b8, .b16, .b32, .b64, .b128]
/-- Every type some operation of `atom` or `red` accepts (R152). -/
def tAtom : List Ty := [.s32, .n32, .s64, .n64, .b32, .b64, .f32, .f16x2, .bf16x2]
/-- Every type some operation of `redux` or `scan` accepts (R197). -/
def tRedux : List Ty := [.s32, .n32, .b32, .f32, .f16, .bf16]

def rowD (op : Nat) (ts : List Ty) (fam : BitVec 9) : Row := ⟨op, clsDst, clsNone, clsNone, clsNone, ts, fam, false, false, .none, false, false, .group⟩
def rowDA (op : Nat) (ts : List Ty) (fam : BitVec 9) : Row := { rowD op ts fam with a := clsSrc }
def rowDAB (op : Nat) (ts : List Ty) (fam : BitVec 9) : Row := { rowDA op ts fam with b := clsSrc, bimm := true }
def rowDABC (op : Nat) (ts : List Ty) (fam : BitVec 9) : Row := { rowDAB op ts fam with c := clsSrc }
/-- An untyped instruction with no operands. -/
def row0 (op : Nat) : Row := ⟨op, clsNone, clsNone, clsNone, clsNone, tUn, 0, false, false, .none, false, false, .group⟩
/-- A row instruction (R267). -/
def rowRow (op : Nat) (d b : Cls) (fam : BitVec 9) : Row :=
  { row0 op with dst := d, a := clsScz, b := b, fam := fam, imm := .low 6, noB := true }
/-- An instruction of the matrix stream (R376): guard A 63, no flag, no hint, no BIMM. -/
def rowM (op : Nat) (d a b c : Cls) (ts : List Ty) (fam : BitVec 9) (imm : Imm) : Row :=
  ⟨op, d, a, b, c, ts, fam, false, false, imm, true, false, .matrix⟩

/-- The row of each encoded instruction; `none` for a step that has no encoding. DESIGN CHOICE, log entry 67. -/
def rowOf : Instr → Option Row
  -- R97: integer and logic
  | .add _ => some (rowDAB 0x001 tInt 0x004)
  | .sub _ => some (rowDAB 0x002 tInt 0x004)
  | .addc _ => some { rowDABC 0x003 [.n32] 0 with c := clsP }
  | .subb _ => some { rowDABC 0x004 [.n32] 0 with c := clsP }
  | .mul _ => some (rowDAB 0x005 tInt 0x004)
  | .mulhi _ => some (rowDAB 0x006 [.s32, .n32] 0)
  | .mad _ => some (rowDABC 0x007 tInt32 0x004)
  | .madw _ => some (rowDABC 0x008 [.s32, .n32] 0)
  | .min _ => some (rowDAB 0x009 tInt 0)
  | .max _ => some (rowDAB 0x00A tInt 0)
  | .and _ => some (rowDAB 0x00B tBits 0)
  | .or _ => some (rowDAB 0x00C tBits 0)
  | .xor _ => some (rowDAB 0x00D tBits 0)
  | .not _ => some (rowDA 0x00E tBits 0)
  | .shl _ => some (rowDAB 0x00F tB 0x001)
  | .shr _ => some (rowDAB 0x010 tB 0x001)
  | .sar _ => some (rowDAB 0x011 [.s32, .s64] 0x001)
  | .shf _ => some (rowDABC 0x012 [.b32] 0x003)
  | .bfx _ => some (rowDAB 0x013 [.s32, .n32, .s64, .n64] 0)
  | .bfi _ => some (rowDABC 0x014 tB 0)
  | .popc _ => some (rowDA 0x015 tB 0)
  | .clz _ => some (rowDA 0x016 tB 0)
  | .brev _ => some (rowDA 0x017 tB 0)
  | .lea _ => some (rowDAB 0x018 [.s32, .n32, .s64, .n64] 0x00F)
  | .sel _ => some (rowDABC 0x019 tB 0)
  | .cmp _ => some (rowDAB 0x01A (tInt ++ tB) 0x00F)
  | .mov _ => some (rowDA 0x01B [.b32, .b64, .b128] 0)
  | .movi _ => some { rowDAB 0x01C [.b32, .b64, .f32, .f16, .bf16, .f16x2, .bf16x2] 0 with a := clsNone }
  | .dp4 _ => some (rowDABC 0x01D [.s8, .n8] 0x1F4)
  -- R97: floating point
  | .fadd _ => some (rowDAB 0x040 tFloat 0x003)
  | .fsub _ => some (rowDAB 0x041 tFloat 0x003)
  | .fmul _ => some (rowDAB 0x042 tFloat 0x003)
  | .ffma _ => some (rowDABC 0x043 tFloat 0x003)
  | .fmin _ => some (rowDAB 0x044 tFloat 0x008)
  | .fmax _ => some (rowDAB 0x045 tFloat 0x008)
  | .fcmp _ => some (rowDAB 0x046 tF3 0x00F)
  | .frnd _ => some (rowDA 0x047 tFloat 0x003)
  | .ffrac _ => some (rowDA 0x048 tF3 0x003)
  | .fclass _ => some (rowDA 0x049 tF3 0)
  | .fldexp _ => some (rowDAB 0x04A tF3 0x003)
  | .frcp _ => some (rowDA 0x04B [.f32, .f16] 0)
  | .frsq _ => some (rowDA 0x04C [.f32, .f16] 0)
  | .fsqrt _ => some (rowDA 0x04D [.f32, .f16] 0x003)
  | .fexp2 _ => some (rowDA 0x04E [.f32, .f16] 0)
  | .flog2 _ => some (rowDA 0x04F [.f32, .f16] 0)
  | .fsin _ => some (rowDA 0x050 [.f32, .f16] 0)
  | .fcos _ => some (rowDA 0x051 [.f32, .f16] 0)
  | .ftanh _ => some (rowDA 0x052 [.f32, .f16] 0)
  | .fdp2 _ => some (rowDABC 0x053 [.f16x2, .bf16x2] 0x003)
  | .cvt _ => some { rowDA 0x054 tCvt 0x1F7 with b := clsSrc, imm := .low 3 }
  | .cvts _ => some { rowDA 0x055 [.f16, .bf16, .e4m3, .e5m2, .e2m1] 0x1F0 with b := clsSrc, imm := .low 3 }
  | .osmUpd _ => some { rowDABC 0x056 [.f32] 0 with bimm := false }
  | .osmFin _ => some { rowDAB 0x057 [.f32] 0x008 with bimm := false }
  | .osmFinNorm _ => some { rowDAB 0x057 [.f32] 0x008 with bimm := false, b := clsNone }
  | .rng _ => some (rowD 0x058 [.n32, .f32] 0)
  | .xbox _ => some { rowDAB 0x059 [.f32] 0 with bimm := false, a := clsV, b := clsVs }
  | .xtri _ => some { rowDAB 0x05A [.f32] 0x008 with bimm := false, a := clsV, b := clsVs }
  -- R97: predicates
  | .plop _ => some { row0 0x080 with dst := clsPz, a := clsPz, b := clsPz, c := clsPz, imm := .low 8 }
  | .pmov _ => some { row0 0x081 with dst := clsPz, a := clsSrc }
  | .pbitsGet _ => some { row0 0x082 with dst := clsDst, a := clsP, fam := 0x008 }
  | .pbitsSet _ => some { row0 0x082 with dst := clsP, a := clsSrc, b := clsSrc, fam := 0x008 }
  | .pset _ => some { rowDAB 0x083 [.b32] 0x003 with bimm := false }
  -- R192: cross-lane
  | .vote _ => some (rowDA 0x088 tUn 0x003)
  | .matchLanes _ => some { rowDA 0x089 tB 0x003 with dst := clsVsz }
  | .shfl _ => some { rowDA 0x08A tB 0x003 with dst := clsV, b := clsSrc, c := clsPz, imm := .low 7 }
  | .redux _ => some { rowDA 0x08B tRedux 0x003 with dst := clsVsz, imm := .low 4 }
  | .scan _ => some { rowDA 0x08C tRedux 0x007 with dst := clsV, imm := .low 4 }
  | .lmask _ => some { rowD 0x08D tUn 0 with dst := clsVs, imm := .low 3 }
  | .lmap _ => some { rowD 0x08E tUn 0 with dst := clsVs }
  -- R57, R133: control
  | .nop _ => some (row0 0x0A0)
  | .bru _ => some { row0 0x0A1 with imm := .offset }
  | .br _ => some { row0 0x0A2 with imm := .offset }
  | .brx _ => some { row0 0x0A3 with a := clsVs }
  | .call _ => some { row0 0x0A4 with dst := clsVz, imm := .offset }
  | .calx _ => some { row0 0x0A5 with dst := clsVz, a := clsVs }
  | .ret _ => some { row0 0x0A6 with a := clsVs }
  | .exit _ => some (row0 0x0A7)
  | .yld _ => some { row0 0x0A8 with guard63 := true }
  | .trap _ => some { row0 0x0A9 with imm := .low 8 }
  | .brk _ => some { row0 0x0AA with imm := .low 8 }
  | .vcall _ => some { row0 0x0AB with dst := clsV, a := clsV, imm := .low 12 }
  -- R133: memory
  | .ld _ => some { rowDA 0x0C0 tLoad 0x1FF with a := clsVsz, hint := true, imm := .offset }
  | .st _ => some { rowDA 0x0C1 tStore 0x07F with dst := clsNone, a := clsVsz, b := clsSrc, hint := true, imm := .offset }
  | .atom _ => some { rowDA 0x0C2 tAtom 0x0FF with a := clsVsz, b := clsSrc, hint := true, imm := .lowAnd32 4 }
  | .cas _ => some { rowDA 0x0C3 tB 0x0FF with a := clsVsz, b := clsSrc, c := clsSrc, hint := true, imm := .only32 }
  | .red _ => some { rowDA 0x0C4 tAtom 0x07F with dst := clsNone, a := clsVsz, b := clsSrc, hint := true, imm := .lowAnd32 4 }
  | .fence _ => some { row0 0x0C5 with fam := 0x0FC }
  | .cinvLine _ => some { row0 0x0C6 with a := clsVsz, fam := 0x001, imm := .offset }
  | .cinvAll _ => some { row0 0x0C6 with fam := 0x001, imm := .offset }
  | .pf _ => some { row0 0x0C7 with a := clsVsz, hint := true, imm := .offset }
  | .ldk _ => some { rowDA 0x0C8 [.b32, .b64, .b128] 0 with dst := clsS, a := clsSz, imm := .offset }
  -- R133: images
  | .ldi _ => some { rowDA 0x0D0 [.f32, .n32] 0 with dst := clsVsz, a := clsVs, b := clsVs, hint := true }
  | .sti _ => some { rowDA 0x0D1 [.f32, .n32] 0 with dst := clsNone, a := clsVs, b := clsVs, c := clsVs, hint := true }
  | .smp _ => some { rowDA 0x0D2 [.f32] 0 with dst := clsVsz, a := clsVs, b := clsVs, hint := true }
  | .smpg _ => some { rowDA 0x0D3 [.f32] 0 with dst := clsVsz, a := clsVs, b := clsVs, hint := true, imm := .low 2 }
  | .txq _ => some { rowDA 0x0D4 [.n32] 0 with a := clsSrc, b := clsVsz, imm := .low 3 }
  -- R192: team and register management
  | .vgrow _ => some { row0 0x100 with dst := clsPz, fam := 0x008, imm := .low 9, guard63 := true }
  | .vshrink _ => some { row0 0x101 with imm := .low 9, guard63 := true }
  | .sgrow _ => some { row0 0x102 with dst := clsPz, fam := 0x008, imm := .low 8, guard63 := true }
  | .rgn _ => some { row0 0x103 with a := clsVz, b := clsVz, c := clsVz, imm := .low 12, guard63 := true }
  | .bta _ => some { row0 0x104 with dst := clsSz, b := clsScz, imm := .low 3, guard63 := true }
  | .btw _ => some { row0 0x105 with a := clsS, imm := .low 3, guard63 := true }
  | .bt _ => some { row0 0x106 with b := clsScz, imm := .low 3, guard63 := true }
  | .bcl _ => some { row0 0x107 with b := clsScz, fam := 0x003, imm := .low 2, guard63 := true }
  | .bclArr _ => some { row0 0x107 with dst := clsSz, b := clsScz, fam := 0x003, imm := .low 2, guard63 := true }
  | .bclWait _ => some { row0 0x107 with a := clsS, fam := 0x003, imm := .low 2, guard63 := true }
  | .lnch _ => some { row0 0x108 with dst := clsVsz, a := clsVsz, imm := .low 2 }
  | .srd _ => some { row0 0x109 with dst := clsVsz, fam := 0x008, imm := .low 7 }
  | .msync _ => some { row0 0x10A with dst := clsSz, b := clsScz, fam := 0x003, imm := .low 4, guard63 := true }
  | .msyncArr _ => some { row0 0x10A with dst := clsSz, b := clsScz, fam := 0x003, imm := .low 4, guard63 := true }
  | .msyncWait _ => some { row0 0x10A with dst := clsSz, a := clsS, fam := 0x003, imm := .low 4, guard63 := true }
  -- R319: engines
  | .reelGo _ => some { row0 0x120 with a := clsVs, fam := 0x003, imm := .low 2 }
  | .reelAdd _ => some { row0 0x121 with dst := clsVsz, a := clsVs, b := clsVs, fam := 0x003, imm := .low 2 }
  | .reelSt _ => some { row0 0x122 with dst := clsVs, imm := .low 2 }
  | .wcnt _ => some { row0 0x123 with fam := 0x003, imm := .low 6 }
  | .boInit _ => some { row0 0x124 with a := clsS, b := clsScz }
  | .boExp _ => some { row0 0x125 with a := clsS, b := clsScz }
  | .boArr _ => some { row0 0x126 with dst := clsSz, a := clsS, b := clsScz }
  | .boWait _ => some { row0 0x127 with a := clsS, b := clsScz }
  | .boTry _ => some { row0 0x128 with dst := clsDst, a := clsS, b := clsScz }
  | .lpq _ => some { row0 0x129 with dst := ⟨true, true, true, false, false⟩, a := clsVs }
  | .crdPut _ => some { row0 0x12A with a := clsSrc, b := clsVz, imm := .lowAnd32 4 }
  | .crdFlush _ => some (row0 0x12B)
  | .qpop _ => some { row0 0x12C with dst := clsV, imm := .low 2 }
  | .qtry _ => some { row0 0x12D with dst := clsV, c := clsP, imm := .low 2 }
  | .spGo _ => some { row0 0x12E with dst := clsSz, a := clsS, imm := .low 2 }
  | .spStop _ => some { row0 0x12F with imm := .low 2 }
  | .qpush _ => some { row0 0x180 with a := clsV, stream := .spindle }
  -- R267: rows
  | .rowAct _ => some (rowRow 0x140 clsNone clsNone 0x008)
  | .rowRd _ => some (rowRow 0x141 clsPz clsS 0x008)
  | .rowWr _ => some (rowRow 0x142 clsPz clsS 0x008)
  | .rowCls _ => some (rowRow 0x143 clsNone clsNone 0)
  | .rowSt _ => some (rowRow 0x144 clsSz clsNone 0)
  -- R415, R459, R265, R513: supervisor and encoder instructions
  | .tret _ => some { row0 0x160 with guard63 := true }
  | .tfr _ => some { row0 0x161 with dst := clsVs, fam := 0x007, imm := .low 7 }
  | .tinj _ => some { row0 0x162 with a := clsVs, fam := 0x007, imm := .low 7 }
  | .ctxFork _ => some { row0 0x163 with dst := clsSz, a := clsS }
  | .ctxGateYield _ => some { row0 0x164 with fam := 0x003, guard63 := true }
  | .ctxGateOut _ => some { row0 0x164 with fam := 0x003, guard63 := true }
  | .tierRecAdd _ => some { row0 0x165 with dst := clsSz, a := clsS, b := clsS, fam := 0x003 }
  | .tierRecClr _ => some { row0 0x165 with dst := clsSz, fam := 0x003 }
  | .tierPin _ => some { row0 0x166 with dst := clsSz, a := clsS, b := clsS }
  | .tierUnpin _ => some { row0 0x167 with dst := clsSz, a := clsS, b := clsS }
  | .srw _ => some { row0 0x168 with dst := clsSz, a := clsSz, fam := 0x008, imm := .low 6 }
  | .srwRd _ => some { row0 0x168 with dst := clsSz, fam := 0x008, imm := .low 6 }
  | .cobjMap _ => some { row0 0x169 with dst := clsSz, a := clsS, imm := .low 6, noB := true }
  | .tlbInvPage _ => some { row0 0x16A with a := clsS, fam := 0x001 }
  | .tlbInvAll _ => some { row0 0x16A with fam := 0x001 }
  | .venc _ => some { row0 0x16B with dst := clsSz, a := clsS, imm := .low 3, noB := true }
  -- R376: matrix stream
  | .mma _ => some (rowM 0x1C0 clsV clsV clsV clsVz [.f16, .bf16, .e4m3, .e5m2, .e2m1, .s8] 0x1F4 .none)
  | .mmb _ => some (rowM 0x1C1 clsV clsV clsV clsNone tUn 0x1F4 .none)
  | .tdef _ => some (rowM 0x1C2 clsV clsNone clsNone clsNone tUn 0 (.lowAnd32 2))
  | .tld _ => some (rowM 0x1C3 clsV clsNone clsNone clsNone tUn 0 .only32)
  | .azero _ => some (rowM 0x1C4 clsV clsNone clsNone clsNone tUn 0 .none)
  | .ast _ => some (rowM 0x1C5 clsV clsV clsNone clsNone [.f32, .f16, .bf16, .e4m3, .e5m2, .f40, .s32, .i40] 0x1FF .none)
  | .astStat _ => some (rowM 0x1C5 clsV clsNone clsNone clsNone tUn 0x004 .none)
  | .ald _ => some (rowM 0x1C6 clsV clsV clsNone clsNone [.f32, .s32, .f40, .i40] 0x1F0 .none)
  | .ascl _ => some (rowM 0x1C7 clsV clsV clsNone clsNone tUn 0x1F3 .none)
  | .msig _ => some (rowM 0x1C8 clsV clsNone clsNone clsNone tUn 0 (.low 8))
  | .mwait _ => some (rowM 0x1C9 clsV clsNone clsNone clsNone tUn 0 (.low 8))
  | .mloop _ => some (rowM 0x1CA clsNone clsNone clsNone clsNone tUn 0 (.lowAnd32 13))
  | .mend _ => some (rowM 0x1CB clsNone clsNone clsNone clsNone tUn 0 .none)
  | .rowCon _ => some (rowM 0x1CC clsV clsNone clsNone clsNone tUn 0x008 .none)
  | _ => none

/-- The fields of an encoded instruction. -/
def fieldsOf : Instr → Option Fields
  | .add f | .sub f | .addc f | .subb f | .mul f | .mulhi f | .mad f | .madw f | .min f | .max f | .and f
  | .or f | .xor f | .not f | .shl f | .shr f | .sar f | .shf f | .bfx f | .bfi f | .popc f | .clz f | .brev f
  | .lea f | .sel f | .cmp f | .mov f | .movi f | .dp4 f | .fadd f | .fsub f | .fmul f | .ffma f | .fmin f
  | .fmax f | .fcmp f | .frnd f | .ffrac f | .fclass f | .fldexp f | .frcp f | .frsq f | .fsqrt f | .fexp2 f
  | .flog2 f | .fsin f | .fcos f | .ftanh f | .fdp2 f | .cvt f | .cvts f | .osmUpd f | .osmFin f
  | .osmFinNorm f | .rng f | .xbox f | .xtri f | .plop f | .pmov f | .pbitsGet f | .pbitsSet f | .pset f
  | .vote f | .matchLanes f | .shfl f | .redux f | .scan f | .lmask f | .lmap f | .nop f | .bru f | .br f
  | .brx f | .call f | .calx f | .ret f | .exit f | .yld f | .trap f | .brk f | .vcall f | .ld f | .st f
  | .atom f | .cas f | .red f | .fence f | .cinvLine f | .cinvAll f | .pf f | .ldk f | .ldi f | .sti f | .smp f
  | .smpg f | .txq f | .vgrow f | .vshrink f | .sgrow f | .rgn f | .bta f | .btw f | .bt f | .bcl f | .bclArr f
  | .bclWait f | .lnch f | .srd f | .msync f | .msyncArr f | .msyncWait f | .reelGo f | .reelAdd f | .reelSt f
  | .wcnt f | .boInit f | .boExp f | .boArr f | .boWait f | .boTry f | .lpq f | .crdPut f | .crdFlush f
  | .qpop f | .qtry f | .spGo f | .spStop f | .qpush f | .rowAct f | .rowRd f | .rowWr f | .rowCls f | .rowSt f
  | .tret f | .tfr f | .tinj f | .ctxFork f | .ctxGateYield f | .ctxGateOut f | .tierRecAdd f | .tierRecClr f
  | .tierPin f | .tierUnpin f | .srw f | .srwRd f | .cobjMap f | .tlbInvPage f | .tlbInvAll f | .venc f
  | .mma f | .mmb f | .tdef f | .tld f | .azero f | .ald f | .ast f | .astStat f | .ascl f | .msig f | .mwait f
  | .mloop f | .mend f | .rowCon f => some f
  | _ => none

end Sys2Proof.Machine
end

