-- ==== Sys2Proof/Machine/FieldCheck.lean ====
section
/-!
DEFINITION. The checks decode makes on an instruction's fields, in the order of R53, and the sub-fields of FAM that
families share (R42, R98, R193, R377).
-/
namespace Sys2Proof

/-! ### FAM sub-fields; FAM bit i is word bit 49 + i -/

/-- RND, SPACE, MODE, FORM and CLASS: bits [50:49]. -/
def Fields.lowFam (f : Fields) : Nat := f.fam.toNat % 4
/-- WRAP and ALL: bit [49]. -/
def Fields.bit49 (f : Fields) : Bool := f.fam.getLsbD 0
/-- DIR: bit [50]. -/
def Fields.bit50 (f : Fields) : Bool := f.fam.getLsbD 1
/-- SAT, SEL and EXCL: bit [51]. -/
def Fields.bit51 (f : Fields) : Bool := f.fam.getLsbD 2
/-- OPT: bit [52]. -/
def Fields.opt (f : Fields) : Bool := f.fam.getLsbD 3
/-- CC: bits [52:49]. -/
def Fields.cc (f : Fields) : Nat := f.fam.toNat % 16
/-- SHIFT and KIND: bits [51:49]. -/
def Fields.low3 (f : Fields) : Nat := f.fam.toNat % 8
/-- SCOPE code: bits [53:51]. -/
def Fields.scopeCode (f : Fields) : Nat := f.fam.toNat / 4 % 8
/-- ORDER code: bits [55:54]. -/
def Fields.orderCode (f : Fields) : Nat := f.fam.toNat / 32 % 4
/-- RMT: bit [56]. -/
def Fields.rmt (f : Fields) : Bool := f.fam.getLsbD 7
/-- FR: bit [57]. -/
def Fields.fr (f : Fields) : Bool := f.fam.getLsbD 8
/-- TYPE2 and SHAPE: bits [57:53]. -/
def Fields.high5 (f : Fields) : Nat := f.fam.toNat / 16

/-- The rounding mode of RND (R42). -/
def Fields.rnd (f : Fields) : Rnd :=
  match f.lowFam with
  | 0 => .rne
  | 1 => .rz
  | 2 => .ru
  | _ => .rd

/-- The space of SPACE (R42); the reserved code does not pass decode. -/
def Fields.space (f : Fields) : Space :=
  match f.lowFam with
  | 0 => .g
  | 1 => .l
  | _ => .k

/-- The order of ORDER (R42). -/
def Fields.order (f : Fields) : Order :=
  match f.orderCode with
  | 0 => .rlx
  | 1 => .acq
  | 2 => .rel
  | _ => .ar

/-- The scope of SCOPE (R42); the reserved codes do not pass decode. -/
def Fields.scope (f : Fields) : Scope :=
  match f.scopeCode with
  | 0 => .grp
  | 1 => .team
  | 2 => .clu
  | 3 => .die
  | 4 => .mod
  | _ => .sys

/-- The code of a type (R41). -/
def tyCode : Ty → Nat
  | .un => 0 | .s8 => 1 | .s16 => 2 | .s32 => 3 | .s64 => 4 | .n8 => 5 | .n16 => 6 | .n32 => 7 | .n64 => 8
  | .b8 => 9 | .b16 => 10 | .b32 => 11 | .b64 => 12 | .b128 => 13 | .f32 => 14 | .f16 => 15 | .bf16 => 16
  | .f16x2 => 17 | .bf16x2 => 18 | .e4m3 => 19 | .e5m2 => 20 | .e2m1 => 21 | .f40 => 22 | .i40 => 23

/-- The type a code names (R41); 0x18 to 0x1F are reserved. -/
def tyOfCode : Nat → Option Ty
  | 0 => some .un | 1 => some .s8 | 2 => some .s16 | 3 => some .s32 | 4 => some .s64 | 5 => some .n8
  | 6 => some .n16 | 7 => some .n32 | 8 => some .n64 | 9 => some .b8 | 10 => some .b16 | 11 => some .b32
  | 12 => some .b64 | 13 => some .b128 | 14 => some .f32 | 15 => some .f16 | 16 => some .bf16
  | 17 => some .f16x2 | 18 => some .bf16x2 | 19 => some .e4m3 | 20 => some .e5m2 | 21 => some .e2m1
  | 22 => some .f40 | 23 => some .i40 | _ => none

/-- The second type, where FAM holds one (R42): code 0 is reserved there. -/
def Fields.ty2 (f : Fields) : Option Ty := if f.high5 = 0 then none else tyOfCode f.high5

end Sys2Proof

namespace Sys2Proof.Machine
open Sys2Proof

/-! ### Types -/

/-- The registers a value of a type takes: 1, a pair or a quad (R16, R80). -/
def tyWords : Ty → Nat
  | .s64 | .n64 | .b64 | .f40 | .i40 => 2
  | .b128 => 4
  | _ => 1

/-- The narrow floating-point types (R120) and their elements per word (R77); 0 for every other type. -/
def narrowElems : Ty → Nat
  | .f16 | .bf16 => 2
  | .e4m3 | .e5m2 => 4
  | .e2m1 => 8
  | _ => 0

/-- `.s` and `.n` types. -/
def isIntTy (t : Ty) : Bool := tInt.contains t

/-- The integers of any width that a conversion may saturate between (R88, R120): INT40 is one of them. DESIGN CHOICE, log entry 67. -/
def isWholeTy (t : Ty) : Bool := isIntTy t || t == .i40

/-- The types that operation code `op` of `atom` and `red` accepts (R152). -/
def atomTypes : Nat → List Ty
  | 0 | 1 | 2 => [.s32, .n32, .s64, .n64]
  | 3 | 4 | 5 | 6 => [.b32, .b64]
  | 7 | 8 => [.n32]
  | 9 => [.f32, .f16x2, .bf16x2]
  | 10 | 11 => [.f32]
  | _ => []

/-- The types that operation code `op` of `redux` and `scan` accepts (R197). -/
def reduxTypes : Nat → List Ty
  | 0 | 1 | 2 => [.s32, .n32]
  | 3 | 4 | 5 => [.b32]
  | 6 | 7 | 8 => [.f32, .f16, .bf16]
  | _ => []

/-- Step 3 of R53: a defined type that the instruction does not accept (R41, R42, R152, R197, R382). -/
def typeBad (i : Instr) (r : Row) (f : Fields) : Bool :=
  !r.types.contains f.ty ||
  match i with
  | .cvt _ => match tyOfCode f.high5 with
    | some t => f.high5 != 0 && !tCvt.contains t
    | none => false
  | .cvts _ => match tyOfCode f.high5 with
    | some t => f.high5 != 0 && !([.f32, .f40] : List Ty).contains t
    | none => false
  | .dp4 _ => match tyOfCode f.high5 with
    | some t => f.high5 != 0 && !([.s8, .n8] : List Ty).contains t
    | none => false
  | .atom _ | .red _ => f.imm13.toNat % 16 < 12 && !(atomTypes (f.imm13.toNat % 16)).contains f.ty
  | .redux _ | .scan _ => f.imm13.toNat % 16 < 9 && !(reduxTypes (f.imm13.toNat % 16)).contains f.ty
  | .ast _ => if f.opt then !([.s32, .f32, .i40] : List Ty).contains f.ty
    else !([.f32, .f16, .bf16, .e4m3, .e5m2, .f40] : List Ty).contains f.ty
  | _ => false

/-! ### Operand spans -/

/-- The consecutive registers that the DST, SRCA, SRCB and SRCC fields take. -/
structure Spans where
  d : Nat := 1
  a : Nat := 1
  b : Nat := 1
  c : Nat := 1
  deriving DecidableEq, Repr

/-- Codes of `tfr` and `tinj` with KIND 0 take a pair (R416). -/
def kindWords (k : Nat) : Nat := if k = 0 then 2 else 1

/-- The 64-bit special registers (R213). -/
def srWords (code : Nat) : Nat := if code = 0x10 ∨ code = 0x11 then 2 else 1

/-- The spans of each instruction's operands (R16, R96 to R132, R137, R141, R142, R191 to R212, R319, R416). DESIGN CHOICE, log entry 67. -/
def spansOf (i : Instr) (f : Fields) : Spans :=
  let w := tyWords f.ty
  match i with
  | .madw _ => ⟨2, 1, 1, 2⟩
  | .shl _ | .shr _ | .sar _ | .bfx _ => ⟨w, w, 1, 1⟩
  | .bfi _ => ⟨w, w, 1, w⟩
  | .popc _ | .clz _ => ⟨1, w, 1, 1⟩
  | .lea _ => ⟨2, 2, w, 1⟩
  | .sel _ => ⟨w, w, w, 1⟩
  | .cmp _ => ⟨1, w, w, 1⟩
  | .cvt _ | .cvts _ => ⟨w, (f.ty2.map tyWords).getD 1, 1, 1⟩
  | .osmUpd _ => ⟨2, 2, 1, 1⟩
  | .osmFin _ | .osmFinNorm _ => ⟨1, 2, 2, 1⟩
  | .xbox _ => ⟨1, 8, 24, 1⟩
  | .xtri _ => ⟨4, 8, 12, 1⟩
  | .vote _ => ⟨if f.lowFam = 3 then 2 else 1, 1, 1, 1⟩
  | .matchLanes _ => ⟨2, w, 1, 1⟩
  | .shfl _ => ⟨w, w, 1, 1⟩
  | .lmask _ | .lmap _ => ⟨2, 1, 1, 1⟩
  | .brx _ | .call _ | .calx _ | .ret _ => ⟨2, 2, 1, 1⟩
  | .vcall _ => ⟨1, f.imm13.toNat / 256 % 16 + 1, 1, 1⟩
  | .ld _ | .atom _ | .cas _ | .st _ | .red _ => ⟨w, 2, w, w⟩
  | .cinvLine _ | .cinvAll _ | .pf _ => ⟨1, 2, 1, 1⟩
  | .ldk _ => ⟨w, 1, 1, 1⟩
  | .ldi _ | .smp _ | .smpg _ => ⟨4, 4, 2, 1⟩
  | .sti _ => ⟨1, 4, 4, 2⟩
  | .txq _ => ⟨1, 1, 2, 1⟩
  | .lnch _ => ⟨1, 2, 1, 1⟩
  | .srd _ => ⟨srWords (f.imm13.toNat % 128), 1, 1, 1⟩
  | .reelGo _ | .boInit _ | .boExp _ | .boArr _ | .boWait _ | .boTry _ | .lpq _ | .spGo _ => ⟨1, 2, 1, 1⟩
  | .reelAdd _ => ⟨1, 2, 2, 1⟩
  | .reelSt _ => ⟨2, 1, 1, 1⟩
  | .crdPut _ => ⟨1, 1, f.imm13.toNat % 16, 1⟩
  | .rowRd _ | .rowWr _ => ⟨1, 1, 2, 1⟩
  | .rowSt _ => ⟨2, 1, 1, 1⟩
  | .tfr _ | .tinj _ => ⟨kindWords f.low3, kindWords f.low3, 1, 1⟩
  | .ctxFork _ | .tierRecAdd _ | .tierPin _ | .tierUnpin _ | .cobjMap _ | .tlbInvPage _ | .venc _ => ⟨1, 2, 1, 1⟩
  | .srw _ | .srwRd _ => ⟨2, 2, 1, 1⟩
  | .tierRecClr _ => {}
  | .addc _ | .subb _ | .mulhi _ | .mad _ | .shf _ | .dp4 _ => {}
  | .add _ | .sub _ | .mul _ | .min _ | .max _ | .and _ | .or _ | .xor _ | .not _ | .brev _ | .mov _ | .movi _ =>
    ⟨w, w, w, w⟩
  | _ => {}

/-- The base alignment of a span: pairs and quads (R16), the blocks of R129; payload and `vcall` blocks have none. -/
def spanAlign (i : Instr) (n : Nat) : Nat :=
  match i with
  | .vcall _ | .crdPut _ => 1
  | _ => if n = 8 ∨ n = 24 then 8 else if n = 12 then 4 else n

/-- A register operand whose base is not aligned, or, for the blocks of R129, crosses the end of its class. -/
def spanBad (i : Instr) (n : Nat) : Operand → Bool
  | .v r => let al := spanAlign i n; decide (al > 1 ∧ r.val % al ≠ 0) || decide (n > 4 ∧ al > 1 ∧ r.val + n > 256)
  | .s r => let al := spanAlign i n; decide (al > 1 ∧ r.val % al ≠ 0) || decide (n > 4 ∧ al > 1 ∧ r.val + n > 128)
  | _ => false

/-- A pair or quad destination among the predicates (R44). -/
def predPairBad (n : Nat) : Operand → Bool
  | .p _ => decide (n > 1)
  | _ => false

/-- The instructions whose destination must be a vector; any other class raises 0x01 (R95). DESIGN CHOICE, log entry 67. -/
def vectorOnly : Instr → Bool
  | .rng _ | .xbox _ | .xtri _ => true
  | _ => false

/-! ### Step 4 of R53: reserved bits and values -/

/-- The guard that executes in every lane, as R39 fixes an unused one. -/
def guardAlways : Guard := ⟨none, false⟩

/-- A field of 63 with its negate bit set (R47). -/
def guardBad (g : Guard) : Bool := g.pred.isNone && g.neg

/-- The operand bounds of the matrix stream (R46, R376): descriptors and barriers 0 to 15, tiles 0 to 31. -/
def matrixNum (bound : Nat) : Operand → Bool
  | .v n => decide (n.val < bound)
  | .zero => true
  | _ => false

def matrixOperandsBad (i : Instr) (f : Fields) : Bool :=
  match i with
  | .mma _ | .mmb _ => !(matrixNum 32 f.dst && matrixNum 16 f.a && matrixNum 16 f.b && matrixNum 16 f.c)
  | .tdef _ | .tld _ | .astStat _ | .msig _ | .mwait _ | .rowCon _ => !matrixNum 16 f.dst
  | .azero _ => !matrixNum 32 f.dst
  | .ast _ => !(matrixNum 16 f.dst && matrixNum 32 f.a)
  | .ald _ | .ascl _ => !(matrixNum 32 f.dst && matrixNum 16 f.a)
  | _ => false

/-- The shape codes M and N (R374): 0b11 is reserved; instructions without K hold SHAPE[4] = 0. -/
def shapeBad (i : Instr) (f : Fields) : Bool :=
  let sh := f.high5
  match i with
  | .mma _ | .mmb _ => sh % 4 == 3 || sh / 4 % 4 == 3
  | .ast _ | .ald _ | .ascl _ => sh % 4 == 3 || sh / 4 % 4 == 3 || decide (sh ≥ 16)
  | _ => false

/-- SPACE, SCOPE, ORDER, RMT and FR combine as R143 allows; reserved codes of R42. -/
def memFamBad (i : Instr) (f : Fields) : Bool :=
  let sp := f.lowFam; let sc := f.scopeCode; let o := f.orderCode
  match i with
  | .ld _ => sp == 3 || decide (sc ≥ 6) || decide (o ≥ 2) || (sp == 2 && o != 0) || (o == 0 && sc != 0) ||
      (f.rmt && o != 1) || (f.fr && sp != 0)
  | .st _ => decide (sp ≥ 2) || decide (sc ≥ 6) || o == 1 || o == 3 || (o == 0 && sc != 0)
  | .red _ => decide (sp ≥ 2) || decide (sc ≥ 6) || o == 1 || o == 3
  | .atom _ | .cas _ => decide (sp ≥ 2) || decide (sc ≥ 6) || (f.rmt && o != 1 && o != 3)
  | .fence _ => decide (sc ≥ 6) || o == 0 || (f.rmt && o == 2)
  | .reelGo _ | .reelAdd _ => decide (sp ≥ 2)
  | _ => false

/-- The checks of a conversion's element index, second type and SAT (R120, R121). -/
def cvtBad (f : Fields) : Bool :=
  match f.ty2 with
  | none => true
  | some ts =>
    let nd := narrowElems f.ty; let ns := narrowElems ts; let k := f.imm13.toNat
    (if nd > 0 then decide (k ≥ nd) else if ns > 0 then decide (k ≥ ns) else k != 0) ||
    (f.bit51 && !(isWholeTy f.ty && isWholeTy ts))

/-- A vector count for `vgrow` and `vshrink` (R207). -/
def vcountBad (n : Nat) : Bool := n % 8 != 0 || n == 0 || decide (n > 256)
/-- A scalar count for `sgrow` (R209). -/
def scountBad (n : Nat) : Bool := n % 16 != 0 || n == 0 || decide (n > 128)

/-- One staged range of `rgn` (R210). -/
def rangeBad (n : Nat) : Operand → Bool
  | .zero => n != 0
  | .v r => n == 0 || decide (r.val + n > 256)
  | _ => true

/-- The codes of `srw` (R460). -/
def srwCodeBad (c : Nat) : Bool := decide ((16 ≤ c ∧ c ≤ 31) ∨ 36 ≤ c)

/-- The class of register that `tfr` and `tinj` kinds name, and the range of n (R416). -/
def kindBad (forTfr : Bool) (k n : Nat) (x : Operand) : Bool :=
  let isV := match x with
    | .v _ => true
    | _ => false
  let isS := match x with
    | .s _ => true
    | _ => false
  match k with
  | 0 => decide (n > 31) || !(isS || (forTfr && isV))
  | 1 => !isV
  | 2 => !isS
  | 3 => decide (n > 12) || !isV
  | 4 => decide (n > 95) || !isV
  | 5 => decide (n > 3) || !isV
  | _ => true

/-- Reserved values that only one instruction's description names. DESIGN CHOICE, log entry 67. -/
def ownBad (i : Instr) (f : Fields) : Bool :=
  let m := f.imm13.toNat
  match i with
  | .add _ | .sub _ | .mul _ => f.bit51 && decide (tyWords f.ty = 2)
  | .dp4 _ => f.ty2.isNone
  | .lea _ => f.opt && (f.a != .zero || f.ty != .s64 || f.low3 != 0 || !f.bimm)
  | .cmp _ => decide (f.cc ≥ 6) || ((f.ty == .b32 || f.ty == .b64) && decide (f.cc ≥ 2))
  | .fcmp _ => decide (f.cc ≥ 8)
  | .cvt _ | .cvts _ => cvtBad f
  | .osmFin _ => f.opt
  | .osmFinNorm _ => !f.opt
  | .pset _ => f.lowFam == 3
  | .pbitsGet _ => f.opt || f.b != .zero || match f.a with
    | .p n => n.val % 16 != 0
    | _ => true
  | .pbitsSet _ => !f.opt || match f.dst with
    | .p n => n.val % 16 != 0
    | _ => true
  | .vote _ => f.lowFam == 3 && match f.dst with
    | .p _ => true
    | _ => false
  | .matchLanes _ => decide (f.lowFam ≥ 2) || (match f.dst with
    | .s _ => f.lowFam == 0
    | .zero => f.lowFam == 1
    | _ => false)
  | .lpq _ => match f.dst, f.a with
    | .s _, .v _ => true
    | _, _ => false
  | .redux _ | .scan _ => decide (m ≥ 9) || (decide (m < 6) && f.lowFam != 0)
  | .lmask _ => m == 7 || (decide (m ≥ 3) && match f.dst with
    | .v _ => false
    | _ => true)
  | .atom _ | .red _ => decide (m ≥ 12)
  | .cinvLine _ => f.bit49
  | .cinvAll _ => !f.bit49
  | .txq _ => decide (m ≥ 6)
  | .vgrow _ | .sgrow _ =>
    (match i with
      | .vgrow _ => vcountBad m
      | _ => scountBad m) ||
    (match f.dst with
      | .p _ => !f.opt
      | .zero => f.opt
      | _ => true)
  | .vshrink _ => vcountBad m
  | .rgn _ => rangeBad (m % 16) f.a || rangeBad (m / 16 % 16) f.b || rangeBad (m / 256) f.c ||
      decide (m % 16 + m / 16 % 16 + m / 256 > 24)
  | .bcl _ | .msync _ => f.lowFam != 0
  | .bclArr _ | .msyncArr _ => f.lowFam != 1
  | .bclWait _ | .msyncWait _ => f.lowFam != 2
  | .srd _ => decide (m ≥ 0x14) || (f.opt && m != 0x0F) || match f.dst with
    | .p _ => true
    | _ => false
  | .crdPut _ => decide (m > 8) || match f.b with
    | .zero => m != 0
    | .v _ => m == 0
    | _ => true
  | .rowRd _ | .rowWr _ => match f.dst with
    | .p _ => !f.opt
    | .zero => f.opt
    | _ => true
  | .tfr _ => kindBad true f.low3 m f.dst
  | .tinj _ => kindBad false f.low3 m f.a
  | .ctxGateYield _ | .tierRecAdd _ => f.lowFam != 0
  | .ctxGateOut _ | .tierRecClr _ => f.lowFam != 1
  | .srw _ => f.opt || srwCodeBad m
  | .srwRd _ => !f.opt || srwCodeBad m
  | .tlbInvPage _ => f.bit49
  | .tlbInvAll _ => !f.bit49
  | .ast _ => f.bit51
  | .astStat _ => !f.bit51
  | .mloop _ => !f.imm32.msb
  | _ => false

/-- The immediate fields, with BIMM 0 (R39, R134, R192, R319, R376). -/
def immBad (r : Row) (f : Fields) : Bool :=
  let m := f.imm13.toNat; let x := f.imm32.toNat
  match r.imm with
  | .none => m != 0 || x != 0
  | .low n => decide (m ≥ 2 ^ n) || x != 0
  | .offset => false
  | .lowAnd32 n => decide (m ≥ 2 ^ n)
  | .only32 => m != 0

/-- `fldexp` takes its immediate by the 32-bit integer row whatever the type (R116). -/
def bimmIntRow : Instr → Bool
  | .fldexp _ => true
  | _ => false

/-- The immediate of source B (R50): reserved cases, and the unused IMM13 of a long form. -/
def bimmBad (i : Instr) (r : Row) (f : Fields) : Bool :=
  !r.bimm || f.b != .zero ||
  match f.form with
  | .short => true
  | .medium => !bimmIntRow i && (f.ty == .f16 || f.ty == .bf16 || f.ty == .f16x2 || f.ty == .bf16x2)
  | .long => f.imm13 != 0 || (!bimmIntRow i && (f.ty == .f16 || f.ty == .bf16) && decide (f.imm32.toNat ≥ 65536))

/-- A form that does not carry a field holds it at its R39 value. -/
def formBad (f : Fields) : Bool :=
  match f.form with
  | .short => f.guardB != guardAlways || f.gcomb || f.c != .zero || f.hint != .dflt || f.imm13 != 0 || f.imm32 != 0
  | .medium => f.imm32 != 0
  | .long => false

/-- Step 4 of R53. -/
def reservedBad (i : Instr) (r : Row) (f : Fields) : Bool :=
  let sp := spansOf i f
  formBad f || guardBad f.guardA || guardBad f.guardB ||
  (r.guard63 && (f.guardA != guardAlways || f.guardB != guardAlways || f.gcomb)) ||
  (r.noB && (f.guardB != guardAlways || f.gcomb)) ||
  (r.stream == .matrix && f.flag.isSome) ||
  !r.dst.admits f.dst || !r.a.admits f.a || !r.b.admits f.b || !r.c.admits f.c ||
  (f.fam &&& ~~~r.fam) != 0 ||
  (!r.hint && f.hint != .dflt) ||
  (if f.bimm then bimmBad i r f else immBad r f) ||
  (!vectorOnly i && predPairBad sp.d f.dst) || spanBad i sp.d f.dst || spanBad i sp.a f.a || spanBad i sp.b f.b || spanBad i sp.c f.c ||
  matrixOperandsBad i f || shapeBad i f || memFamBad i f || ownBad i f

/-! ### Step 5 of R53: a scalar destination with a vector or predicate source -/

/-- A value that differs between lanes (R17). -/
def perLane : Operand → Bool
  | .v _ | .p _ => true
  | _ => false

/-- A constant-table entry. -/
def isConst : Operand → Bool
  | .c _ => true
  | _ => false

/-- Cross-lane instructions define their own scalar results (R17). -/
def isCrossLane : Instr → Bool
  | .vote _ | .matchLanes _ | .shfl _ | .redux _ | .scan _ | .lmask _ | .lmap _ => true
  | _ => false

/-- The lane-class special registers (R213). -/
def srLaneClass (code : Nat) : Bool := [0x00, 0x0F, 0x12, 0x13].contains code

/-- Step 5 of R53, but for the flag, which depends on the clause (R29): R17, R95, R167, R212. DESIGN CHOICE, log entry 67. -/
def classBad (i : Instr) (f : Fields) : Bool :=
  match f.dst with
  | .s _ => vectorOnly i || match i with
    | .srd _ => srLaneClass (f.imm13.toNat % 128)
    | .txq _ => perLane f.a || perLane f.b || isConst f.a
    | _ => !isCrossLane i && (perLane f.a || perLane f.b || perLane f.c)
  | .p _ => vectorOnly i
  | _ => false

/-! ### The whole check -/

/-- What decode finds wrong with an instruction, by name (R53). -/
inductive Reject where
  /-- Bytes end inside the instruction. -/
  | truncated
  /-- R35: the instruction crosses a 32-byte fetch block. -/
  | crossing
  /-- R53 step 2: an unassigned opcode. -/
  | unassigned
  /-- R53 step 2: an opcode or a header that is not legal in the fetching stream. -/
  | wrongStream
  /-- R53 step 3: a type the instruction does not accept. -/
  | badType
  /-- R53 step 4: a reserved bit or value. -/
  | reserved
  /-- R53 step 5: a scalar destination with a per-lane source. -/
  | laneToScalar
  deriving DecidableEq, Repr

/-- The cause a rejected instruction raises (R53); bytes that end early are not fetched, and count as illegal. -/
def Reject.cause : Reject → Cause
  | .reserved => .reserved
  | _ => .illegal

/-- Steps 3 to 5 of R53 on an instruction. A step that has no encoding passes. DEDUCED, log entry 63. -/
def check (i : Instr) : Option Reject :=
  match rowOf i, fieldsOf i with
  | some r, some f =>
    if typeBad i r f then some .badType
    else if reservedBad i r f then some .reserved
    else if classBad i f then some .laneToScalar
    else none
  | _, _ => none

end Sys2Proof.Machine
end

