-- ==== Sys2Proof/Decode.lean ====
section
/-!
DEFINITION. Decoding, total on any bytes (R34 to R56), and the encoder written from the same tables.
-/
namespace Sys2Proof.Machine
open Sys2Proof

/-! ### Operand, guard, flag and hint fields -/

/-- An operand field (R43; R46 in the matrix stream); `none` where the value is reserved. -/
def operandOf (st : Stream) (n : Nat) : Option Operand :=
  if h : n < 256 then some (.v ⟨n, h⟩)
  else if n = 511 then some .zero
  else if st = .matrix then none
  else if h : n - 256 < 128 then some (.s ⟨n - 256, h⟩)
  else if h : n - 384 < 48 then some (.p ⟨n - 384, h⟩)
  else if h : n - 432 < 48 then some (.c ⟨n - 432, h⟩)
  else none

/-- The field value of an operand. -/
def operandCode : Operand → Nat
  | .v n => n.val
  | .s n => n.val + 256
  | .p n => n.val + 384
  | .c n => n.val + 432
  | .zero => 511

/-- A guard field (R37); 48 to 62 are reserved. -/
def guardOf (n neg : Nat) : Option Guard :=
  if h : n < 48 then some ⟨some ⟨n, h⟩, neg == 1⟩ else if n = 63 then some ⟨none, neg == 1⟩ else none

def guardCode (g : Guard) : Nat :=
  match g.pred with
  | some p => p.val
  | none => 63

/-- A completion flag field (R37, R51); 12 to 14 are reserved. The outer `none` is a reserved value. -/
def flagOf (n : Nat) : Option (Option (Fin 12)) :=
  if h : n < 12 then some (some ⟨n, h⟩) else if n = 15 then some none else none

def flagCode : Option (Fin 12) → Nat
  | some k => k.val
  | none => 15

def hintOf : Nat → Hint
  | 0 => .dflt
  | 1 => .stream
  | 2 => .keep
  | _ => .noAlloc

def hintCode : Hint → Nat
  | .dflt => 0
  | .stream => 1
  | .keep => 2
  | .noAlloc => 3

/-! ### The bits of a word, lowest first -/

/-- LEN, OPCODE, GUARD_A, GA_NEG, DST, SRCA, SRCB, FLAG, FAM, TYPE, BIMM (R37, R40), then SRCC, GUARD_B, GB_NEG, GCOMB,
HINT, IMM13, IMM32 (R38). -/
def wordWidths : List Nat := [2, 9, 6, 1, 9, 9, 9, 4, 9, 5, 1, 9, 6, 1, 1, 2, 13, 32]

/-- LEN, WAIT, FLAG_X, FLAG_Y, PRIO, YIELD, NODUAL and the reserved bits of a clause header (R51). -/
def headerWidths : List Nat := [2, 12, 4, 4, 16, 1, 1, 24]

/-- Bits [127:64] of a short form as R39 reads it: SRCC 511, GUARD_B 63, everything else 0. -/
def shortUpper : Nat := 0x7FFF

/-- The word as its long form: what the shorter forms leave out at its R39 value. -/
def asLong (f : Form) (w : Nat) : Nat :=
  match f with
  | .short => w % 2 ^ 64 + 2 ^ 64 * shortUpper
  | .medium => w % 2 ^ 96
  | .long => w % 2 ^ 128

def formOfLen : Nat → Form
  | 0 => .short
  | 1 => .medium
  | _ => .long

def lenCode : Form → Nat
  | .short => 0
  | .medium => 1
  | .long => 2

/-- Bytes of a form (R34). -/
def formBytes : Form → Nat
  | .short => 8
  | .medium => 12
  | .long => 16

/-- The fields of a word, each reserved value replaced, with one mark for a reserved TYPE code and one for any other
reserved value. -/
def readFields (st : Stream) (form : Form) (w : Nat) : Fields × Bool × Bool :=
  match unpackNat wordWidths (asLong form w) with
  | [_, _, ga, gan, d, a, b, fl, fam, ty, bi, c, gb, gbn, gc, hi, i13, i32] =>
    (⟨form, (guardOf ga gan).getD guardAlways, (guardOf gb gbn).getD guardAlways, gc == 1,
      (operandOf st d).getD .zero, (operandOf st a).getD .zero, (operandOf st b).getD .zero, (operandOf st c).getD .zero,
      (flagOf fl).getD none, bi == 1, (tyOfCode ty).getD .un, BitVec.ofNat 9 fam, hintOf hi,
      BitVec.ofNat 13 i13, BitVec.ofNat 32 i32⟩,
     (tyOfCode ty).isNone,
     (guardOf ga gan).isNone || (guardOf gb gbn).isNone || (operandOf st d).isNone || (operandOf st a).isNone ||
       (operandOf st b).isNone || (operandOf st c).isNone || (flagOf fl).isNone)
  | _ => (⟨form, guardAlways, guardAlways, false, .zero, .zero, .zero, .zero, none, false, .un, 0, .dflt, 0, 0⟩, true, true)

/-! ### The opcode map (R56) -/

/-- Opcode slots 0x000 to 0x03F: integer and logic (R56). -/
def opcodesInt : List (Nat × (Fields → Instr)) := [
  (0x001, .add), (0x002, .sub), (0x003, .addc), (0x004, .subb), (0x005, .mul), (0x006, .mulhi), (0x007, .mad),
  (0x008, .madw), (0x009, .min), (0x00A, .max), (0x00B, .and), (0x00C, .or), (0x00D, .xor), (0x00E, .not),
  (0x00F, .shl), (0x010, .shr), (0x011, .sar), (0x012, .shf), (0x013, .bfx), (0x014, .bfi), (0x015, .popc),
  (0x016, .clz), (0x017, .brev), (0x018, .lea), (0x019, .sel), (0x01A, .cmp), (0x01B, .mov), (0x01C, .movi),
  (0x01D, .dp4)]

/-- Opcode slots 0x040 to 0x07F: floating point (R56). -/
def opcodesFloat : List (Nat × (Fields → Instr)) := [
  (0x040, .fadd), (0x041, .fsub), (0x042, .fmul), (0x043, .ffma), (0x044, .fmin), (0x045, .fmax), (0x046, .fcmp),
  (0x047, .frnd), (0x048, .ffrac), (0x049, .fclass), (0x04A, .fldexp), (0x04B, .frcp), (0x04C, .frsq),
  (0x04D, .fsqrt), (0x04E, .fexp2), (0x04F, .flog2), (0x050, .fsin), (0x051, .fcos), (0x052, .ftanh),
  (0x053, .fdp2), (0x054, .cvt), (0x055, .cvts), (0x056, .osmUpd),
  (0x057, fun f => if f.opt then .osmFinNorm f else .osmFin f),
  (0x058, .rng), (0x059, .xbox), (0x05A, .xtri)]

/-- Opcode slots 0x080 to 0x09F: predicates and cross-lane (R56). -/
def opcodesLane : List (Nat × (Fields → Instr)) := [
  (0x080, .plop), (0x081, .pmov),
  (0x082, fun f => if f.opt then .pbitsSet f else .pbitsGet f),
  (0x083, .pset), (0x088, .vote), (0x089, .matchLanes), (0x08A, .shfl), (0x08B, .redux), (0x08C, .scan),
  (0x08D, .lmask), (0x08E, .lmap)]

/-- Opcode slots 0x0A0 to 0x0FF: control, memory, images (R56). -/
def opcodesFlow : List (Nat × (Fields → Instr)) := [
  (0x0A0, .nop), (0x0A1, .bru), (0x0A2, .br), (0x0A3, .brx), (0x0A4, .call), (0x0A5, .calx), (0x0A6, .ret),
  (0x0A7, .exit), (0x0A8, .yld), (0x0A9, .trap), (0x0AA, .brk), (0x0AB, .vcall), (0x0C0, .ld), (0x0C1, .st),
  (0x0C2, .atom), (0x0C3, .cas), (0x0C4, .red), (0x0C5, .fence),
  (0x0C6, fun f => if f.bit49 then .cinvAll f else .cinvLine f),
  (0x0C7, .pf), (0x0C8, .ldk), (0x0D0, .ldi), (0x0D1, .sti), (0x0D2, .smp), (0x0D3, .smpg), (0x0D4, .txq)]

/-- Opcode slots 0x100 to 0x13F: team, register management, engines (R56). -/
def opcodesTeam : List (Nat × (Fields → Instr)) := [
  (0x100, .vgrow), (0x101, .vshrink), (0x102, .sgrow), (0x103, .rgn), (0x104, .bta), (0x105, .btw), (0x106, .bt),
  (0x107, fun f => match f.lowFam with
    | 1 => .bclArr f
    | 2 => .bclWait f
    | _ => .bcl f),
  (0x108, .lnch), (0x109, .srd),
  (0x10A, fun f => match f.lowFam with
    | 1 => .msyncArr f
    | 2 => .msyncWait f
    | _ => .msync f),
  (0x120, .reelGo), (0x121, .reelAdd), (0x122, .reelSt), (0x123, .wcnt), (0x124, .boInit), (0x125, .boExp),
  (0x126, .boArr), (0x127, .boWait), (0x128, .boTry), (0x129, .lpq), (0x12A, .crdPut), (0x12B, .crdFlush),
  (0x12C, .qpop), (0x12D, .qtry), (0x12E, .spGo), (0x12F, .spStop)]

/-- Opcode slots 0x140 to 0x1BF: rows, supervisor, Spindle (R56). -/
def opcodesSys : List (Nat × (Fields → Instr)) := [
  (0x140, .rowAct), (0x141, .rowRd), (0x142, .rowWr), (0x143, .rowCls), (0x144, .rowSt), (0x160, .tret),
  (0x161, .tfr), (0x162, .tinj), (0x163, .ctxFork),
  (0x164, fun f => if f.lowFam = 1 then .ctxGateOut f else .ctxGateYield f),
  (0x165, fun f => if f.lowFam = 1 then .tierRecClr f else .tierRecAdd f),
  (0x166, .tierPin), (0x167, .tierUnpin),
  (0x168, fun f => if f.opt then .srwRd f else .srw f),
  (0x169, .cobjMap),
  (0x16A, fun f => if f.bit49 then .tlbInvAll f else .tlbInvPage f),
  (0x16B, .venc), (0x180, .qpush)]

/-- Opcode slots 0x1C0 to 0x1FF: the matrix stream (R56). -/
def opcodesMatrix : List (Nat × (Fields → Instr)) := [
  (0x1C0, .mma), (0x1C1, .mmb), (0x1C2, .tdef), (0x1C3, .tld), (0x1C4, .azero),
  (0x1C5, fun f => if f.bit51 then .astStat f else .ast f),
  (0x1C6, .ald), (0x1C7, .ascl), (0x1C8, .msig), (0x1C9, .mwait), (0x1CA, .mloop), (0x1CB, .mend),
  (0x1CC, .rowCon)]

/-- The opcode map. -/
def opcodeMap : List (Nat × (Fields → Instr)) :=
  opcodesInt ++ (opcodesFloat ++ (opcodesLane ++ (opcodesFlow ++ (opcodesTeam ++ (opcodesSys ++ opcodesMatrix)))))

def lookupOp : List (Nat × (Fields → Instr)) → Nat → Option (Fields → Instr)
  | [], _ => none
  | (k, g) :: t, op => if k = op then some g else lookupOp t op

/-- The instruction of an opcode slot; `none` where the slot is unassigned. -/
def ofOpcode (op : Nat) (f : Fields) : Option Instr := (lookupOp opcodeMap op).map fun g => g f

/-! ### Streams (R55) -/

/-- The opcodes below 0x180 that the Spindle slot accepts (R353). -/
def spindleOp (op : Nat) : Bool :=
  decide ((1 ≤ op ∧ op ≤ 0x1D) ∨ (0x80 ≤ op ∧ op ≤ 0x83) ∨ (0x180 ≤ op ∧ op ≤ 0x1BF)) ||
  [0x0A0, 0x0A1, 0x0A7, 0x0A9, 0x0C0, 0x0C1, 0x109].contains op

/-- An opcode is legal in a stream (R55). -/
def streamLegal (st : Stream) (op : Nat) : Bool :=
  match st with
  | .group => decide (op ≤ 0x17F)
  | .spindle => spindleOp op
  | .matrix => decide (0x1C0 ≤ op)

/-- The stream an opcode belongs to. -/
def streamOf (op : Nat) : Stream := if op < 0x180 then .group else if op < 0x1C0 then .spindle else .matrix

/-! ### Decode -/

/-- A clause header (R51). -/
def decodeHeader (w : Nat) : Except Reject Instr :=
  match unpackNat headerWidths w with
  | [_, wait, x, y, prio, yi, nd, rest] =>
    match flagOf x, flagOf y with
    | some fx, some fy =>
      if rest ≠ 0 then .error .reserved
      else .ok (.clauseHeader ⟨BitVec.ofNat 12 wait, fx, fy, BitVec.ofNat 16 prio, yi == 1, nd == 1⟩)
    | _, _ => .error .reserved
  | _ => .error .reserved

/-- One instruction word of a stream, in the order of R53 from step 2. -/
def decodeWord (st : Stream) (w : Nat) : Except Reject (Instr × Nat) :=
  if w % 4 = 3 then
    if st = .matrix then .error .wrongStream else (decodeHeader (w % 2 ^ 64)).map fun i => (i, 8)
  else
    let form := formOfLen (w % 4)
    let op := w / 4 % 512
    let (f, tyBad, bad) := readFields st form w
    match ofOpcode op f with
    | none => .error .unassigned
    | some i =>
      if !streamLegal st op then .error .wrongStream
      else if tyBad then .error .reserved
      else match check i with
        | some .badType => .error .badType
        | some r => .error (if bad then .reserved else r)
        | none => if bad then .error .reserved else .ok (i, formBytes form)

/-- The bytes an instruction takes by its LEN (R34). -/
def lenBytes (w : Nat) : Nat := if w % 4 = 3 then 8 else formBytes (formOfLen (w % 4))

/-- Decoding, on any bytes: an instruction and the bytes after it, or the name of what is wrong. -/
def decode (st : Stream) (bs : List Byte) : Except Reject (Instr × List Byte) :=
  match bs with
  | [] => .error .truncated
  | b :: _ =>
    let n := lenBytes b.toNat
    if bs.length < n then .error .truncated
    else (decodeWord st (ofBytes (bs.take n))).map fun (i, _) => (i, bs.drop n)

/-! ### Encode -/

/-- The word of a form, from the fields (R37, R38). -/
def fieldsWord (op : Nat) (f : Fields) : Nat :=
  let w := packNat [(2, lenCode f.form), (9, op), (6, guardCode f.guardA), (1, b2n f.guardA.neg), (9, operandCode f.dst),
    (9, operandCode f.a), (9, operandCode f.b), (4, flagCode f.flag), (9, f.fam.toNat), (5, tyCode f.ty), (1, b2n f.bimm),
    (9, operandCode f.c), (6, guardCode f.guardB), (1, b2n f.guardB.neg), (1, b2n f.gcomb), (2, hintCode f.hint),
    (13, f.imm13.toNat), (32, f.imm32.toNat)]
  w % 2 ^ (8 * formBytes f.form)

/-- The word of a clause header (R51). -/
def headerWord (h : Header) : Nat :=
  packNat [(2, 3), (12, h.wait.toNat), (4, flagCode h.flagX), (4, flagCode h.flagY), (16, h.prio.toNat), (1, b2n h.yield),
    (1, b2n h.nodual), (24, 0)]

/-- The word of an encoded instruction and its length in bytes; `none` for a step that has no encoding. -/
def encodeWord (i : Instr) : Option (Nat × Nat) :=
  match i with
  | .clauseHeader h => some (headerWord h, 8)
  | _ => match rowOf i, fieldsOf i with
    | some r, some f => some (fieldsWord r.opcode f, formBytes f.form)
    | _, _ => none

/-- The bytes of an encoded instruction. -/
def encode (i : Instr) : Option (List Byte) := (encodeWord i).map fun (w, n) => toBytes n w

/-- The stream an encoded instruction is decoded in (R55). -/
def instrStream (i : Instr) : Stream :=
  match rowOf i with
  | some r => r.stream
  | none => .group

end Sys2Proof.Machine

namespace Sys2Proof

/-- The instruction that decode reads from bytes whose bits are `w`, the bits from `nbits` up being 0, in the stream its
opcode belongs to. -/
def decodeTableWord (nbits w : Nat) : Option Instr :=
  let x := w % 2 ^ nbits
  let st := if x % 4 = 3 then Machine.Stream.group else Machine.streamOf (x / 4 % 512)
  match Machine.decode st (Machine.toBytes 16 x) with
  | .ok (i, _) => some i
  | .error _ => none

end Sys2Proof
end

