-- ==== Sys2Proof/Config.lean ====
section
/-!
DEFINITION. What the manual leaves to the part or leaves open, as constants without a body: nothing can evaluate them,
and a statement about them holds for every value.
-/
namespace Sys2Proof.Config

/-- Free values, drawn in order: the n-th value that the manual does not fix, taken modulo its number of choices. DESIGN CHOICE, log entry 5. -/
opaque freeNat : Nat → Nat

/-- A free choice that belongs to one thing among several met at the same draw: a cache line, a page, a lane. DESIGN CHOICE, log entry 5. -/
opaque freeChoice : Nat → Nat → Nat

/-- The bits of a value the manual does not state, by draw and word. DESIGN CHOICE, log entry 5. -/
opaque freeBits : Nat → Nat → BitVec 32

/-- Which of the values inside its bound an `.f32` special function delivers (R117, R118), by opcode and operand.
DESIGN CHOICE, log entry 5. DESIGN CHOICE, log entry 7. -/
opaque sfuChoice : Nat → Nat → Nat

/-- The keyed hash of the content directory (R251): the domain's key is held by the security monitor.
DESIGN CHOICE, log entry 5. DESIGN CHOICE, log entry 42. -/
opaque pageHash : Nat → List (BitVec 8) → BitVec 64

end Sys2Proof.Config
end

