-- ==== Sys2Proof/Machine/State.lean ====
section
/-!
DEFINITION. The state of one module, as plain data: threads, groups, teams, clusters, grids, front ends and queues, the
memories, the engines, contexts and the security monitor's tables; the faults and refusals; and the state after reset.
-/
namespace Sys2Proof.Machine
open Sys2Proof

/-! ### Threads and groups -/

/-- One frontier entry (R178): where a set of lanes stands, and what it keeps of the last header it passed (R30). -/
structure Entry where
  pc     : DWord
  prio   : BitVec 16
  mask   : LaneMask
  flagX  : Option (Fin 12) := none
  flagY  : Option (Fin 12) := none
  nodual : Bool := false
  /-- The entry has come to `pc` and has not yet been matched against a header there (R179). -/
  fresh  : Bool := true
  /-- The transfer that brought it here needs a header at `pc` (R30). -/
  must   : Bool := false
  /-- The header at `pc` has been passed and is to issue (R179). -/
  passed : Bool := false
  deriving DecidableEq, Repr

/-- The registers of a running set of lanes: a group's own, or those of its trap handler (R13, R410). -/
structure Thread where
  /-- Vector register r of lane l at key 64 r + l; unlisted 0 (R14). -/
  vregs    : Table Word := []
  /-- Scalar registers; unlisted 0. -/
  sregs    : Table Word := []
  /-- Predicates, one bit per lane; unlisted 0. -/
  preds    : Table LaneMask := []
  /-- FSTAT of each lane (R20). -/
  fstat    : Table Word := []
  /-- RNG of each lane (R21). -/
  rng      : Table DWord := []
  /-- The frontier, head first (R178). -/
  frontier : List Entry := []
  /-- Pending counts of `f0` to `f11` (R28); unlisted 0. -/
  flags    : Table Nat := []
  /-- Vector and scalar counts (R14, R207, R209). -/
  nv       : Nat := 0
  ns       : Nat := 0
  /-- Registers staged in the operand buffer (R189). -/
  staged   : List Nat := []
  deriving DecidableEq, Repr

/-- The captured words of an instruction and where it issued: an entry of the replay queue (R407, R408, R414). -/
structure Replay where
  /-- IADDR. -/
  iaddr : DWord
  /-- EXEC. -/
  exec  : LaneMask
  /-- The lanes of the frontier entry that first issued it. -/
  lanes : LaneMask
  /-- SKIP. -/
  skip  : Bool := false
  /-- FAULT. -/
  fault : Bool := false
  /-- The instruction had been read when its cause arose; otherwise nothing was captured. -/
  read  : Bool := true
  /-- Captured operand word j of lane l at key 64 j + l, j below 8. -/
  words : Table Word := []
  deriving DecidableEq, Repr

/-- What a cause carries into the frame (R406, R413). -/
structure TrapInfo where
  cause  : Cause
  source : Nat := 0
  code   : Nat := 0
  addr   : DWord := 0
  aux    : DWord := 0
  lane   : Option Nat := none
  deriving DecidableEq, Repr

/-- A trap handler in a group's slot, with its frame store (R409 to R414). -/
structure Handler where
  thread  : Thread
  /-- The frame store of the slice, 0 or 1. -/
  store   : Nat
  info    : TrapInfo
  /-- CTL.STEP, RESENG, ACTION, MATACT as the handler has written them; ENGHALT. -/
  step    : Bool := false
  reseng  : Bool := false
  action  : Nat := 0
  matact  : Nat := 0
  enghalt : Bool := false
  /-- Frame word 1 and its value at trap entry. -/
  pc      : DWord
  pc0     : DWord
  /-- Frame words 2 and 5. -/
  live    : LaneMask
  ctime   : DWord
  entries : List Replay := []
  /-- The frame is a restored one (SWREQ 0, R447). -/
  restored : Bool := false
  /-- The group's block address, for `srw` code 34. -/
  saveAddr : DWord := 0
  /-- SWREQ (R440). -/
  swreq   : Nat := 0
  /-- Frontier words of control lines as `tinj.c` left them, word of line n at position p at key 32 n + p (R416, R447). -/
  ctl     : Table Word := []
  deriving DecidableEq, Repr

/-- What a group waits for room in. -/
inductive Room where
  /-- The Carder of its core, for so many entries (R360). -/
  | carder (n : Nat)
  /-- A Reel channel's queue, for so many chains (R336). -/
  | reel (ch n : Nat)
  /-- An entry of a Spindle queue, or room for one (R356, R357). -/
  | entry (q : Nat)
  | slot (q : Nat)
  /-- A slot of the context's call ring (R418). -/
  | ring
  deriving DecidableEq, Repr

/-- What holds an instruction's issue. -/
inductive Stall where
  /-- The wait mask of a header, an interlock, a full completion flag (R27 to R29). -/
  | issue
  /-- An outstanding counter with no room for so many operations (R321). -/
  | counter (cls n : Nat)
  /-- Crossing writes of the core that have not been acknowledged (R304). -/
  | acks
  /-- Completion flags of the registers in use (R417, R464). -/
  | flags
  /-- Asynchronous writes to registers from a number up (R208). -/
  | above (n : Nat)
  /-- Asynchronous writes with no flag to lanes that are about to exit (R27, R138). -/
  | lanes (m : LaneMask)
  /-- Rows of an object that `cobj.map` is to replace, still held by their banks (R265). -/
  | rows (core handle : Nat)
  deriving DecidableEq, Repr

/-- What a group waits for (R183, R441). A `wait` keeps the instruction at the PC, to issue again; the rest resume after
it. -/
inductive Park where
  /-- Pages of the group's context that are not resident, by virtual page number (R246). -/
  | pages (vpns : List Nat)
  /-- A scratchpad line that is absent: core and line number (R234). -/
  | presence (core line : Nat)
  /-- A row of a bank that is opening or a bank that is busy (R270, R271, R266). -/
  | row (core bank : Nat)
  /-- An access to a column object that waits for banks, which take no other activate meanwhile but that of an earlier one (R266);
  `seq` orders such accesses. -/
  | column (core : Nat) (banks : List Nat) (seq : Nat)
  /-- A `row.act` that waits for its bank or for the activate windows (R270): core, bank, row. -/
  | activate (core bank row : Nat)
  /-- `btw`, `bcl.wait`, `msync.wait` with no arrival made: kind 0 team, 1 cluster, 2 matrix; barrier; token. -/
  | token (kind n : Nat) (tok : Bool)
  /-- An arriving form whose arrival stands: kind, barrier, phase of the arrival, destination of LASTCODE (R441). -/
  | arrived (kind n : Nat) (phase : Bool) (dst : Operand)
  /-- An arriving `msync` held before its arrival (R389). -/
  | heldArrival (n : Nat)
  /-- `bo.wait` (R330). -/
  | object (core addr : Nat) (tok : Bool)
  /-- `wcnt` (R322). -/
  | counter (cls n : Nat)
  /-- `vgrow` and `sgrow` (R207, R209): the count asked for; the requests of a slice are served in the order of `seq`. -/
  | grow (scalar : Bool) (count seq : Nat)
  /-- A queue, a Carder slot, a Reel queue, a ring slot (R336, R357, R360, R418). -/
  | room (r : Room)
  /-- `vcall`: the ring slot, the destination register and `exec` (R141, R419). -/
  | call (slot : Nat) (dst : Operand) (exec : LaneMask)
  /-- Fork regions still to be built, or, with none, a frame for a copy-on-write swap (R254, R454). -/
  | swap (regions : List Nat)
  /-- An object the tier engine is relocating (R270, R287). -/
  | moving (core handle : Nat)
  /-- The scratchpad of a peer team that has been saved before the group was asked to leave (R443). DEDUCED, log entry 33. -/
  | away (tid : Nat)
  /-- Pages of which some would be the 65th outstanding page fault of the core (R247). -/
  | faultSlot (core : Nat) (vpns : List Nat)
  /-- What holds the issue itself. -/
  | stall (w : Stall)
  deriving DecidableEq, Repr

/-- An outstanding operation of a counter class (R321): 0 copy, 1 mat, 2 row, 3 peer. -/
structure CountedOp where
  cls  : Nat
  id   : Nat
  done : Bool := false
  /-- The completion flag that counts it, if any, and whether the handler issued it. -/
  flag : Option Nat := none
  inHandler : Bool := false
  /-- An arriving `msync`: its matrix barrier and the phase of its arrival (R391). -/
  bar  : Option (Nat × Bool) := none
  deriving DecidableEq, Repr

/-- What runs in a group (R228, R351, R362). -/
inductive GroupKind where
  | launched | continuation | spindle
  deriving DecidableEq, Repr

/-- A group (R169). -/
structure Group where
  kind   : GroupKind := .launched
  core   : Nat := 0
  slice  : Nat := 0
  slot   : Nat := 0
  ctx    : Nat := 0
  team   : Nat := 0
  /-- Group number g, and the width w. -/
  g      : Nat := 0
  width  : Nat := 32
  main   : Thread := {}
  handler : Option Handler := none
  /-- A trap that waits for a frame store (R409), with its replay entries and the PC to resume at. -/
  stalled : Option (TrapInfo × List Replay × DWord) := none
  /-- The frame of a restored group that waits for a frame store (R447). -/
  restore : Option Handler := none
  /-- Causes held pending (R411, R441). -/
  pending : List TrapInfo := []
  park   : Option Park := none
  /-- A wait whose arrival stands, or a call in its slot, kept while a handler runs (R441). -/
  kept   : Option Park := none
  /-- Entries that `tret` re-issues, the one being re-issued, and the PC the head then moves to (R417). -/
  replays : List Replay := []
  cur    : Option Replay := none
  movePc : Option DWord := none
  /-- Entries still to be re-issued, and the PC to move to, when a cause taken between them came (R417, R441). -/
  heldReplays : List Replay := []
  heldMove : Option DWord := none
  /-- The order number of the request that it issues again: for register lines, for the banks of a column access (R207, R266). -/
  request : Option Nat := none
  /-- Pages of the range of a `tier.pin` or `tier.unpin` passed before the page it waits for, and how many it has changed (R463). -/
  pinned : Nat × Nat := (0, 0)
  /-- A single step (R429): 0 none, 1 one instruction is to issue, 2 it has. -/
  step   : Nat := 0
  ops    : List CountedOp := []
  /-- Launch seed S, cluster index C and thread index T of lane 0 (R21, R410). -/
  seed   : Word := 0
  cindex : Nat := 0
  tbase  : Nat := 0
  /-- The watchdog count (R438). -/
  idle   : Nat := 0
  /-- When the group last became the youngest of its slice, and the order number of its latest grant (R230). -/
  age    : Nat := 0
  turn   : Nat := 0
  /-- The clock from which it can issue: the end of the step that placed it (R227). -/
  readyAt : Nat := 0
  /-- SWREQ of a pending save, and the save slot of its cluster (R440, R444). -/
  swreq  : Nat := 0
  /-- The group has executed `ctx.gate.out` and holds nothing of a core (R464). -/
  out    : Bool := false
  /-- Its register lines: the first vector register of each run, and the banks its context owned when the run was allocated
  (R228, R461). -/
  lineBanks : List (Nat × Nat) := []
  /-- The bin of a continuation group: target and key (R361). -/
  bin    : Option (DWord × Word) := none
  deriving DecidableEq, Repr

/-- A register an asynchronous instruction writes: a vector lane, or a scalar (R26). -/
structure RegWrite where
  scalar : Bool
  pred   : Bool := false
  reg    : Nat
  lane   : Nat
  value  : Word
  deriving DecidableEq, Repr

/-- Where bytes stand (R23, R24): module memory, a core's scratchpad array, a column row. -/
inductive Place where
  | mem (pa : Nat)
  | scratch (core off : Nat)
  | column (core unit byte : Nat)
  /-- Module memory under a key domain that is not its frame's (R257). -/
  | foreign (dom pa : Nat)
  deriving DecidableEq, Repr

/-- One lane's access of a plain load that may still be performed: until its result is written, each 4-byte piece of it may
be read anew (R147, R292). -/
structure LateRead where
  place : Place
  n     : Nat
  lane  : Nat
  /-- The bits of a value that is sign-extended; 0 where none is. -/
  sext  : Nat
  deriving DecidableEq, Repr

/-- An asynchronous result on its way to the registers (R26 to R28). -/
structure Pend where
  gid    : Nat
  inHandler : Bool
  writes : List RegWrite
  flag   : Option Nat
  /-- The clock at which the last of it has landed. -/
  due    : Nat
  /-- Accesses that may still be performed. -/
  late   : List LateRead := []
  /-- The clock of its issue, and the draw that its free times and choices belong to. -/
  start  : Nat := 0
  salt   : Nat := 0
  deriving DecidableEq, Repr

/-- One lane's store, translated and not yet performed (R144, R289). -/
structure StoreWrite where
  place : Place
  bytes : List Byte
  /-- Generation of a peer target when the access issued (R349). -/
  gen   : Option Nat := none
  deriving DecidableEq, Repr

/-- A store instruction in the store path. -/
structure PendStore where
  gid    : Nat
  core   : Nat
  ctx    : Nat
  inHandler : Bool
  writes : List StoreWrite
  flag   : Option Nat
  /-- The `.peer` operations it counts as. -/
  ops    : List Nat := []
  /-- A release at `.die` scope or wider, which the die-edge switch may hold (R304). -/
  release : Bool := false
  /-- A release at `.grp` or `.team`, which tags its line (R303). -/
  tag    : Bool := false
  /-- The clock at which the last piece of it has been performed. -/
  due    : Nat
  /-- The team whose access it is, the clock of its issue, and the draw that the times of its pieces belong to. -/
  team   : Nat := 0
  start  : Nat := 0
  salt   : Nat := 0
  /-- The sectors and lines that its lanes cover wholly between them, whose poison marks it clears (R424). -/
  covers : List Place := []
  /-- The bin of the continuation group whose store it is (R362). -/
  bin    : Option (DWord × Word) := none
  /-- A release at `.grp` or `.team` has covered it: whatever that release happens before comes after it (R298). -/
  released : Bool := false
  deriving DecidableEq, Repr

/-! ### Teams, clusters and grids -/

/-- A team, cluster or matrix barrier (R202, R389). -/
structure Barrier where
  phase    : Bool := false
  count    : Nat := 0
  expected : Option Nat := none
  /-- The expected count is a default one, recomputed as groups retire (R203). -/
  isDefault : Bool := false
  /-- Matrix barriers: the sequencer has arrived, with its code; LASTCODE. -/
  seqArrived : Bool := false
  seqCode  : Nat := 0
  lastCode : Nat := 0
  deriving DecidableEq, Repr

/-- A loop counter of the matrix sequencer (R365). -/
structure Loop where
  active : Bool := false
  rem    : Nat := 0
  it     : Nat := 0
  deriving DecidableEq, Repr

/-- What the sequencer is doing (R364, R387, R369, R388). -/
inductive SeqState where
  | running
  | waitPhase (n : Nat) (phase : Bool)
  /-- By a cause, at an instruction of `len` bytes (8 where none could be read). -/
  | stopped (info : TrapInfo) (atPc : DWord) (len : Nat)
  | ended
  deriving DecidableEq, Repr

/-- The matrix sequencer of a team (R365). -/
structure Sequencer where
  pc      : DWord
  state   : SeqState := .running
  loops   : Table Loop := []
  /-- Tile descriptors. -/
  tdesc   : Table QWord := []
  /-- Byte b of the latch of descriptor t at key 2048 t + b. -/
  latch   : Table Byte := []
  /-- Poisoned 128-byte unit u of latch t at key 16 t + u. -/
  latchBad : List Nat := []
  /-- Element (i, j) of tile a at key 4096 a + 64 i + j. -/
  acc     : Table (BitVec 40) := []
  /-- Matrix status (R367). -/
  status  : DWord := 0
  /-- Bytes of the core's scratchpad array that the instruction at the PC has read already, while it waits for the rest (R373). -/
  held    : Table Byte := []
  /-- What its fetch waits for. -/
  park    : Option Park := none
  /-- Consecutive failures of one `row.con.chk` (R385). -/
  conMiss : Nat := 0
  /-- The activate of a `row.con.chk` that found its row lost is still to be accepted. -/
  conOpen : Bool := false
  deriving DecidableEq, Repr

/-- A team on its core (R169). -/
structure Team where
  cluster : Nat
  core    : Nat
  rank    : Nat
  /-- Launch values. -/
  groups  : Nat
  width   : Nat
  nv      : Nat
  ns      : Nat
  tiles   : Nat
  accum   : Nat
  /-- First granule and count of its scratchpad, and the generation of the allocation (R233, R349). -/
  granule : Nat
  granules : Nat
  gen     : Nat := 0
  barriers : Table Barrier := []
  matBarriers : Table Barrier := []
  seq     : Option Sequencer := none
  /-- Quadrant that holds each accumulator tile (R366). -/
  quads   : List Nat := []
  /-- The restartable bit (R427). -/
  restartable : Bool := false
  retired : Bool := false
  /-- Every group has executed `ctx.gate.out` (R443). -/
  saved   : Bool := false
  deriving DecidableEq, Repr

/-- The fields of a launch packet (R220), with counts as values. -/
structure Packet where
  entry    : Nat
  tiles    : Nat
  matoff   : Int
  accum    : Nat
  seed     : Word
  params   : Nat
  resid    : Nat
  gridx    : Nat
  gridy    : Nat
  gridz    : Nat
  width    : Nat
  vregs    : Nat
  sregs    : Nat
  team     : Nat
  clw      : Nat
  clh      : Nat
  scratch  : Nat
  prio     : Nat
  cores    : Bool
  idemp    : Bool
  dep      : Nat
  colmask  : Nat
  depaddr  : Nat
  depcmp   : Nat
  depval   : Nat
  deriving DecidableEq, Repr

/-- How far a grid has come (R224). -/
inductive GridState where
  | waiting | begun
  deriving DecidableEq, Repr

/-- The translation of a parameter block's page when its grid began (R223): none yet, a failed walk, a fork region that is
still to be built (R454), or a leaf with its companion word. -/
inductive ParamMap where
  | none
  | bad (level : Nat)
  | pending (region : Nat)
  | leaf (pte comp : DWord) (giB : Bool)
  deriving DecidableEq, Repr

/-- A grid (R169, R216, R224). -/
structure Grid where
  fe      : Nat
  ctx     : Nat
  /-- Queue number, 0 to 7 host and 8 to 11 device side; sequence number in it. -/
  queue   : Nat
  seqNo   : Nat
  pkt     : Packet
  state   : GridState := .waiting
  /-- Order of acceptance. -/
  order   : Nat := 0
  /-- The dependence word has been seen to hold (R224). -/
  depMet  : Bool := false
  /-- Clusters begun and retired. -/
  begun   : Nat := 0
  retired : Nat := 0
  /-- Clock at which its next cluster first failed to fit; it has become blocking (R225). -/
  failedAt : Option Nat := none
  blocking : Bool := false
  /-- Clusters flushed for restart (R428). -/
  restart : List Nat := []
  /-- The captured parameter block: its mapping at grid start, and the old values of bytes stored over since, by offset
  (R223). -/
  param : ParamMap := .none
  paramOld : Table Byte := []
  deriving DecidableEq, Repr

/-- A queue of a front end (R216 to R219). DESIGN CHOICE, log entry 2. -/
structure Queue where
  setUp    : Bool := false
  halted   : Bool := true
  ctx      : Nat := 0
  fn       : Nat := 0
  space    : Bool := false
  base     : Nat := 0
  log2n    : Nat := 0
  cpl      : Nat := 0
  producer : Nat := 0
  consumed : Nat := 0
  /-- Sequence number of the last packet accepted, and of the last completion word written. -/
  accepted : Nat := 0
  written  : Nat := 0
  rejection : Nat := 0
  /-- Device-side queues: posted packets (posting context and bytes), oldest first. -/
  posts    : List (Nat × List Byte) := []
  /-- Completion words ready to be written: (sequence, status, context). -/
  finished : List (Nat × Nat × Nat) := []
  /-- A slot load that waits for its page (R218). -/
  waiting  : Bool := false
  deriving DecidableEq, Repr

/-- A command front end and its partition (R215, R237, R436, R456). DESIGN CHOICE, log entry 2. -/
structure FrontEnd where
  base    : Nat := 1
  limit   : Nat := 0
  colours : Nat := 0xFFFF
  /-- Slice length in force, the one set for the next slice, and the clock of the next boundary. -/
  sl      : Nat := 1048576
  slNext  : Nat := 1048576
  nextSlice : Nat := 1048576
  /-- Clock at which it is next free to place (R225). -/
  freeAt  : Nat := 0
  /-- Cores that a request still in progress asks to vacate (R456). -/
  vacating : List Nat := []
  queues  : Table Queue := []
  deriving DecidableEq, Repr

/-! ### Cores -/

/-- A line of L2 under a key domain that is not its frame's: its 128 bytes, and whether a store has changed them (R236, R257). -/
structure ForeignLine where
  bytes : List Byte
  dirty : Bool := false
  deriving DecidableEq, Repr

/-- A leaf as a translation cache holds it: where its entry stands, the entry, its companion word, and whether it maps 1 GiB
(R243). -/
structure CachedLeaf where
  at'  : Nat
  pte  : DWord
  comp : DWord
  giB  : Bool
  deriving DecidableEq, Repr

/-- A resident slot of a core (R432 to R437). -/
structure Resident where
  ctx     : Nat
  /-- Owned register banks, one bit each. -/
  banks   : Nat
  /-- Gated by the service firmware; by its budget; by `ctx.gate.yield`. -/
  gated   : Bool := false
  spent   : Bool := false
  yielded : Bool := false
  /-- The first and the last of these as they stood when the clock began: a gate holds from the clock after it (R433). -/
  gatedNow   : Bool := false
  yieldedNow : Bool := false
  balance : Int := 0
  /-- Clock at which the balance gated it. -/
  spentAt : Nat := 0
  /-- Engine work halted (R348), and its cause where no group of the team could be given it (R426). -/
  halted  : Bool := false
  owed    : Option TrapInfo := none
  deriving DecidableEq, Repr

/-- An issue slice (R173, R409, R421, R423). DESIGN CHOICE, log entry 2. -/
structure Slice where
  /-- Datapath that serves each lane position. -/
  pos    : List Nat := fromTo 0 32
  failed : BitVec 33 := 0
  deg    : Bool := false
  out    : Bool := false
  /-- Special-function mismatches in a row. -/
  sfuMiss : Nat := 0
  /-- The groups that hold the two frame stores. -/
  stores : Option Nat × Option Nat := (none, none)
  /-- Order numbers of register grow requests made in the slice. -/
  growSeq : Nat := 0
  /-- Issue resources held: the clock at which each is free (R172, R229). -/
  busy   : Table Nat := []
  /-- Bank ports taken at clocks to come: bank, clock, whether it is the write port (R229). -/
  ports  : List (Nat × Nat × Bool) := []
  deriving DecidableEq, Repr

/-- A row of a bank (R260, R277). -/
inductive RowPhase where
  | opening (row readyAt : Nat)
  | open (row : Nat)
  | closing (row freeAt : Nat)
  | refreshing (freeAt : Nat)
  deriving DecidableEq, Repr

/-- One bank of a column (R260, R276, R281). -/
structure Bank where
  phase   : Option RowPhase := none
  /-- Clock at which the open row's activate was accepted. -/
  actAt   : Nat := 0
  /-- Clock of the last write data in the row buffer. -/
  writeAt : Nat := 0
  /-- The close was accepted and waits. -/
  closeWanted : Bool := false
  owner   : Option Nat := none
  /-- The context whose data its rows hold: its last owner (R262). -/
  lastOwner : Option Nat := none
  /-- When its last refresh operation fell due. -/
  refreshed : Option Nat := none
  /-- Rows the patrol scrubber has read since reset (R283). -/
  scrubs  : Nat := 0
  deriving DecidableEq, Repr

/-- An accepted row operation on its way (R272, R273, R385). -/
structure RowOp where
  bank   : Nat
  row    : Nat
  write  : Bool
  /-- Group and its counted operation; for `row.con`, the team and descriptor. -/
  gid    : Nat
  op     : Nat
  team   : Nat
  latch  : Option Nat := none
  /-- First scratchpad byte of the core's array, and the generation of the allocation (R349). -/
  off    : Nat := 0
  gen    : Nat := 0
  /-- When its delivery started, or, of a write, when its last source line was present (R276, R277). -/
  started : Option Nat := none
  /-- The source bytes of a write as they stood then (R273). -/
  snap   : List Byte := []
  deriving DecidableEq, Repr

/-- A layer of a column (R282). DESIGN CHOICE, log entry 2. -/
structure Layer where
  /-- Refresh interval in ms. -/
  interval : Nat := 64
  /-- Clean windows in a row; corrected symbols of this window. -/
  clean    : Nat := 0
  corrected : Nat := 0
  celsius  : Nat := 25
  /-- Clock at which this window ends. -/
  windowEnd : Nat := 750000000
  deriving DecidableEq, Repr

/-- A scratchpad that engine writes go to: a core, the first byte and size of the allocation in the core's array, and its
generation when the record started (R349). -/
structure Target where
  core : Nat
  base : Nat
  size : Nat
  gen  : Nat
  deriving DecidableEq, Repr

/-- A posted Reel chain (R336), with the record it runs (R334). -/
structure Chain where
  team   : Nat
  ctx    : Nat
  gid    : Nat
  /-- Its counted operation. -/
  op     : Nat
  /-- The own scratchpad of the posting team, and its rank. -/
  own    : Target
  rank   : Nat
  /-- PRIO of its grid. -/
  prio   : Nat
  /-- Address of the record to run, and its space (true: `.l`). -/
  head   : Nat
  local' : Bool
  /-- It has started: a record of it has been read (R336). -/
  begun  : Bool := false
  /-- The page or region its channel is parked on (R334). -/
  park   : Option Park := none
  /-- A record has been started; its bytes as read, its layout record or parameter block, its key, its targets. -/
  running : Bool := false
  record : List Byte := []
  aux    : List Byte := []
  key    : BitVec 256 := 0
  targets : List Target := []
  /-- Lines it is still to make absent, and those it has: core and line (R334). -/
  clearing : List (Nat × Nat) := []
  cleared : List (Nat × Nat) := []
  /-- Progress: the kind's units done and bytes of the next one, bytes of its stream or selected rows passed, bytes written. -/
  pos    : Nat := 0
  sub    : Nat := 0
  out    : Nat := 0
  done   : Nat := 0
  /-- What it has written last of a unit with a mark of its own, and the line of its last poisoned piece (R333, R424). -/
  part   : List StoreWrite := []
  badAt  : Option Place := none
  /-- Its status and credit have been given: its NEXT is still to be read (R334). -/
  told   : Bool := false
  /-- Its stream is malformed: what is left of the destination is being poisoned (R346). -/
  broken : Bool := false
  err    : Nat := 0
  foff   : Nat := 0
  /-- Nothing more of the record is to move. -/
  moved  : Bool := false
  /-- Step 1 failed: the credit is that of R335. -/
  early  : Bool := false
  /-- The chain ends with this record: its context's engine work was halted. -/
  stop   : Bool := false
  deriving DecidableEq, Repr

/-- A record that a linking `reel.add` put behind another (R337), with the operation that counts it. -/
structure Link where
  addr : Nat
  local' : Bool
  ctx  : Nat
  team : Nat
  gid  : Nat
  op   : Nat
  deriving DecidableEq, Repr

/-- An entry of a Spindle queue (R356): 16 words, or a poison entry. -/
structure QEntry where
  words  : List Word
  poison : Bool := false
  deriving DecidableEq, Repr

/-- What the Spindle has still to write to a job descriptor (R352, R359). -/
structure Report where
  ctx  : Nat
  /-- The grid whose job it was: it is not complete before (R224). -/
  grid : Nat := 0
  desc : Nat
  err  : Nat
  foff : Word
  done : Nat
  deriving DecidableEq, Repr

/-- A halt of a context's engine work that a job's end brings (R348, R359): what cause 0x0E tells. -/
structure Halt where
  ctx  : Nat
  team : Nat
  desc : Nat
  foff : Word
  deriving DecidableEq, Repr

/-- A Spindle queue and the job bound to it (R351 to R359). -/
structure SpQueue where
  /-- Context the queue is bound to. -/
  ctx     : Option Nat := none
  running : Bool := false
  team    : Nat := 0
  gid     : Nat := 0
  entries : List QEntry := []
  /-- Entries pushed, poison excluded, and ENTRIES; poison still to push. -/
  done    : Nat := 0
  limit   : Nat := 0
  poison  : Nat := 0
  desc    : Nat := 0
  /-- Addresses of the program and of what follows its last instruction. -/
  prog    : Nat := 0
  progEnd : Nat := 0
  /-- Backward branches: address, limit, times taken. -/
  loops   : List (Nat × Nat × Nat) := []
  /-- The job has ended with this ERR and FOFF, its poison entries not all pushed yet. -/
  ending  : Option (Nat × Word) := none
  /-- Halts that ends of its jobs bring, still to happen, and reports still to be written. -/
  halts   : List Halt := []
  reports : List Report := []
  deriving DecidableEq, Repr

/-- A Carder deposit (R360). -/
structure Deposit where
  team    : Nat
  target  : DWord
  key     : Word
  words   : List Word
  deriving DecidableEq, Repr

/-- A group of deposits that is ready to launch, and the clock in which it became so (R361). -/
structure Ready where
  clock   : Nat
  team    : Nat
  target  : DWord
  key     : Word
  entries : List Deposit
  deriving DecidableEq, Repr

/-- A saved team (R443): what its core and its engines held. Its registers of R365, its barriers and its groups stay under
their numbers. -/
structure SavedTeam where
  tid    : Nat
  /-- Scratchpad bytes by offset, and its poisoned lines. -/
  scratch : Table Byte := []
  scratchBad : List Nat := []
  /-- Chains by channel, linked records, Spindle queues with the jobs that run on them, Carder entries. -/
  chains : List (Nat × Chain) := []
  links  : List Link := []
  jobs   : List (Nat × SpQueue × Option Group) := []
  deposits : List Deposit := []
  ready  : List Ready := []
  deriving DecidableEq, Repr

/-- A saved cluster (R443 to R446): its teams as they are saved, in rank order, and every run of bytes the device wrote to its
slot, by virtual address, which the check value covers. -/
structure SavedCluster where
  teams : List SavedTeam := []
  written : List (Nat × List Byte) := []
  deriving DecidableEq, Repr

/-- A cluster (R169). -/
structure Cluster where
  grid    : Nat
  index   : Nat
  /-- The cores of its teams in rank order; empty while saved. -/
  cores   : List Nat
  barriers : Table Barrier := []
  retired : Bool := false
  /-- What has been saved of it; it waits to resume when every team has been (R443). -/
  saved   : Option SavedCluster := none
  /-- Save slot taken when its first group trapped, and the one it is being restored from (R444). -/
  slot    : Option Nat := none
  oldSlot : Option Nat := none
  /-- It has been asked to leave its cores, for this reason (R440); 0 otherwise. -/
  leaving : Nat := 0
  deriving DecidableEq, Repr

/-- A column object as mapped (R263). -/
structure ColObject where
  desc   : DWord
  moving : Bool := false
  deriving DecidableEq, Repr

/-- A core (R8, R185, R233, R260, R336, R351, R360). DESIGN CHOICE, log entry 2. -/
structure Core where
  /-- `sr.clk` counts from this module clock. -/
  clk0     : Nat := 0
  residents : Table Resident := []
  /-- Byte of the scratchpad array; unlisted 0. -/
  scratch  : Table Byte := []
  /-- Absent 128-byte lines, with how many engine writes each waits for (R234). -/
  absent   : Table Nat := []
  /-- Poisoned 128-byte lines (R424). -/
  scratchBad : List Nat := []
  /-- Generation of each 256 KiB granule (R349). -/
  gens     : Table Nat := []
  slices   : Table Slice := []
  /-- COLSPLIT (R261). -/
  colsplit : Nat := 0
  /-- Handle h of context c at key 64 c + h (R265). -/
  objects  : Table ColObject := []
  /-- Banks at key 16 layer + bank. -/
  banks    : Table Bank := []
  /-- Byte b of row r of bank k at key (4096 k + r) 2048 + b; unlisted 0. -/
  rows     : Table Byte := []
  /-- 64-byte codewords beyond correction, by key / 64 (R280). -/
  rowsBad  : List Nat := []
  /-- Codewords with wrong byte symbols that no activate has met yet, by key / 64, with how many (R280). -/
  flips    : Table Nat := []
  rowOps   : Table RowOp := []
  layers   : Table Layer := []
  /-- Clocks of recent activates: (clock, layer) (R278). -/
  acts     : List (Nat × Nat) := []
  /-- Retraining: next due, end of the one running (R284, R285). -/
  retrainAt : Nat := 67108864
  retrainEnd : Option Nat := none
  /-- Chains of the Reel channels, running one first (R336). -/
  reel     : Table (List Chain) := []
  /-- Channel last served, and the clock at which the engine is next free (R338). -/
  reelLast : Nat := 3
  reelFree : Nat := 0
  links    : List Link := []
  spindle  : Table SpQueue := []
  spLast   : Nat := 3
  deposits : List Deposit := []
  ready    : List Ready := []
  /-- 32-byte sectors of the L1 that may hold older data: sector address, with the key domain above it where that is not the
  frame's, to the bytes when filled (R148, R235). -/
  l1       : Table (List Byte) := []
  /-- Sectors of it from before an acquire below `.die`: no descriptor is read from them any more (R168). -/
  l1Passed : List Nat := []
  /-- The L1 TLB: context and virtual page to the leaf as cached (R243). -/
  tlb      : Table CachedLeaf := []
  /-- 32-byte code blocks held by the instruction cache that may be older (R36). -/
  icache   : Table (List Byte) := []
  /-- Outstanding page faults: context and virtual page (R247). -/
  faults   : List (Nat × Nat) := []
  deriving DecidableEq, Repr

/-! ### Contexts and shared content -/

/-- A context: its descriptor (R430, R431) and what the device keeps for it. -/
structure Context where
  part     : Nat := 0
  forking  : Bool := false
  /-- STATE. -/
  state    : Nat := 1
  root     : Nat := 0
  handler  : DWord := 0
  saveBase : DWord := 0
  saveSz   : DWord := 0
  callBase : DWord := 0
  callSlots : Nat := 0
  /-- Producer count of the call ring, and the slots in use. -/
  callCount : Nat := 0
  callBusy : List Nat := []
  ctime    : Nat := 0
  timerCmp : Nat := 0
  budget   : Nat := 0
  wsBase   : DWord := 0
  wsLen    : Nat := 0
  dropped  : Nat := 0
  faultLog : DWord := 0
  forkSrc  : DWord := 0
  keys     : DWord := 0
  /-- Save slots in use (R444). -/
  slots    : List Nat := []
  /-- Pages that a scan found and that its list has still to take (R448). -/
  wsFound  : List Nat := []
  /-- Passes for which the D bit of a page has stayed clear (R251), by virtual page number. -/
  clean    : Table Nat := []
  /-- The other context of a fork pair and the level-1 indices still pending; this is the new context (R453, R454). -/
  forkPeer : Option Nat := none
  pendingRegions : List Nat := []
  isNew    : Bool := false
  /-- What the L2 TLBs of the dies hold of it: die and virtual page to the leaf as cached (R243). -/
  tlb      : Table CachedLeaf := []
  /-- What their walk caches hold: die, level and index to a non-leaf entry (R243). -/
  walks    : Table DWord := []
  /-- The near pages of a context that has left its last core are to be demoted (R450). -/
  leftCores : Bool := false
  /-- The context has been migrated; its private frames follow at each pass (R491). -/
  migrated : Bool := false
  deriving DecidableEq, Repr

/-- A shared frame in the content directory (R256, R487). -/
structure Shared where
  domain : Nat
  refs   : Nat
  /-- Keyed hash of its content (R251). -/
  hash   : DWord
  deriving DecidableEq, Repr

/-- A key domain (R504). -/
structure KeyDomain where
  /-- The dedup domain it belongs to; none for a context's private key. -/
  dedup  : Option Nat := none
  /-- Members: the context, or the contexts of the dedup domain. -/
  owners : List Nat := []
  deriving DecidableEq, Repr

/-! ### The module, the host and the security monitor -/

/-- A crossing write that has not been acknowledged, or a release or later write held at a die-edge switch (R486). -/
structure Crossing where
  agent : Nat
  /-- The home die. -/
  home  : Nat
  deriving DecidableEq, Repr

/-- A PCIe function (R502, R503). DESIGN CHOICE, log entry 2. -/
structure Function where
  fe     : Option Nat := none
  queues : Nat := 0
  ctxs   : List Nat := []
  /-- TDISP state: 0 CONFIG_UNLOCKED, 1 CONFIG_LOCKED, 2 RUN, 3 ERROR. -/
  tdi    : Nat := 0
  /-- Dropped doorbell writes that were logged. -/
  logged : Nat := 0
  /-- Nonces of completed SPDM key exchanges, newest first. -/
  sessions : List (BitVec 256) := []
  deriving DecidableEq, Repr

/-- A stream slot of an encoder (R511, R514). -/
structure EncSlot where
  ctx    : Option Nat := none
  /-- Width, height and codec of the previous frame; its target in bits; the next frame is a key frame. -/
  last   : Option (Nat × Nat × Nat) := none
  rate   : Nat := 0
  forceKey : Bool := false
  deriving DecidableEq, Repr

/-- A frame encoder (R511). DESIGN CHOICE, log entry 2. -/
structure Encoder where
  slots : Table EncSlot := []
  /-- Posted descriptors: context and bytes, oldest first. -/
  queue : List (Nat × List Byte) := []
  deriving DecidableEq, Repr

/-- A decrypt key slot (R505). -/
structure KeySlot where
  key : BitVec 256
  ctx : Nat
  deriving DecidableEq, Repr

/-- A voltage island of four cores (R515, R518). DESIGN CHOICE, log entry 2. -/
structure Island where
  on   : Bool := true
  /-- Clock at which a power-up ends. -/
  upAt : Option Nat := none
  duty : Nat := 16
  deriving DecidableEq, Repr

/-- An external port (R498 to R500). DESIGN CHOICE, log entry 2. -/
structure Port where
  trained : Bool := false
  down    : Bool := false
  /-- The peer advertised that it holds encoded lines (R494). -/
  encoded : Bool := false
  deriving DecidableEq, Repr

/-- The event ring of the security monitor (R510). DESIGN CHOICE, log entry 2. -/
structure Ring where
  set    : Bool := false
  base   : Nat := 0
  count  : Nat := 0
  write  : Nat := 0
  /-- Sequence number of the last entry ever written; events lost since the last 0x1FF entry. -/
  seq    : Nat := 0
  lost   : Nat := 0
  deriving DecidableEq, Repr

/-- How far the boot of R506 has come. -/
inductive BootState where
  | reset | halted | monitor | running
  deriving DecidableEq, Repr

/-- A request that completes later, under R510 or to an agent outside. -/
inductive Later where
  | colsplit (core value : Nat)
  /-- The clusters that were asked to leave. -/
  | leave (ctx : Nat) (cids : List Nat)
  | vacate (fe : Nat) (cores : List Nat)
  | destroy (ctx : Nat)
  | migrate (ctx die : Nat)
  | compact (core value : Nat)
  /-- A PCIe request or atomic that waits for a page. -/
  | request (fn ctx address : Nat) (data : List Byte) (n : Nat)
  | atomic (fn ctx va op size : Nat) (x y : DWord)
  deriving DecidableEq, Repr

/-- One thing the machine does next (the order in which the parts of the module act in one clock). DESIGN CHOICE, log entry 1. -/
inductive Turn where
  /-- A group issues the instruction at its head. -/
  | issue (gid : Nat)
  /-- An issue slice makes its picks (R230). -/
  | slice (core slice : Nat)
  /-- A group whose first pick was instruction `first` may issue the one after it, at `pc` (R230). -/
  | second (gid : Nat) (first : Instr) (pc : DWord)
  /-- A team's sequencer issues its next instruction (R368). -/
  | matrix (tid : Nat)
  /-- A step that is no instruction. -/
  | event (i : Instr)
  deriving DecidableEq, Repr

/-- What goes wrong with stored data from outside: byte symbols of a row's codeword (R280), the check of a line of module memory
(R425), the host-tier copy of a page (R249). -/
inductive Upset where
  /-- Codeword of a core's column, by key / 64, and the number of its wrong symbols. -/
  | codeword (core unit n : Nat)
  /-- Line of module memory, by address over 128. -/
  | line (line : Nat)
  /-- A page of the host tier or a peer module, by location over 131,072. -/
  | backing (page : Nat)
  deriving DecidableEq, Repr

/-- The module. -/
structure State where
  /-- Core clocks since the module's reset (R436). -/
  clock    : Nat
  /-- Number of free values drawn so far: the model's own field. -/
  free     : Nat
  /-- What is still to happen in this clock, and inputs from outside by arrival clock. -/
  agenda   : List Turn
  inputs   : List (Nat × Instr)
  /-- Damage to stored data from outside, by the clock from which it stands. -/
  upsets   : List (Nat × Upset)
  /-- The group or sequencer whose instruction is being executed, and where it stands. -/
  issuer   : Option Nat
  seqIssuer : Option Nat
  /-- Next unused number of a group, team, cluster, grid, pending write, store, operation, request. -/
  fresh    : Nat
  groups   : Table Group
  teams    : Table Team
  clusters : Table Cluster
  grids    : Table Grid
  fronts   : Table FrontEnd
  cores    : Table Core
  ctxs     : Table Context
  /-- Register writes and stores on their way. -/
  pends    : Table Pend
  stores   : Table PendStore
  /-- Module memory, by physical address (R480), in canonical form; unlisted bytes read 0. -/
  mem      : List Host.Cell
  /-- Poisoned 32-byte sectors (R424), and 128-byte lines whose CRC fails (R425), by address over size. -/
  memBad   : List Nat
  crcBad   : List Nat
  /-- Host memory by bus address and function: key (function 2^64 + address). -/
  hostMem  : Table Byte
  /-- The service firmware's memory on the management core, and its registers a0 and a1 after the last monitor call
  (R509). -/
  fwMem    : Table Byte
  callA0   : Nat
  callA1   : Nat
  /-- The 4 KiB mailbox in BAR 0 of function 0 (R510). -/
  mailbox  : Table Byte
  /-- The bytes of the last answer to an agent outside (R496, R501, R507). -/
  reply    : List Byte
  /-- Host-tier and peer-module page images by backing location (R238, R499). -/
  backing  : Table Byte
  /-- 32-byte sectors of backing pages that are poisoned or cannot be read (R249). -/
  backingBad : List Nat
  /-- The port behind which a backing page lies, by location over 131,072; unlisted: host memory (R499, R500). -/
  portTable : Table Nat
  /-- L2 lines held under a key domain other than their frame's, by domain and line (R236, R257). -/
  foreign  : Table ForeignLine
  /-- Tagged lines: each core that made a `.grp` or `.team` release there, with the number of its latest (R303). -/
  tags     : Table (List (Nat × Nat))
  /-- Frames in use, by PA[47:17], with their key domain; shared frames (R256). -/
  frames   : Table Nat
  shared   : Table Shared
  keyDoms  : Table KeyDomain
  keySlots : Table KeySlot
  /-- Die-edge fence counters by agent: cores 0 to 191, front ends 192 to 207, encoders 208 to 215, PCIe 216, external
  ports 217 to 220 (R486). -/
  fences   : Table Nat
  crossings : Table Crossing
  /-- Releases held at a switch: agent, with the stores behind them. -/
  heldRel  : Table (List Nat)
  /-- Mborok links that are down, as 5 a + b with a < b, die 4 being the I/O die (R485), and flits replayed. -/
  linksDown : List Nat
  replayed : Nat
  ports    : Table Port
  functions : Table Function
  encoders : Table Encoder
  islands  : Table Island
  profile  : Nat
  mergeN   : Nat
  forkPolicy : Nat
  /-- Measurement registers (R507). -/
  mrs      : Table (BitVec 256)
  ring     : Ring
  boot     : BootState
  /-- How often the monitor has started the service firmware. -/
  fwStarts : Nat
  /-- Datapaths that the part's fuses record as failed (R421): core, slice, datapath. -/
  fuses    : List (Nat × Nat × Nat)
  laters   : List Later
  /-- Clock from which each layer or die has been above its trip point, by key (R517). -/
  hot      : Table Nat
  deriving DecidableEq, Repr

/-! ### Faults and refusals -/

/-- Stops of the model that are not traps of the machine. -/
inductive Fault where
  /-- A group instruction was executed with no group issuing it, or a stream instruction with no sequencer: raised by every
  such meaning. Safe: no run of `step` meets it. -/
  | noGroup
  deriving DecidableEq, Repr

/-- What the model does not run. -/
inductive Refusal where
  /-- An instruction whose meaning is not written; raised by `exec` only. Safe: the run stops. -/
  | notModelled (mnemonic : String)
  deriving DecidableEq, Repr

/-! ### Reset -/

/-- The module right after reset, with no firmware loaded: every front end with an empty partition (R215), every core with
no resident context and COLSPLIT 0 (R261), memory with nothing listed, measurement registers zero (R507). DESIGN CHOICE, log entry 2. -/
def State.reset : State where
  clock := 0
  free := 0
  agenda := []
  inputs := []
  upsets := []
  issuer := none
  seqIssuer := none
  fresh := 0
  groups := []
  teams := []
  clusters := []
  grids := []
  fronts := []
  cores := []
  ctxs := []
  pends := []
  stores := []
  mem := []
  memBad := []
  crcBad := []
  foreign := []
  tags := []
  hostMem := []
  fwMem := []
  callA0 := 0
  callA1 := 0
  mailbox := []
  reply := []
  backing := []
  backingBad := []
  portTable := []
  frames := []
  shared := []
  keyDoms := []
  keySlots := []
  fences := []
  crossings := []
  heldRel := []
  linksDown := []
  replayed := 0
  ports := []
  functions := []
  encoders := []
  islands := []
  profile := 1000
  mergeN := 4
  forkPolicy := 0
  mrs := []
  ring := {}
  boot := .reset
  fwStarts := 0
  fuses := []
  laters := []
  hot := []

end Sys2Proof.Machine
end

