-- ==== Sys2Proof/Machine/Flags.lean ====
section
/-!
DEFINITION. The float status word (R20): its flags, and how an instruction's flags reach the lanes.
-/
namespace Sys2Proof.Machine
open Sys2Proof

/-- FSTAT bit 0: an invalid operation, or a signalling NaN read. -/
def fNV : Nat := 1
/-- FSTAT bit 1: a division by zero. -/
def fDZ : Nat := 2
/-- FSTAT bit 2: an overflow. -/
def fOF : Nat := 4
/-- FSTAT bit 3: a tiny inexact result. -/
def fUF : Nat := 8
/-- FSTAT bit 4: an inexact result. -/
def fNX : Nat := 16
/-- FSTAT bit 5: an integer result was saturated. -/
def fSAT : Nat := 32

/-- FSTAT of lane l. -/
def fstatOf (t : Thread) (l : Nat) : Word := tget 0 t.fstat l

/-- Set flags in one lane; nothing clears here (R20). -/
def raise1 (t : Thread) (l flags : Nat) : Thread :=
  { t with fstat := tput 0 t.fstat l (fstatOf t l ||| BitVec.ofNat 32 flags) }

/-- Set flags in every lane of a list (R95, R197). -/
def raiseAll (t : Thread) (ls : List Nat) (flags : Nat) : Thread :=
  if flags = 0 then t else ls.foldl (fun t l => raise1 t l flags) t

/-- Clear FSTAT in the lanes of a list (R20, R212). -/
def clearFstat (t : Thread) (ls : List Nat) : Thread :=
  { t with fstat := ls.foldl (fun x l => tput 0 x l 0) t.fstat }

end Sys2Proof.Machine
end

