-- ==== Sys2Proof/Machine/Access.lean ====
section
/-!
DEFINITION. Reading and writing the parts of the state by number, and the registers of a thread (R13 to R17).
-/
namespace Sys2Proof.Machine
open Sys2Proof

/-! ### Parts of the module -/

/-- Linear core number as die, x and y (R8). -/
def coreDie (c : Nat) : Nat := c / 48
def coreX (c : Nat) : Nat := c % 48 % 8
def coreY (c : Nat) : Nat := c % 48 / 8
/-- The linear number of a position. -/
def coreAt (die x y : Nat) : Nat := die * 48 + y * 8 + x

def State.core (s : State) (c : Nat) : Core := tget {} s.cores c
def State.setCore (s : State) (c : Nat) (k : Core) : State := { s with cores := tput {} s.cores c k }
def State.modCore (s : State) (c : Nat) (f : Core → Core) : State := s.setCore c (f (s.core c))

def State.front (s : State) (f : Nat) : FrontEnd := tget {} s.fronts f
def State.setFront (s : State) (f : Nat) (x : FrontEnd) : State := { s with fronts := tput {} s.fronts f x }
def State.modFront (s : State) (f : Nat) (g : FrontEnd → FrontEnd) : State := s.setFront f (g (s.front f))
def FrontEnd.queue (x : FrontEnd) (q : Nat) : Queue := tget {} x.queues q
def FrontEnd.setQueue (x : FrontEnd) (q : Nat) (y : Queue) : FrontEnd := { x with queues := tput {} x.queues q y }
def State.queue (s : State) (f q : Nat) : Queue := (s.front f).queue q
def State.setQueue (s : State) (f q : Nat) (y : Queue) : State := s.modFront f fun x => x.setQueue q y

def State.group (s : State) (gid : Nat) : Option Group := tfind s.groups gid
def State.setGroup (s : State) (gid : Nat) (g : Group) : State := { s with groups := tins s.groups gid g }
def State.modGroup (s : State) (gid : Nat) (f : Group → Group) : State := { s with groups := tadj s.groups gid f }
def State.team (s : State) (tid : Nat) : Option Team := tfind s.teams tid
def State.setTeam (s : State) (tid : Nat) (t : Team) : State := { s with teams := tins s.teams tid t }
def State.modTeam (s : State) (tid : Nat) (f : Team → Team) : State := { s with teams := tadj s.teams tid f }
def State.cluster (s : State) (cid : Nat) : Option Cluster := tfind s.clusters cid
def State.modCluster (s : State) (cid : Nat) (f : Cluster → Cluster) : State :=
  { s with clusters := tadj s.clusters cid f }
def State.grid (s : State) (n : Nat) : Option Grid := tfind s.grids n
def State.modGrid (s : State) (n : Nat) (f : Grid → Grid) : State := { s with grids := tadj s.grids n f }
def State.ctx (s : State) (c : Nat) : Option Context := tfind s.ctxs c
def State.modCtx (s : State) (c : Nat) (f : Context → Context) : State := { s with ctxs := tadj s.ctxs c f }

def State.function (s : State) (n : Nat) : Function := tget {} s.functions n
def State.setFunction (s : State) (n : Nat) (x : Function) : State := { s with functions := tput {} s.functions n x }
def State.encoder (s : State) (n : Nat) : Encoder := tget {} s.encoders n
def State.setEncoder (s : State) (n : Nat) (x : Encoder) : State := { s with encoders := tput {} s.encoders n x }
def Encoder.slot (e : Encoder) (n : Nat) : EncSlot := tget {} e.slots n
def State.island (s : State) (n : Nat) : Island := tget {} s.islands n
def State.setIsland (s : State) (n : Nat) (x : Island) : State := { s with islands := tput {} s.islands n x }
def State.port (s : State) (n : Nat) : Port := tget {} s.ports n
def State.setPort (s : State) (n : Nat) (x : Port) : State := { s with ports := tput {} s.ports n x }

def Core.slice (k : Core) (n : Nat) : Slice := tget {} k.slices n
def Core.setSlice (k : Core) (n : Nat) (x : Slice) : Core := { k with slices := tput {} k.slices n x }
def Core.bank (k : Core) (n : Nat) : Bank := tget {} k.banks n
def Core.setBank (k : Core) (n : Nat) (x : Bank) : Core := { k with banks := tput {} k.banks n x }
def Core.layer (k : Core) (n : Nat) : Layer := tget {} k.layers n
def Core.setLayer (k : Core) (n : Nat) (x : Layer) : Core := { k with layers := tput {} k.layers n x }
def Core.spq (k : Core) (n : Nat) : SpQueue := tget {} k.spindle n
def Core.setSpq (k : Core) (n : Nat) (x : SpQueue) : Core := { k with spindle := tput {} k.spindle n x }
def Core.channel (k : Core) (n : Nat) : List Chain := tget [] k.reel n
def Core.setChannel (k : Core) (n : Nat) (x : List Chain) : Core := { k with reel := tput [] k.reel n x }

/-- The resident slot of a context on a core. -/
def Core.residentOf (k : Core) (ctx : Nat) : Option (Nat × Resident) := k.residents.find? fun x => x.2.ctx == ctx
def Core.modResident (k : Core) (ctx : Nat) (f : Resident → Resident) : Core :=
  { k with residents := k.residents.map fun x => if x.2.ctx = ctx then (x.1, f x.2) else x }
/-- The context's engine work is halted on the core (R348). -/
def Core.halted (k : Core) (ctx : Nat) : Bool := ((k.residentOf ctx).map fun x => x.2.halted).getD false

/-- The register banks a context owns on a core (R186). -/
def ownedBanks (s : State) (core ctx : Nat) : Nat := ((s.core core).residentOf ctx).elim 0 fun r => r.2.banks

/-- A number not used before. -/
def State.newId (s : State) : Nat × State := (s.fresh, { s with fresh := s.fresh + 1 })

/-- Something that is to happen at a clock, in its place among what is to come. -/
def State.addInput (s : State) (t : Nat) (i : Instr) : State :=
  { s with inputs := insertBy (fun a b => decide (a.1 < b.1)) (t, i) s.inputs }

/-- A free value below `n` (0 where n is 0). DESIGN CHOICE, log entry 5. -/
def State.draw (s : State) (n : Nat) : Nat × State := (Config.freeNat s.free % n, { s with free := s.free + 1 })

/-! ### Threads -/

/-- The registers that instructions of the group name: the handler's while one runs (R410). -/
def Group.thread (g : Group) : Thread :=
  match g.handler with
  | some h => h.thread
  | none => g.main

def Group.setThread (g : Group) (t : Thread) : Group :=
  match g.handler with
  | some h => { g with handler := some { h with thread := t } }
  | none => { g with main := t }

/-- PRIV (R22): a group runs at supervisor privilege in a handler and nowhere else. -/
def Group.priv (g : Group) : Bool := g.handler.isSome

/-- The mask of all lanes of the group's width. -/
def Group.full (g : Group) : LaneMask := lowLanes g.width

/-- All live lanes: those of every entry (R178). -/
def liveOf (t : Thread) : LaneMask := t.frontier.foldl (fun m e => m ||| e.mask) 0

def vreg (t : Thread) (r l : Nat) : Word := tget 0 t.vregs (64 * r + l)
def setVreg (t : Thread) (r l : Nat) (x : Word) : Thread := { t with vregs := tput 0 t.vregs (64 * r + l) x }
def sreg (t : Thread) (r : Nat) : Word := tget 0 t.sregs r
def setSreg (t : Thread) (r : Nat) (x : Word) : Thread := { t with sregs := tput 0 t.sregs r x }
def pmask (t : Thread) (p : Nat) : LaneMask := tget 0 t.preds p
def predBit (t : Thread) (p l : Nat) : Bool := (pmask t p).getLsbD l
def setPred (t : Thread) (p l : Nat) (x : Bool) : Thread :=
  { t with preds := tput 0 t.preds p (if x then pmask t p ||| laneBit l else pmask t p &&& ~~~laneBit l) }
def rngOf (t : Thread) (l : Nat) : DWord := tget 0 t.rng l
def setRng (t : Thread) (l : Nat) (x : DWord) : Thread := { t with rng := tput 0 t.rng l x }
def flagCount (t : Thread) (f : Nat) : Nat := tget 0 t.flags f
def setFlagCount (t : Thread) (f n : Nat) : Thread := { t with flags := tput 0 t.flags f n }

/-- `w` consecutive words of a vector register block, as one number (R16). -/
def vwide (t : Thread) (r l : Nat) : Nat → Nat
  | 0 => 0
  | w + 1 => (vreg t r l).toNat + 2 ^ 32 * vwide t (r + 1) l w
def swide (t : Thread) (r : Nat) : Nat → Nat
  | 0 => 0
  | w + 1 => (sreg t r).toNat + 2 ^ 32 * swide t (r + 1) w
def setVwide (t : Thread) (r l : Nat) : Nat → Nat → Thread
  | 0, _ => t
  | w + 1, x => setVwide (setVreg t r l (BitVec.ofNat 32 x)) (r + 1) l w (x / 2 ^ 32)
def setSwide (t : Thread) (r : Nat) : Nat → Nat → Thread
  | 0, _ => t
  | w + 1, x => setSwide (setSreg t r (BitVec.ofNat 32 x)) (r + 1) w (x / 2 ^ 32)

/-! ### Random state (R21) -/

def mix64 (z : DWord) : DWord :=
  let z := (z ^^^ (z >>> 30)) * 0xBF58476D1CE4E5B9#64
  let z := (z ^^^ (z >>> 27)) * 0x94D049BB133111EB#64
  z ^^^ (z >>> 31)

/-- `seed(S, C, T)`. -/
def rngSeed (seed : Word) (c t : Nat) : DWord :=
  mix64 (((seed.zeroExtend 64) <<< 32) ||| ((BitVec.ofNat 32 c).zeroExtend 64)) ^^^ BitVec.ofNat 64 t

/-- The next state of RNG. -/
def rngStep (x : DWord) : DWord := x * 0x5851F42D4C957F2D#64 + 0x14057B7EF767814F#64

/-- The 32 random bits that a state delivers. -/
def rngBits (x : DWord) : Word :=
  ((x.extractLsb' 32 32) ^^^ (x.extractLsb' 0 32)).rotateRight (x.toNat / 2 ^ 59)

/-- `rng_next(l)`: the bits, and the thread with RNG advanced. -/
def rngNext (t : Thread) (l : Nat) : Word × Thread :=
  let x := rngStep (rngOf t l)
  (rngBits x, setRng t l x)

/-- RNG of w lanes as launched (R21). -/
def seedAll (seed : Word) (c tbase w : Nat) : Table DWord :=
  (fromTo 0 w).foldl (fun acc l => tput 0 acc l (rngSeed seed c (tbase + l))) []

end Sys2Proof.Machine
end

