-- ==== Sys2Proof/Machine/Memory.lean ====
section
/-!
DEFINITION. Bytes in the places memory stands in: module memory (R480), scratchpad arrays (R233), column rows (R260);
poison and line checks on them (R424, R425), the captured parameter blocks (R223), the L1 and the instruction cache
(R36, R148).
-/
namespace Sys2Proof.Machine
open Sys2Proof

/-- What an unlisted byte of module memory reads as (log entry 4). DESIGN CHOICE, log entry 4. -/
def memDefault : Byte := 0

/-- The canonical form of memory: addresses strictly rising, no entry equal to what an unlisted address reads as. -/
def Memory.wf (m : List Host.Cell) : Bool := rising m && m.all fun c => c.2 != memDefault

/-! ### Module memory -/

/-- DESIGN CHOICE, log entry 4. -/
def readByte (s : State) (pa : Nat) : Byte := tget memDefault s.mem pa
def readMem (s : State) (pa n : Nat) : List Byte := (fromTo pa n).map (readByte s)
def readNat (s : State) (pa n : Nat) : Nat := ofBytes (readMem s pa n)

/-- Memory with the bytes of a list stored from `pa` up. -/
def writeCells : List Host.Cell → Nat → List Byte → List Host.Cell
  | m, _, [] => m
  | m, pa, b :: bs => writeCells (tput memDefault m pa b) (pa + 1) bs

/-- Where subpage i of a captured parameter block stood when its grid began (R223, R241); `none` where it was not
resident. -/
def capturedSub (g : Grid) (i : Nat) : Option Nat :=
  match g.param with
  | .leaf pte comp giB =>
    let e := pte.toNat; let c := comp.toNat
    let off := g.pkt.params % (if giB then 2 ^ 30 else 131072) + 4096 * i
    if !bit e 10 then none
    else if !giB && bit e 8 && bit c (32 + bits (g.pkt.params + 4096 * i) 16 12)
      then some (bits c 30 0 * 131072 + off)
    else some (bits e 47 16 * 65536 + off)
  | _ => none

/-- A grid keeps the old values of captured bytes of subpage i that a store of `n` bytes at `pa` replaces (R223). -/
def keepOld (s : State) (pa n : Nat) (g : Grid) (i : Nat) : Grid :=
  match capturedSub g i with
  | some b =>
    let lo := Nat.max pa b; let hi := Nat.min (pa + n) (b + 4096)
    { g with paramOld := (fromTo lo (hi - lo)).foldl (fun t a =>
        if (tfind t (4096 * i + (a - b))).isNone then tins t (4096 * i + (a - b)) (readByte s a) else t) g.paramOld }
  | none => g

/-- Every begun grid keeps the bytes of its parameter block that a store of `n` bytes at `pa` replaces (R223). -/
def captureOld (s : State) (pa n : Nat) : Table Grid :=
  s.grids.map fun x => if x.2.state = .begun then (x.1, (fromTo 0 16).foldl (keepOld s pa n) x.2) else x

/-- The 32-byte sectors that a write of `n` bytes at `pa` covers wholly (R424). -/
def coveredUnits (pa n u : Nat) : List Nat := (fromTo (ceilDiv pa u) ((pa + n) / u - ceilDiv pa u))

/-- The units of `u` bytes that a range of `n` bytes at `a` touches. -/
def touchedUnits (a n u : Nat) : List Nat := if n = 0 then [] else fromTo (a / u) ((a + n - 1) / u - a / u + 1)

/-- A write to module memory; a poison mark goes where the write covers its whole sector (R424); a line whose check fails
is marked poisoned throughout and its check computed afresh (R497). -/
def writeMem (s : State) (pa : Nat) (bs : List Byte) : State :=
  let failed := (touchedUnits pa bs.length 128).filter s.crcBad.contains
  let grids := captureOld s pa bs.length
  { s with
    mem := writeCells s.mem pa bs
    memBad := (s.memBad.filter fun u => !(coveredUnits pa bs.length 32).contains u) ++
      (failed.flatMap fun l => fromTo (4 * l) 4)
    crcBad := s.crcBad.filter fun l => !failed.contains l
    grids := grids }

def writeNat (s : State) (pa n x : Nat) : State := writeMem s pa (toBytes n x)

/-- `n` bytes of module memory from `pa` are zeroed (R259). -/
def zeroMem (s : State) (pa n : Nat) : State :=
  let grids := captureOld s pa n
  { s with
    mem := s.mem.filter fun c => decide (c.1 < pa ∨ pa + n ≤ c.1)
    memBad := s.memBad.filter fun u => !(coveredUnits pa n 32).contains u
    crcBad := s.crcBad.filter fun l => !(coveredUnits pa n 128).contains l
    grids := grids }

/-- `n` bytes of module memory are copied, with their poison marks and line checks (R248, R253, R496). -/
def copyMem (s : State) (src dst n : Nat) : State :=
  let cells := s.mem.filter fun c => decide (src ≤ c.1 ∧ c.1 < src + n)
  let bad := s.memBad.filter fun u => decide (src / 32 ≤ u ∧ u < (src + n) / 32)
  let crc := s.crcBad.filter fun u => decide (src / 128 ≤ u ∧ u < (src + n) / 128)
  let s := zeroMem s dst n
  { s with
    mem := cells.foldl (fun m c => tput memDefault m (c.1 - src + dst) c.2) s.mem
    memBad := s.memBad ++ bad.map fun u => u - src / 32 + dst / 32
    crcBad := s.crcBad ++ crc.map fun u => u - src / 128 + dst / 128 }

/-- The cause that reading a range of module memory raises: a failed line check, then poison (R424, R425). -/
def memDataCause (s : State) (pa n : Nat) : Option Cause :=
  if (touchedUnits pa n 128).any s.crcBad.contains then some .integrity
  else if (touchedUnits pa n 32).any s.memBad.contains then some .poison
  else none

/-- A line whose check failed on its way out is marked poisoned where it stands (R425). -/
def poisonFailed (s : State) (pa n : Nat) : State :=
  let failed := (touchedUnits pa n 128).filter s.crcBad.contains
  { s with memBad := s.memBad ++ (failed.flatMap fun l => fromTo (4 * l) 4),
           crcBad := s.crcBad.filter fun l => !failed.contains l }

/-! ### Scratchpad and column rows -/

def scratchBytes (s : State) (core off n : Nat) : List Byte := (fromTo off n).map (tget 0 (s.core core).scratch)

def putBytes : Table Byte → Nat → List Byte → Table Byte
  | t, _, [] => t
  | t, a, b :: bs => putBytes (tput 0 t a b) (a + 1) bs

def writeScratch (s : State) (core off : Nat) (bs : List Byte) : State :=
  s.modCore core fun k =>
    { k with scratch := putBytes k.scratch off bs
             scratchBad := k.scratchBad.filter fun u => !(coveredUnits off bs.length 128).contains u }

def rowBytes (s : State) (core key n : Nat) : List Byte := (fromTo key n).map (tget 0 (s.core core).rows)

def writeRow (s : State) (core key : Nat) (bs : List Byte) : State :=
  s.modCore core fun k =>
    { k with rows := putBytes k.rows key bs
             rowsBad := k.rowsBad.filter fun u => !(coveredUnits key bs.length 64).contains u
             flips := k.flips.filter fun x => !(coveredUnits key bs.length 64).contains x.1 }

/-- Byte key of a column row. -/
def rowKey (bank row : Nat) : Nat := (4096 * bank + row) * 2048

/-! ### Lines under another key domain (R236, R257) -/

/-- Where an address of module memory stands for an access under a key domain: under a domain that is not its frame's, its
lines are lines of their own. DESIGN CHOICE, log entry 69. -/
def placeUnder (s : State) (dom pa : Nat) : Place :=
  match tfind s.frames (pa / 131072) with
  | some d => if d = dom then .mem pa else .foreign dom pa
  | none => .mem pa

/-- The number of a line under a key domain. -/
def foreignKey (dom line : Nat) : Nat := 2 ^ 41 * dom + line

/-- Bytes that the manual does not give: what decryption under the wrong key yields. DESIGN CHOICE, log entry 69. -/
def freeLine (s : State) (key : Nat) : List Byte :=
  (fromTo 0 32).flatMap fun k => toBytes 4 (Config.freeBits s.free (32 * key + k)).toNat

/-- A line under a key domain that is not its frame's: as L2 holds it, else what decryption under that key gives. DESIGN CHOICE, log entry 69. -/
def foreignLine (s : State) (dom line : Nat) : ForeignLine :=
  (tfind s.foreign (foreignKey dom line)).getD { bytes := freeLine s (foreignKey dom line) }

def foreignByte (s : State) (dom a : Nat) : Byte := ((foreignLine s dom (a / 128)).bytes.drop (a % 128)).head?.getD 0

/-- L2 holds the lines of an access under another key domain (R236). -/
def holdForeign (s : State) (dom pa n : Nat) : State :=
  { s with foreign := (touchedUnits pa n 128).foldl (fun t l => tins t (foreignKey dom l) (foreignLine s dom l)) s.foreign }

/-- The line with the bytes of a store at `pa` merged in (R236). -/
def mergeLine (x : ForeignLine) (line pa : Nat) (bs : List Byte) : ForeignLine :=
  { bytes := (x.bytes.zip (fromTo (128 * line) 128)).map fun b =>
      if pa ≤ b.2 then (bs.drop (b.2 - pa)).head?.getD b.1 else b.1
    dirty := true }

/-- DESIGN CHOICE, log entry 69. -/
def writeForeign (s : State) (dom pa : Nat) (bs : List Byte) : State :=
  { s with foreign := (touchedUnits pa bs.length 128).foldl (fun t l =>
      tins t (foreignKey dom l) (mergeLine (foreignLine s dom l) l pa bs)) s.foreign }

/-- A line leaves L2: one that was written under another key reads as anything under its frame's own from then on. DESIGN CHOICE, log entry 69. -/
def evictForeign (s : State) (key : Nat) : State :=
  match tfind s.foreign key with
  | none => s
  | some x =>
    let s := { s with foreign := tdel s.foreign key }
    if x.dirty then writeMem s (128 * (key % 2 ^ 41)) (freeLine s key) else s

/-! ### Any place -/

/-- Tag and address of a place of module memory, as caches are tagged: 0 where the key domain is the frame's, else one more
than the domain (R235, R236). -/
def Place.tagged : Place → Option (Nat × Nat)
  | .mem pa => some (0, pa)
  | .foreign d pa => some (d + 1, pa)
  | _ => none

/-- The units of `u` bytes of module memory that `n` bytes at a place touch, each with its tag above it. -/
def Place.units (p : Place) (n u : Nat) : List Nat :=
  match p.tagged with
  | some (k, pa) => (touchedUnits pa n u).map fun x => 2 ^ 43 * k + x
  | none => []

/-- The place `n` bytes further on. -/
def Place.plus (p : Place) (n : Nat) : Place :=
  match p with
  | .mem pa => .mem (pa + n)
  | .scratch c o => .scratch c (o + n)
  | .column c u b => .column c u (b + n)
  | .foreign d pa => .foreign d (pa + n)

/-- The address or offset of a place. -/
def Place.offset : Place → Nat
  | .mem pa => pa
  | .scratch _ o => o
  | .column _ _ b => b
  | .foreign _ pa => pa

def readPlace (s : State) (n : Nat) : Place → List Byte
  | .mem pa => readMem s pa n
  | .foreign d pa => (fromTo pa n).map (foreignByte s d)
  | .scratch c o => scratchBytes s c o n
  | .column c u b => rowBytes s c (u * 8388608 + b) n

def writePlace (s : State) (bs : List Byte) : Place → State
  | .mem pa => writeMem s pa bs
  | .foreign d pa => writeForeign s d pa bs
  | .scratch c o => writeScratch s c o bs
  | .column c u b => writeRow s c (u * 8388608 + b) bs

/-- What reading `n` bytes of a place raises (R424, R425). -/
def placeCause (s : State) (n : Nat) : Place → Option Cause
  | .mem pa => memDataCause s pa n
  | .foreign _ pa => memDataCause s pa n
  | .scratch c o => if (touchedUnits o n 128).any (s.core c).scratchBad.contains then some .poison else none
  | .column c u b => if (touchedUnits (u * 8388608 + b) n 64).any (s.core c).rowsBad.contains then some .poison else none

/-- The first absent scratchpad line of a place (R234). -/
def absentLine (s : State) (n : Nat) : Place → Option (Nat × Nat)
  | .scratch c o => ((touchedUnits o n 128).find? fun l => tget 0 (s.core c).absent l != 0).map fun l => (c, l)
  | _ => none

/-- A cause of reading marks lines whose check failed poisoned where they stand (R425). -/
def poisonPlace (s : State) (n : Nat) : Place → State
  | .mem pa => poisonFailed s pa n
  | .foreign _ pa => poisonFailed s pa n
  | _ => s

/-! ### The L1 and the instruction cache -/

/-- The 32-byte sector of module memory that a place lies in, from its first byte. -/
def Place.sector : Place → Place
  | .mem pa => .mem (pa / 32 * 32)
  | .foreign d pa => .foreign d (pa / 32 * 32)
  | p => p

/-- What a cache that may hold older bytes of the sector of a place delivers: the bytes it was filled with, if it still holds
them, or those of memory. Where both differ the choice is free. DESIGN CHOICE, log entry 14. DESIGN CHOICE, log entry 15. -/
def cachedSector (s : State) (held : Table (List Byte)) (which : Nat) (p : Place) : List Byte :=
  let new := readPlace s 32 p.sector
  match (p.units 1 32).head?.bind (tfind held) with
  | some old =>
    if old = new then new
    else if Config.freeChoice s.free (4 * (p.units 1 32).head?.getD 0 + which) % 2 = 0 then old else new
  | none => new

/-- The sector of a place as a plain load of a writable page may see it through the L1 of a core (R148, R235). DESIGN CHOICE, log entry 14. DESIGN CHOICE, log entry 61. -/
def l1Sector (s : State) (core : Nat) (p : Place) : List Byte := cachedSector s (s.core core).l1 0 p

/-- The bytes that a plain load reads through the L1, sector by sector. -/
def l1Bytes (s : State) (core : Nat) (p : Place) (n : Nat) : List Byte :=
  (((fromTo 0 ((p.units n 32).length)).flatMap fun k => l1Sector s core (p.sector.plus (32 * k))).drop (p.offset % 32)).take n

/-- The L1 after it has served the sectors of an access (R235). DESIGN CHOICE, log entry 14. -/
def l1Fill (s : State) (core : Nat) (p : Place) (n : Nat) : State :=
  let us := p.units n 32
  let bs := us.zipIdx.map fun u => (u.1, l1Sector s core (p.sector.plus (32 * u.2)))
  s.modCore core fun k => { k with l1 := bs.foldl (fun t b => tins t b.1 b.2) k.l1 }

/-- The lines of an access leave the L1, all their sectors. DESIGN CHOICE, log entry 14. -/
def l1Drop (s : State) (core : Nat) (p : Place) (n : Nat) : State :=
  let ls := p.units n 128
  if ls.isEmpty then s
  else s.modCore core fun k =>
    { k with l1 := k.l1.filter fun x => !ls.contains (x.1 / 2 ^ 43 * 2 ^ 43 + x.1 % 2 ^ 43 / 4) }

/-- Every line of a writable page leaves the L1 of a core (R148, R154). Lines of other pages are never stale and are not
kept here. DESIGN CHOICE, log entry 14. DESIGN CHOICE, log entry 31. -/
def l1DropAll (s : State) (core : Nat) : State := s.modCore core fun k => { k with l1 := [] }

/-- Descriptors are no longer read from the sectors a core's L1 holds (R168). DESIGN CHOICE, log entry 14. -/
def l1Pass (s : State) (core : Nat) : State := s.modCore core fun k => { k with l1Passed := k.l1.map fun x => x.1 }

/-- The sectors of an access that come from before an acquire leave the L1 (R168). DESIGN CHOICE, log entry 14. -/
def l1Renew (s : State) (core : Nat) (p : Place) (n : Nat) : State :=
  let us := p.units n 32
  if us.any (s.core core).l1Passed.contains
  then s.modCore core fun k => { k with l1 := k.l1.filter fun x => !(us.contains x.1 && k.l1Passed.contains x.1) }
  else s

/-- A core begins what was launched on it: stale lines and stale code blocks have gone (R36, R299, R308). DESIGN CHOICE, log entry 15.
DESIGN CHOICE, log entry 31. -/
def freshCaches (s : State) (core : Nat) : State := s.modCore core fun k => { k with l1 := [], icache := [] }

/-- A fetch block as the instruction cache may deliver it: wholly old or wholly new (R36). DESIGN CHOICE, log entry 15. -/
def codeBlock (s : State) (core : Nat) (p : Place) : List Byte := cachedSector s (s.core core).icache 2 p

/-- The instruction cache after it has delivered a block. DESIGN CHOICE, log entry 15. -/
def codeFill (s : State) (core : Nat) (p : Place) : State :=
  let bs := codeBlock s core p
  s.modCore core fun k => { k with icache := (p.units 1 32).foldl (fun t u => tins t u bs) k.icache }

end Sys2Proof.Machine
end

