-- ==== Sys2Proof/Machine/Translate.lean ====
section
/-!
DEFINITION. Translation of global addresses (R239 to R245), the fates of pages that are not resident, shared or pending
(R246, R253, R454), and the decoding of local addresses (R24, R264).
-/
namespace Sys2Proof.Machine
open Sys2Proof

/-! ### Page entries (R240, R241) -/

/-- Fields of a table entry, as a number. -/
def pteV (e : Nat) : Bool := bit e 0
def pteLeaf (e : Nat) : Bool := bit e 1
def pteR (e : Nat) : Bool := bit e 2
def pteW (e : Nat) : Bool := bit e 3
def pteX (e : Nat) : Bool := bit e 4
def pteA (e : Nat) : Bool := bit e 5
def pteD (e : Nat) : Bool := bit e 6
def pteRM (e : Nat) : Bool := bit e 7
def pteSH (e : Nat) : Bool := bit e 8
def ptePIN (e : Nat) : Bool := bit e 9
def pteRES (e : Nat) : Bool := bit e 10
def pteTier (e : Nat) : Nat := bits e 12 11
def pteSUP (e : Nat) : Bool := bit e 15
/-- ADDR, as a physical address or a backing location. -/
def pteAddr (e : Nat) : Nat := bits e 47 16 * 65536
def pteKey (e : Nat) : Nat := bits e 61 48

/-- The entry with one bit set or cleared. -/
def setBit1 (e i : Nat) (v : Bool) : Nat := setBits e i i (b2n v)

/-- A leaf entry: ADDR as a physical address, rights as bits. -/
def mkPte (addr : Nat) (r w x sup rm pin res : Bool) (tier key : Nat) : Nat :=
  1 + 2 + 4 * b2n r + 8 * b2n w + 16 * b2n x + 128 * b2n rm + 512 * b2n pin + 1024 * b2n res + 2048 * tier +
  32768 * b2n sup + 65536 * (addr / 65536) + 2 ^ 48 * key

/-- Subpage mask and private frame of a companion word (R241). -/
def compMask (c : Nat) : Nat := bits c 63 32
def compFrame (c : Nat) : Nat := bits c 30 0 * 131072
def mkComp (mask frame : Nat) : Nat := 2 ^ 32 * mask + frame / 131072

/-! ### The physical map (R480 to R482) -/

/-- The die whose memory holds a physical address, and whether it is stacked. -/
def homeOf (pa : Nat) : Option (Nat × Bool) :=
  if pa < 4 * 25769803776 then some (pa / 25769803776, true)
  else if 1099511627776 ≤ pa ∧ pa < 1099511627776 + 4 * 103079215104 then some ((pa - 1099511627776) / 103079215104, false)
  else none

/-- The home die of an address, 0 where nothing is populated. -/
def homeDie (pa : Nat) : Nat := ((homeOf pa).map fun x => x.1).getD 0

/-- Core and step of a stacked address (R481). -/
def stackedStep (pa : Nat) : Nat × Nat :=
  let o := pa % 25769803776
  (48 * (pa / 25769803776) + o / 2 ^ 29, 7 - o / 2 ^ 26 % 8)

/-- An address that names populated near or far memory that is not column space (R482). -/
def populated (s : State) (pa : Nat) : Bool :=
  match homeOf pa with
  | none => false
  | some (_, false) => true
  | some (_, true) => let (c, j) := stackedStep pa; decide ((s.core c).colsplit ≤ j)

/-- A 1 GiB leaf or a 128 KiB frame that lies wholly in populated memory. -/
def populatedRange (s : State) (pa : Nat) (giB : Bool) : Bool :=
  if giB then (fromTo 0 16).all fun i => populated s (pa + i * 67108864) else populated s pa

/-! ### The walk -/

/-- The kind of access a translation serves (R242). -/
inductive Access where
  | read | write | fetch
  deriving DecidableEq, Repr

/-- A leaf found by the walk: where its entry stands, its entry and companion word, and whether it is a 1 GiB page. -/
structure Leaf where
  at'  : Nat
  pte  : Nat
  comp : Nat
  giB  : Bool
  deriving DecidableEq, Repr

/-- A walk: a leaf, or the table level at which it failed. -/
inductive WalkResult where
  | leaf (l : Leaf)
  | bad (level : Nat)
  deriving DecidableEq, Repr

/-- A non-leaf entry that step 1 of R242 accepts. -/
def tableOk (e : Nat) : Bool := pteV e && !pteLeaf e && bits e 63 48 == 0 && bits e 15 2 == 0

/-- A leaf that step 1 of R242 accepts. -/
def leafOk (s : State) (e comp : Nat) (giB : Bool) : Bool :=
  pteV e && pteLeaf e && bits e 63 62 == 0 && bits e 14 13 == 0 && pteTier e != 3 &&
  (!pteRES e || decide (pteTier e ≤ 1)) &&
  (if giB then pteRES e && !pteSH e && bits e 29 16 == 0 else bits e 16 16 == 0) &&
  (!pteSH e || bits comp 31 31 == 0) &&
  (!pteRES e || populatedRange s (pteAddr e) giB) &&
  (!(pteSH e && compMask comp != 0) || populated s (compFrame comp))

/-- The private key domain of a context (R430). -/
def Context.privDom (c : Context) : Nat := bits c.keys.toNat 13 0
/-- Its dedup key domain. -/
def Context.dedupDom (c : Context) : Nat := bits c.keys.toNat 29 16
def Context.inDedup (c : Context) : Bool := c.keys.getLsbD 30

/-- A word of the tables of a context: they lie under its private key domain (R257). -/
def entryAt (s : State) (dom pa : Nat) : Nat := ofBytes (readPlace s 8 (placeUnder s dom pa))

/-- A word of the tables is written. -/
def putEntry (s : State) (dom pa x : Nat) : State := writePlace s (toBytes 8 x) (placeUnder s dom pa)

/-- The walk from a level-2 entry that is no leaf: one 128 KiB page (R239). -/
def walkPage (s : State) (dom va e2 : Nat) : WalkResult :=
  let at3 := pteAddr e2 + 8 * bits va 29 17
  let e3 := entryAt s dom at3
  let comp := if pteSH e3 then entryAt s dom (at3 + 65536) else 0
  if leafOk s e3 comp false then .leaf ⟨at3, e3, comp, false⟩ else .bad 3

/-- The level-2 entry that a level-1 entry leads to. -/
def entry2 (s : State) (dom va e1 : Nat) : Nat := entryAt s dom (pteAddr e1 + 8 * bits va 42 30)

/-- The walk from a level-1 entry: a 1 GiB page, or on to level 3 (R239). -/
def walkRegion (s : State) (dom va e1 : Nat) : WalkResult :=
  let e2 := entry2 s dom va e1
  if pteV e2 && pteLeaf e2 then
    (if leafOk s e2 0 true then .leaf ⟨pteAddr e1 + 8 * bits va 42 30, e2, 0, true⟩ else .bad 2)
  else if !tableOk e2 then .bad 2
  else walkPage s dom va e2

/-- The walk of the tables as they stand in memory (R239). -/
def walkTables (s : State) (c : Context) (va : Nat) : WalkResult :=
  let e1 := entryAt s c.privDom (c.root + 8 * bits va 55 43)
  if !tableOk e1 then .bad 1 else walkRegion s c.privDom va e1

/-! ### Translation caches (R243 to R245) -/

def CachedLeaf.leaf (x : CachedLeaf) : Leaf := ⟨x.at', x.pte.toNat, x.comp.toNat, x.giB⟩
def Leaf.cached (l : Leaf) : CachedLeaf := ⟨l.at', BitVec.ofNat 64 l.pte, BitVec.ofNat 64 l.comp, l.giB⟩

/-- The number of a virtual page. -/
def vpnOf (va : Nat) : Nat := va / 131072

/-- The key of a page of a context in an L1 TLB. -/
def tlbKey (ctx vpn : Nat) : Nat := 2 ^ 39 * ctx + vpn
/-- The key of a page in the L2 TLB of a die. -/
def dieKey (die vpn : Nat) : Nat := 2 ^ 39 * die + vpn
/-- The key of an entry of level 1 or 2 in the walk caches of a die. -/
def walkKey (die level va : Nat) : Nat := 2 ^ 27 * die + 2 ^ 26 * (level - 1) + (if level = 1 then bits va 55 43 else bits va 55 30)

/-- What the walk caches of a die make of an address: the walk from a level-2 entry and from a level-1 entry they hold. -/
def cachedWalks (s : State) (c : Context) (die va : Nat) : List WalkResult :=
  ((tfind c.walks (walkKey die 2 va)).map fun e => walkPage s c.privDom va e.toNat).toList ++
  ((tfind c.walks (walkKey die 1 va)).map fun e => walkRegion s c.privDom va e.toNat).toList

/-- The bits an access sets in a leaf: A, and D where it writes (R240). -/
def usedBits (a : Access) (e : Nat) : Nat := if a = .write then setBit1 (setBit1 e 5 true) 6 true else setBit1 e 5 true

/-- A cached leaf an access may use: where A or D is still to be set, its entry must be valid and name the same frame, or the
access translates again (R244). DESIGN CHOICE, log entry 16. -/
def copyServes (s : State) (dom : Nat) (a : Access) (l : Leaf) : Bool :=
  usedBits a l.pte == l.pte || (pteV (entryAt s dom l.at') && pteAddr (entryAt s dom l.at') == pteAddr l.pte)

/-- The leaves that the translation caches of a core and its die hold for a page. -/
def cachedLeaves (s : State) (core ctx : Nat) (c : Context) (a : Access) (va : Nat) : List WalkResult :=
  (((tfind (s.core core).tlb (tlbKey ctx (vpnOf va))).toList ++ (tfind c.tlb (dieKey (coreDie core) (vpnOf va))).toList).map
    CachedLeaf.leaf).filterMap fun l => if copyServes s c.privDom a l then some (.leaf l) else none

/-- The leaf an access of a core uses: what the tables give, or what a cache still holds of an older entry (R245). DESIGN CHOICE, log entry 16. -/
def leafFor (s : State) (core ctx : Nat) (c : Context) (a : Access) (va : Nat) : WalkResult :=
  let now := walkTables s c va
  match (cachedLeaves s core ctx c a va ++ cachedWalks s c (coreDie core) va).filter fun w => w != now with
  | [] => now
  | old => ((now :: old).drop (Config.freeChoice s.free (4 * vpnOf va + 1) % (old.length + 1))).head?.getD now

/-- The physical address a leaf gives (R239, R241). -/
def leafPa (l : Leaf) (va : Nat) : Nat :=
  if l.giB then pteAddr l.pte + va % 2 ^ 30
  else if pteSH l.pte && bit (compMask l.comp) (bits va 16 12) then compFrame l.comp + va % 131072
  else pteAddr l.pte + va % 131072

/-- The key domain a leaf names for an address (R241, R257): that of the entry; a private subpage lies under the context's
own. -/
def leafDom (c : Context) (l : Leaf) (va : Nat) : Nat :=
  if !l.giB && pteSH l.pte && bit (compMask l.comp) (bits va 16 12) then c.privDom else pteKey l.pte

/-- What a translation comes to (R242). -/
inductive Xlate where
  | ok (p : Place) (l : Leaf)
  | fault (c : Cause) (aux : Nat)
  | absent (vpn : Nat)
  | cow (l : Leaf) (sub : Nat)
  | region (index : Nat)
  deriving DecidableEq, Repr

/-- The right an access needs. -/
def hasRight (a : Access) (e : Nat) : Bool :=
  match a with
  | .read => pteR e
  | .write => pteW e
  | .fetch => pteX e

/-- A pending fork region is met by any access of the new context and by a write of the template (R454). -/
def regionPending (c : Context) (a : Access) (va : Nat) : Bool :=
  c.forking && c.pendingRegions.contains (bits va 55 43) && (c.isNew || a == .write)

/-- The mapping of a parameter block as it stands (R223). -/
def paramNow (s : State) (g : Grid) : ParamMap :=
  match s.ctx g.ctx with
  | none => .bad 1
  | some c =>
    if regionPending c .read g.pkt.params then .pending (bits g.pkt.params 55 43)
    else match walkTables s c g.pkt.params with
      | .bad n => .bad n
      | .leaf l => .leaf (BitVec.ofNat 64 l.pte) (BitVec.ofNat 64 l.comp) l.giB

/-- Steps 2 to 5 of R242 on a leaf. -/
def xlateLeaf (s : State) (c : Context) (va : Nat) (a : Access) (priv : Bool) (l : Leaf) : Xlate :=
  if pteSUP l.pte && !priv then .fault .protection 3
  else if !hasRight a l.pte then .fault .protection 4
  else if !pteRES l.pte then .absent (vpnOf va)
  else if a = .write && pteSH l.pte && !bit (compMask l.comp) (bits va 16 12) then .cow l (bits va 16 12)
  else .ok (placeUnder s (leafDom c l va) (leafPa l va)) l

/-- Translation of one address of a context for an agent at a core, in the order of R242. The address has bits [63:56] zero. -/
def translate (s : State) (core ctx : Nat) (va : Nat) (a : Access) (priv : Bool) : Xlate :=
  match s.ctx ctx with
  | none => .fault .translation 1
  | some c =>
    if regionPending c a va then .region (bits va 55 43)
    else match leafFor s core ctx c a va with
    | .bad n => .fault .translation n
    | .leaf l => xlateLeaf s c va a priv l

/-- Cached copies of a context go on every core and die: of leaves, by page and content, and of walk-cache entries, by key
(R244, R245). DESIGN CHOICE, log entry 16. -/
def dropCopies (s : State) (ctx : Nat) (p : Nat → CachedLeaf → Bool) (q : Nat → Bool) : State :=
  let onCore (k : Core) : Core :=
    { k with tlb := k.tlb.filter fun x => !(x.1 / 2 ^ 39 == ctx && p (x.1 % 2 ^ 39) x.2) }
  let s := { s with cores := s.cores.map fun (k : Nat × Core) => (k.1, onCore k.2) }
  s.modCtx ctx fun c =>
    { c with tlb := c.tlb.filter fun x => !p (x.1 % 2 ^ 39) x.2, walks := c.walks.filter fun x => !q (x.1 % 2 ^ 27) }

/-- Every cached copy of a leaf whose entry stands at an address goes (R244). -/
def dropEntry (s : State) (ctx at' : Nat) : State := dropCopies s ctx (fun _ x => x.at' == at') fun _ => false

/-- An agent that keeps no TLB: one of the I/O die, or the tier engine. DESIGN CHOICE, log entry 16. -/
def noCore : Nat := 192

/-- A translation is cached for a core and its die, with the entries on the way to it (R243). The I/O die keeps no TLB.
DESIGN CHOICE, log entry 16. -/
def fillCopies (s : State) (core ctx va : Nat) (l : Leaf) : State :=
  if noCore ≤ core then s
  else match s.ctx ctx with
  | none => s
  | some c =>
    let die := coreDie core
    let e1 := entryAt s c.privDom (c.root + 8 * bits va 55 43)
    let e2 := entry2 s c.privDom va e1
    let walks := tins c.walks (walkKey die 1 va) (BitVec.ofNat 64 e1)
    let walks := if l.giB then walks else tins walks (walkKey die 2 va) (BitVec.ofNat 64 e2)
    (s.modCore core fun k => { k with tlb := tins k.tlb (tlbKey ctx (vpnOf va)) l.cached }).modCtx ctx fun c =>
      { c with tlb := tins c.tlb (dieKey die (vpnOf va)) l.cached, walks := if tableOk e1 then walks else c.walks }

/-- An access of a core performs through a leaf: A is set in its entry, D too for a write, read again where it has changed, and
the translation is cached (R240, R243, R244). DESIGN CHOICE, log entry 16. -/
def touchLeaf (s : State) (core ctx va : Nat) (a : Access) (l : Leaf) : State :=
  match s.ctx ctx with
  | none => s
  | some c =>
    let e := entryAt s c.privDom l.at'
    if !(pteV e && pteAddr e == pteAddr l.pte) || usedBits a l.pte == l.pte then fillCopies s core ctx va l
    else
      let s := if usedBits a e = e then s
        else dropEntry (putEntry s c.privDom l.at' (usedBits a e)) ctx l.at'
      fillCopies s core ctx va { l with pte := usedBits a e }

/-- A change of an entry by the device: the tables change and every cached copy goes (R244). DESIGN CHOICE, log entry 16. -/
def deviceSetLeaf (s : State) (ctx : Nat) (l : Leaf) (pte comp : Nat) : State :=
  match s.ctx ctx with
  | none => s
  | some c =>
    let s := putEntry s c.privDom l.at' pte
    let s := if l.giB then s else if pteSH pte || pteSH l.pte then putEntry s c.privDom (l.at' + 65536) comp else s
    dropEntry s ctx l.at'

/-! ### Local addresses (R24) -/

/-- Owner and kind of a local address. -/
inductive LocalTarget where
  | own (off : Nat)
  | peer (core team off : Nat)
  | object (handle off : Nat)
  | none
  deriving DecidableEq, Repr

/-- The teams of a cluster in rank order. -/
def teamsOf (s : State) (cid : Nat) : List Nat :=
  sortBy (fun a b => decide (((s.team a).map Team.rank).getD 0 < ((s.team b).map Team.rank).getD 0))
    ((s.teams.filter fun x => x.2.cluster == cid).map fun x => x.1)

/-- The team of rank k of a cluster. -/
def teamOfRank (s : State) (cid k : Nat) : Option (Nat × Team) :=
  s.teams.find? fun x => x.2.cluster == cid && x.2.rank == k

def Team.scratchSize (t : Team) : Nat := t.granules * 262144
def Team.scratchBase (t : Team) : Nat := t.granule * 262144

/-- Rows of an object's units, in order (R264). -/
def objUnits (d : DWord) : List Nat :=
  (fromTo 0 16).flatMap fun b => if d.getLsbD (40 + b) then
    (fromTo 0 4).filterMap fun l => if d.getLsbD (56 + l) then some (16 * l + b) else none
  else []
def objFirst (d : DWord) : Nat := bits d.toNat 39 28
def objCount (d : DWord) : Nat := bits d.toNat 27 15
def objRows (d : DWord) : Nat := (objUnits d).length * objCount d

/-- Bank and physical row of an object row (R264). -/
def objRow (d : DWord) (r : Nat) : Nat × Nat :=
  let us := objUnits d
  let n := us.length
  if bits d.toNat 14 13 = 0 then ((us.drop (r % n)).head?.getD 0, objFirst d + r / n)
  else ((us.drop (r / objCount d)).head?.getD 0, objFirst d + r % objCount d)

/-- The object a context has under a handle on a core. -/
def objectOf (s : State) (core ctx h : Nat) : Option ColObject := tfind (s.core core).objects (64 * ctx + h)

/-- Where a local address of a team points, before the bounds of the access. -/
def localTarget (s : State) (t : Team) (a : Nat) : LocalTarget :=
  if a < 0x140000 then .own a
  else if bits a 35 35 = 1 ∧ a < 2 ^ 36 then .object (bits a 34 29) (bits a 28 0)
  else if 0x1000000 ≤ a ∧ a < 0x1000000 + 12 * 0x1000000 then
    let k := (a - 0x1000000) / 0x1000000
    let off := a % 0x1000000
    if k = t.rank then .own off
    else match teamOfRank s t.cluster k with
      | some (tid, u) => .peer u.core tid off
      | none => .none
  else .none

/-- A place in scratchpad or a column, with the team of a peer target; `none` raises 0x0B. -/
def localPlace (s : State) (ctx : Nat) (t : Team) (a n : Nat) : Option (Place × Option Nat) :=
  match localTarget s t a with
  | .own off => if off + n ≤ t.scratchSize then some (.scratch t.core (t.scratchBase + off), none) else none
  | .peer core tid off =>
    match s.team tid with
    | some u => if off + n ≤ u.scratchSize then some (.scratch core (u.scratchBase + off), some tid) else none
    | none => none
  | .object h off =>
    match objectOf s t.core ctx h with
    | some o =>
      if off + n ≤ objRows o.desc * 2048 then
        let (bank, row) := objRow o.desc (off / 2048)
        some (.column t.core bank (row * 2048 + off % 2048), none)
      else none
    | none => none
  | .none => none

end Sys2Proof.Machine
end

