-- ==== Sys2Proof/Machine/Operands.lean ====
section
/-!
DEFINITION. Operand forms: the constant table (R45), immediates (R50, R134), sources and destinations (R16, R17, R43,
R44), register bounds (R14), guards and the execution mask (R31), and the words an instruction captures (R408).
-/
namespace Sys2Proof.Machine
open Sys2Proof

/-- The constant table (R45). -/
def constTable : List Nat :=
  [0x00000001, 0x00000002, 0x00000004, 0x00000008, 0x00000010, 0x00000020, 0x00000040, 0x00000080,
   0xFFFFFFFF, 0x000000FF, 0x0000FFFF, 0x7FFFFFFF, 0x80000000, 0x00000003, 0x00000007, 0x0000001F,
   0x3F800000, 0xBF800000, 0x3F000000, 0xBF000000, 0x40000000, 0xC0000000, 0x40800000, 0x3E800000,
   0x7F800000, 0xFF800000, 0x7FC00000, 0x7F7FFFFF, 0x00800000, 0x3F317218, 0x3FB8AA3B, 0x40490FDB,
   0x3E22F983, 0x3FB504F3, 0x3F3504F3, 0x437F0000, 0x43E00000, 0x47600000, 0x3C003C00, 0xBC00BC00,
   0x38003800, 0xFC00FC00, 0x7BFF7BFF, 0x3F803F80, 0xFF80FF80, 0x55555555, 0xAAAAAAAA, 0x0F0F0F0F]

/-- Entry k of the constant table. -/
def constVal (k : Nat) : Nat := (constTable.drop k).head?.getD 0

/-- A constant-table entry as a source of `w` words: a 64-bit source is sign-extended under `.s64` (R44). DESIGN CHOICE, log entry 67. -/
def constWide (ty : Ty) (k w : Nat) : Nat :=
  let v := constVal k
  if w = 2 ∧ ty = .s64 ∧ v ≥ 2 ^ 31 then v + 2 ^ 64 - 2 ^ 32 else v

/-- A source operand of `w` words in lane l, as the registers hold it. -/
def readOperand (t : Thread) (ty : Ty) (l w : Nat) : Operand → Nat
  | .v r => vwide t r.val l w
  | .s r => swide t r.val w
  | .p p => b2n (predBit t p.val l)
  | .c k => constWide ty k.val w
  | .zero => 0

/-- A destination of `w` words in lane l (R43, R44): a predicate takes bit 0; 511 discards. -/
def writeOperand (t : Thread) (l w x : Nat) : Operand → Thread
  | .v r => setVwide t r.val l w x
  | .s r => setSwide t r.val w x
  | .p p => setPred t p.val l (x % 2 == 1)
  | .c _ => t
  | .zero => t

/-- The value of source B under BIMM, in `w` words (R50). -/
def bimmValue (intRow : Bool) (f : Fields) (w : Nat) : Nat :=
  if f.form = .long then
    (if w = 2 then (sext32 f.imm32).toNat else f.imm32.toNat)
  else if !intRow && f.ty == .f32 then f.imm13.toNat * 2 ^ 19
  else if w = 2 then (sext13 f.imm13).toNat else (f.imm13.signExtend 32).toNat

/-- The offset of an address or a branch, in its own unit (R134). -/
def immOffset (f : Fields) : DWord := sext13 f.imm13 + sext32 f.imm32

/-! ### What an instruction runs with -/

/-- An instruction in issue: its group, the entry it issues from, its lanes, its address and length. -/
structure Ctx where
  gid   : Nat
  g     : Group
  /-- The registers its operands name. -/
  t     : Thread
  e     : Entry
  exec  : LaneMask
  /-- A, the address of the instruction. -/
  pc    : DWord
  /-- Its length in bytes. -/
  len   : Nat
  i     : Instr
  f     : Fields
  sp    : Spans
  deriving DecidableEq, Repr

/-- The lanes of `exec`, ascending. -/
def Ctx.lanes (c : Ctx) : List Nat := lanesOf c.exec
/-- The lowest lane of `exec`. -/
def Ctx.low (c : Ctx) : Nat := c.lanes.head?.getD 0
/-- A + length. -/
def Ctx.next (c : Ctx) : DWord := c.pc + BitVec.ofNat 64 c.len
/-- Core of the group. -/
def Ctx.core (c : Ctx) : Nat := c.g.core

/-- The first captured word of an operand position: 0 A, 1 B, 2 C (R408). -/
def capturedAt (sp : Spans) (f : Fields) (pos : Nat) : Nat :=
  let na := if f.a = .zero then 0 else sp.a
  let nb := if f.b = .zero ∧ !f.bimm then 0 else sp.b
  match pos with
  | 0 => 0
  | 1 => na
  | _ => na + nb

/-- `w` captured words from word j of lane l. -/
def captured (r : Replay) (l j : Nat) : Nat → Nat
  | 0 => 0
  | w + 1 => (tget 0 r.words (64 * j + l)).toNat + 2 ^ 32 * captured r l (j + 1) w

/-- A source of a re-issued entry: its captured words; words beyond the eighth come from the registers (R408, R417). -/
def replayed (c : Ctx) (r : Replay) (pos l w : Nat) (op : Operand) : Nat :=
  let j := capturedAt c.sp c.f pos
  if op = .zero then 0
  else if j + w ≤ 8 then captured r l j w
  else
    let k := 8 - j
    captured r l j k + 2 ^ (32 * k) * (readOperand c.t c.f.ty l w op / 2 ^ (32 * k))

/-- The re-issued entry whose captured words serve as operands (R417); none where the words were never read. -/
def Ctx.cur (c : Ctx) : Option Replay :=
  match c.g.cur with
  | some r => if r.read then some r else none
  | none => none

/-- Source A in lane l. -/
def Ctx.srcA (c : Ctx) (l : Nat) : Nat :=
  match c.cur with
  | some r => replayed c r 0 l c.sp.a c.f.a
  | none => readOperand c.t c.f.ty l c.sp.a c.f.a

/-- Source B in lane l, from the immediate when BIMM is 1 (R50). -/
def Ctx.srcB (c : Ctx) (l : Nat) : Nat :=
  match c.cur with
  | some r => if c.f.bimm then captured r l (capturedAt c.sp c.f 1) c.sp.b else replayed c r 1 l c.sp.b c.f.b
  | none =>
    if c.f.bimm then bimmValue (bimmIntRow c.i) c.f c.sp.b else readOperand c.t c.f.ty l c.sp.b c.f.b

/-- Source C in lane l. -/
def Ctx.srcC (c : Ctx) (l : Nat) : Nat :=
  match c.cur with
  | some r => replayed c r 2 l c.sp.c c.f.c
  | none => readOperand c.t c.f.ty l c.sp.c c.f.c

/-- Write the destination in lane l. -/
def Ctx.wr (c : Ctx) (t : Thread) (l x : Nat) : Thread := writeOperand t l c.sp.d x c.f.dst

/-- The destination is a scalar register. -/
def isScalar : Operand → Bool
  | .s _ => true
  | _ => false

/-- The lanes an instruction runs its body for: the one lowest lane when it writes a scalar (R95). -/
def Ctx.runLanes (c : Ctx) : List Nat := if isScalar c.f.dst then c.lanes.take 1 else c.lanes

/-! ### Guards (R31) -/

/-- The lanes in which a guard holds. -/
def guardMask (t : Thread) (full : LaneMask) (g : Guard) : LaneMask :=
  match g.pred with
  | none => full
  | some p => if g.neg then full &&& ~~~(pmask t p.val) else full &&& pmask t p.val

/-- `exec`: the guards applied to the lanes of the entry. -/
def execMask (t : Thread) (full lanes : LaneMask) (f : Fields) : LaneMask :=
  let a := guardMask t full f.guardA
  let b := guardMask t full f.guardB
  lanes &&& (if f.gcomb then a ||| b else a &&& b)

/-! ### Register bounds (R14, R33) -/

/-- A register block reaches past the counts. -/
def outOfBounds (t : Thread) (w : Nat) : Operand → Bool
  | .v r => decide (r.val + w > t.nv)
  | .s r => decide (r.val + w > t.ns)
  | _ => false

/-- A register operand of the instruction reaches past the counts; `rgn` ranges by R210. -/
def boundsBad (t : Thread) (i : Instr) (f : Fields) (sp : Spans) : Bool :=
  match i with
  | .rgn _ =>
    let m := f.imm13.toNat
    outOfBounds t (m % 16) f.a || outOfBounds t (m / 16 % 16) f.b || outOfBounds t (m / 256) f.c
  | _ => outOfBounds t sp.d f.dst || outOfBounds t sp.a f.a || outOfBounds t sp.b f.b || outOfBounds t sp.c f.c

/-! ### Capture (R408) -/

/-- The words an instruction read at issue: A, then B, then C, at most 8, in all w lanes. -/
def captureWords (c : Ctx) : Table Word :=
  let na := if c.f.a = .zero then 0 else c.sp.a
  let nb := if c.f.b = .zero ∧ !c.f.bimm then 0 else c.sp.b
  let nc := if c.f.c = .zero then 0 else c.sp.c
  (fromTo 0 c.g.width).foldl (fun acc l =>
    let x := c.srcA l % 2 ^ (32 * na) + 2 ^ (32 * na) * (c.srcB l % 2 ^ (32 * nb)) +
      2 ^ (32 * (na + nb)) * (c.srcC l % 2 ^ (32 * nc))
    (fromTo 0 8).foldl (fun acc j => tput 0 acc (64 * j + l) (BitVec.ofNat 32 (x / 2 ^ (32 * j)))) acc) []

end Sys2Proof.Machine
end

