-- ==== Sys2Proof/Machine/Frontier.lean ====
section
/-!
DEFINITION. Fetching an instruction (R35, R36, R53) and the frontier of a group (R178 to R181).
-/
namespace Sys2Proof.Machine
open Sys2Proof

/-! ### Fetch -/

/-- What fetching at an address gives. -/
inductive Fetched where
  /-- An instruction and its length in bytes. -/
  | ok (i : Instr) (len : Nat)
  /-- Decode rejects the word (R53). -/
  | reject (c : Cause) (word : Nat) (len : Nat)
  /-- Translation or protection fails when the instruction is due to issue (R35). -/
  | trap (t : TrapInfo)
  | park (p : Park)
  deriving DecidableEq, Repr

/-- The stream a group fetches (R55). -/
def GroupKind.stream : GroupKind → Stream
  | .spindle => .spindle
  | _ => .group

/-- The instruction in a fetch block at an offset, in the order of R53: crossing first (R35). -/
def decodeInBlock (st : Stream) (off : Nat) (blk : List Byte) : Fetched :=
  let w := ofBytes (blk.drop off)
  let n := lenBytes w
  if off + n > 32 then .reject .illegal w n
  else match decodeWord st w with
    | .ok (i, len) => .ok i len
    | .error r => .reject r.cause w n

/-- What fetching a block raises: its data are bad, and no copy of it is held (R424, R425). -/
def blockCause (s : State) (core : Nat) (p : Place) : Option Cause :=
  if (p.units 1 32).any fun u => (tfind (s.core core).icache u).isSome then none else placeCause s 32 p.sector

/-- Fetch at a global address for a group (R18, R35, R36, R242). -/
def fetchAt (s : State) (g : Group) (pc : DWord) : Fetched :=
  if pc.toNat ≥ 2 ^ 56 then .trap { cause := .translation, addr := pc }
  else match translate s g.core g.ctx pc.toNat .fetch g.priv with
    | .fault c aux => .trap { cause := c, addr := pc, aux := BitVec.ofNat 64 aux }
    | .absent vpn => .park (.pages [vpn])
    | .cow _ _ => .park (.swap [])
    | .region i => .park (.swap [i])
    | .ok p _ => match blockCause s g.core p with
      | some c => .trap { cause := c, addr := pc }
      | none => decodeInBlock g.kind.stream (p.offset % 32) (codeBlock s g.core p)

/-- The state after a block has been fetched: the entry is accessed and the instruction cache holds the block. DESIGN CHOICE, log entry 15. -/
def fetchTouch (s : State) (g : Group) (pc : DWord) : State :=
  match translate s g.core g.ctx pc.toNat .fetch g.priv with
  | .ok p l => codeFill (touchLeaf s g.core g.ctx pc.toNat .fetch l) g.core p
  | _ => s

/-- A block whose line failed its check on the way out is marked poisoned where it stands (R425). -/
def fetchFailed (s : State) (g : Group) (pc : DWord) : State :=
  match translate s g.core g.ctx pc.toNat .fetch g.priv with
  | .ok p _ => poisonPlace s 32 p.sector
  | _ => s

/-- The header at an address, if one can be fetched there: the outer `none` when nothing can be fetched yet. -/
def headerAt (s : State) (g : Group) (pc : DWord) : Option (Option Header) :=
  match fetchAt s g pc with
  | .ok (.clauseHeader h) _ => some (some h)
  | .ok _ _ => some none
  | .reject _ _ _ => some none
  | _ => none

/-! ### The frontier -/

/-- Insert at the back of its class (R178, R180). -/
def insertEntry (e : Entry) : List Entry → List Entry
  | [] => [e]
  | x :: xs => if x.prio.toNat < e.prio.toNat then e :: x :: xs else x :: insertEntry e xs

/-- The entries without the one that holds mask `m`. -/
def removeEntry (m : LaneMask) (fr : List Entry) : List Entry := fr.filter fun e => e.mask != m

/-- The entries with the one that holds mask `m` replaced, in its place. -/
def replaceEntry (m : LaneMask) (e' : Entry) (fr : List Entry) : List Entry :=
  fr.map fun e => if e.mask = m then e' else e

/-- An entry passes header `h` at its PC (R179): it takes the priority, permitted flags and NODUAL of the header; it joins
an entry that stands at the same header with that priority, or moves to the back of its class, or keeps its place. -/
def passHeader (fr : List Entry) (e : Entry) (h : Header) : List Entry :=
  let e2 := { e with prio := h.prio, flagX := h.flagX, flagY := h.flagY, nodual := h.nodual, passed := true,
                     fresh := false, must := false }
  let others := removeEntry e.mask fr
  match others.find? fun o => o.pc == e.pc && o.prio == h.prio && o.passed with
  | some o => others.map fun x => if x.mask = o.mask then { x with mask := x.mask ||| e.mask } else x
  | none =>
    if h.prio ≠ e.prio ∨ h.yield then insertEntry e2 others else replaceEntry e.mask e2 fr

/-- The entry that holds mask `m` comes to `pc`; `must` when the transfer needs a header there (R30). DEDUCED, log entry 36. -/
def landEntry (s : State) (g : Group) (fr : List Entry) (m : LaneMask) (pc : DWord) (must : Bool) : List Entry :=
  match fr.find? fun e => e.mask == m with
  | none => fr
  | some e =>
    let e1 := { e with pc := pc, passed := false, must := must, fresh := true }
    match headerAt s g pc with
    | none => replaceEntry m e1 fr
    | some none => replaceEntry m { e1 with fresh := false } fr
    | some (some h) => passHeader (replaceEntry m e1 fr) e1 h

/-- Lanes `m` of the entry that holds `em` form a new entry at the back of its class, at `pc` (R180). -/
def forkEntry (s : State) (g : Group) (fr : List Entry) (em m : LaneMask) (pc : DWord) (must : Bool) : List Entry :=
  match fr.find? fun e => e.mask == em with
  | none => fr
  | some e =>
    let n := { e with mask := m, passed := false, fresh := true }
    landEntry s g (insertEntry n (replaceEntry em { e with mask := em &&& ~~~m } fr)) m pc must

/-- Lanes `m` leave the frontier (R138): their entry goes when it becomes empty. -/
def dropLanes (m : LaneMask) (fr : List Entry) : List Entry :=
  (fr.map fun e => { e with mask := e.mask &&& ~~~m }).filter fun e => e.mask != 0

/-- The frontier of a thread replaced. -/
def Thread.withFrontier (t : Thread) (fr : List Entry) : Thread := { t with frontier := fr }

/-- A starting entry: all lanes at an address, which must hold a header (R174, R410). -/
def startFrontier (s : State) (g : Group) (mask : LaneMask) (pc : DWord) : List Entry :=
  landEntry s g [{ pc := pc, prio := 0, mask := mask }] mask pc true

end Sys2Proof.Machine
end

