-- ==== Sys2Proof/Machine/Counters.lean ====
section
/-!
DEFINITION. Completion flags (R28) and the outstanding counters (R321).
-/
namespace Sys2Proof.Machine
open Sys2Proof

/-- A group's thread chosen by whether the handler issued the instruction; a handler that is gone has no registers. -/
def Group.modThreadOf (g : Group) (inHandler : Bool) (f : Thread → Thread) : Group :=
  if inHandler then
    match g.handler with
    | some h => { g with handler := some { h with thread := f h.thread } }
    | none => g
  else { g with main := f g.main }

/-- One count of a completion flag goes (R28). -/
def lowerFlag (t : Thread) : Option Nat → Thread
  | some k => setFlagCount t k (flagCount t k - 1)
  | none => t

/-- One count of a completion flag is added (R28). -/
def raiseFlag (t : Thread) : Option Nat → Thread
  | some k => setFlagCount t k (flagCount t k + 1)
  | none => t

/-- Operations of a class retire in issue order: those at the front that are done leave (R321). -/
def retireOps : List CountedOp → List Nat → List CountedOp
  | [], _ => []
  | o :: os, held =>
    if o.done ∧ !held.contains o.cls then retireOps os held else o :: retireOps os (o.cls :: held)

/-- An outstanding counter: the operations of a class that have not retired (R321). -/
def counterOf (g : Group) (cls : Nat) : Nat := (g.ops.filter fun o => o.cls == cls).length

/-- The operations of a group that leave when those at the front are done. -/
def leavingOps (os : List CountedOp) : List CountedOp :=
  os.filter fun o => !(retireOps os []).any fun x => x.id == o.id

/-- Operations that can retire do, each with its flag (R28, R272, R321). -/
def retireDone (g : Group) : Group :=
  let gone := leavingOps g.ops
  let g := gone.foldl (fun (g : Group) o => g.modThreadOf o.inHandler fun t => lowerFlag t o.flag) g
  { g with ops := retireOps g.ops [] }

/-- A counted operation is done. -/
def finishOp (s : State) (gid id : Nat) : State :=
  s.modGroup gid fun g =>
    retireDone { g with ops := g.ops.map fun x => if x.id = id then { x with done := true } else x }

/-- A counted operation begins: the counter and the flag it names rise (R28, R321). -/
def beginOp (s : State) (gid cls : Nat) (flag : Option Nat) : Nat × State :=
  let (id, s) := s.newId
  (id, s.modGroup gid fun g =>
    let g := g.modThreadOf g.priv fun t => raiseFlag t flag
    { g with ops := g.ops ++ [{ cls := cls, id := id, flag := flag, inHandler := g.priv }] })

/-- The counts of arriving `msync` instructions whose phase has completed are done (R391): barrier n of a team stands at
`phase`. -/
def finishArrivals (s : State) (tid n : Nat) (phase : Bool) : State :=
  let due := s.groups.flatMap fun x => if x.2.team = tid
    then (x.2.ops.filter fun o => o.bar == some (n, !phase) && !o.done).map fun o => (x.1, o.id) else []
  due.foldl (fun s d => finishOp s d.1 d.2) s

end Sys2Proof.Machine
end

