-- ==== Sys2Proof/Machine/Lifecycle.lean ====
section
/-!
DEFINITION. Barriers (R202, R203, R389), the event ring (R510), and the release of what groups, teams and clusters hold
(R138, R177, R259, R457, R458).
-/
namespace Sys2Proof.Machine
open Sys2Proof

/-! ### The event ring of the security monitor (R510) -/

/-- The service firmware's read count: the 8 bytes before the ring. -/
def ringRead (s : State) : Nat := ofBytes ((fromTo (s.ring.base - 8) 8).map (tget 0 s.fwMem))

def ringFull (s : State) : Bool := decide (s.ring.write - ringRead s ≥ s.ring.count)

/-- Write one 16-byte entry. -/
def ringPut (s : State) (code status operand : Nat) : State :=
  let r := s.ring
  let bytes := toBytes 2 code ++ toBytes 2 status ++ toBytes 4 operand ++ toBytes 8 (r.seq + 1)
  { s with fwMem := putBytes s.fwMem (r.base + 16 * (r.write % r.count)) bytes
           ring := { r with write := r.write + 1, seq := r.seq + 1 } }

/-- Report an event: dropped and counted while no ring is set or the ring is full; a count of lost events goes first. DESIGN CHOICE, log entry 44. -/
def raiseEvent (s : State) (code status operand : Nat) : State :=
  if !s.ring.set || ringFull s then { s with ring := { s.ring with lost := s.ring.lost + 1 } }
  else if s.ring.lost > 0 then
    let s := ringPut s 0x1FF (Nat.min s.ring.lost 0xFFFF) 0
    let s := { s with ring := { s.ring with lost := 0 } }
    if ringFull s then { s with ring := { s.ring with lost := 1 } } else ringPut s code status operand
  else ringPut s code status operand

/-! ### Barriers -/

/-- On completion, in one step: the phase flips, counts and expectations reset, LASTCODE takes the sequencer's code (R203,
R389). -/
def Barrier.complete (b : Barrier) (code : Nat) : Barrier :=
  { b with phase := !b.phase, count := 0, expected := none, isDefault := false, seqArrived := false, seqCode := 0,
           lastCode := code }

/-- A team or cluster barrier whose arrivals have reached its expected count. -/
def Barrier.settle (b : Barrier) : Barrier :=
  match b.expected with
  | some n => if b.count ≥ n then b.complete b.lastCode else b
  | none => b

/-- The expected count that an arriving instruction asks for: 0 the default, at most 4,095 (R203). -/
def Barrier.expect (b : Barrier) (ask dflt : Nat) : Barrier :=
  match b.expected with
  | some _ => b
  | none => if ask = 0 then { b with expected := some dflt, isDefault := true }
            else { b with expected := some (Nat.min ask 4095), isDefault := false }

/-- One arrival at a team or cluster barrier. -/
def Barrier.arrive (b : Barrier) (ask dflt : Nat) : Barrier :=
  let b := b.expect ask dflt
  ({ b with count := b.count + 1 }).settle

/-- A group retired: a default count is recomputed (R203). -/
def Barrier.recount (b : Barrier) (dflt : Nat) : Barrier :=
  if b.isDefault then ({ b with expected := some dflt }).settle else b

/-- A matrix barrier completes when the group arrivals equal the expected count and the sequencer has arrived; on group
arrivals alone when no stream arrives any more; on the sequencer's arrival alone when no group is live (R389). -/
def Barrier.settleMat (b : Barrier) (streamLive : Bool) (liveGroups : Nat) : Barrier :=
  let groupsDone := match b.expected with
    | some n => decide (b.count ≥ n)
    | none => false
  if !streamLive then (if groupsDone then b.complete 0xFF else b)
  else if b.seqArrived && (groupsDone || liveGroups == 0) then b.complete b.seqCode else b

def Team.barrier (t : Team) (n : Nat) : Barrier := tget {} t.barriers n
def Team.setBarrier (t : Team) (n : Nat) (b : Barrier) : Team := { t with barriers := tput {} t.barriers n b }
def Team.matBarrier (t : Team) (n : Nat) : Barrier := tget {} t.matBarriers n
def Team.setMatBarrier (t : Team) (n : Nat) (b : Barrier) : Team := { t with matBarriers := tput {} t.matBarriers n b }
def Cluster.barrier (c : Cluster) (n : Nat) : Barrier := tget {} c.barriers n
def Cluster.setBarrier (c : Cluster) (n : Nat) (b : Barrier) : Cluster := { c with barriers := tput {} c.barriers n b }

/-- The groups of a team that have not retired, lowest group number first; Spindle jobs are none of them. -/
def groupsOf (s : State) (tid : Nat) : List (Nat × Group) :=
  sortBy (fun a b => decide (a.2.g < b.2.g)) (s.groups.filter fun x => x.2.team == tid && x.2.kind != .spindle)

def liveGroups (s : State) (tid : Nat) : Nat := (groupsOf s tid).length

/-- The default count of a cluster barrier (R203). -/
def clusterGroups (s : State) (cid : Nat) : Nat := ((teamsOf s cid).map (liveGroups s)).foldl (· + ·) 0

/-- A stream of the team still arrives at matrix barriers (R388, R389). -/
def Team.streamLive (t : Team) : Bool :=
  match t.seq with
  | some q => q.state != .ended
  | none => false

/-- The counts of completed matrix phases of a team fall (R391). -/
def settleArrivals (s : State) (tid : Nat) : State :=
  match s.team tid with
  | none => s
  | some t => (fromTo 0 16).foldl (fun s n => finishArrivals s tid n (t.matBarrier n).phase) s

/-- Every barrier of a team and its cluster after the number of live groups has changed (R203, R389). -/
def recountBarriers (s : State) (tid : Nat) : State :=
  match s.team tid with
  | none => s
  | some t =>
    let n := liveGroups s tid
    let bs := (fromTo 0 8).foldl (fun (t : Team) k => t.setBarrier k ((t.barrier k).recount n)) t
    let bs := (fromTo 0 16).foldl (fun (t : Team) k =>
      let b := t.matBarrier k
      let b := if b.isDefault then { b with expected := some n } else b
      t.setMatBarrier k (b.settleMat t.streamLive n)) bs
    let s := settleArrivals (s.setTeam tid bs) tid
    let m := clusterGroups s t.cluster
    s.modCluster t.cluster fun c =>
      (fromTo 0 4).foldl (fun (c : Cluster) k => c.setBarrier k ((c.barrier k).recount m)) c

/-- The barrier a wait names: kind 0 team, 1 cluster, 2 matrix. -/
def barrierOf (s : State) (g : Group) (kind n : Nat) : Barrier :=
  match s.team g.team with
  | none => {}
  | some t =>
    if kind = 0 then t.barrier n
    else if kind = 2 then t.matBarrier n
    else ((s.cluster t.cluster).map fun c => c.barrier n).getD {}

/-! ### Frame stores -/

/-- A group gives back its frame store (R409). -/
def freeStore (s : State) (g : Group) (gid : Nat) : State :=
  s.modCore g.core fun k => k.setSlice g.slice (
    let x := k.slice g.slice
    { x with stores := (if x.stores.1 = some gid then none else x.stores.1,
                        if x.stores.2 = some gid then none else x.stores.2) })

/-! ### Scratchpad release -/

/-- The granules of a team are released: zeroed, every line present and unmarked, under a new generation (R234, R259,
R349). -/
def releaseScratch (s : State) (t : Team) : State :=
  let lo := t.scratchBase
  let hi := t.scratchBase + t.scratchSize
  s.modCore t.core fun k =>
    { k with
      scratch := k.scratch.filter fun x => decide (x.1 < lo ∨ hi ≤ x.1)
      absent := k.absent.filter fun x => decide (x.1 < lo / 128 ∨ hi / 128 ≤ x.1)
      scratchBad := k.scratchBad.filter fun x => decide (x < lo / 128 ∨ hi / 128 ≤ x)
      gens := (fromTo t.granule t.granules).foldl (fun g i => tput 0 g i ((tget 0 g i + 1) % 65536)) k.gens }

/-- The generation of a scratchpad byte's allocation (R349). -/
def genAt (s : State) (core off : Nat) : Nat := tget 0 (s.core core).gens (off / 262144)

/-! ### Groups -/

/-- A group leaves its slot: its registers, pending register writes and frame store go (R138, R188). -/
def dropGroup (s : State) (gid : Nat) : State :=
  match s.group gid with
  | none => s
  | some g =>
    let s := freeStore s g gid
    { s with groups := tdel s.groups gid, pends := s.pends.filter fun x => x.2.gid != gid }

/-- A group has a live lane: one that can take a trap. -/
def hasLane (g : Group) : Bool := !g.main.frontier.isEmpty

/-- The lowest-numbered live group of a team. -/
def lowestGroup (s : State) (tid : Nat) : Option Nat := ((groupsOf s tid).find? fun x => hasLane x.2).map fun x => x.1

/-- Causes of the stream or of an engine that a retiring group has not taken pass to the lowest-numbered live group that
remains (R369); without one, that of an engine goes to the next group of the context to issue on the core (R426). -/
def passCauses (s : State) (g : Group) : State :=
  match lowestGroup s g.team, g.pending.find? fun p => p.source == 2 with
  | some gid, _ => s.modGroup gid fun x =>
      { x with pending := x.pending ++ g.pending.filter fun p => p.source == 1 || p.source == 2 }
  | none, some p => s.modCore g.core fun k => k.modResident g.ctx fun r => { r with owed := some p }
  | none, none => s

/-- A group retires (R138): its slot goes back and default barrier counts fall (R203). -/
def retireGroup (s : State) (gid : Nat) : State :=
  match s.group gid with
  | none => s
  | some g => recountBarriers (passCauses (dropGroup s gid) g) g.team

/-- The context a team runs in. -/
def ctxOfTeam (s : State) (t : Team) : Nat :=
  ((((s.cluster t.cluster).bind fun c => s.grid c.grid)).map Grid.ctx).getD 0

end Sys2Proof.Machine
end

