-- ==== Sys2Proof/Machine/Async.lean ====
section
/-!
DEFINITION. What instructions leave behind when they issue, and how it ends: register writes on their way (R26 to R28),
stores in the store path (R144, R289), and the operations that the outstanding counters count (R321).
-/
namespace Sys2Proof.Machine
open Sys2Proof

/-! ### Register writes -/

def RegWrite.apply (t : Thread) (w : RegWrite) : Thread :=
  if w.pred then setPred t w.reg w.lane (w.value.getLsbD 0)
  else if w.scalar then setSreg t w.reg w.value else setVreg t w.reg w.lane w.value

/-- The clock at which one part of what an instruction sent on its way ends, a lane's result or a word of a store: any from the
clock after its issue to the end of the whole. DESIGN CHOICE, log entry 6. -/
def partDue (salt start due k : Nat) : Nat :=
  if due ≤ start + 1 then due else start + 1 + Config.freeChoice salt (4 * k + 3) % (due - start)

/-- Two runs of bytes share one. -/
def placesMeet (p : Place) (n : Nat) (q : Place) (m : Nat) : Bool :=
  match p, q with
  | .mem a, .mem b => decide (a < b + m ∧ b < a + n)
  | .foreign d a, .foreign e b => d == e && decide (a < b + m ∧ b < a + n)
  | .scratch c a, .scratch d b => c == d && decide (a < b + m ∧ b < a + n)
  | .column c u a, .column d v b => c == d && u == v && decide (a < b + m ∧ b < a + n)
  | _, _ => false

/-- A read that may still be performed keeps what it read at its issue: its bytes are absent or marked, or its line holds a write
still in the store path (R234, R293, R424). -/
def lateKept (s : State) (core : Nat) (l : LateRead) : Bool :=
  (absentLine s l.n l.place).isSome || (placeCause s l.n l.place).isSome ||
  s.stores.any fun x => x.2.core == core && x.2.writes.any fun w =>
    (w.place.units w.bytes.length 128).any (l.place.units l.n 128).contains

/-- A value with each aligned 4-byte piece either as it was read or as it stands now (R147, R292). DESIGN CHOICE, log entry 70. -/
def lateValue (s : State) (salt : Nat) (l : LateRead) (old : Nat) : Nat :=
  let piece (i : Nat) : Bool := Config.freeChoice salt (4 * ((l.place.offset + i) / 4) + 2) % 2 == 0
  let x := ofBytes (((toBytes l.n old).zip ((readPlace s l.n l.place).zip (fromTo 0 l.n))).map fun b =>
    if piece b.2.2 then b.1 else b.2.1)
  if bit x (l.sext - 1) && l.sext != 0 then x + 2 ^ 32 - 2 ^ l.sext else x

/-- The words of a list of register writes as one number, the first lowest. -/
def wordsValue (ws : List RegWrite) : Nat := ws.foldr (fun w x => w.value.toNat + 2 ^ 32 * x) 0

/-- The words of a number put into a list of register writes. -/
def setWords : List RegWrite → Nat → List RegWrite
  | [], _ => []
  | w :: ws, x => { w with value := BitVec.ofNat 32 x } :: setWords ws (x / 2 ^ 32)

/-- One read of a result is performed for good. DESIGN CHOICE, log entry 70. -/
def Pend.bindOne (s : State) (core : Nat) (p : Pend) (l : LateRead) : Pend :=
  let mine := p.writes.filter fun w => w.lane == l.lane
  let new := if lateKept s core l then mine else setWords mine (lateValue s p.salt l (wordsValue mine))
  { p with writes := p.writes.filter (fun w => w.lane != l.lane) ++ new, late := p.late.filter fun x => x != l }

/-- The reads of a result that a test picks are performed for good; a line that was read anew leaves the L1, so that no later
read finds older bytes there (R294). DESIGN CHOICE, log entry 70. -/
def bindLate (s : State) (id : Nat) (which : LateRead → Bool) : State :=
  match tfind s.pends id with
  | none => s
  | some p =>
    let ls := p.late.filter which
    if ls.isEmpty then s
    else
      let core := ((s.group p.gid).map Group.core).getD 0
      let s := { s with pends := tins s.pends id (ls.foldl (Pend.bindOne s core) p) }
      ls.foldl (fun s l => l1Drop s core l.place l.n) s

/-- The older reads of a group that share a byte with an access of it are performed for good first (R146, R292). DESIGN CHOICE, log entry 70. -/
def bindMeeting (s : State) (gid before : Nat) (p : Place) (n : Nat) : State :=
  ((s.pends.filter fun x => x.2.gid == gid && decide (x.1 < before) && !x.2.late.isEmpty).map fun x => x.1).foldl
    (fun s id => bindLate s id fun l => placesMeet l.place l.n p n) s

/-- Every read of a group is performed for good. DESIGN CHOICE, log entry 70. -/
def bindGroup (s : State) (gid : Nat) : State :=
  ((s.pends.filter fun x => x.2.gid == gid && !x.2.late.isEmpty).map fun x => x.1).foldl (fun s id => bindLate s id fun _ => true) s

/-- An asynchronous result reaches its registers and its flag count falls (R28). -/
def landPend (s : State) (id : Nat) : State :=
  let s := bindLate s id fun _ => true
  match tfind s.pends id with
  | none => s
  | some p =>
    let s := { s with pends := tdel s.pends id }
    s.modGroup p.gid fun g => g.modThreadOf p.inHandler fun t =>
      lowerFlag (p.writes.foldl RegWrite.apply t) p.flag

/-- The clock at which a lane's part of a result lands. -/
def Pend.laneDue (p : Pend) (lane : Nat) : Nat := partDue p.salt p.start p.due lane

/-- The lanes of a flagged result whose clock has come reach their registers, each lane on its own (R27). An interlocked result is
seen by nothing before its end. DESIGN CHOICE, log entry 6. -/
def landLanes (s : State) (id : Nat) : State :=
  match tfind s.pends id with
  | none => s
  | some p =>
    let now (lane : Nat) : Bool := p.flag.isSome && decide (p.laneDue lane ≤ s.clock)
    let s := bindLate s id fun l => now l.lane
    match tfind s.pends id with
    | none => s
    | some p =>
      let s := { s with pends := tins s.pends id { p with writes := p.writes.filter fun w => !now w.lane } }
      s.modGroup p.gid fun g => g.modThreadOf p.inHandler fun t =>
        (p.writes.filter fun w => now w.lane).foldl RegWrite.apply t

/-! ### Stores -/

/-- The generation that a peer store found no longer matches, so the write is dropped (R349). -/
def writeStale (s : State) (w : StoreWrite) : Bool :=
  match w.gen, w.place with
  | some g, .scratch core off => genAt s core off != g
  | _, _ => false

/-- The die a place stands on. -/
def placeDie : Place → Nat
  | .mem pa => homeDie pa
  | .foreign _ pa => homeDie pa
  | .scratch c _ => coreDie c
  | .column c _ _ => coreDie c

/-- A home acknowledges one of an agent's crossing writes: the counter falls (R486). DEDUCED, log entry 55. -/
def ackOne (s : State) (agent : Nat) : State :=
  match s.crossings.find? fun x => x.2.agent == agent with
  | some (id, _) => { s with crossings := tdel s.crossings id, fences := tput 0 s.fences agent (tget 0 s.fences agent - 1) }
  | none => s

/-- Every crossing write of an agent has been acknowledged. DEDUCED, log entry 55. -/
def ackAll (s : State) (agent : Nat) : State :=
  { s with crossings := s.crossings.filter fun x => x.2.agent != agent, fences := tdel s.fences agent }

/-- An agent's write that crosses to another die counts in its fence counter until it is acknowledged; one that would take the
counter past 1,023 waits for an acknowledgement (R486). DEDUCED, log entry 55. -/
def countCrossing (s : State) (agent : Nat) (p : Place) : State :=
  if placeDie p = coreDie agent then s
  else
    let s := if tget 0 s.fences agent ≥ 1023 then ackOne s agent else s
    let (id, s) := s.newId
    { s with fences := tput 0 s.fences agent (tget 0 s.fences agent + 1)
             crossings := tins s.crossings id { agent := agent, home := placeDie p } }

/-- Bytes are performed for an agent of the I/O die: front end f is agent 192 + f, encoder e 208 + e, the PCIe port 216, port p
217 + p. -/
def agentPut (s : State) (agent : Nat) (p : Place) (bs : List Byte) : State := countCrossing (writePlace s bs p) agent p

/-- Bytes are performed for a core; its own L1 loses the line (R148, R306). -/
def corePut (s : State) (core : Nat) (p : Place) (bs : List Byte) : State :=
  l1Drop (countCrossing (writePlace s bs p) core p) core p bs.length

/-- A write that was dropped under R349 counts in the context's DROPPED word (R430). -/
def countDropped (s : State) (ctx n : Nat) : State :=
  s.modCtx ctx fun c => { c with dropped := Nat.min (c.dropped + n) (2 ^ 64 - 1) }

/-- One lane's bytes are performed, or dropped. -/
def performWrite (s : State) (core ctx : Nat) (w : StoreWrite) : State :=
  if writeStale s w then countDropped s ctx 1 else corePut s core w.place w.bytes

/-- A write cut at addresses that are multiples of 4: each piece is performed on its own (R147, R166, R168). -/
def cutWrite : Nat → StoreWrite → List StoreWrite
  | 0, _ => []
  | fuel + 1, w =>
    if w.bytes.isEmpty then []
    else
      let m := 4 - w.place.offset % 4
      { w with bytes := w.bytes.take m } :: cutWrite fuel { w with place := w.place.plus m, bytes := w.bytes.drop m }

def cutWrites (ws : List StoreWrite) : List StoreWrite := ws.flatMap fun w => cutWrite w.bytes.length w

/-- The bytes of a list of writes cover a run of bytes between them. -/
def coveredBy (ws : List StoreWrite) (p : Place) (n : Nat) : Bool :=
  (fromTo 0 n).all fun i => ws.any fun w => placesMeet w.place w.bytes.length (p.plus i) 1

/-- The unit that bears one poison mark and holds the first byte of a place, and its size: a sector of module memory, a
scratchpad line, a codeword of a row (R280, R424). -/
def markUnit : Place → Place × Nat
  | .mem pa => (.mem (pa / 32 * 32), 32)
  | .foreign d pa => (.foreign d (pa / 32 * 32), 32)
  | .scratch c o => (.scratch c (o / 128 * 128), 128)
  | .column c u b => (.column c u (b / 64 * 64), 64)

/-- The units that the lanes of a store cover wholly between them (R424). -/
def coveredMarks (ws : List StoreWrite) : List Place :=
  (ws.map fun w => markUnit w.place).filterMap fun x => if coveredBy ws x.1 x.2 then some x.1 else none

/-- A unit that has been written wholly bears no mark any more (R424). -/
def clearMark (s : State) : Place → State
  | .mem pa => { s with memBad := s.memBad.filter fun u => u != pa / 32 }
  | .foreign _ pa => { s with memBad := s.memBad.filter fun u => u != pa / 32 }
  | .scratch c o => s.modCore c fun k => { k with scratchBad := k.scratchBad.filter fun u => u != o / 128 }
  | .column c u b => s.modCore c fun k => { k with rowsBad := k.rowsBad.filter fun x => x != (u * 8388608 + b) / 64 }

/-- A line is tagged with a core that made a `.grp` or `.team` release there, whose number in the order of the store path is
`id` (R303). DEDUCED, log entry 71. -/
def tagLine (core id : Nat) (t : Table (List (Nat × Nat))) (line : Nat) : Table (List (Nat × Nat)) :=
  tins t line ((core, id) :: (tget [] t line).filter fun x => x.1 != core)

/-- Pieces of a store are performed, lanes ascending (R144, R145). The older reads of its thread that share a byte with them come
first (R146). -/
def performPieces (s : State) (id : Nat) (p : PendStore) (ws : List StoreWrite) : State :=
  let s := ws.foldl (fun s w => bindMeeting s p.gid id w.place w.bytes.length) s
  let s := ws.foldl (fun s w => performWrite s p.core p.ctx w) s
  if p.tag then { s with tags := (ws.flatMap fun w => w.place.units w.bytes.length 128).foldl (tagLine p.core id) s.tags } else s

/-- What is left of a store is performed, and it is complete: its flag and the operations it counts as (R28, R144). -/
def performOne (s : State) (id : Nat) : State :=
  match tfind s.stores id with
  | none => s
  | some p =>
    let s := performPieces { s with stores := tdel s.stores id } id p p.writes
    let s := p.covers.foldl clearMark s
    let s := s.modGroup p.gid fun g => g.modThreadOf p.inHandler fun t => lowerFlag t p.flag
    p.ops.foldl (fun s o => finishOp s p.gid o) s

/-- A store that crosses to another die. -/
def crosses (p : PendStore) : Bool := p.writes.any fun w => placeDie w.place != coreDie p.core

/-- A store waits: for a release, until every counted write of its core has been acknowledged; a crossing one also behind a held
release and at a full fence counter (R304, R486). DEDUCED, log entry 55. -/
def mustHold (s : State) (p : PendStore) : Bool :=
  (p.release && tget 0 s.fences p.core != 0) ||
  (crosses p && (!(tget [] s.heldRel p.core).isEmpty || decide (tget 0 s.fences p.core ≥ 1023)))

/-- What a die-edge switch holds of a core goes on, in its order, each release with its acknowledgements in (R304). DEDUCED, log entry 55. -/
def passHeld (s : State) (core : Nat) : State :=
  (tget [] s.heldRel core).foldl (fun s id => performOne (ackAll s core) id) { s with heldRel := tdel s.heldRel core }

def storesMeet (p q : PendStore) : Bool :=
  p.writes.any fun x => q.writes.any fun y => placesMeet x.place x.bytes.length y.place y.bytes.length

/-- Older stores of a store's group go first where one of them shares a byte with it: two accesses of one thread to common bytes
take effect in program order (R146); so do those of its core that a release has covered (R298). DESIGN CHOICE, log entry 61. -/
def olderFirst (s : State) (id : Nat) (p : PendStore) : State :=
  let older := s.stores.filter fun x => decide (x.1 < id) && (x.2.gid == p.gid || (x.2.released && x.2.core == p.core))
  if older.any fun x => storesMeet x.2 p then (older.map fun x => x.1).foldl performOne s else s

/-- A store that need wait for nothing at its switch is performed (R146). -/
def performNow (s : State) (id : Nat) : State :=
  match tfind s.stores id with
  | none => s
  | some p => performOne (olderFirst s id p) id

/-- A store is performed, with all that must come before it (R146, R304). DESIGN CHOICE, log entry 61. -/
def performStore (s : State) (id : Nat) : State :=
  match tfind s.stores id with
  | none => s
  | some p => performNow (if mustHold s p then passHeld (ackAll s p.core) p.core else s) id

/-- The clock at which a piece of a store is performed. -/
def PendStore.pieceDue (p : PendStore) (w : StoreWrite) : Nat := partDue p.salt p.start p.due (w.place.offset / 4)

/-- The pieces of a store whose clock has come are performed (R147). DESIGN CHOICE, log entry 6. -/
def performSome (s : State) (id : Nat) : State :=
  match tfind s.stores id with
  | none => s
  | some p =>
    let now (w : StoreWrite) : Bool := decide (p.pieceDue w ≤ s.clock)
    if p.due ≤ s.clock then performNow s id
    else if p.writes.any now then
      let s := olderFirst s id p
      performPieces { s with stores := tins s.stores id { p with writes := p.writes.filter fun w => !now w } } id p (p.writes.filter now)
    else s

/-- Every store of a group is performed, in program order, and every read of it; with them those of its core that a narrower
release has covered, which may happen before this point (R298). DESIGN CHOICE, log entry 10. -/
def performStoresOf (s : State) (gid : Nat) : State :=
  let core := (s.group gid).map Group.core
  ((s.stores.filter fun x => x.2.gid == gid || (x.2.released && core == some x.2.core)).map fun x => x.1).foldl performStore
    (bindGroup s gid)

/-- Stores that a test picks are released at `.team`: those to scratchpads and columns are performed, those to `.g` stay in the
store path, covered (R293, R303). DESIGN CHOICE, log entry 61. -/
def releaseLocal (s : State) (which : PendStore → Bool) : State :=
  let s := ((s.stores.filter fun x => which x.2 && x.2.writes.any fun w => w.place.tagged.isNone).map fun x => x.1).foldl
    performStore s
  { s with stores := s.stores.map fun (x : Nat × PendStore) => if which x.2 then (x.1, { x.2 with released := true }) else x }

/-- A group's release at `.grp` or `.team`; every read of it is performed (R293). -/
def performLocalOf (s : State) (gid : Nat) : State := releaseLocal (bindGroup s gid) fun p => p.gid == gid

/-- The stores a read of a core must see are performed before it: those of its own group to common bytes (R146), and those of the
core to its lines (R293). Older reads of the group of common bytes are performed too. DESIGN CHOICE, log entry 10. DESIGN CHOICE, log entry 61. -/
def performStoresFor (s : State) (gid core : Nat) (at' : List (Place × Nat)) : State :=
  let own (w : StoreWrite) : Bool := at'.any fun x => placesMeet w.place w.bytes.length x.1 x.2
  let line (w : StoreWrite) : Bool :=
    at'.any fun x => (w.place.units w.bytes.length 128).any (x.1.units x.2 128).contains
  let s := at'.foldl (fun s x => bindMeeting s gid s.fresh x.1 x.2) s
  ((s.stores.filter fun x => x.2.writes.any fun w => (x.2.gid == gid && own w) || (x.2.core == core && line w)).map
    fun x => x.1).foldl performStore s

/-- Every store of a context is performed, and every read of its groups. -/
def performStoresCtx (s : State) (ctx : Nat) : State :=
  let s := ((s.groups.filter fun x => x.2.ctx == ctx).map fun x => x.1).foldl bindGroup s
  ((s.stores.filter fun x => x.2.ctx == ctx).map fun x => x.1).foldl performStore s

/-- Every store of a team is performed, those of its groups that have retired included, and every read of its groups. -/
def performStoresTeam (s : State) (tid : Nat) : State :=
  let s := ((s.groups.filter fun x => x.2.team == tid).map fun x => x.1).foldl bindGroup s
  ((s.stores.filter fun x => x.2.team == tid).map fun x => x.1).foldl performStore s

/-- A place lies in a frame. -/
def inFrame (fr : Nat) (p : Place) : Bool := (p.tagged.map fun x => x.2 / 131072 == fr).getD false

/-- Stores already on their way to a frame are performed, and reads of it that may still be performed are. -/
def settleFrame (s : State) (fr : Nat) : State :=
  let s := (s.pends.map fun x => x.1).foldl (fun s id => bindLate s id fun l => inFrame fr l.place) s
  ((s.stores.filter fun x => x.2.writes.any fun w => inFrame fr w.place).map fun x => x.1).foldl performStore s

/-- The writes that entered a core's store path before a tagged release are performed (R303). DEDUCED, log entry 71. -/
def pushCore (s : State) (core id scope : Nat) : State :=
  let s := ((s.stores.filter fun x => decide (x.1 < id) && x.2.core == core).map fun x => x.1).foldl performStore s
  if scope ≥ 3 then ackAll s core else s

/-- A line loses its tags, those of the cores that a test picks, each after its push (R303). DEDUCED, log entry 71. -/
def pushLine (s : State) (line scope : Nat) (p : Nat → Bool) : State :=
  let due := (tget [] s.tags line).filter fun x => p x.1
  let s := due.foldl (fun s x => pushCore s x.1 x.2 scope) s
  { s with tags := tput [] s.tags line ((tget [] s.tags line).filter fun x => !p x.1) }

/-- Loads and stores a group has issued are brought to their end, as a wait for them would (R407, R417). -/
def drainGroup (s : State) (gid : Nat) : State :=
  let s := performStoresOf s gid
  ((s.pends.filter fun x => x.2.gid == gid).map fun x => x.1).foldl landPend s

/-- Some completion flag of the registers in use is pending. -/
def flagsPending (t : Thread) : Bool := t.flags.any fun x => x.2 != 0

end Sys2Proof.Machine
end

