-- ==== Sys2Proof/Machine/Frames.lean ====
section
/-!
DEFINITION. Frames of module memory: which are in use, allocation by colour (R237), release with zeroing (R259), the
reference counts of shared frames (R256), and the copy-on-write swap (R253 to R255).
-/
namespace Sys2Proof.Machine
open Sys2Proof

/-- Bytes of a frame. -/
def frameBytes : Nat := 131072

/-- The colour of frame PA[47:17] (R237). -/
def colourOf (fr : Nat) : Nat :=
  (fromTo 0 8).foldl (fun c k => c ^^^ (fr / 16 ^ k % 16)) 0

/-- The first frame of a tier on a die and how many frames it has there (R480): near, else far. -/
def tierFrames (die tier : Nat) : Nat × Nat :=
  if tier = 0 then (196608 * die, 196608) else (8388608 + 786432 * die, 786432)

/-- The tier of a frame. -/
def frameTier (fr : Nat) : Nat := if fr < 8388608 then 0 else 1
/-- The die of a frame. -/
def frameDie (fr : Nat) : Nat := homeDie (fr * frameBytes)

/-- A frame lies in a step that a rise of COLSPLIT is taking into column space (R482). -/
def stepLeaving (s : State) (fr : Nat) : Bool :=
  s.laters.any fun l => match l with
    | .colsplit core value => frameTier fr == 0 && (stackedStep (fr * frameBytes)).1 == core && decide ((stackedStep (fr * frameBytes)).2 < value)
    | _ => false

/-- Frame `fr` can be allocated under a colour mask. -/
def frameFree (s : State) (colours fr : Nat) : Bool :=
  (tfind s.frames fr).isNone && populated s (fr * frameBytes) && bit colours (colourOf fr) && !stepLeaving s fr

/-- The first free frame of a range at or after place `k`, cyclically. -/
def searchFrame (s : State) (colours base count : Nat) : Nat → Nat → Option Nat
  | 0, _ => none
  | fuel + 1, k =>
    let fr := base + k % count
    if frameFree s colours fr then some fr else searchFrame s colours base count fuel (k + 1)

/-- A free frame of a tier on a die: any one may be taken. DESIGN CHOICE, log entry 41. -/
def frameOn (s : State) (colours die tier : Nat) : Option Nat :=
  let (base, count) := tierFrames die tier
  searchFrame s colours base count (Nat.min count (16 * (s.frames.length + 1) + 4096)) (Config.freeChoice s.free 3 % count)

/-- How many free frames of some tiers a die has in a colour mask (R489). -/
def freeFrames (s : State) (colours die : Nat) (tiers : List Nat) : Nat :=
  let perColour := (tiers.map fun t => if t = 0
    then ((fromTo (48 * die) 48).map fun c => (8 - (s.core c).colsplit) * 32).foldl (· + ·) 0 else 49152).foldl (· + ·) 0
  perColour * popNat 16 colours - (s.frames.filter fun x =>
    frameDie x.1 == die && tiers.contains (frameTier x.1) && bit colours (colourOf x.1)).length

/-- The die with the most free frames. -/
def roomiestDie (s : State) (colours : Nat) (tiers : List Nat) : Nat :=
  (fromTo 1 3).foldl (fun d e => if freeFrames s colours d tiers < freeFrames s colours e tiers then e else d) 0

/-- A free frame of one of some tiers, in a colour mask: on a home die, else on the die with the most free frames (R489).
DESIGN CHOICE, log entry 41. -/
def pickMasked (s : State) (colours home : Nat) (tiers : List Nat) : Option Nat :=
  match tiers.findSome? (frameOn s colours home) with
  | some fr => some fr
  | none => tiers.findSome? (frameOn s colours (roomiestDie s colours tiers))

/-- A free frame of one of some tiers for a context, in the colours of its partition (R237). DESIGN CHOICE, log entry 41. -/
def pickFrame (s : State) (ctx : Nat) (tiers : List Nat) : Option Nat :=
  match s.ctx ctx with
  | none => none
  | some c => pickMasked s (s.front c.part).colours (homeDie c.root) tiers

/-- A free frame that a shared frame of a context may move to: it keeps the colour it had when it was merged (R237). DEDUCED, log entry 43. -/
def pickShared (s : State) (c : Context) (fr : Nat) (tiers : List Nat) : Option Nat :=
  pickMasked s (2 ^ colourOf fr) (homeDie c.root) tiers

/-- The tiers in the order in which a new frame is looked for: the manual does not say which comes first. DESIGN CHOICE, log entry 41. -/
def anyTier (s : State) : List Nat := if Config.freeChoice s.free 7 % 2 = 0 then [0, 1] else [1, 0]

/-- A frame is taken for a key domain, zeroed (R259). -/
def takeFrame (s : State) (fr dom : Nat) : State :=
  { (zeroMem s (fr * frameBytes) frameBytes) with frames := tins s.frames fr dom }

/-- Lines of a frame leave every cache: the caches are tagged by frame and key domain (R235). Each tagged line pushes first
(R303). DEDUCED, log entry 43. -/
def purgeFrame (s : State) (fr : Nat) : State :=
  let s := ((s.tags.map fun x => x.1).filter fun l => l % 2 ^ 43 / 1024 == fr).foldl (fun s l => pushLine s l 2 fun _ => true) s
  let off (x : Nat × List Byte) : Bool := x.1 % 2 ^ 43 / 4096 != fr
  let onCore (k : Core) : Core := { k with l1 := k.l1.filter off, icache := k.icache.filter off }
  { s with cores := s.cores.map fun (k : Nat × Core) => (k.1, onCore k.2)
           foreign := s.foreign.filter fun x => x.1 % 2 ^ 41 / 1024 != fr }

/-- A frame is released and zeroed, what was on its way there performed (R259). -/
def dropFrame (s : State) (fr : Nat) : State :=
  { (zeroMem (purgeFrame (settleFrame s fr) fr) (fr * frameBytes) frameBytes) with frames := tdel s.frames fr }

/-- One mapping of a shared frame goes; the frame is released at 0 (R256). -/
def dropShared (s : State) (fr : Nat) : State :=
  match tfind s.shared fr with
  | none => s
  | some x =>
    if x.refs ≤ 1 then dropFrame { s with shared := tdel s.shared fr } fr
    else { s with shared := tins s.shared fr { x with refs := x.refs - 1 } }

/-- One mapping of a shared frame is added. -/
def addShared (s : State) (fr : Nat) : State :=
  { s with shared := tadj s.shared fr fun x => { x with refs := x.refs + 1 } }

/-- Bytes of a frame are copied as an access under a key domain reads them, with their marks and line checks. -/
def copyUnder (s : State) (dom src dst n : Nat) : State :=
  match placeUnder s dom src with
  | .mem _ => copyMem s src dst n
  | p => writeMem s dst (readPlace s n p)

/-- The private frame that a copy-on-write swap writes to: the page's own, or one that is free. -/
def cowFrame (s : State) (ctx : Nat) (l : Leaf) : Option Nat :=
  if compMask l.comp = 0 then pickFrame s ctx (anyTier s) else some (bits l.comp 30 0)

/-- The copy-on-write swap of subpage `sub` (R253): a private frame where there is none, the subpage copied, the new entry
in place; a page with no shared subpage left becomes wholly private (R255). No frame free: nothing changes. An entry that
is no longer the one read is read again (R244). -/
def cowSwap (s : State) (ctx va : Nat) (l : Leaf) (sub : Nat) : State :=
  match s.ctx ctx with
  | none => s
  | some c =>
    if entryAt s c.privDom l.at' ≠ l.pte then dropCopies s ctx (fun v _ => v == vpnOf va) fun _ => false
    else
    match cowFrame s ctx l with
    | none => s
    | some fr =>
      let s := if compMask l.comp = 0 then takeFrame s fr c.privDom else s
      let s := copyUnder s (pteKey l.pte) (pteAddr l.pte + 4096 * sub) (fr * frameBytes + 4096 * sub) 4096
      let mask := setBit1 (compMask l.comp) sub true
      let pte := setBit1 l.pte 6 true
      if mask = 0xFFFFFFFF then
        let pte := setBits (setBits (setBits (setBit1 pte 8 false) 47 16 (2 * fr)) 61 48 c.privDom) 12 11 (frameTier fr)
        let s := deviceSetLeaf s ctx l pte 0
        dropShared s (pteAddr l.pte / frameBytes)
      else deviceSetLeaf s ctx l pte (mkComp mask (fr * frameBytes))

end Sys2Proof.Machine
end

