-- ==== Sys2Proof/Machine/Release.lean ====
section
/-!
DEFINITION. How Spindle jobs, teams and clusters end, and what is released then (R177, R259, R359, R443, R444, R457, R458).
-/
namespace Sys2Proof.Machine
open Sys2Proof

/-! ### Spindle jobs (R352, R354, R359) -/

/-- The grid of a team. -/
def gridOfTeam (s : State) (tid : Nat) : Nat := (((s.team tid).bind fun t => s.cluster t.cluster).map Cluster.grid).getD 0

/-- A Spindle job stops with a code: FOFF is its `s31`; poison entries fill up what it has not pushed, and 0x0E halts its
context's engine work (R348, R352, R354, R359). DEDUCED, log entry 30. -/
def stopJob (s : State) (gid : Nat) (err : Nat) : State :=
  match s.group gid with
  | none => s
  | some g =>
    let foff := if err = 0 then 0 else sreg g.main 31
    let s := s.modCore g.core fun k =>
      let q := k.spq g.g
      let halt : Halt := { ctx := g.ctx, team := g.team, desc := q.desc, foff := foff }
      k.setSpq g.g { q with running := false, ending := some (err, foff)
                            halts := if err = 0x0E then q.halts ++ [halt] else q.halts
                            poison := if err = 0 ∨ err = 0x21 then 0 else q.limit - q.done }
    dropGroup s gid

/-- What is still to be written to a descriptor when a job has ended. -/
def reportOf (s : State) (q : SpQueue) (err : Nat) (foff : Word) : Report :=
  { ctx := q.ctx.getD 0, grid := gridOfTeam s q.team, desc := q.desc, err := err, foff := foff, done := q.done }

/-- A queue that is bound no more; what its jobs have still to report, and a halt that is still to happen, stay (R359). -/
def SpQueue.unbound (q : SpQueue) : SpQueue := { reports := q.reports, halts := q.halts }

/-- A queue loses its job and its entries: one that runs stops with ERR 0x21, one that has ended reports. -/
def unbindQueue (s : State) (core n : Nat) : State :=
  let x := (s.core core).spq n
  let s := if x.running then stopJob s x.gid 0x21 else s
  let x := (s.core core).spq n
  let more := match x.ending with
    | some (e, w) => [reportOf s x e w]
    | none => []
  s.modCore core fun k => k.setSpq n { x.unbound with reports := x.reports ++ more }

/-- The queues of a core that are bound to jobs of a team. -/
def queuesOf (k : Core) (tid : Nat) : List Nat := (fromTo 0 4).filter fun q => (k.spq q).ctx.isSome && (k.spq q).team == tid

/-! ### Teams and clusters -/

/-- Entries that the Carder of a core holds (R360). -/
def carderCount (k : Core) : Nat := k.deposits.length + (k.ready.map fun r => r.entries.length).foldl (· + ·) 0

/-- The Carder still holds something of a team (R363). -/
def carderHolds (s : State) (t : Team) (tid : Nat) : Bool :=
  (s.core t.core).deposits.any (fun d => d.team == tid) || (s.core t.core).ready.any (fun r => r.team == tid)

/-- A team retires: every group has, its stream has executed `mend`, the Carder holds none of its entries (R177, R363). -/
def teamRetires (s : State) (tid : Nat) (t : Team) : Bool :=
  liveGroups s tid == 0 && !t.streamLive && !carderHolds s t tid && !t.saved

/-- The Carder entries of a team go with it. -/
def dropBins (s : State) (t : Team) (tid : Nat) : State :=
  s.modCore t.core fun k =>
    { k with deposits := k.deposits.filter fun d => d.team != tid
             ready := k.ready.filter fun r => r.team != tid }

/-- Everything a team holds is released (R177, R259). -/
def releaseTeam (s : State) (tid : Nat) : State :=
  match s.team tid with
  | none => s
  | some t =>
    let s := ((groupsOf s tid).map fun x => x.1).foldl dropGroup s
    let s := (queuesOf (s.core t.core) tid).foldl (fun s q => unbindQueue s t.core q) s
    let s := dropBins s t tid
    let s := if t.saved then s else releaseScratch s t
    { s with teams := tdel s.teams tid }

/-- Everything a cluster holds is released. -/
def releaseCluster (s : State) (cid : Nat) : State := (teamsOf s cid).foldl releaseTeam s

/-- A cluster's save slots are freed (R444): its own, and the one it is being restored from. -/
def freeSlot (s : State) (ctx : Nat) (c : Cluster) : State :=
  s.modCtx ctx fun x => { x with slots := x.slots.filter fun i => some i != c.slot && some i != c.oldSlot }

/-- A cluster is there no more: its resources go. -/
def removeCluster (s : State) (cid : Nat) : State :=
  match s.cluster cid with
  | none => s
  | some c =>
    let s := releaseCluster s cid
    let s := match s.grid c.grid with
      | some g => freeSlot s g.ctx c
      | none => s
    { s with clusters := tdel s.clusters cid }

/-- A cluster has retired or ended: its grid counts it (R177, R224, R457). -/
def retireCluster (s : State) (cid : Nat) : State :=
  match s.cluster cid with
  | none => s
  | some c => (removeCluster s cid).modGrid c.grid fun g => { g with retired := g.retired + 1 }

/-- A store reaches a scratchpad of a cluster. -/
def inCluster (s : State) (cid : Nat) (p : PendStore) : Bool :=
  (teamsOf s cid).contains p.team && p.writes.any fun w => match w.place with
    | .scratch _ _ => true
    | _ => false

/-- Stores of its threads to the scratchpads of a cluster that retires are performed before those are released (R138, R177). -/
def settleScratch (s : State) (cid : Nat) : State :=
  ((s.stores.filter fun x => inCluster s cid x.2).map fun x => x.1).foldl performStore s

/-- Teams whose conditions hold retire; a cluster whose teams have all retired retires (R177). -/
def settleTeam (s : State) (tid : Nat) : State :=
  match s.team tid with
  | none => s
  | some t =>
    let s := if teamRetires s tid t then s.modTeam tid fun t => { t with retired := true } else s
    if (teamsOf s t.cluster).all fun k => ((s.team k).map Team.retired).getD true then
      (if ((s.team tid).map Team.retired).getD false then retireCluster (settleScratch s t.cluster) t.cluster else s)
    else s

/-- The cause codes (R406). -/
def causeCode : Cause → Nat
  | .illegal => 1 | .reserved => 2 | .nonUniform => 3 | .misaligned => 4 | .translation => 5 | .protection => 6
  | .integrity => 7 | .rowLost => 8 | .rowBusy => 9 | .growRefused => 10 | .localBounds => 11 | .matrixShape => 12
  | .laneFault => 13 | .malformed => 14 | .watchdog => 15 | .software => 16 | .timer => 17 | .breakpoint => 18
  | .poison => 19 | .tagFailure => 20 | .budget => 21

/-- FAULTLOG takes the latest event and counts it (R430, R458). -/
def logFault (s : State) (ctx core kind : Nat) (c : Cause) : State :=
  s.modCtx ctx fun x =>
    let n := Nat.min (bits x.faultLog.toNat 63 32 + 1) 0xFFFFFFFF
    { x with faultLog := BitVec.ofNat 64 (causeCode c + 256 * kind + 65536 * core + 2 ^ 32 * n) }

/-- Stores of an ended cluster to the scratchpads of their own teams are seen by nobody: those are zeroed. Those to peers go on,
and are dropped where the generation has changed (R349). -/
def dropOwnStores (s : State) (cid : Nat) : State :=
  let own (w : StoreWrite) : Bool := w.gen.isNone && match w.place with
    | .scratch _ _ => true
    | _ => false
  { s with stores := s.stores.map fun (x : Nat × PendStore) =>
      if inCluster s cid x.2 then
        (x.1, { x.2 with writes := x.2.writes.filter fun w => !own w
                         covers := x.2.covers.filter fun p => p.tagged.isSome })
      else x }

/-- A cluster is ended (R457, R458): recorded in FAULTLOG, reported to the service firmware, its resources released. -/
def endCluster (s : State) (cid core ctx kind : Nat) (c : Cause) : State :=
  let s := logFault s ctx core kind c
  let s := retireCluster (dropOwnStores s cid) cid
  raiseEvent s 0x103 0 ctx

/-- The cluster of a group. -/
def clusterOf (s : State) (g : Group) : Option Nat := (s.team g.team).map Team.cluster

/-- End the cluster of a group (R411, R417, R458). -/
def endGroupCluster (s : State) (gid kind : Nat) (c : Cause) : State :=
  match s.group gid with
  | none => s
  | some g =>
    match clusterOf s g with
    | some cid => endCluster s cid g.core g.ctx kind c
    | none => s

/-! ### Leaving the cores (R443) -/

/-- A cluster is asked to leave its cores. -/
def clusterLeaves (s : State) (cid : Nat) : Bool := ((s.cluster cid).map fun c => c.leaving != 0).getD false

/-- A cluster that was saved has its cores again, and its state is still to be read back (R447). -/
def resumes (s : State) (cid : Nat) : Bool :=
  match s.cluster cid with
  | some c => c.saved.isSome && !c.cores.isEmpty && (teamsOf s cid).all fun k => !((s.team k).map Team.saved).getD false &&
      ((c.saved.getD {}).teams.any fun x => x.tid == k)
  | none => false

/-- Every group of a team has executed `ctx.gate.out`. -/
def groupsOut (s : State) (tid : Nat) : Bool := (groupsOf s tid).all fun g => g.2.out

/-- A team that is asked to leave is to be saved: its last group is out (R443); one that has no group goes with the groups of
the others. DEDUCED, log entry 33. -/
def teamLeft (s : State) (tid : Nat) : Bool :=
  match s.team tid with
  | some t => clusterLeaves s t.cluster && !resumes s t.cluster && groupsOut s tid &&
      (liveGroups s tid != 0 || (teamsOf s t.cluster).all (groupsOut s))
  | none => false

end Sys2Proof.Machine
end

