-- ==== Sys2Proof/Machine/Ops.lean ====
section
/-!
DEFINITION. The shared operations of the instruction meanings: issuing from the head of a frontier with the checks of R33,
taking a trap (R407 to R414) and returning from one (R417).
-/
namespace Sys2Proof.Machine
open Sys2Proof

/-! ### Taking a trap -/

/-- The first entry, if any. -/
def headOf (t : Thread) : Option Entry := t.frontier.head?

/-! ### The save slot (R444, R445) -/

/-- TS: the bytes of a team in a cluster slot. -/
def Team.slotBytes (t : Team) : Nat :=
  alignUp (0x10000 + t.tiles * 0x800 + t.accum * 0x8000 + t.scratchSize + 0x100000 + t.groups * 0x19000) 131072

/-- Where a team's part of a slot lies. -/
def blockIn (s : State) (t : Team) (slot : Option Nat) : Nat :=
  match s.ctx (ctxOfTeam s t) with
  | none => 0
  | some x => x.saveBase.toNat + slot.getD 0 * (x.saveSz.toNat % 2 ^ 32) + 0x1000 + t.rank * t.slotBytes

/-- Where a team's part of its cluster's slot lies. -/
def teamBlock (s : State) (t : Team) : Nat := blockIn s t ((s.cluster t.cluster).bind Cluster.slot)

/-- Where a group's block lies in a slot (R445). -/
def groupIn (s : State) (g : Group) (slot : Option Nat) : Nat :=
  match s.team g.team with
  | none => 0
  | some t => blockIn s t slot + 0x10000 + t.tiles * 0x800 + t.accum * 0x8000 + t.scratchSize + 0x100000 + 0x19000 * g.g

/-- Where a group's block lies in its cluster's slot. -/
def groupBlock (s : State) (g : Group) : Nat :=
  groupIn s g ((s.team g.team).bind fun t => (s.cluster t.cluster).bind Cluster.slot)

/-- Frame words 1 and 5 and the handler of a group at trap entry (R410, R412, R413). -/
def newHandler (s : State) (g : Group) (store : Nat) (info : TrapInfo) (entries : List Replay) (pc : DWord) : Handler :=
  { thread := { rng := seedAll g.seed g.cindex g.tbase g.width, nv := 8, ns := 16 }
    store := store
    info := info
    enghalt := (s.core g.core).halted g.ctx
    pc := pc
    pc0 := pc
    live := liveOf g.main
    ctime := BitVec.ofNat 64 (((s.ctx g.ctx).map Context.ctime).getD 0)
    entries := entries
    swreq := if info.cause = .budget then g.swreq else 0
    saveAddr := if info.cause = .budget then BitVec.ofNat 64 (groupBlock s g) else 0 }

/-- A park that stands across a trap: an arrival already made, or a call already posted (R441). -/
def keptPark : Option Park → Option Park
  | some (.arrived k n p d) => some (.arrived k n p d)
  | some (.call n d m) => some (.call n d m)
  | _ => none

/-- The handler starts in the group's slot with frame store `store` (R410). DEDUCED, log entry 17. -/
def enterHandler (s : State) (gid : Nat) (g : Group) (store : Nat) (info : TrapInfo) (entries : List Replay)
    (pc : DWord) : State :=
  let h := newHandler s g store info entries pc
  let g1 := { g with handler := some h, park := none, kept := keptPark g.park, stalled := none, cur := none, step := 0,
                     replays := [], movePc := none, request := none, pinned := (0, 0)
                     heldReplays := g.replays ++ g.heldReplays
                     heldMove := if g.movePc.isSome then g.movePc else g.heldMove, main := { g.main with staged := [] } }
  let addr := ((s.ctx g.ctx).map Context.handler).getD 0
  let fr := startFrontier s g1 g.full addr
  let g2 := { g1 with handler := some { h with thread := { h.thread with frontier := fr } } }
  let s := s.modCore g.core fun k => k.setSlice g.slice (
    let x := k.slice g.slice
    { x with stores := if store = 0 then (some gid, x.stores.2) else (x.stores.1, some gid) })
  s.setGroup gid g2

/-- The lower-numbered free frame store of a slice (R409). -/
def freeStoreOf (s : State) (core slice : Nat) : Option Nat :=
  match ((s.core core).slice slice).stores with
  | (none, _) => some 0
  | (_, none) => some 1
  | _ => none

/-- A backward `bru` of a Spindle job at an address, taken or not, against its trip limit (R354): `none` beyond it. DEDUCED, log entry 30. -/
def spindleLoop (s : State) (g : Group) (pc : Nat) (taken : Bool) : Option State :=
  if g.kind ≠ .spindle then some s
  else
    let q := (s.core g.core).spq g.g
    match q.loops.find? fun x => x.1 == pc with
    | none => some s
    | some (_, limit, n) =>
      if taken ∧ n ≥ limit then none
      else
        let ls := q.loops.map fun x => if x.1 = pc then (x.1, x.2.1, if taken then n + 1 else 0) else x
        some (s.modCore g.core fun k => k.setSpq g.g { q with loops := ls })

/-- A cause is taken by a group with the given replay entries and resume address (R407, R409, R411): a Spindle job ends
with it (R354); in a handler it is a double trap. Older instructions finish first; while one that names a completion flag
runs on, or no frame store is free, the group waits. DEDUCED, log entry 17. -/
def takeTrap (s : State) (gid : Nat) (info : TrapInfo) (entries : List Replay) (pc : DWord) : State :=
  let s := drainGroup s gid
  match s.group gid with
  | none => s
  | some g =>
    if g.kind = .spindle then stopJob s gid (if info.cause = .software then 0x0E else causeCode info.cause)
    else if g.priv then endGroupCluster s gid 1 info.cause
    else match freeStoreOf s g.core g.slice, flagsPending g.main with
      | some n, false => enterHandler s gid g n info entries pc
      | _, _ => s.setGroup gid { g with stalled := some (info, entries, pc), kept := keptPark g.park, park := none }

/-! ### Asynchronous causes -/

/-- The order in which asynchronous causes that meet are taken (R441). DEDUCED, log entry 35. -/
def asyncRank : Cause → Nat
  | .watchdog => 0
  | .budget => 1
  | .timer => 2
  | _ => 3

/-- A cause is made pending on a group; one pending already is not repeated. DEDUCED, log entry 35. -/
def addPending (g : Group) (info : TrapInfo) : Group :=
  if g.pending.contains info then g else { g with pending := g.pending ++ [info] }

/-- The pending cause that is taken next, and the rest. -/
def nextPending (ps : List TrapInfo) : Option (TrapInfo × List TrapInfo) :=
  match sortBy (fun a b => decide (asyncRank a.cause < asyncRank b.cause)) ps with
  | [] => none
  | p :: rest => some (p, rest)

/-- A cause with SOURCE 1, 2 or 3 reaches a group (R369, R426, R441): held while it is in a handler, else pending until
its next boundary. A watchdog in a handler ends the cluster (R411, R438). -/
def deliverCause (s : State) (gid : Nat) (info : TrapInfo) : State :=
  match s.group gid with
  | none => s
  | some g =>
    if g.priv ∧ info.cause = .watchdog then endGroupCluster s gid 5 .watchdog
    else s.modGroup gid fun g => addPending g info

/-- The PC at which a group resumes after a cause taken at a boundary with COUNT 0: where an entry that `tret` re-issues is parked,
that of the entry (R441). -/
def boundaryPc (g : Group) : DWord := match g.replays with
  | r :: _ => r.iaddr
  | [] => ((headOf g.main).map Entry.pc).getD 0

/-- The pending cause of a group is taken at a boundary (R407, R441). DEDUCED, log entry 35. -/
def takePending (s : State) (gid : Nat) : State :=
  match s.group gid with
  | none => s
  | some g =>
    match nextPending g.pending with
    | none => s
    | some (info, rest) =>
      let g1 := { g with pending := rest, swreq := g.swreq }
      takeTrap (s.setGroup gid g1) gid info [] (boundaryPc g)

/-- A context issues nothing on a core where it is gated or spent, or not resident; a gate or a yield holds from the clock after
it (R433). -/
def gatedOn (s : State) (core ctx : Nat) : Bool :=
  match (s.core core).residentOf ctx with
  | none => true
  | some (_, r) => r.gatedNow || r.spent || r.yieldedNow

/-- A group stands where a cause may be taken: parked, or with no entry left to re-issue (R407, R417, R441). -/
def atBoundary (g : Group) : Bool := g.park.isSome || (g.replays.isEmpty && g.cur.isNone)

/-- A cause is due at the group's next boundary (R407, R411, R429, R441). -/
def causeDue (g : Group) : Bool := g.step == 2 || (!g.pending.isEmpty && !g.priv && atBoundary g)

/-- A completed arriving wait writes its result: LASTCODE for `msync`, nothing for team and cluster barriers (R204, R205,
R390). -/
def endArrived (s : State) (gid : Nat) (g : Group) (kind n : Nat) (dst : Operand) : State :=
  let g1 := { g with park := none }
  if kind = 2 then
    s.setGroup gid (g1.setThread (writeOperand g1.thread 0 1 (barrierOf s g 2 n).lastCode dst))
  else s.setGroup gid g1

/-! ### Issue -/

/-- How an instruction ends: done, and its entry advances; done, having moved its entries itself; a cause; a park with
the instruction still to issue. -/
inductive Res where
  | done (s : State)
  | moved (s : State)
  | trap (s : State) (t : TrapInfo)
  | park (s : State) (p : Park)
  deriving DecidableEq, Repr

/-- The instructions that execute only at supervisor privilege (R22). -/
def supervisorOnly : Instr → Bool
  | .tret _ | .tfr _ | .tinj _ | .ctxFork _ | .ctxGateYield _ | .ctxGateOut _ | .tierRecAdd _ | .tierRecClr _
  | .tierPin _ | .tierUnpin _ | .srw _ | .srwRd _ | .cobjMap _ | .tlbInvPage _ | .tlbInvAll _ => true
  | _ => false

/-- The instructions that leave the watchdog counting (R438). -/
def watchdogIdle : Instr → Bool
  | .clauseHeader _ | .nop _ | .bru _ | .br _ | .yld _ => true
  | _ => false

/-- The registers of an operand block, as (class, number): 0 vector, 1 scalar, 2 predicate. -/
def operandRegs (w : Nat) : Operand → List (Nat × Nat)
  | .v r => (fromTo r.val w).map fun n => (0, n)
  | .s r => (fromTo r.val w).map fun n => (1, n)
  | .p p => [(2, p.val)]
  | _ => []

/-- The predicates a guard reads. -/
def guardRegs (g : Guard) : List (Nat × Nat) :=
  match g.pred with
  | some p => [(2, p.val)]
  | none => []

/-- Every register an instruction reads or writes; `pbits` reaches up to 32 predicates (R127). -/
def regsOf (i : Instr) (f : Fields) (sp : Spans) : List (Nat × Nat) :=
  operandRegs sp.d f.dst ++ operandRegs sp.a f.a ++ operandRegs sp.b f.b ++ operandRegs sp.c f.c ++
  guardRegs f.guardA ++ guardRegs f.guardB ++
  match i with
  | .pbitsGet _ | .pbitsSet _ => (fromTo 0 48).map fun p => (2, p)
  | _ => []

/-- The register a pending write goes to. -/
def RegWrite.key (w : RegWrite) : Nat × Nat := (if w.pred then 2 else if w.scalar then 1 else 0, w.reg)

/-- An asynchronous write that names no flag holds every reader and writer of its destination (R27). -/
def interlocked (s : State) (gid : Nat) (inHandler : Bool) (rs : List (Nat × Nat)) : Bool :=
  s.pends.any fun x => x.2.gid == gid && x.2.inHandler == inHandler && x.2.flag.isNone &&
    x.2.writes.any fun w => rs.contains w.key

/-- The issuing group with its head entry. -/
def issuerOf (s : State) : Option (Nat × Group × Entry) :=
  match s.issuer with
  | none => none
  | some gid => match s.group gid with
    | none => none
    | some g => match headOf g.thread with
      | none => none
      | some e => some (gid, g, e)

/-- A: the PC of the entry, or IADDR of the entry of the replay queue being re-issued (R417). -/
def issuePc (g : Group) (e : Entry) : DWord := ((g.cur.map Replay.iaddr).getD e.pc)

/-- The instructions that move the lanes of their own frontier entry (R135 to R139, R360). -/
def movesLanes : Instr → Bool
  | .bru _ | .br _ | .brx _ | .call _ | .calx _ | .ret _ | .exit _ | .yld _ | .crdPut _ => true
  | _ => false

/-- The lanes that an entry re-issues in: those the handler left it that are live (R412, R417); an instruction that moves lanes
moves those of its frontier entry. -/
def replayMask (i : Instr) (t : Thread) (e : Entry) : LaneMask := if movesLanes i then e.mask else liveOf t

/-- What an instruction runs with, from the head of its group's frontier (R31, R417). -/
def ctxOf (i : Instr) (f : Fields) (gid : Nat) (g : Group) (e : Entry) : Ctx :=
  let t := g.thread
  { gid := gid, g := g, t := t, e := e
    exec := match g.cur with
      | some r =>
        let m := replayMask i t e
        if r.read then r.exec &&& m else r.exec &&& execMask t g.full m f
      | none => execMask t g.full e.mask f
    pc := issuePc g e, len := formBytes f.form, i := i, f := f, sp := spansOf i f }

/-- Bits [63:0] of an instruction (R406). -/
def wordOf (i : Instr) : DWord := BitVec.ofNat 64 (((encodeWord i).map fun x => x.1).getD 0)

/-- The flag an instruction names is not among those its entry's last header permits (R29, R30). -/
def flagForbidden (e : Entry) (f : Fields) : Bool :=
  match f.flag with
  | none => false
  | some k => e.flagX != some k && e.flagY != some k

/-- The checks of R33 that precede an instruction's own address checks: the flag (step 5 of R53), privilege, register
bounds; then what holds its issue: interlocks and full flags. -/
def preCheck (s : State) (c : Ctx) : Option Res :=
  if flagForbidden c.e c.f then some (.trap s { cause := .illegal, addr := c.pc, aux := wordOf c.i })
  else if supervisorOnly c.i && !c.g.priv then some (.trap s { cause := .protection, aux := 1 })
  else if boundsBad c.t c.i c.f c.sp then some (.trap s { cause := .protection, aux := 2 })
  else if interlocked s c.gid c.g.priv (regsOf c.i c.f c.sp) then some (.park s (.stall .issue))
  else match c.f.flag with
    | some k => if c.exec ≠ 0 ∧ flagCount c.t k.val ≥ 63 then some (.park s (.stall .issue)) else none
    | none => none

/-- The replay entry of an instruction that traps (R407, R408, R414). DEDUCED, log entry 17. -/
def replayOf (c : Ctx) : Replay :=
  { iaddr := c.pc, exec := c.exec, lanes := c.e.mask, fault := true, words := captureWords c }

/-- `trap` and `brk` are taken after the instruction, with no replay entry (R140). DEDUCED, log entry 17. -/
def isSoftware : Cause → Bool
  | .software | .breakpoint => true
  | _ => false

/-- The entries re-issued so far leave the queue; when the last has issued, the head moves where the handler sent it
(R417). -/
def afterReplay (s : State) (gid : Nat) : State :=
  match s.group gid with
  | none => s
  | some g =>
    match g.cur with
    | none => s
    | some _ =>
      let rest := g.replays.drop 1
      let g1 := { g with cur := none, replays := rest }
      match rest, g.movePc, headOf g.main with
      | [], some pc, some e =>
        let fr := landEntry s g1 g1.main.frontier e.mask pc false
        s.setGroup gid { g1 with movePc := none, main := { g1.main with frontier := fr } }
      | _, _, _ => s.setGroup gid g1

/-- The group of an instruction that has issued: its watchdog count, the single step that ends with it, and its place as the
youngest of its slice (R230, R429, R438). -/
def afterIssue (c : Ctx) (s : State) : State :=
  let s := if watchdogIdle c.i then s else s.modGroup c.gid fun g => { g with idle := 0 }
  let s := afterReplay s c.gid
  s.modGroup c.gid fun g =>
    { g with step := if g.step = 1 ∧ !c.g.priv then 2 else g.step, request := none, age := Nat.max g.age g.turn }

/-- The frontier of the registers in use, changed. -/
def modFrontier (s : State) (gid : Nat) (f : Group → List Entry → List Entry) : State :=
  s.modGroup gid fun g => g.setThread (g.thread.withFrontier (f g g.thread.frontier))

/-- The issuing entry goes to A + length (R180). -/
def advance (c : Ctx) (s : State) : State := modFrontier s c.gid fun g fr => landEntry s g fr c.e.mask c.next false

/-- The page faults of a core with those of a group's pages, as far as 64 go, and whether all went in (R246, R247): each
page of a context is one fault. -/
def addFaults (faults : List (Nat × Nat)) (ctx : Nat) : List Nat → List (Nat × Nat) × Bool
  | [] => (faults, true)
  | v :: vs =>
    if faults.contains (ctx, v) then addFaults faults ctx vs
    else if faults.length ≥ 64 then (faults, false)
    else addFaults (faults ++ [(ctx, v)]) ctx vs

/-- Regions of a fork pair are queued for building (R454). -/
def askRegions (s : State) (ctx : Nat) (is : List Nat) : State :=
  { s with agenda := s.agenda ++ is.map fun i => .event (.forkRegionBuild ctx i) }

/-- A park as it is entered: pages and regions are asked for (R246, R454). -/
def enterPark (s : State) (core ctx : Nat) : Park → State × Park
  | .pages vpns =>
    let (fs, all) := addFaults (s.core core).faults ctx vpns
    (s.modCore core fun k => { k with faults := fs }, if all then .pages vpns else .faultSlot core vpns)
  | .swap is => (askRegions s ctx is, .swap is)
  | p => (s, p)

/-- A group parks. -/
def parkGroup (s : State) (gid : Nat) (p : Park) : State :=
  match s.group gid with
  | none => s
  | some g =>
    let (s, p) := enterPark s g.core g.ctx p
    s.modGroup gid fun g => { g with park := some p, cur := none }

/-- Where the head of the frontier will stand once a trapped instruction has issued again (R412). -/
def pcAfter (c : Ctx) (s : State) : DWord :=
  match s.group c.gid with
  | some g => ((landEntry s g g.thread.frontier c.e.mask c.next false).head?.map Entry.pc).getD c.next
  | none => c.next

/-- An instruction traps (R407): it becomes entry 0, with the entries that `tret` was still to re-issue behind it. -/
def trapAt (c : Ctx) (s : State) (t : TrapInfo) : State :=
  let rest := (c.g.replays.drop (if c.g.cur.isSome then 1 else 0)).map fun r => { r with fault := false }
  takeTrap (s.modGroup c.gid fun g => { g with cur := none, replays := [] }) c.gid t (replayOf c :: rest) (pcAfter c s)

/-- The end of an instruction's issue. -/
def finish (c : Ctx) : Res → State
  | .done s => afterIssue c (advance c s)
  | .moved s => afterIssue c s
  | .park s p => parkGroup s c.gid p
  | .trap s t =>
    if isSoftware t.cause ∧ t.source = 0 then
      let s := advance c (s.modGroup c.gid fun g => { g with cur := none, replays := g.replays.drop (if g.cur.isSome then 1 else 0) })
      takeTrap s c.gid t [] (((s.group c.gid).map boundaryPc).getD c.next)
    else trapAt c s t

/-- Issue an instruction of a group: the checks of R33, then its own effect. DEDUCED, log entry 17. -/
def runGroup (i : Instr) (f : Fields) (s : State) (body : Ctx → State → Res) : Host.Outcome State Fault Refusal :=
  match issuerOf s with
  | none => .fault .noGroup
  | some (gid, g, e) =>
    let c := ctxOf i f gid g e
    .next (finish c (match preCheck s c with
      | some r => r
      | none => body c s))

/-- Replace the registers of the issuing group. -/
def setThreadOf (s : State) (gid : Nat) (t : Thread) : State := s.modGroup gid fun g => g.setThread t

/-! ### Returning from a trap (R417) -/

/-- The entries that `tret` re-issues: those not skipped, in the lanes still live. -/
def replaysOf (h : Handler) (live : LaneMask) : List Replay :=
  (h.entries.filter fun r => !r.skip).map fun r => { r with exec := r.exec &&& live }

/-- The length of the instruction at an address, by its LEN bits. -/
def lengthAt (s : State) (g : Group) (pc : DWord) : Nat :=
  match fetchAt s g pc with
  | .ok _ n => n
  | .reject _ _ n => n
  | _ => 8

/-- A sequencer that stopped for a matrix-stream trap goes on as MATACT says (R413, R417). DEDUCED, log entry 57. -/
def applyMatact (s : State) (tid act : Nat) : State :=
  s.modTeam tid fun t =>
    match t.seq with
    | some q => match q.state with
      | .stopped _ pc len =>
        if act = 0 then { t with seq := some { q with state := .running, pc := pc } }
        else if act = 1 then { t with seq := some { q with state := .running, pc := pc + BitVec.ofNat 64 len } }
        else t
      | _ => t
    | none => t

/-- The context's engine work on a core runs again (R348). -/
def resumeEngines (s : State) (core ctx : Nat) : State :=
  s.modCore core fun k => k.modResident ctx fun r => { r with halted := false }

/-- The bits of control line n that hold predicates: those of lanes 0 to 31 in lines 0 and 1, at width 64 those of lanes 32 to
63 in lines 2 and 3 (R446). -/
def predBits (w n : Nat) : Word :=
  if n = 0 ∨ (w = 64 ∧ n = 2) then 0xFFFFFFFF else if n = 1 ∨ (w = 64 ∧ n = 3) then 0xFFFF else 0

/-- A number that tells frontiers apart. -/
def frontierCode (fr : List Entry) : Nat :=
  fr.foldl (fun x e => x * 2 ^ 145 + 2 ^ 144 + e.pc.toNat + 2 ^ 64 * e.mask.toNat + 2 ^ 128 * e.prio.toNat) 0

/-- The frontier bits of word p of control line n, whose format is the device's own (R446). DESIGN CHOICE, log entry 32. -/
def frontierWord (w : Nat) (fr : List Entry) (n p : Nat) : Word :=
  Config.freeBits (frontierCode fr) (32 * n + p) &&& ~~~predBits w n

/-- The handler has left a frontier bit other than it was (R447). DESIGN CHOICE, log entry 32. -/
def frontierChanged (g : Group) (h : Handler) : Bool :=
  h.ctl.any fun x => x.2 != frontierWord g.width g.main.frontier (x.1 / 32) (x.1 % 32)

/-- The head entry of a frontier goes to an address, with its lanes and priority (R417). -/
def moveHead (s : State) (g : Group) (pc : DWord) (fr : List Entry) : List Entry :=
  match fr.head? with
  | some e => landEntry s g fr e.mask pc false
  | none => fr

/-- A skipped entry moves no lane: the frontier entry it stands at goes on to the instruction after it (R417). -/
def skipEntry (s : State) (g : Group) (r : Replay) (fr : List Entry) : List Entry :=
  match fr.head? with
  | some e => if e.pc = r.iaddr then landEntry s g fr e.mask (e.pc + BitVec.ofNat 64 (lengthAt s g e.pc)) false else fr
  | none => fr

/-- A group goes on at the frame's PC, without a replay. -/
def resumeAt (s : State) (g : Group) (pc : DWord) : Group :=
  let fr := g.main.frontier
  { g with main := { g.main with frontier := if fr.head?.map Entry.pc = some pc then fr else moveHead s g pc fr } }

/-- ACTION 0 (R417): the entries are re-issued, a head that is skipped is passed; with none, the entries that were still to be
re-issued when a cause was taken between them go on, unless the handler wrote another PC. -/
def replayFrame (s : State) (g : Group) (h : Handler) (held : List Replay) (move : Option DWord) : Group :=
  let moved := h.pc ≠ h.pc0
  match h.entries with
  | [] => if held.isEmpty ∨ moved then resumeAt s g h.pc else { g with replays := held, movePc := move }
  | _ => match replaysOf h (liveOf g.main) with
    | [] =>
      let fr := (h.entries.take 1).foldl (fun fr r => skipEntry s g r fr) g.main.frontier
      { g with main := { g.main with frontier := if moved then moveHead s g h.pc fr else fr } }
    | rs => { g with replays := rs, movePc := if moved then some h.pc else none }

/-- The frame's effect on the group (R417): replay, resume at PC, exit every lane, or end the cluster. DESIGN CHOICE, log entry 18. -/
def applyFrame (s : State) (gid : Nat) (g : Group) (h : Handler) : State :=
  let g1 := { g with handler := none, park := g.kept, kept := none, step := b2n h.step, heldReplays := [], heldMove := none,
                      swreq := if h.swreq = 0 then g.swreq else 0 }
  let s1 := s.setGroup gid g1
  match h.action with
  | 3 => endGroupCluster s1 gid 2 h.info.cause
  | 2 => s.setGroup gid { g1 with park := none, main := { g1.main with frontier := [] } }
  | 1 => s.setGroup gid (resumeAt s1 g1 h.pc)
  | _ => s.setGroup gid (replayFrame s1 g1 h g.heldReplays g.heldMove)

/-- `tret` (R417), its handler's instructions having finished: the frame store is freed, engine work and the sequencer resume as CTL says, and the frame is applied. A
restored frame whose frontier bits were changed ends the cluster (R447). -/
def returnFromTrap (s : State) (gid : Nat) : State :=
  match s.group gid with
  | none => s
  | some g =>
    match g.handler with
    | none => s
    | some h =>
      let s := freeStore s g gid
      let s := if h.reseng ∧ h.enghalt then resumeEngines s g.core g.ctx else s
      let s := if h.info.source = 1 then applyMatact s g.team h.matact else s
      if frontierChanged g h then endGroupCluster s gid 4 .integrity else applyFrame s gid g h

end Sys2Proof.Machine
end

