-- ==== Sys2Proof/Machine/Reach.lean ====
section
/-!
DEFINITION. What a memory access reaches before it performs: the address checks of R33, the translations of R242 in all
lanes, the pages it parks on (R246, R253, R454), and the data it would consume (R157, R234, R424).
-/
namespace Sys2Proof.Machine
open Sys2Proof

/-- One access asked for: `n` bytes at an address, for a lane. -/
structure Req where
  lane : Nat
  addr : DWord
  n    : Nat
  deriving DecidableEq, Repr

/-- One access that may perform: where its bytes stand. -/
structure Hit where
  lane  : Nat
  addr  : DWord
  n     : Nat
  place : Place
  /-- The leaf of a global access. -/
  leaf  : Option Leaf := none
  /-- The team of a peer scratchpad. -/
  peer  : Option Nat := none
  deriving DecidableEq, Repr

/-- What a set of accesses comes to: a cause, a park, or places for all of them. -/
inductive Reach where
  | trap (t : TrapInfo)
  | park (s : State) (p : Park)
  | ok (s : State) (hits : List Hit)
  deriving DecidableEq, Repr

/-! ### Address checks (R23 to R25, R33, R142) -/

/-- The place of a local access, with bits [63:36] zero (R142). -/
def localAt (s : State) (g : Group) (a n : Nat) : Option (Place × Option Nat) :=
  if a ≥ 2 ^ 36 then none
  else match s.team g.team with
    | some t => localPlace s g.ctx t a n
    | none => none

/-- The cause of one access's address: 0x04, then 0x0B, then 0x05. -/
def addrCause (s : State) (g : Group) (sp : Space) (r : Req) : Option TrapInfo :=
  let a := r.addr.toNat
  let fail (c : Cause) : Option TrapInfo := some { cause := c, addr := r.addr, lane := some r.lane }
  if a % Nat.max r.n 1 ≠ 0 then fail .misaligned
  else match sp with
    | .l => if (localAt s g a r.n).isNone then fail .localBounds else none
    | .k => if a + r.n > 65536 then fail .localBounds else none
    | .g => if a ≥ 2 ^ 56 then fail .translation else none

/-- The cause of the lowest failing lane. -/
def addrCauses (s : State) (g : Group) (sp : Space) (rs : List Req) : Option TrapInfo := rs.findSome? (addrCause s g sp)

/-! ### Global accesses (R242, R246, R253, R454) -/

/-- The cause of one translation. -/
def xlateCause (r : Req) : Xlate → Option TrapInfo
  | .fault c aux => some { cause := c, addr := r.addr, aux := BitVec.ofNat 64 aux, lane := some r.lane }
  | _ => none

/-- Pages that are not resident. -/
def xlateVpn : Xlate → Option Nat
  | .absent v => some v
  | _ => none

/-- Fork regions still to be built. -/
def xlateRegion : Xlate → Option Nat
  | .region i => some i
  | _ => none

/-- The place of a translation that performs. -/
def xlateHit (r : Req) : Xlate → Option Hit
  | .ok p l => some { lane := r.lane, addr := r.addr, n := r.n, place := p, leaf := some l }
  | _ => none

/-- A list without repeats. -/
def dedup : List Nat → List Nat
  | [] => []
  | x :: xs => x :: (dedup xs).filter fun y => y != x

/-- Translations of a list of accesses. -/
def xlates (s : State) (core ctx : Nat) (a : Access) (priv : Bool) (rs : List Req) : List (Req × Xlate) :=
  rs.map fun r => (r, translate s core ctx r.addr.toNat a priv)

/-- A swap that an access of a core causes: its write counts in the fence counter of the core where it crosses (R486). DEDUCED, log entry 55. -/
def coreSwap (s : State) (core ctx va : Nat) (l : Leaf) (sub : Nat) : State :=
  match cowFrame s ctx l with
  | some fr => countCrossing (cowSwap s ctx va l sub) core (.mem (fr * frameBytes))
  | none => cowSwap s ctx va l sub

/-- Each access that writes a shared subpage makes its private copy first, lowest lane first (R253, R254). -/
def settleShared (s : State) (core ctx : Nat) (a : Access) (priv : Bool) (rs : List Req) : State :=
  rs.foldl (fun s r => match translate s core ctx r.addr.toNat a priv with
    | .cow l sub => coreSwap s core ctx r.addr.toNat l sub
    | _ => s) s

/-- Global accesses reached (R242): causes first, the lowest failing lane; then the pages to wait for; then the copies that
writes to shared subpages need. -/
def reachGlobal (s : State) (core ctx : Nat) (a : Access) (priv : Bool) (rs : List Req) : Reach :=
  let xs := xlates s core ctx a priv rs
  match xs.findSome? fun x => xlateCause x.1 x.2 with
  | some t => .trap t
  | none =>
    let regions := dedup (xs.filterMap fun x => xlateRegion x.2)
    let vpns := dedup (xs.filterMap fun x => xlateVpn x.2)
    if !regions.isEmpty then .park s (.swap regions)
    else if !vpns.isEmpty then .park s (.pages vpns)
    else
      let s := settleShared (settleShared s core ctx a priv rs) core ctx a priv rs
      let hits := (xlates s core ctx a priv rs).filterMap fun x => xlateHit x.1 x.2
      if hits.length = rs.length then .ok s hits else .park s (.swap [])

/-- A page of a context is on its way: an access to it would park (R246). -/
def pageAbsent (s : State) (ctx vpn : Nat) : Bool :=
  match s.ctx ctx with
  | none => false
  | some c => match walkTables s c (vpn * 131072) with
    | .leaf l => !pteRES l.pte
    | .bad _ => false

/-- Some page waited for is still on its way. -/
def pagesWait (s : State) (ctx : Nat) (vpns : List Nat) : Bool := vpns.any (pageAbsent s ctx)

/-- Some fork region waited for is still to be built; with none, a frame for a copy is still to be had (R254, R454). -/
def regionsWait (s : State) (ctx : Nat) (is : List Nat) : Bool :=
  match s.ctx ctx with
  | some c => is.any c.pendingRegions.contains || (is.isEmpty && (pickFrame s ctx (anyTier s)).isNone)
  | none => false

/-- Engine work is still parked on a page or a region; a page that found no fault slot is asked for again when one is free
(R246, R247, R454). -/
def engineWaits (s : State) (ctx : Nat) : Option Park → Bool
  | some (.pages vpns) => pagesWait s ctx vpns
  | some (.faultSlot core vpns) => pagesWait s ctx vpns && decide ((s.core core).faults.length ≥ 64)
  | some (.swap is) => regionsWait s ctx is
  | _ => false

/-- The team of a peer access that has been saved, and is not back yet. DEDUCED, log entry 33. -/
def peerAway (s : State) (peer : Option Nat) : Option Nat := peer.filter fun tid => ((s.team tid).map Team.saved).getD false

/-- Local accesses reached: scratchpad of the team or of a peer, or a column object (R24). -/
def reachLocal (s : State) (g : Group) (rs : List Req) : Reach :=
  match rs.findSome? fun r => (localAt s g r.addr.toNat r.n).bind fun p => peerAway s p.2 with
  | some tid => .park s (.away tid)
  | none => .ok s (rs.filterMap fun r => (localAt s g r.addr.toNat r.n).map fun p =>
    { lane := r.lane, addr := r.addr, n := r.n, place := p.1, peer := p.2 })

/-- L2 holds the lines of an access under another key domain (R236). -/
def holdLines (s : State) (h : Hit) : State :=
  match h.place with
  | .foreign d pa => holdForeign s d pa h.n
  | _ => s

/-- The entries of the pages accessed are marked A, and D by a write (R240). -/
def touchHits (s : State) (core ctx : Nat) (a : Access) (hits : List Hit) : State :=
  hits.foldl (fun s h => match h.leaf with
    | some l => holdLines (touchLeaf s core ctx h.addr.toNat a l) h
    | none => s) s

/-! ### What the data itself raises -/

/-- A line that an engine has still to fill (R234). -/
def absentHit (s : State) (hits : List Hit) : Option (Nat × Nat) := hits.findSome? fun h => absentLine s h.n h.place

/-- The cause of consuming the data (R157, R424, R425). -/
def dataCause (s : State) (hits : List Hit) : Option TrapInfo :=
  hits.findSome? fun h => (placeCause s h.n h.place).map fun c => { cause := c, addr := h.addr, lane := some h.lane }

/-- Lines whose check failed are marked poisoned where they stand (R425). -/
def markFailed (s : State) (hits : List Hit) : State :=
  hits.foldl (fun s h => poisonPlace s h.n h.place) s

/-- Reading checks of accesses that are about to consume data. -/
def consume (s : State) (hits : List Hit) (k : State → Res) : Res :=
  match absentHit s hits with
  | some (core, line) => .park s (.presence core line)
  | none => match dataCause s hits with
    | some t => .trap (markFailed s hits) t
    | none => k s

/-- A reach continued. -/
def Reach.andThen (r : Reach) (s0 : State) (k : State → List Hit → Res) : Res :=
  match r with
  | .trap t => .trap s0 t
  | .park s p => .park s p
  | .ok s hits => k s hits

/-! ### Effects common to memory instructions -/

/-- The order's acquire part (R148, R168, R299): at `.die` scope or wider the core's lines of writable pages go; at `.clu` no
descriptor is read from those held. DESIGN CHOICE, log entry 13. DESIGN CHOICE, log entry 61. -/
def acquire (s : State) (core scope : Nat) : State := if scope ≥ 3 then l1DropAll s core else if scope = 2 then l1Pass s core else s

/-- A team's restartable bit goes (R427). -/
def spendRestart (s : State) (g : Group) : State := s.modTeam g.team fun t => { t with restartable := false }

/-- How long an access takes is not fixed: a clock after this one. DESIGN CHOICE, log entry 6. -/
def someTime (s : State) : Nat × State :=
  let (d, s) := s.draw 1024
  (s.clock + 1 + d, s)

/-- The registers that a destination of `w` words takes in a lane. -/
def regWrites (dst : Operand) (w lane x : Nat) : List RegWrite :=
  match dst with
  | .v r => (fromTo 0 w).map fun k =>
    { scalar := false, reg := r.val + k, lane := lane, value := BitVec.ofNat 32 (x / 2 ^ (32 * k)) }
  | .s r => (fromTo 0 w).map fun k =>
    { scalar := true, reg := r.val + k, lane := 0, value := BitVec.ofNat 32 (x / 2 ^ (32 * k)) }
  | .p p => [{ scalar := false, pred := true, reg := p.val, lane := lane, value := BitVec.ofNat 32 (x % 2) }]
  | _ => []

/-- An asynchronous result starts on its way (R26 to R28): the flag it names counts it; `late` are the reads of it that may still
be performed (R292). DESIGN CHOICE, log entry 6. -/
def postResult (c : Ctx) (s : State) (writes : List RegWrite) (late : List LateRead := []) : State :=
  let (id, s) := s.newId
  let (due, s) := someTime s
  let p : Pend :=
    { gid := c.gid, inHandler := c.g.priv, writes := writes, flag := c.f.flag, due := due, late := late, start := s.clock, salt := s.free }
  let s := { s with pends := tins s.pends id p, free := s.free + 1 }
  s.modGroup c.gid fun g => g.modThreadOf g.priv fun t => raiseFlag t c.f.flag

end Sys2Proof.Machine
end

