-- ==== Sys2Proof/Machine/Control.lean ====
section
/-!
DEFINITION. Control transfers (R29, R57, R135 to R141, R179, R180): headers, branches, calls, `exit`, `yld`, `trap`, `brk` and
`vcall` with its call ring (R418, R419).
-/
namespace Sys2Proof.Machine
open Sys2Proof

/-! ### Headers and `nop` -/

/-- The fields of an instruction that has none (R39). -/
def noFields : Fields :=
  { form := .short, guardA := guardAlways, guardB := guardAlways, gcomb := false, dst := .zero, a := .zero, b := .zero,
    c := .zero, flag := none, bimm := false, ty := .un, fam := 0, hint := .dflt, imm13 := 0, imm32 := 0 }

/-- Some flag of the wait mask is pending. -/
def waitsOn (t : Thread) (wait : BitVec 12) : Bool := (fromTo 0 12).any fun k => wait.getLsbD k && flagCount t k != 0

/-- A clause header (R29): it issues when no flag of its wait mask is pending, and changes nothing more; its priority was
taken as it was passed (R179). -/
def execClauseHeader (h : Header) (s : State) :=
  runGroup (.clauseHeader h) noFields s fun c s => if waitsOn c.t h.wait then .park s (.stall .issue) else .done s

/-- `nop` (R57). -/
def execNop (f : Fields) (s : State) := runGroup (.nop f) f s fun _ s => .done s

/-! ### Targets -/

/-- The target of a branch with an offset (R134). -/
def branchTarget (c : Ctx) : DWord := c.pc + 4#64 * immOffset c.f

/-- What a target raises (R18, R137). -/
def targetCause (l : Nat) (t : DWord) : Option TrapInfo :=
  if t.toNat % 4 ≠ 0 then some { cause := .misaligned, addr := t, lane := some l }
  else if t.toNat ≥ 2 ^ 56 then some { cause := .translation, addr := t, lane := some l }
  else none

/-- The cause of the lowest failing lane. -/
def targetCauses (c : Ctx) (tgt : Nat → DWord) : Option TrapInfo := c.lanes.findSome? fun l => targetCause l (tgt l)

/-- One group of lanes for each distinct target, in ascending order of lowest lane (R180). DEDUCED, log entry 36. -/
def byTarget (tgt : Nat → DWord) : List Nat → List (LaneMask × DWord)
  | [] => []
  | l :: ls =>
    let rest := byTarget tgt ls
    match rest.find? fun x => x.2 == tgt l with
    | some x => (x.1 ||| laneBit l, x.2) :: rest.filter fun y => y.2 != tgt l
    | none => (laneBit l, tgt l) :: rest

/-- Lanes leave the entry that holds `em` one group after another; the mask that remains, and the frontier. DEDUCED, log entry 36. -/
def forkAll (s : State) (g : Group) : List (LaneMask × DWord) → LaneMask → List Entry → LaneMask × List Entry
  | [], em, fr => (em, fr)
  | (m, pc) :: rest, em, fr => forkAll s g rest (em &&& ~~~m) (forkEntry s g fr em m pc true)

/-- The frontier after the lanes of `exec` go to their targets (R180): when `exec` is all of the entry, the entry itself moves
to the target of its lowest lane. DEDUCED, log entry 36. -/
def transfer (s : State) (g : Group) (em exec : LaneMask) (next : DWord) (ts : List (LaneMask × DWord))
    (fr : List Entry) : List Entry :=
  match ts with
  | [] => landEntry s g fr em next false
  | t :: rest =>
    if exec = em then
      let (m, fr) := forkAll s g rest em fr
      landEntry s g fr m t.2 true
    else
      let (m, fr) := forkAll s g ts em fr
      landEntry s g fr m next false

/-- The link, A + length, in the lanes of `exec` (R137). -/
def linked (c : Ctx) (t : Thread) : Thread := c.lanes.foldl (fun t l => c.wr t l c.next.toNat) t

/-- `br`, `brx`, `call`, `calx`, `ret` (R136, R137): targets are checked before any lane moves and the link is written
before any lane moves. -/
def jump (c : Ctx) (s : State) (link : Bool) (tgt : Nat → DWord) : Res :=
  if c.exec = 0 then .done s
  else match targetCauses c tgt with
    | some t => .trap s t
    | none =>
      let t := if link then linked c c.t else c.t
      let fr := transfer s c.g c.e.mask c.exec c.next (byTarget tgt c.lanes) t.frontier
      .moved (setThreadOf s c.gid (t.withFrontier fr))

/-! ### Branches and calls -/

/-- `bru` (R135). -/
def execBru (f : Fields) (s : State) :=
  runGroup (.bru f) f s fun c s =>
    if c.exec = 0 then .done ((spindleLoop s c.g c.pc.toNat false).getD s)
    else if c.exec ≠ c.e.mask then .trap s { cause := .nonUniform }
    else match targetCause c.low (branchTarget c) with
      | some t => .trap s t
      | none => match spindleLoop s c.g c.pc.toNat true with
        | none => .moved (stopJob s c.gid 0x0E)
        | some s => .moved (modFrontier s c.gid fun g fr => landEntry s g fr c.e.mask (branchTarget c) false)

def execBr (f : Fields) (s : State) := runGroup (.br f) f s fun c s => jump c s false fun _ => branchTarget c
def execBrx (f : Fields) (s : State) := runGroup (.brx f) f s fun c s => jump c s false fun l => BitVec.ofNat 64 (c.srcA l)
def execCall (f : Fields) (s : State) := runGroup (.call f) f s fun c s => jump c s true fun _ => branchTarget c
def execCalx (f : Fields) (s : State) := runGroup (.calx f) f s fun c s => jump c s true fun l => BitVec.ofNat 64 (c.srcA l)
def execRet (f : Fields) (s : State) := runGroup (.ret f) f s fun c s => jump c s false fun l => BitVec.ofNat 64 (c.srcA l)

/-! ### `exit` and `yld` -/

/-- Register writes still pending for lanes that exit are discarded (R138). DEDUCED, log entry 73. -/
def discardWrites (s : State) (gid : Nat) (inHandler : Bool) (m : LaneMask) : State :=
  { s with pends := s.pends.map fun x =>
      if x.2.gid = gid ∧ x.2.inHandler = inHandler then
        (x.1, { x.2 with writes := x.2.writes.filter fun w => w.scalar || !m.getLsbD w.lane })
      else x }

/-- An asynchronous write that names no flag is on its way to a lane, or to a scalar: the interlock of R27 holds an `exit` of the lane
until it is done, so that the thread sees program order (R396). DEDUCED, log entry 73. -/
def writesTo (s : State) (gid : Nat) (inHandler : Bool) (m : LaneMask) : Bool :=
  s.pends.any fun x => x.2.gid == gid && x.2.inHandler == inHandler && x.2.flag.isNone &&
    x.2.writes.any fun w => w.scalar || m.getLsbD w.lane

/-- The lanes of `exec` leave; the others go on at A + length (R138). -/
def exitLanes (c : Ctx) (s : State) : State :=
  modFrontier (discardWrites s c.gid c.g.priv c.exec) c.gid fun g fr =>
    landEntry s g (dropLanes c.exec fr) (c.e.mask &&& ~~~c.exec) c.next false

/-- DEDUCED, log entry 73. -/
def execExit (f : Fields) (s : State) :=
  runGroup (.exit f) f s fun c s =>
    if c.exec = 0 then .done s
    else if writesTo s c.gid c.g.priv c.exec then .park s (.stall (.lanes c.exec))
    else .moved (exitLanes c s)

/-- The entry that holds `m` goes to the back of its class (R139). -/
def toBack (m : LaneMask) (fr : List Entry) : List Entry :=
  match fr.find? fun e => e.mask == m with
  | some e => insertEntry e (removeEntry m fr)
  | none => fr

def execYld (f : Fields) (s : State) :=
  runGroup (.yld f) f s fun c s =>
    .moved (modFrontier s c.gid fun g fr => landEntry s g (toBack c.e.mask fr) c.e.mask c.next false)

/-! ### `trap` and `brk` (R140) -/

def softTrap (c : Ctx) (s : State) (k : Cause) : Res :=
  if c.exec = 0 then .done s
  else .trap s { cause := k, code := c.f.imm13.toNat % 256, addr := c.pc, aux := c.exec }

def execTrap (f : Fields) (s : State) := runGroup (.trap f) f s fun c s => softTrap c s .software
def execBrk (f : Fields) (s : State) := runGroup (.brk f) f s fun c s => softTrap c s .breakpoint

/-! ### `vcall` (R141, R418, R419) -/

/-- A width's code. -/
def widthCode (w : Nat) : Nat := if w = 16 then 0 else if w = 32 then 1 else 2

/-- The 64-byte header of a call record (R418). -/
def callHeader (c : Ctx) (seq : Nat) : List Byte :=
  toBytes 64 (packNat [(8, c.f.imm13.toNat), (4, c.f.imm13.toNat / 256), (2, widthCode c.g.width), (2, 0), (12, c.g.ctx),
    (4, 0), (32, seq), (64, c.exec.toNat), (8, c.core), (4, c.g.slice), (5, c.g.slot)])

/-- The argument words: register a + j of lane l at 4 (j w + l), lanes outside `exec` 0. -/
def callArgs (c : Ctx) : List Byte :=
  (fromTo 0 c.sp.a).flatMap fun j => (fromTo 0 c.g.width).flatMap fun l =>
    toBytes 4 (if c.exec.getLsbD l then c.srcA l / 2 ^ (32 * j) else 0)

/-- The next slot of a context's ring that is not in use, from the one after the last call. DESIGN CHOICE, log entry 21. -/
def freeCallSlot (x : Context) : Option Nat :=
  ((fromTo 0 x.callSlots).map fun k => (x.callCount + k) % x.callSlots).find? fun n => !x.callBusy.contains n

/-- The address of a slot. -/
def callSlotAddr (x : Context) (slot : Nat) : DWord := x.callBase + BitVec.ofNat 64 (8192 * slot)

/-- The call is posted and the group parks for the reply, with its entry past the instruction. DESIGN CHOICE, log entry 21. -/
def postCall (c : Ctx) (s : State) (slot : Nat) : State :=
  let s := s.modCtx c.g.ctx fun x => { x with callCount := x.callCount + 1, callBusy := x.callBusy ++ [slot] }
  (advance c (spendRestart s c.g)).modGroup c.gid fun g => { g with park := some (.call slot c.f.dst c.exec) }

/-- The subpages of a call slot that a record of `n` bytes reaches: an argument block may run past the first (R418). DESIGN CHOICE, log entry 21. -/
def callReqs (lane : Nat) (a : DWord) (n : Nat) : List Req :=
  { lane := lane, addr := a, n := 4096 } :: if n ≤ 4096 then [] else [{ lane := lane, addr := a + 4096#64, n := 4096 }]

/-- A record is written into the subpages of its slot. -/
def putCall (s : State) (core : Nat) : List Hit → List Byte → State
  | [], _ => s
  | h :: hs, bs => putCall (corePut s core h.place (bs.take 4096)) core hs (bs.drop 4096)

def execVcall (f : Fields) (s : State) :=
  runGroup (.vcall f) f s fun c s =>
    if c.exec = 0 then .done s
    else match s.ctx c.g.ctx with
      | none => .park s (.room .ring)
      | some x => match freeCallSlot x with
        | none => .park s (.room .ring)
        | some slot =>
          let rec' := callHeader c (x.callCount + 1) ++ callArgs c
          (reachGlobal s c.core c.g.ctx .write true (callReqs c.low (callSlotAddr x slot) rec'.length)).andThen s fun s hits =>
            let s := performStoresOf s c.gid
            let s := touchHits s c.core c.g.ctx .write hits
            .moved (postCall c (putCall s c.core hits rec') slot)

/-- The reply of lane l. -/
def callReply (bs : List Byte) (l : Nat) : Nat := ofBytes ((bs.drop (4 * l)).take 4)

/-- A reply is delivered: d in the lanes of the call, the slot freed, the group resumed with an acquire at `.sys` (R419).
DESIGN CHOICE, log entry 21. -/
def deliverReply (s : State) (gid slot : Nat) (dst : Operand) (exec : LaneMask) (bs : List Byte) : State :=
  match s.group gid with
  | none => s
  | some g =>
    let s := s.modCtx g.ctx fun x => { x with callBusy := x.callBusy.filter fun n => n != slot }
    let s := acquire s g.core 5
    s.modGroup gid fun g =>
      let t := (lanesOf exec).foldl (fun t l => writeOperand t l 1 (callReply bs l) dst) g.thread
      { (g.setThread t) with park := none }

/-- The device reads DONE of a parked call (R419), in both subpages of the slot; a page that is not resident is asked for.
DESIGN CHOICE, log entry 21. -/
def pollCall (s : State) (gid : Nat) (g : Group) (slot : Nat) (dst : Operand) (exec : LaneMask) : State :=
  match s.ctx g.ctx with
  | none => s
  | some x =>
    let a := callSlotAddr x slot
    match reachGlobal s g.core g.ctx .read true
        [{ lane := 0, addr := a, n := 4096 }, { lane := 0, addr := a + 4096#64, n := 4096 }] with
    | .ok s hits =>
      let s := touchHits s g.core g.ctx .read hits
      let bs := hits.flatMap fun h => readPlace s 4096 h.place
      if ofBytes ((bs.drop 24).take 8) = 1 then deliverReply s gid slot dst exec (bs.drop 0x1040) else s
    | .park s p => (enterPark s g.core g.ctx p).1
    | .trap _ => s

/-- CALL_REPLY_POLL (R419). -/
def execCallReplyPoll (gid : Nat) (s : State) : Host.Outcome State Fault Refusal :=
  .next (match s.group gid with
    | some g => match g.park with
      | some (.call slot dst exec) => pollCall s gid g slot dst exec
      | _ => s
    | none => s)

end Sys2Proof.Machine
end

