-- ==== Sys2Proof/Machine/Bank.lean ====
section
/-!
DEFINITION. The banks of a column: what state a row is in (R260, R274), activates and their windows (R270, R276, R278),
closes, refresh times (R281, R282), and accesses to column objects (R266).
-/
namespace Sys2Proof.Machine
open Sys2Proof

/-! ### The state of a bank -/

/-- What a bank holds, as an operation accepted now finds it: a row whose close has been accepted is closing (R274). -/
inductive RowView where
  | idle
  | opening (row : Nat)
  | ready (row : Nat)
  | closing
  | refreshing
  deriving DecidableEq, Repr

def Bank.view (b : Bank) : RowView :=
  match b.phase with
  | none => .idle
  | some (.opening r _) => if b.closeWanted then .closing else .opening r
  | some (.open r) => if b.closeWanted then .closing else .ready r
  | some (.closing _ _) => .closing
  | some (.refreshing _) => .refreshing

/-- The row a bank holds open or opening. -/
def RowView.held : RowView → Option Nat
  | .opening r => some r
  | .ready r => some r
  | _ => none

def State.bank (s : State) (core b : Nat) : Bank := (s.core core).bank b
def State.modBank (s : State) (core b : Nat) (f : Bank → Bank) : State :=
  s.modCore core fun k => k.setBank b (f (k.bank b))

/-- Accepted consumes and writes on a bank that have not performed, oldest first (R269). -/
def opsOn (s : State) (core b : Nat) : List (Nat × RowOp) := (s.core core).rowOps.filter fun x => x.2.bank == b

/-- A close of whatever row the bank holds open or opening is accepted (R274). -/
def wantClose (s : State) (core b : Nat) : State :=
  match ((s.bank core b).view).held with
  | some _ => s.modBank core b fun x => { x with closeWanted := true }
  | none => s

/-! ### Activates (R276, R278) -/

/-- The windows of R278 allow an activate in a layer at a clock, beside the activates recorded. -/
def windowsAllow (acts : List (Nat × Nat)) (layer t : Nat) : Bool :=
  let near (n : Nat) (a : Nat × Nat) : Bool := decide (a.1 < t + n ∧ t < a.1 + n)
  decide ((acts.filter fun a => a.2 == layer && near 16 a).length < 4) && decide ((acts.filter (near 64)).length < 16)

/-- The first clock from `t` on at which the windows allow an activate. -/
def firstAct (acts : List (Nat × Nat)) (layer : Nat) : Nat → Nat → Nat
  | 0, t => t
  | fuel + 1, t => if windowsAllow acts layer t then t else firstAct acts layer fuel (t + 1)

/-- Another group's column access that came before request `seq` holds the bank until it has performed (R266). -/
def bankClaimed (s : State) (gid core b seq : Nat) : Bool :=
  s.groups.any fun x => x.1 != gid && match x.2.park with
    | some (.column c bs n) => c == core && bs.contains b && decide (n < seq)
    | _ => false

/-- The order number of a group's column access: that of its request, or one after every other (R266). -/
def requestOf (s : State) (gid : Nat) : Nat := ((s.group gid).bind Group.request).getD s.fresh

/-- The object of a context whose units hold a bank is being moved (R287). -/
def Core.movingBank (k : Core) (ctx b : Nat) : Bool :=
  k.objects.any fun o => o.1 / 64 == ctx && o.2.moving && (objUnits o.2.desc).contains b

/-- The bank can take an activate now (R270, R278, R284). -/
def canActivate (s : State) (gid core b : Nat) : Bool :=
  (s.bank core b).phase.isNone && (s.core core).retrainEnd.isNone && !bankClaimed s gid core b s.fresh &&
  windowsAllow (s.core core).acts (b / 16) s.clock

/-! ### Correction at activate (R280, R282) -/

/-- Corrected symbols of a layer are counted; past 64 in one window its refresh interval steps down at once (R282). DESIGN CHOICE, log entry 25. -/
def Layer.count (l : Layer) (n : Nat) : Layer :=
  { l with corrected := l.corrected + n
           interval := if l.corrected ≤ 64 ∧ 64 < l.corrected + n then Nat.max 64 (l.interval / 2) else l.interval }

/-- The codewords of a row as its activate reads them: up to 4 wrong symbols are corrected, written back and counted; more
leave the codeword poisoned (R280, R283). DESIGN CHOICE, log entry 25. -/
def correctRow (s : State) (core b row : Nat) : State :=
  let lo := rowKey b row / 64
  let hit (x : Nat × Nat) : Bool := decide (lo ≤ x.1 ∧ x.1 < lo + 32)
  let k := s.core core
  if !k.flips.any hit then s
  else s.modCore core fun k =>
    let wrong : Table Nat := k.flips.filter hit
    let k := { k with flips := k.flips.filter fun x => !hit x
                      rowsBad := k.rowsBad ++ (wrong.filter fun (x : Nat × Nat) => decide (4 < x.2)).map fun (x : Nat × Nat) => x.1 }
    k.setLayer (b / 16) ((k.layer (b / 16)).count ((wrong.filter fun (x : Nat × Nat) => decide (x.2 ≤ 4)).foldl (fun n (x : Nat × Nat) => n + x.2) 0))

/-- An activate is accepted: the row opens, to be ready 20 clocks later (R276). -/
def acceptActivate (s : State) (core b row : Nat) : State :=
  let now := s.clock
  (correctRow s core b row).modCore core fun k =>
    { (k.setBank b { (k.bank b) with phase := some (.opening row (now + 20)), actAt := now, closeWanted := false }) with
      acts := (now, b / 16) :: k.acts.filter fun a => decide (now < a.1 + 64) }

/-! ### Refresh (R281) -/

/-- The refresh interval of a layer in clocks. -/
def Layer.clocks (l : Layer) : Nat := l.interval * 750000

/-- When a bank's next refresh operation falls due. -/
def nextRefresh (k : Core) (b : Nat) : Nat :=
  let i := (k.layer (b / 16)).clocks
  match (k.bank b).refreshed with
  | none => (b % 16 + 1) * i / 8192
  | some t => t + i / 512

/-! ### Accesses to column objects (R266) -/

/-- Core, bank and row of a column place. -/
def bankOf : Place → Option (Nat × Nat × Nat)
  | .column c u b => some (c, u, b / 2048)
  | _ => none

/-- Handle and object row of a local column address, as AUX reports them (R406). -/
def rowAux (a : Nat) : DWord := BitVec.ofNat 64 (bits a 34 29 + 256 * (bits a 28 0 / 2048))

/-- A lane whose bank holds another row: 0x09 (R266). -/
def busyCause (s : State) (h : Hit) : Option TrapInfo :=
  match bankOf h.place with
  | none => none
  | some (c, b, row) => match ((s.bank c b).view).held with
    | some r => if r = row then none else some { cause := .rowBusy, aux := rowAux h.addr.toNat, lane := some h.lane }
    | none => none

/-- A bank can take no access yet: for an opening, a close, a refresh, retraining, older operations, an earlier access's claim, a
move of its object, or the activate windows. -/
def bankBusy (s : State) (gid ctx core b seq : Nat) : Bool :=
  let k := s.core core
  k.retrainEnd.isSome || !(opsOn s core b).isEmpty || match (k.bank b).view with
    | .ready _ => false
    | .idle => bankClaimed s gid core b seq || k.movingBank ctx b || !windowsAllow k.acts (b / 16) s.clock
    | _ => true

/-- A lane's access has to wait. -/
def bankWaits (s : State) (gid ctx : Nat) (h : Hit) : Bool :=
  match bankOf h.place with
  | none => false
  | some (c, b, _) => bankBusy s gid ctx c b (requestOf s gid)

/-- The distinct (bank, row) pairs that need an activate, in lane order. -/
def rowsToOpen (s : State) (hits : List Hit) : List (Nat × Nat) :=
  hits.foldl (fun acc h => match bankOf h.place with
    | some (c, b, row) => if (s.bank c b).view = .idle ∧ !acc.contains (b, row) then acc ++ [(b, row)] else acc
    | none => acc) []

/-- The controller opens a row for the access and closes it again, as soon as the bank and the windows allow; a bank is free
50 clocks after its last activate (R276). DESIGN CHOICE, log entry 22. -/
def openAndClose (s : State) (core : Nat) (x : Nat × Nat) : State :=
  let (b, row) := x
  let k := s.core core
  let from' := match (k.bank b).phase with
    | some (.closing _ t) => t
    | _ => s.clock
  let t := firstAct k.acts (b / 16) 4096 from'
  (correctRow s core b row).modCore core fun k =>
    { (k.setBank b { (k.bank b) with phase := some (.closing row (t + 50)), actAt := t }) with
      acts := (t, b / 16) :: k.acts.filter fun a => decide (s.clock < a.1 + 64) }

/-- Column banks of a set of hits. -/
def hitBanks (hits : List Hit) : List Nat := dedup (hits.filterMap fun h => (bankOf h.place).map fun x => x.2.1)

/-- The bank of every lane is checked before any lane performs (R266): a cause, a wait, or the state in which the rows that
must be opened have been. DESIGN CHOICE, log entry 22. -/
def claimBanks (s : State) (gid ctx core : Nat) (hits : List Hit) (k : State → Res) : Res :=
  match hits.findSome? (busyCause s) with
  | some t => .trap s t
  | none =>
    if hits.any (bankWaits s gid ctx) then
      let (id, s') := s.newId
      .park s' (.column core (hitBanks hits) (((s.group gid).bind Group.request).getD id))
    else k ((rowsToOpen s hits).foldl (fun s x => openAndClose s core x) s)

/-- Write data has entered a row buffer (R276). -/
def stampWrite (s : State) : Place → State
  | .column c b _ => s.modBank c b fun x => { x with writeAt := s.clock }
  | _ => s

end Sys2Proof.Machine
end

