-- ==== Sys2Proof/Machine/IntAlu.lean ====
section
/-!
DEFINITION. Integer and logic instructions (R94 to R110): values read and written by type (R71, R72, R96), and one meaning
for each instruction.
-/
namespace Sys2Proof.Machine
open Sys2Proof

/-! ### Values by type (R71) -/

/-- The bits of an integer or bit type. -/
def tyBits : Ty → Nat
  | .s8 | .n8 | .b8 => 8
  | .s16 | .n16 | .b16 => 16
  | .s64 | .n64 | .b64 => 64
  | .b128 => 128
  | _ => 32

/-- A signed integer type. -/
def tySigned : Ty → Bool
  | .s8 | .s16 | .s32 | .s64 => true
  | _ => false

/-- The integer a source holds, read as a type: its low bits, signed or unsigned (R71). -/
def readInt (t : Ty) (x : Nat) : Int :=
  if tySigned t then toSigned (tyBits t) x else ((x % 2 ^ tyBits t : Nat) : Int)

/-- An integer as a type's result: its low bits, extended to the register by the type's rule (R71, R72). -/
def wrapInt (t : Ty) (x : Int) : Nat :=
  let n := tyBits t
  if tySigned t ∧ n < 32 then ofInt 32 (toSigned n (ofInt n x)) else ofInt n x

/-- The range of an integer type. -/
def tyMin (t : Ty) : Int := if tySigned t then -((2 ^ (tyBits t - 1) : Nat) : Int) else 0
def tyMax (t : Ty) : Int := if tySigned t then ((2 ^ (tyBits t - 1) - 1 : Nat) : Int) else ((2 ^ tyBits t - 1 : Nat) : Int)

/-- `sat` and `satu` of R32: the clamped value, and SAT where it clamps. -/
def clampInt (lo hi x : Int) : Int × Nat := if x < lo then (lo, fSAT) else if hi < x then (hi, fSAT) else (x, 0)

/-- Narrowing to a type: wrapping, or saturating with `.sat` (R72, R100). -/
def narrowInt (t : Ty) (sat : Bool) (x : Int) : Nat × Nat :=
  if sat then
    let r := clampInt (tyMin t) (tyMax t) x
    (wrapInt t r.1, r.2)
  else (wrapInt t x, 0)

/-! ### Running over lanes (R94, R95) -/

/-- The registers after an instruction has written, in each lane it runs in, the value and flags that `fn` gives for the lane:
sources are read before any destination is written, and the flags of a scalar result go to every lane of `exec`. -/
def aluThread (c : Ctx) (fn : Nat → Nat × Nat) : Thread :=
  let t := c.runLanes.foldl (fun t l => c.wr t l (fn l).1) c.t
  if isScalar c.f.dst then raiseAll t c.lanes (fn c.low).2
  else c.runLanes.foldl (fun t l => raise1 t l (fn l).2) t

/-- A synchronous instruction without memory: one value and its flags in each lane (R94, R95). -/
def aluOp (c : Ctx) (s : State) (fn : Nat → Nat × Nat) : Res := .done (setThreadOf s c.gid (aluThread c fn))

/-- A lane function of two integer sources. -/
def int2 (c : Ctx) (op : Int → Int → Int) (sat : Bool) (l : Nat) : Nat × Nat :=
  narrowInt c.f.ty sat (op (readInt c.f.ty (c.srcA l)) (readInt c.f.ty (c.srcB l)))

/-- A lane function of two bit patterns at the type's width. -/
def bits2 (c : Ctx) (op : Nat → Nat → Nat) (l : Nat) : Nat × Nat :=
  let n := tyBits c.f.ty
  (op (c.srcA l % 2 ^ n) (c.srcB l % 2 ^ n) % 2 ^ n, 0)

/-! ### Arithmetic (R100 to R102, R110) -/

def execAdd (f : Fields) (s : State) := runGroup (.add f) f s fun c s => aluOp c s (int2 c (· + ·) f.bit51)
def execSub (f : Fields) (s : State) := runGroup (.sub f) f s fun c s => aluOp c s (int2 c (· - ·) f.bit51)
def execMul (f : Fields) (s : State) := runGroup (.mul f) f s fun c s => aluOp c s (int2 c (· * ·) f.bit51)
def execMin (f : Fields) (s : State) :=
  runGroup (.min f) f s fun c s => aluOp c s (int2 c (fun a b => if b < a then b else a) false)
def execMax (f : Fields) (s : State) :=
  runGroup (.max f) f s fun c s => aluOp c s (int2 c (fun a b => if a < b then b else a) false)

/-- `mad`: a × b + c, wrapping or saturating (R100). -/
def execMad (f : Fields) (s : State) :=
  runGroup (.mad f) f s fun c s => aluOp c s fun l =>
    let t := f.ty
    narrowInt t f.bit51 (readInt t (c.srcA l) * readInt t (c.srcB l) + readInt t (c.srcC l))

/-- A sum or difference with a carry: the result, and the carry out written last to field C (R101). -/
def carryOp (c : Ctx) (s : State) (fn : Nat → Nat → Nat → Nat × Bool) : Res :=
  let r := fun l => fn (c.srcA l % 2 ^ 32) (c.srcB l % 2 ^ 32) (c.srcC l % 2)
  let t := c.runLanes.foldl (fun t l => c.wr t l (r l).1) c.t
  .done (setThreadOf s c.gid (c.runLanes.foldl (fun t l => writeOperand t l 1 (b2n (r l).2) c.f.c) t))

/-- `addc` (R101). -/
def execAddc (f : Fields) (s : State) :=
  runGroup (.addc f) f s fun c s => carryOp c s fun a b k =>
    let x := a + b + k
    (x % 2 ^ 32, decide (x ≥ 2 ^ 32))

/-- `subb` (R101). -/
def execSubb (f : Fields) (s : State) :=
  runGroup (.subb f) f s fun c s => carryOp c s fun a b k => (ofInt 32 ((a : Int) - b - k), decide (a < b + k))

/-- `mulhi`: bits [63:32] of the product (R102). -/
def execMulhi (f : Fields) (s : State) :=
  runGroup (.mulhi f) f s fun c s => aluOp c s fun l =>
    (ofInt 64 (readInt f.ty (c.srcA l) * readInt f.ty (c.srcB l)) / 2 ^ 32, 0)

/-- `madw`: a × b + c of a pair (R102). -/
def execMadw (f : Fields) (s : State) :=
  runGroup (.madw f) f s fun c s => aluOp c s fun l =>
    (ofInt 64 (readInt f.ty (c.srcA l) * readInt f.ty (c.srcB l) + (c.srcC l : Int)), 0)

/-- Byte i of a word, read as a type. -/
def byteInt (t : Ty) (x i : Nat) : Int := readInt t (x / 2 ^ (8 * i))

/-- `dp4` (R110). -/
def execDp4 (f : Fields) (s : State) :=
  runGroup (.dp4 f) f s fun c s => aluOp c s fun l =>
    let tb := f.ty2.getD .s8
    let a := c.srcA l
    let b := c.srcB l
    let x := (fromTo 0 4).foldl (fun acc i => acc + byteInt f.ty a i * byteInt tb b i) (toSigned 32 (c.srcC l))
    narrowInt .s32 f.bit51 x

/-! ### Logic and shifts (R103 to R106) -/

def execAnd (f : Fields) (s : State) := runGroup (.and f) f s fun c s => aluOp c s (bits2 c Nat.land)
def execOr (f : Fields) (s : State) := runGroup (.or f) f s fun c s => aluOp c s (bits2 c Nat.lor)
def execXor (f : Fields) (s : State) := runGroup (.xor f) f s fun c s => aluOp c s (bits2 c Nat.xor)
def execNot (f : Fields) (s : State) :=
  runGroup (.not f) f s fun c s => aluOp c s fun l =>
    let n := tyBits f.ty
    (2 ^ n - 1 - c.srcA l % 2 ^ n, 0)

/-- The count of a shift of width n: modulo n with `.wrap`, else clamped to n (R103). -/
def shiftCount (wrap : Bool) (n b : Nat) : Nat := if wrap then b % n else Nat.min b n

/-- The count operand of a shift is its low word. -/
def Ctx.count (c : Ctx) (l : Nat) : Nat := c.srcB l % 2 ^ 32

def execShl (f : Fields) (s : State) :=
  runGroup (.shl f) f s fun c s => aluOp c s fun l =>
    let n := tyBits f.ty
    (c.srcA l * 2 ^ shiftCount f.bit49 n (c.count l) % 2 ^ n, 0)
def execShr (f : Fields) (s : State) :=
  runGroup (.shr f) f s fun c s => aluOp c s fun l =>
    let n := tyBits f.ty
    (c.srcA l % 2 ^ n / 2 ^ shiftCount f.bit49 n (c.count l), 0)
def execSar (f : Fields) (s : State) :=
  runGroup (.sar f) f s fun c s => aluOp c s fun l =>
    let n := tyBits f.ty
    (ofInt n (toSigned n (c.srcA l) / ((2 ^ shiftCount f.bit49 n (c.count l) : Nat) : Int)), 0)

/-- `shf`: a funnel shift of b:a by c (R104). -/
def execShf (f : Fields) (s : State) :=
  runGroup (.shf f) f s fun c s => aluOp c s fun l =>
    let x := c.srcB l % 2 ^ 32 * 2 ^ 32 + c.srcA l % 2 ^ 32
    let k := shiftCount f.bit49 32 (c.srcC l % 2 ^ 32)
    (if f.bit50 then x * 2 ^ k / 2 ^ 32 % 2 ^ 32 else x / 2 ^ k % 2 ^ 32, 0)

/-- `bfx`: the field of `len` bits at `pos`, extended (R105). -/
def execBfx (f : Fields) (s : State) :=
  runGroup (.bfx f) f s fun c s => aluOp c s fun l =>
    let n := tyBits f.ty
    let b := c.srcB l
    let pos := Nat.min (b % 256) n
    let len := Nat.min (b / 256 % 256) n
    let field := ofInt len (readInt f.ty (c.srcA l) / ((2 ^ pos : Nat) : Int))
    (if len = 0 then 0 else if tySigned f.ty then ofInt n (toSigned len field) else field, 0)

/-- `bfi`: the low `len` bits of a over bits `pos` up of c (R105). -/
def execBfi (f : Fields) (s : State) :=
  runGroup (.bfi f) f s fun c s => aluOp c s fun l =>
    let n := tyBits f.ty
    let b := c.srcB l
    let pos := b % 256
    let len := if pos ≥ n then 0 else Nat.min (b / 256 % 256) (n - pos)
    let y := c.srcC l % 2 ^ n
    (if len = 0 then y else setBits y (pos + len - 1) pos (c.srcA l), 0)

/-- The position above the highest set bit of `x`. -/
def bitLength (x : Nat) : Nat := if x = 0 then 0 else x.log2 + 1

/-- The low n bits of x in reverse order. -/
def reverseBits : Nat → Nat → Nat
  | 0, _ => 0
  | n + 1, x => x % 2 * 2 ^ n + reverseBits n (x / 2)

def execPopc (f : Fields) (s : State) :=
  runGroup (.popc f) f s fun c s => aluOp c s fun l => (popNat (tyBits f.ty) (c.srcA l), 0)
def execClz (f : Fields) (s : State) :=
  runGroup (.clz f) f s fun c s => aluOp c s fun l =>
    let n := tyBits f.ty
    (n - bitLength (c.srcA l % 2 ^ n), 0)
def execBrev (f : Fields) (s : State) :=
  runGroup (.brev f) f s fun c s => aluOp c s fun l => (reverseBits (tyBits f.ty) (c.srcA l), 0)

/-! ### Addresses, moves and comparison (R107 to R109) -/

/-- `lea`: a + (ext(b) << k), or with `.pc` A + sext(b) (R107). -/
def execLea (f : Fields) (s : State) :=
  runGroup (.lea f) f s fun c s => aluOp c s fun l =>
    let base := if f.opt then c.pc.toNat else c.srcA l
    let k := if f.opt then 0 else f.low3
    (ofInt 64 ((base : Int) + readInt f.ty (c.srcB l) * ((2 ^ k : Nat) : Int)), 0)

/-- `sel`: a where c is not 0, else b (R108). -/
def execSel (f : Fields) (s : State) :=
  runGroup (.sel f) f s fun c s => aluOp c s fun l => (if c.srcC l ≠ 0 then c.srcA l else c.srcB l, 0)

/-- `mov` (R108). -/
def execMov (f : Fields) (s : State) := runGroup (.mov f) f s fun c s => aluOp c s fun l => (c.srcA l, 0)

/-- `movi`: source B; a 16-bit floating-point value takes the low half of its register (R77, R108). -/
def execMovi (f : Fields) (s : State) :=
  runGroup (.movi f) f s fun c s => aluOp c s fun l =>
    (if f.ty = .f16 ∨ f.ty = .bf16 then c.srcB l % 65536 else c.srcB l, 0)

/-- The integer condition of a code (R99). -/
def intCond (cc : Nat) (a b : Int) : Bool :=
  match cc with
  | 0 => a == b
  | 1 => a != b
  | 2 => decide (a < b)
  | 3 => decide (a ≤ b)
  | 4 => decide (b < a)
  | _ => decide (b ≤ a)

/-- `cmp` (R109). -/
def execCmp (f : Fields) (s : State) :=
  runGroup (.cmp f) f s fun c s => aluOp c s fun l =>
    (b2n (intCond f.cc (readInt f.ty (c.srcA l)) (readInt f.ty (c.srcB l))), 0)

end Sys2Proof.Machine
end

