-- ==== Sys2Proof/Machine/Floats.lean ====
section
/-!
DEFINITION. Floating-point formats, exact values and the one rounding from them (R74 to R88, R92).
-/
namespace Sys2Proof.Machine
open Sys2Proof

/-! ### Formats (R74 to R76) -/

/-- A format: exponent and fraction widths, whether it has infinities, its canonical NaN, and the encoding of its largest
finite magnitude. -/
structure Fmt where
  eb   : Nat
  fb   : Nat
  inf  : Bool
  nan  : Option Nat
  maxE : Nat
  deriving DecidableEq, Repr

def fmtF32 : Fmt := ⟨8, 23, true, some 0x7FC00000, 0x7F7FFFFF⟩
def fmtF16 : Fmt := ⟨5, 10, true, some 0x7E00, 0x7BFF⟩
def fmtBF16 : Fmt := ⟨8, 7, true, some 0x7FC0, 0x7F7F⟩
def fmtE4M3 : Fmt := ⟨4, 3, false, some 0x7F, 0x7E⟩
def fmtE5M2 : Fmt := ⟨5, 2, true, some 0x7E, 0x7B⟩
def fmtE2M1 : Fmt := ⟨2, 1, false, none, 7⟩
def fmtF40 : Fmt := ⟨8, 31, true, some 0x7FC0000000, 0x7F7FFFFFFF⟩

def Fmt.width (f : Fmt) : Nat := 1 + f.eb + f.fb
def Fmt.bias (f : Fmt) : Nat := 2 ^ (f.eb - 1) - 1
/-- The encoding of +∞: one above the largest finite. -/
def Fmt.infBits (f : Fmt) : Nat := f.maxE + 1
/-- The sign bit. -/
def Fmt.signBit (f : Fmt) (neg : Bool) : Nat := if neg then 2 ^ (f.eb + f.fb) else 0
/-- Exponent of the smallest normal's last fraction bit: of every subnormal. -/
def Fmt.minExp (f : Fmt) : Int := 1 - f.bias - f.fb
/-- The canonical NaN; E2M1, which has none, gets +0 (R85). -/
def Fmt.nanBits (f : Fmt) : Nat := f.nan.getD 0

/-- The format of a type, its elements in a word and the bits of each (R77). -/
def fmtOf : Ty → Option Fmt
  | .f32 => some fmtF32
  | .f16 | .f16x2 => some fmtF16
  | .bf16 | .bf16x2 => some fmtBF16
  | .e4m3 => some fmtE4M3
  | .e5m2 => some fmtE5M2
  | .e2m1 => some fmtE2M1
  | .f40 => some fmtF40
  | _ => none

/-! ### Exact values -/

/-- An exact value: a NaN (`bad` when reading or making it is invalid), an infinity, or ± m × 2^e. -/
inductive FVal where
  | nan (bad : Bool)
  | inf (neg : Bool)
  | fin (neg : Bool) (m : Nat) (e : Int)
  deriving DecidableEq, Repr

/-- The value of an encoding (R75). -/
def unpackF (f : Fmt) (x : Nat) : FVal :=
  let neg := bit x (f.eb + f.fb)
  let E := x / 2 ^ f.fb % 2 ^ f.eb
  let F := x % 2 ^ f.fb
  if f.inf ∧ E = 2 ^ f.eb - 1 then (if F = 0 then .inf neg else .nan (decide (F < 2 ^ (f.fb - 1))))
  else if !f.inf ∧ f.nan.isSome ∧ E = 2 ^ f.eb - 1 ∧ F = 2 ^ f.fb - 1 then .nan false
  else if E = 0 then .fin neg F f.minExp
  else .fin neg (2 ^ f.fb + F) (f.minExp + (E - 1 : Nat))

def FVal.isNan : FVal → Bool
  | .nan _ => true
  | _ => false
/-- NV where a signalling NaN is read or the operation was invalid (R85). -/
def FVal.nv : FVal → Nat
  | .nan true => fNV
  | _ => 0
def FVal.isZero : FVal → Bool
  | .fin _ 0 _ => true
  | _ => false
def FVal.isNeg : FVal → Bool
  | .nan _ => false
  | .inf n => n
  | .fin n _ _ => n
def FVal.negate : FVal → FVal
  | .nan b => .nan b
  | .inf n => .inf !n
  | .fin n m e => .fin (!n) m e
/-- An integer as an exact value (R88). -/
def FVal.ofInt (x : Int) : FVal := .fin (decide (x < 0)) x.natAbs 0

/-- The magnitude m × 2^e as a fraction. -/
def fracOf (m : Nat) (e : Int) : Nat × Nat := if e ≥ 0 then (m * 2 ^ e.toNat, 1) else (m, 2 ^ (-e).toNat)

/-- The significand of a value over 2^e, signed, for e at or below its own exponent. -/
def FVal.over (e : Int) : FVal → Int
  | .fin n m k => (if n then -1 else 1) * ((m * 2 ^ (k - e).toNat : Nat) : Int)
  | _ => 0
def FVal.expo : FVal → Int
  | .fin _ _ e => e
  | _ => 0

/-- A finite value compared with another: exact. -/
def finLt (a b : FVal) : Bool :=
  let e := min a.expo b.expo
  decide (a.over e < b.over e)

/-- a < b for values that are not NaN; −0 and +0 equal. -/
def FVal.lt (a b : FVal) : Bool :=
  match a, b with
  | .inf true, .inf true => false
  | .inf true, _ => true
  | _, .inf true => false
  | .inf false, _ => false
  | _, .inf false => true
  | _, _ => finLt a b

/-- Numeric equality of values that are not NaN. -/
def FVal.eqv (a b : FVal) : Bool := !a.lt b && !b.lt a

/-! ### Sums and products (R84, R85, R92) -/

/-- The exact sum of a list of terms in a rounding mode, whose zero takes the sign of R84. DESIGN CHOICE, log entry 66. -/
def sumF (mode : Rnd) (ts : List FVal) : FVal :=
  if ts.any FVal.isNan then .nan (ts.any fun t => t.nv != 0)
  else if ts.contains (.inf true) && ts.contains (.inf false) then .nan true
  else if ts.contains (.inf true) then .inf true
  else if ts.contains (.inf false) then .inf false
  else
    let e := ts.foldl (fun e t => min e t.expo) (match ts with
      | t :: _ => t.expo
      | [] => 0)
    let x := ts.foldl (fun acc t => acc + t.over e) (0 : Int)
    if x = 0 then .fin ((mode == .rd && !ts.isEmpty) || (!ts.isEmpty && ts.all fun t => t.isNeg && t.isZero)) 0 0
    else .fin (decide (x < 0)) x.natAbs e

/-- The exact product. -/
def mulF (a b : FVal) : FVal :=
  match a, b with
  | .nan x, y => .nan (x || y.nv != 0)
  | _, .nan y => .nan y
  | .inf n, y => if y.isZero then .nan true else .inf (n != y.isNeg)
  | x, .inf n => if x.isZero then .nan true else .inf (n != x.isNeg)
  | .fin n m e, .fin n' m' e' => .fin (n != n') (m * m') (e + e')

/-! ### Rounding (R81 to R84) -/

/-- floor(log2(p / q)). -/
def flog2 (p q : Nat) : Int :=
  let g := (p.log2 : Int) - q.log2
  let (a, b) := if g ≥ 0 then (p, q * 2 ^ g.toNat) else (p * 2 ^ (-g).toNat, q)
  if a < b then g - 1 else g

/-- The exponent of the last fraction bit of a format at magnitude p / q (R89): that of one ulp. -/
def ulpExp (f : Fmt) (p q : Nat) : Int := if p = 0 then f.minExp else max (flog2 p q - f.fb) f.minExp

/-- A magnitude p / q over 2^t: the quotient, the remainder and the divisor. -/
def quotAt (p q : Nat) (t : Int) : Nat × Nat × Nat :=
  let (a, b) := if t ≥ 0 then (p, q * 2 ^ t.toNat) else (p * 2 ^ (-t).toNat, q)
  (a / b, a % b, b)

/-- Whether the magnitude rounds up to the next (R81). -/
def roundsUp (mode : Rnd) (neg : Bool) (m r d : Nat) : Bool :=
  match mode with
  | .rne => decide (2 * r > d ∨ (2 * r = d ∧ m % 2 = 1))
  | .rz => false
  | .ru => !neg && r != 0
  | .rd => neg && r != 0

/-- The encoding of significand m at ulp exponent t: a carry out of the fraction moves into the exponent. -/
def encodeMag (f : Fmt) (m : Nat) (t : Int) : Nat := (t - f.minExp).toNat * 2 ^ f.fb + m

/-- What overflow delivers (R82). -/
def overflowMag (f : Fmt) (mode : Rnd) (neg : Bool) : Nat :=
  if f.inf && (mode == .rne || (mode == .ru && !neg) || (mode == .rd && neg)) then f.infBits else f.maxE

/-- The magnitude p / q rounded once: the encoding and its flags (R81 to R84). -/
def roundRat (f : Fmt) (mode : Rnd) (neg : Bool) (p q : Nat) : Nat × Nat :=
  if p = 0 then (f.signBit neg, 0)
  else
    let t := ulpExp f p q
    let (m, r, d) := quotAt p q t
    let enc := encodeMag f (if roundsUp mode neg m r d then m + 1 else m) t
    if enc > f.maxE then (f.signBit neg + overflowMag f mode neg, fOF ||| fNX)
    else (f.signBit neg + enc, if r = 0 then 0 else if enc < 2 ^ f.fb then fNX ||| fUF else fNX)

/-- An exact value rounded into a format (R81 to R85). -/
def packF (f : Fmt) (mode : Rnd) : FVal → Nat × Nat
  | .nan bad => (f.nanBits, if bad ∨ f.nan.isNone then fNV else 0)
  | .inf n => if f.inf then (f.signBit n + f.infBits, 0) else (f.signBit n + f.maxE, fOF ||| fNX)
  | .fin n m e =>
    let (p, q) := fracOf m e
    roundRat f mode n p q

/-- Stochastic rounding with the drawn word r (R87). -/
def packSr (f : Fmt) (r : Nat) : FVal → Nat × Nat
  | .nan bad => packF f .rne (.nan bad)
  | .inf n => packF f .rne (.inf n)
  | .fin n m e =>
    let (p, q) := fracOf m e
    if p = 0 then (f.signBit n, 0)
    else
      let t := ulpExp f p q
      let (lo, rem, d) := quotAt p q t
      if encodeMag f lo t > f.maxE ∨ (encodeMag f lo t = f.maxE ∧ rem ≠ 0) then
        (f.signBit n + f.maxE, fOF ||| fNX)
      else if rem = 0 then (f.signBit n + encodeMag f lo t, 0)
      else
        let enc := encodeMag f (if r < rem * 2 ^ 32 / d then lo + 1 else lo) t
        (f.signBit n + enc, if enc < 2 ^ f.fb then fNX ||| fUF else fNX)

/-! ### Conversion to integers (R86) -/

/-- The magnitude p / q rounded to an integer in a mode, and whether that was exact. -/
def roundNat (mode : Rnd) (neg : Bool) (p q : Nat) : Nat × Bool :=
  let m := p / q
  let r := p % q
  (if roundsUp mode neg m r q then m + 1 else m, r == 0)

/-- A value as an integer between two limits, with its flags (R86). -/
def toIntF (mode : Rnd) (lo hi : Int) : FVal → Int × Nat
  | .nan _ => (0, fNV ||| fSAT)
  | .inf n => (if n then lo else hi, fNV ||| fSAT)
  | .fin n m e =>
    let (p, q) := fracOf m e
    let (k, exact) := roundNat mode n p q
    let x : Int := if n then -(k : Int) else k
    if x < lo then (lo, fNV ||| fSAT) else if hi < x then (hi, fNV ||| fSAT) else (x, if exact then 0 else fNX)

end Sys2Proof.Machine
end

