-- ==== Sys2Proof/Machine/Special.lean ====
section
/-!
DEFINITION. The special functions (R117, R118): special cases and exact results as the manual lists them; every other
`.f16` result is the exact value rounded, and every other `.f32` result is a free one among those inside the bound.
-/
namespace Sys2Proof.Machine
open Sys2Proof

/-! ### Function values as fractions, far more exact than any bound -/

/-- Fraction bits of the working values. -/
def fxBits : Nat := 192
def fxOne : Nat := 2 ^ fxBits
/-- ln 2 over 2^192. -/
def fxLn2 : Nat := 0xb17217f7d1cf79abc9e3b39803f2f6af40f343267298b62d
/-- 2π over 2^192. -/
def fxTau : Nat := 0x6487ed5110b4611a62633145c06e0e68948127044533e63a0

/-- Terms of the exponential series of y from term k on. -/
def expTerms (y : Nat) : Nat → Nat → Nat → Nat
  | 0, _, _ => 0
  | n + 1, k, t => t + expTerms y n (k + 1) (t * y / fxOne / (k + 1))

/-- 2^(a / b) for a fraction of either sign, as a significand over 2^192 and a power of two. DESIGN CHOICE, log entry 7. -/
def exp2Frac (neg : Bool) (a b : Nat) : Nat × Int :=
  let n : Int := if neg then -((ceilDiv' a b : Nat) : Int) else ((a / b : Nat) : Int)
  let r := if neg then (ceilDiv' a b) * b - a else a % b
  (expTerms (r * fxOne / b * fxLn2 / fxOne) 64 0 fxOne, n)
where ceilDiv' (x m : Nat) : Nat := (x + m - 1) / m

/-- A significand over 2^192 times 2^n as a fraction. -/
def fxFrac (m : Nat) (n : Int) : Nat × Nat := fracOf m (n - fxBits)

/-- log2 of x over 2^192, x in [1, 2): `n` fraction bits, highest first. -/
def log2Bits : Nat → Nat → Nat → Nat
  | 0, _, acc => acc
  | n + 1, x, acc =>
    let y := x * x / fxOne
    if y ≥ 2 * fxOne then log2Bits n (y / 2) (2 * acc + 1) else log2Bits n y (2 * acc)

/-- log2(p / q): sign and fraction. -/
def log2Frac (p q : Nat) : Bool × Nat × Nat :=
  let g := flog2 p q
  let (a, b) := if g ≥ 0 then (p, q * 2 ^ g.toNat) else (p * 2 ^ (-g).toNat, q)
  let x : Int := g * ((2 ^ 80 : Nat) : Int) + (log2Bits 80 (a * fxOne / b) 0 : Int)
  (decide (x < 0), x.natAbs, 2 ^ 80)

/-- Terms of the sine or cosine series of y, with alternating sign. -/
def trigTerms (y2 : Nat) : Nat → Nat → Int → Int
  | 0, _, _ => 0
  | n + 1, k, t => t + trigTerms y2 n (k + 2) (-(t * (y2 : Int) / (fxOne : Int) / (((k + 1) * (k + 2) : Nat) : Int)))

/-- sin (or cos) of 2πr for r = p / q in [0, 1/4), over 2^192. -/
def quarterTrig (sin : Bool) (p q : Nat) : Nat :=
  let y := fxTau * p / q
  let y2 := y * y / fxOne
  (if sin then trigTerms y2 48 1 (y : Int) else trigTerms y2 48 0 (fxOne : Int)).toNat

/-- sin (or cos) of an angle p / q in turns, p / q in [0, 1) and no multiple of a quarter. DESIGN CHOICE, log entry 7. -/
def trigFrac (sin : Bool) (p q : Nat) : Bool × Nat :=
  let quad := 4 * p / q
  let r := 4 * p % q
  let useSin := if quad % 2 = 0 then sin else !sin
  let neg := if sin then decide (quad ≥ 2) else decide (quad = 1 ∨ quad = 2)
  (neg, quarterTrig useSin r (4 * q))

/-- tanh(p / q) as a fraction: three terms of its series below 2^−16, else from e^(2p/q). DESIGN CHOICE, log entry 7. -/
def tanhFrac (p q : Nat) : Nat × Nat :=
  if p * 65536 < q then
    (p * (15 * q ^ 4 + 2 * p ^ 4 - 5 * p ^ 2 * q ^ 2), 15 * q ^ 5)
  else
    let (m, n) := exp2Frac false (2 * p * fxOne) (q * fxLn2)
    let (a, b) := fxFrac m n
    (a - b, a + b)

/-- floor(√n), for n below 2^(2 b), from bit b − 1 down. -/
def isqrt (n : Nat) : Nat → Nat → Nat
  | 0, r => r
  | b + 1, r => isqrt n b (if (r + 2 ^ b) * (r + 2 ^ b) ≤ n then r + 2 ^ b else r)

/-- √(p / q) as a fraction: exact when the root is, else strictly inside the same rounding interval (R117). -/
def sqrtFrac (f : Fmt) (p q : Nat) : Nat × Nat :=
  let k := ((f.fb : Int) + 6 - flog2 p q / 2).toNat
  let x := p * 2 ^ (2 * k)
  let r := isqrt (x / q) ((x / q).log2 / 2 + 1) 0
  if r * r * q = x then (r, 2 ^ k) else (2 * r + 1, 2 ^ (k + 1))

/-! ### Choosing inside a bound -/

/-- The greatest encoding at or below, and the least at or above, a magnitude. -/
def magFloor (f : Fmt) (p q : Nat) : Nat := Nat.min (roundRat f .rz false p q).1 f.maxE
def magCeil (f : Fmt) (p q : Nat) : Nat := Nat.min (roundRat f .ru false p q).1 f.maxE

/-- The encodings, as signed numbers, of the least and greatest values inside [n − b, n + b] over q. -/
def ordFloor (f : Fmt) (n : Int) (q : Nat) : Int :=
  if n ≥ 0 then (magFloor f n.toNat q : Int) else -(magCeil f n.natAbs q : Int)
def ordCeil (f : Fmt) (n : Int) (q : Nat) : Int :=
  if n ≥ 0 then (magCeil f n.toNat q : Int) else -(magFloor f n.natAbs q : Int)

/-- A signed encoding as bits; zero is +0. -/
def ordBits (f : Fmt) (x : Int) : Nat := f.signBit (decide (x < 0)) + x.natAbs

/-- A free value within `b / q` of the value ± p / q. -/
def chooseWithin (f : Fmt) (neg : Bool) (p q b : Nat) (choice : Nat) : Nat :=
  let v : Int := if neg then -(p : Int) else p
  let lo := ordCeil f (v - b) q
  let hi := ordFloor f (v + b) q
  ordBits f (lo + ((choice % ((hi - lo).toNat + 1) : Nat) : Int))

/-- The flags of a result not listed as exact: NX, and UF where the delivered magnitude is below the smallest normal. DESIGN CHOICE, log entry 7. -/
def sfuFlags (f : Fmt) (enc : Nat) : Nat := if enc % 2 ^ (f.eb + f.fb) < 2 ^ f.fb then fNX ||| fUF else fNX

/-- An inexact result: for `.f16` the value rounded to nearest even; for `.f32` a free one within `ulps` ulp, or within
2^−22 where `ulps` is 0 (R117, R118). An overflow is that of the rounded value. DESIGN CHOICE, log entry 7. -/
def sfuInexact (f : Fmt) (op x ulps : Nat) (neg : Bool) (p q : Nat) : Nat × Nat :=
  let (r, fl) := roundRat f .rne neg p q
  if fl &&& fOF ≠ 0 then (r, fl)
  else if f = fmtF16 then (r, sfuFlags f r)
  else
    let t := if ulps = 0 then -22 else ulpExp f p q
    let (bp, bq) := fracOf (if ulps = 0 then 1 else ulps) t
    let y := chooseWithin f neg (p * bq) (q * bq) (bp * q) (Config.sfuChoice op x)
    (y, sfuFlags f y)

/-- A power of two as a fraction. -/
def isPow2 (p q : Nat) : Bool :=
  let g := flog2 p q
  if g ≥ 0 then p == q * 2 ^ g.toNat else p * 2 ^ (-g).toNat == q

/-! ### The functions -/

/-- `frcp` (R118). -/
def frcpF (f : Fmt) (x : Nat) : Nat × Nat :=
  match unpackF f x with
  | .nan b => packF f .rne (.nan b)
  | .inf n => (f.signBit n, 0)
  | .fin n m e =>
    let (p, q) := fracOf m e
    if p = 0 then (f.signBit n + f.infBits, fDZ)
    else
      let (r, fl) := roundRat f .rne n q p
      if isPow2 p q && fl == 0 && decide (r % 2 ^ (f.eb + f.fb) ≥ 2 ^ f.fb) then (r, 0)
      else sfuInexact f 0x4B x 1 n q p

/-- `frsq` (R118). -/
def frsqF (f : Fmt) (x : Nat) : Nat × Nat :=
  match unpackF f x with
  | .nan b => packF f .rne (.nan b)
  | .inf n => if n then (f.nanBits, fNV) else (0, 0)
  | .fin n m e =>
    let (p, q) := fracOf m e
    if p = 0 then (f.signBit n + f.infBits, fDZ)
    else if n then (f.nanBits, fNV)
    else
      let (a, b) := sqrtFrac { f with fb := 40 } q p
      if isPow2 p q ∧ flog2 p q % 2 = 0 then roundRat f .rne false a b else sfuInexact f 0x4C x 1 false a b

/-- `fsqrt`, correctly rounded in a mode (R117, R118). -/
def fsqrtF (f : Fmt) (mode : Rnd) (x : Nat) : Nat × Nat :=
  match unpackF f x with
  | .nan b => packF f .rne (.nan b)
  | .inf n => if n then (f.nanBits, fNV) else (f.infBits, 0)
  | .fin n m e =>
    let (p, q) := fracOf m e
    if p = 0 then (f.signBit n, 0)
    else if n then (f.nanBits, fNV)
    else
      let (a, b) := sqrtFrac f p q
      roundRat f mode false a b

/-- `fexp2` (R118). -/
def fexp2F (f : Fmt) (x : Nat) : Nat × Nat :=
  match unpackF f x with
  | .nan b => packF f .rne (.nan b)
  | .inf n => if n then (0, 0) else (f.infBits, 0)
  | .fin n m e =>
    let (p, q) := fracOf m e
    if p % q = 0 then
      let k := Nat.min (p / q) 400
      if n then roundRat f .rne false 1 (2 ^ k) else roundRat f .rne false (2 ^ k) 1
    else
      let big := decide (p / q ≥ 400)
      let (sig, g) := if big then exp2Frac n 400 1 else exp2Frac n p q
      let (a, b) := fxFrac sig g
      sfuInexact f 0x4E x 2 false a b

/-- `flog2` (R118). -/
def flog2F (f : Fmt) (x : Nat) : Nat × Nat :=
  match unpackF f x with
  | .nan b => packF f .rne (.nan b)
  | .inf n => if n then (f.nanBits, fNV) else (f.infBits, 0)
  | .fin n m e =>
    let (p, q) := fracOf m e
    if p = 0 then (f.signBit true + f.infBits, fDZ)
    else if n then (f.nanBits, fNV)
    else if isPow2 p q then packF f .rne (FVal.ofInt (flog2 p q))
    else
      let (neg, a, b) := log2Frac p q
      sfuInexact f 0x4F x (if q ≤ 2 * p ∧ p ≤ 2 * q then 0 else 2) neg a b

/-- `fsin` and `fcos` of an angle in turns (R118). -/
def ftrigF (f : Fmt) (sin : Bool) (x : Nat) : Nat × Nat :=
  match unpackF f x with
  | .nan b => packF f .rne (.nan b)
  | .inf _ => (f.nanBits, fNV)
  | .fin n m e =>
    let (p, q) := fracOf m e
    -- the angle modulo one turn
    let r := if n then (q - p % q) % q else p % q
    if 4 * r % q = 0 then
      let quad := 4 * r / q
      let v : Int := if sin then (if quad = 1 then 1 else if quad = 3 then -1 else 0)
        else (if quad = 0 then 1 else if quad = 2 then -1 else 0)
      if v = 0 then (f.signBit (sin && n && p == 0), 0) else packF f .rne (FVal.ofInt v)
    else
      let (neg, a) := trigFrac sin r q
      sfuInexact f (if sin then 0x50 else 0x51) x 0 neg a fxOne

/-- `ftanh` (R118). -/
def ftanhF (f : Fmt) (x : Nat) : Nat × Nat :=
  match unpackF f x with
  | .nan b => packF f .rne (.nan b)
  | .inf n => packF f .rne (FVal.ofInt (if n then -1 else 1))
  | .fin n m e =>
    let (p, q) := fracOf m e
    if p = 0 then (f.signBit n, 0)
    else if p ≥ 9 * q then packF f .rne (FVal.ofInt (if n then -1 else 1))
    else
      let (a, b) := tanhFrac p q
      sfuInexact f 0x52 x 2 n a b

end Sys2Proof.Machine
end

