-- ==== Sys2Proof/Machine/FloatAlu.lean ====
section
/-!
DEFINITION. Floating-point instructions (R111 to R124): arithmetic, comparison, conversion, special functions, random bits
and the online softmax.
-/
namespace Sys2Proof.Machine
open Sys2Proof

/-! ### Elements (R77) -/

/-- The format of the instruction's type. -/
def Fields.fmt (f : Fields) : Fmt := (fmtOf f.ty).getD fmtF32

/-- The elements of a word and their bits for an arithmetic type. -/
def elemCount : Ty → Nat
  | .f16x2 | .bf16x2 => 2
  | _ => 1
def elemBits : Ty → Nat
  | .f32 => 32
  | _ => 16

/-- Element i of a word. -/
def elemOf (t : Ty) (x i : Nat) : Nat := x / 2 ^ (elemBits t * i) % 2 ^ elemBits t

/-- An operation on each element: the word, and the union of the elements' flags (R77). -/
def perElem (t : Ty) (fn : Nat → Nat × Nat) : Nat × Nat :=
  match elemCount t with
  | 2 =>
    let a := fn 0
    let b := fn 1
    (a.1 + 2 ^ elemBits t * b.1, a.2 ||| b.2)
  | _ => fn 0

/-- A float operation of one, two or three sources, element by element. -/
def fop1 (c : Ctx) (fn : Nat → Nat × Nat) (l : Nat) : Nat × Nat :=
  perElem c.f.ty fun i => fn (elemOf c.f.ty (c.srcA l) i)
def fop2 (c : Ctx) (fn : Nat → Nat → Nat × Nat) (l : Nat) : Nat × Nat :=
  perElem c.f.ty fun i => fn (elemOf c.f.ty (c.srcA l) i) (elemOf c.f.ty (c.srcB l) i)
def fop3 (c : Ctx) (fn : Nat → Nat → Nat → Nat × Nat) (l : Nat) : Nat × Nat :=
  perElem c.f.ty fun i =>
    fn (elemOf c.f.ty (c.srcA l) i) (elemOf c.f.ty (c.srcB l) i) (elemOf c.f.ty (c.srcC l) i)

/-! ### Arithmetic (R111, R119) -/

def addF (f : Fmt) (mode : Rnd) (a b : Nat) : Nat × Nat := packF f mode (sumF mode [unpackF f a, unpackF f b])
def subF (f : Fmt) (mode : Rnd) (a b : Nat) : Nat × Nat :=
  packF f mode (sumF mode [unpackF f a, (unpackF f b).negate])
def prodF (f : Fmt) (mode : Rnd) (a b : Nat) : Nat × Nat := packF f mode (mulF (unpackF f a) (unpackF f b))
def fmaF (f : Fmt) (mode : Rnd) (a b k : Nat) : Nat × Nat :=
  packF f mode (sumF mode [mulF (unpackF f a) (unpackF f b), unpackF f k])

def execFadd (f : Fields) (s : State) := runGroup (.fadd f) f s fun c s => aluOp c s (fop2 c (addF (Fields.fmt f) f.rnd))
def execFsub (f : Fields) (s : State) := runGroup (.fsub f) f s fun c s => aluOp c s (fop2 c (subF (Fields.fmt f) f.rnd))
def execFmul (f : Fields) (s : State) := runGroup (.fmul f) f s fun c s => aluOp c s (fop2 c (prodF (Fields.fmt f) f.rnd))
def execFfma (f : Fields) (s : State) := runGroup (.ffma f) f s fun c s => aluOp c s (fop3 c (fmaF (Fields.fmt f) f.rnd))

/-- `fdp2` (R119). -/
def execFdp2 (f : Fields) (s : State) :=
  runGroup (.fdp2 f) f s fun c s => aluOp c s fun l =>
    let m := Fields.fmt f
    let a := c.srcA l
    let b := c.srcB l
    let term := fun i => mulF (unpackF m (elemOf f.ty a i)) (unpackF m (elemOf f.ty b i))
    packF fmtF32 f.rnd (sumF f.rnd [term 0, term 1, unpackF fmtF32 (c.srcC l % 2 ^ 32)])

/-! ### Minimum, maximum, comparison (R112, R113) -/

/-- a orders below b, −0 below +0 (R112). -/
def zeroLt (a b : FVal) : Bool := a.lt b || (a.isZero && b.isZero && a.isNeg && !b.isNeg)

/-- `fmin` and `fmax`: an operand exactly, or the canonical NaN (R112). -/
def minmaxF (f : Fmt) (isMax nanOpt : Bool) (a b : Nat) : Nat × Nat :=
  let x := unpackF f a
  let y := unpackF f b
  let fl := x.nv ||| y.nv
  if (x.isNan && y.isNan) || ((x.isNan || y.isNan) && nanOpt) then (f.nanBits, fl)
  else if x.isNan then (b, fl)
  else if y.isNan then (a, fl)
  else if isMax then (if zeroLt x y then b else a, fl) else (if zeroLt y x then b else a, fl)

def execFmin (f : Fields) (s : State) :=
  runGroup (.fmin f) f s fun c s => aluOp c s (fop2 c (minmaxF (Fields.fmt f) false f.opt))
def execFmax (f : Fields) (s : State) :=
  runGroup (.fmax f) f s fun c s => aluOp c s (fop2 c (minmaxF (Fields.fmt f) true f.opt))

/-- The floating-point condition of a code (R99). -/
def floatCond (cc : Nat) (x y : FVal) : Bool :=
  let un := x.isNan || y.isNan
  match cc with
  | 0 => !un && x.eqv y
  | 1 => un || !x.eqv y
  | 2 => !un && x.lt y
  | 3 => !un && !y.lt x
  | 4 => !un && y.lt x
  | 5 => !un && !x.lt y
  | 6 => !un
  | _ => un

/-- `fcmp` (R113). -/
def execFcmp (f : Fields) (s : State) :=
  runGroup (.fcmp f) f s fun c s => aluOp c s (fop2 c fun a b =>
    let x := unpackF (Fields.fmt f) a
    let y := unpackF (Fields.fmt f) b
    (b2n (floatCond f.cc x y), x.nv ||| y.nv))

/-! ### Rounding to integral values, class, scaling (R114 to R116) -/

/-- `frnd`: an integral value of the same format, without NX or UF (R114). -/
def rintF (f : Fmt) (mode : Rnd) (x : Nat) : Nat × Nat :=
  match unpackF f x with
  | .fin n m e =>
    let (p, q) := fracOf m e
    ((roundRat f .rne n (roundNat mode n p q).1 1).1, 0)
  | v => packF f .rne v

/-- `ffrac`: a − floor(a), rounded (R114). -/
def fracF (f : Fmt) (mode : Rnd) (x : Nat) : Nat × Nat :=
  match unpackF f x with
  | .nan b => packF f .rne (.nan b)
  | .inf _ => (f.nanBits, fNV)
  | .fin n m e =>
    let (p, q) := fracOf m e
    let r := if n then (q - p % q) % q else p % q
    roundRat f mode (r == 0 && mode == .rd) r q

/-- `fclass` (R115). -/
def classF (f : Fmt) (x : Nat) : Nat :=
  match unpackF f x with
  | .nan true => 1
  | .nan false => 2
  | .inf n => if n then 4 else 512
  | .fin n 0 _ => if n then 32 else 64
  | .fin n _ _ =>
    let sub := decide (x % 2 ^ (f.eb + f.fb) < 2 ^ f.fb)
    match n, sub with
    | true, false => 8
    | true, true => 16
    | false, true => 128
    | false, false => 256

/-- `fldexp`: a × 2^b; beyond ±2,000 the result no longer depends on b (R116). -/
def ldexpF (f : Fmt) (mode : Rnd) (x : Nat) (k : Int) : Nat × Nat :=
  match unpackF f x with
  | .fin n m e => packF f mode (.fin n m (e + max (-2000) (min 2000 k)))
  | v => packF f mode v

def execFrnd (f : Fields) (s : State) := runGroup (.frnd f) f s fun c s => aluOp c s (fop1 c (rintF (Fields.fmt f) f.rnd))
def execFfrac (f : Fields) (s : State) := runGroup (.ffrac f) f s fun c s => aluOp c s (fop1 c (fracF (Fields.fmt f) f.rnd))
def execFclass (f : Fields) (s : State) :=
  runGroup (.fclass f) f s fun c s => aluOp c s (fop1 c fun x => (classF (Fields.fmt f) x, 0))
def execFldexp (f : Fields) (s : State) :=
  runGroup (.fldexp f) f s fun c s => aluOp c s fun l =>
    ldexpF (Fields.fmt f) f.rnd (elemOf f.ty (c.srcA l) 0) (toSigned 32 (c.srcB l))

/-! ### Special functions (R117, R118) -/

def execFrcp (f : Fields) (s : State) := runGroup (.frcp f) f s fun c s => aluOp c s (fop1 c (frcpF (Fields.fmt f)))
def execFrsq (f : Fields) (s : State) := runGroup (.frsq f) f s fun c s => aluOp c s (fop1 c (frsqF (Fields.fmt f)))
def execFsqrt (f : Fields) (s : State) := runGroup (.fsqrt f) f s fun c s => aluOp c s (fop1 c (fsqrtF (Fields.fmt f) f.rnd))
def execFexp2 (f : Fields) (s : State) := runGroup (.fexp2 f) f s fun c s => aluOp c s (fop1 c (fexp2F (Fields.fmt f)))
def execFlog2 (f : Fields) (s : State) := runGroup (.flog2 f) f s fun c s => aluOp c s (fop1 c (flog2F (Fields.fmt f)))
def execFsin (f : Fields) (s : State) := runGroup (.fsin f) f s fun c s => aluOp c s (fop1 c (ftrigF (Fields.fmt f) true))
def execFcos (f : Fields) (s : State) := runGroup (.fcos f) f s fun c s => aluOp c s (fop1 c (ftrigF (Fields.fmt f) false))
def execFtanh (f : Fields) (s : State) := runGroup (.ftanh f) f s fun c s => aluOp c s (fop1 c (ftanhF (Fields.fmt f)))

/-! ### Conversions (R120, R121) -/

/-- Bits of one element of a narrow type. -/
def narrowBits (t : Ty) : Nat := if narrowElems t = 0 then 32 else 32 / narrowElems t

/-- A source value of a conversion: an exact float value, or an integer. -/
inductive CvtVal where
  | flt (v : FVal)
  | int (x : Int)
  deriving DecidableEq, Repr

/-- The source of a conversion, its element k where the type is narrow (R77, R80, R96). -/
def readCvt (ts : Ty) (k x : Nat) : CvtVal :=
  match fmtOf ts with
  | some f => .flt (unpackF f (x / 2 ^ (narrowBits ts % 32 * k) % 2 ^ f.width))
  | none => .int (if ts = .i40 then toSigned 40 x else readInt ts x)

/-- Bits and signedness of an integer destination. -/
def cvtBits (td : Ty) : Nat := if td = .i40 then 40 else tyBits td
def cvtSigned (td : Ty) : Bool := td == .i40 || tySigned td
def cvtMin (td : Ty) : Int := if cvtSigned td then -((2 ^ (cvtBits td - 1) : Nat) : Int) else 0
def cvtMax (td : Ty) : Int :=
  if cvtSigned td then ((2 ^ (cvtBits td - 1) - 1 : Nat) : Int) else ((2 ^ cvtBits td - 1 : Nat) : Int)

/-- An integer as the registers of a destination hold it (R71, R80). -/
def placeInt (td : Ty) (x : Int) : Nat := if td = .i40 then ofInt 64 (toSigned 40 (ofInt 40 x)) else wrapInt td x

/-- The bits a conversion delivers and its flags; `draw` is the word of stochastic rounding (R86 to R88). -/
def convert (td : Ty) (sat : Bool) (mode : Rnd) (draw : Option Nat) (v : CvtVal) : Nat × Nat :=
  match fmtOf td, v with
  | some f, .flt x => match draw with
    | some r => packSr f r x
    | none => packF f mode x
  | some f, .int x => match draw with
    | some r => packSr f r (FVal.ofInt x)
    | none => packF f mode (FVal.ofInt x)
  | none, .flt x =>
    let r := toIntF mode (cvtMin td) (cvtMax td) x
    (placeInt td r.1, r.2)
  | none, .int x => if sat then
      let r := clampInt (cvtMin td) (cvtMax td) x
      (placeInt td r.1, r.2)
    else (placeInt td x, 0)

/-- The word a conversion writes: a narrow result replaces element k of source B (R120). DEDUCED, log entry 63. -/
def placeCvt (td : Ty) (k word bits : Nat) : Nat :=
  if narrowElems td = 0 then bits
  else
    let w := narrowBits td
    setBits (word % 2 ^ 32) (w * k + w - 1) (w * k) bits

/-- The conversion of a lane. -/
def cvtLane (c : Ctx) (sat : Bool) (mode : Rnd) (draw : Option Nat) (l : Nat) : Nat × Nat :=
  let ts := c.f.ty2.getD .f32
  let k := c.f.imm13.toNat
  let v := readCvt ts (if narrowElems c.f.ty = 0 ∧ narrowElems ts ≠ 0 then k else 0) (c.srcA l)
  let r := convert c.f.ty sat mode draw v
  (placeCvt c.f.ty k (c.srcB l) r.1, r.2)

/-- `cvt` (R120). -/
def execCvt (f : Fields) (s : State) :=
  runGroup (.cvt f) f s fun c s => aluOp c s (cvtLane c f.bit51 f.rnd none)

/-- RNG advanced once in each lane of `exec` (R21). -/
def drawAll (c : Ctx) (t : Thread) : Thread := c.lanes.foldl (fun t l => (rngNext t l).2) t

/-- The draw of a lane. -/
def drawOf (c : Ctx) (l : Nat) : Nat := (rngNext c.t l).1.toNat

/-- `cvts` (R87, R121): a scalar result takes the draw of the lowest lane (log entry 8). DEDUCED, log entry 8. -/
def execCvts (f : Fields) (s : State) :=
  runGroup (.cvts f) f s fun c s =>
    let t := aluThread c fun l => cvtLane c false .rne (some (drawOf c l)) l
    .done (setThreadOf s c.gid (drawAll c t))

/-- `rng` (R122). -/
def execRng (f : Fields) (s : State) :=
  runGroup (.rng f) f s fun c s =>
    let t := aluThread c fun l =>
      let r := drawOf c l
      (if f.ty = .f32 then (roundRat fmtF32 .rne false (r / 256) (2 ^ 24)).1 else r, 0)
    .done (setThreadOf s c.gid (drawAll c t))

/-! ### Online softmax (R123, R124) -/

/-- `ex2(a − b)`: `fexp2` of the rounded difference, with the flags of both steps. DESIGN CHOICE, log entry 66. -/
def ex2F (a b : FVal) : Nat × Nat :=
  let y := packF fmtF32 .rne (sumF .rne [a, b.negate])
  let e := fexp2F fmtF32 y.1
  (e.1, y.2 ||| e.2)

/-- The new state of `osm.upd` (R123). DESIGN CHOICE, log entry 66. -/
def osmState (m s x t : Nat) : Nat × Nat :=
  let fm := unpackF fmtF32 m
  let fs := unpackF fmtF32 s
  let fx := unpackF fmtF32 x
  let ft := unpackF fmtF32 t
  let q := fmtF32.nanBits
  if fm.isNan || fs.isNan || fx.isNan || ft.isNan then (q + 2 ^ 32 * q, fm.nv ||| fs.nv ||| fx.nv ||| ft.nv)
  else
    let up := zeroLt fm fx
    let m2 := if up then x else m
    let f2 := if up then fx else fm
    if f2 = .inf true then (m2, 0)
    else if f2 = .inf false then (m2 + 2 ^ 32 * q, fNV)
    else
      let e1 := if fm = .inf true then (0, 0) else ex2F fm f2
      let e2 := if fx = .inf true then (0, 0) else ex2F fx f2
      let r := packF fmtF32 .rne (sumF .rne [mulF fs (unpackF fmtF32 e1.1), mulF ft (unpackF fmtF32 e2.1)])
      (m2 + 2 ^ 32 * r.1, e1.2 ||| e2.2 ||| r.2)

def execOsmUpd (f : Fields) (s : State) :=
  runGroup (.osmUpd f) f s fun c s => aluOp c s fun l =>
    let a := c.srcA l
    osmState (a % 2 ^ 32) (a / 2 ^ 32) (c.srcB l) (c.srcC l)

/-- The factor of `osm.fin` (R124). -/
def osmFactor (a b : Nat) : Nat × Nat :=
  let x := unpackF fmtF32 a
  let y := unpackF fmtF32 b
  if x.isNan || y.isNan then (fmtF32.nanBits, x.nv ||| y.nv)
  else if x = .inf true ∧ y = .inf true then (0x3F800000, 0)
  else ex2F x y

def execOsmFin (f : Fields) (s : State) :=
  runGroup (.osmFin f) f s fun c s => aluOp c s fun l => osmFactor (c.srcA l % 2 ^ 32) (c.srcB l % 2 ^ 32)

/-- `osm.fin.norm`: 1 / a.odd, 0 for a zero sum (R124). -/
def execOsmFinNorm (f : Fields) (s : State) :=
  runGroup (.osmFinNorm f) f s fun c s => aluOp c s fun l =>
    let x := c.srcA l / 2 ^ 32
    if (unpackF fmtF32 x).isZero then (0, 0) else frcpF fmtF32 x

end Sys2Proof.Machine
end

