-- ==== Sys2Proof/Machine/MemoryOps.lean ====
section
/-!
DEFINITION. Loads, stores, atomics, fences, invalidation, prefetch and constants (R142 to R157), the presence test (R323),
and how asynchronous results and stores come to their end (R28, R144, R234, R349).
-/
namespace Sys2Proof.Machine
open Sys2Proof

/-! ### Lanes and addresses (R142) -/

/-- The offset of a memory instruction: IMM32 alone where IMM13 holds an operation (R134). -/
def memOffset (c : Ctx) : DWord :=
  match c.i with
  | .atom _ | .red _ | .cas _ => sext32 c.f.imm32
  | _ => immOffset c.f

/-- The bytes a type accesses. -/
def accessBytes (t : Ty) : Nat := tyBits t / 8

/-- The accesses of an instruction, lowest lane first; a scalar destination runs once (R95, R142). -/
def requests (c : Ctx) (n : Nat) : List Req :=
  c.runLanes.map fun l => { lane := l, addr := BitVec.ofNat 64 (c.srcA l) + memOffset c, n := n }

/-- Where subpage i of a captured parameter block stands, under the key domain of its mapping (R223, R257). -/
def paramPlace (s : State) (g : Grid) (i : Nat) : Option Place :=
  (capturedSub g i).map fun pa =>
    match g.param, s.ctx g.ctx with
    | .leaf e k giB, some c =>
      placeUnder s (leafDom c ⟨0, e.toNat, k.toNat, giB⟩ (g.pkt.params + 4096 * i)) pa
    | _, _ => .mem pa

/-- The kernel parameter block as captured when the grid began (R223): the byte at an offset. -/
def paramByte (s : State) (g : Grid) (off : Nat) : Byte :=
  match tfind g.paramOld off with
  | some b => b
  | none => match paramPlace s g (off / 4096) with
    | some p => ((readPlace s 1 (p.plus (off % 4096))).head?).getD 0
    | none => 0

/-- The grid of a group. -/
def gridOf (s : State) (g : Group) : Option Grid := ((s.team g.team).bind fun t => s.cluster t.cluster).bind fun c => s.grid c.grid

/-- What reading the block raises, at the global address the offset stands for (R223): as a `.g` load of it would when the
grid began. DEDUCED, log entry 20. -/
def paramCause (g : Grid) (priv : Bool) (r : Req) : Option TrapInfo :=
  let a := BitVec.ofNat 64 g.pkt.params + r.addr
  let fail (c : Cause) (aux : Nat) : Option TrapInfo :=
    some { cause := c, addr := a, aux := BitVec.ofNat 64 aux, lane := some r.lane }
  match g.param with
  | .none => fail .translation 1
  | .bad n => fail .translation n
  | .pending _ => none
  | .leaf e _ _ =>
    if pteSUP e.toNat && !priv then fail .protection 3 else if !pteR e.toNat then fail .protection 4 else none

/-- A page of the block that was not resident. -/
def paramAbsent (g : Grid) : List Nat :=
  match g.param with
  | .leaf e _ _ => if pteRES e.toNat then [] else [g.pkt.params / 131072]
  | _ => []

/-- What a read of the block waits for (R223): the build of its fork region, or its page. -/
def paramPark (g : Grid) : Option Park :=
  match g.param with
  | .pending i => some (.swap [i])
  | _ => if (paramAbsent g).isEmpty then none else some (.pages (paramAbsent g))

/-- The entry a parameter block was captured through is marked A by a read, if it still maps the block so (R240). -/
def touchParams (s : State) (core : Nat) (g : Grid) (hits : List Hit) : State :=
  match s.ctx g.ctx with
  | none => s
  | some x => hits.foldl (fun s h => match walkTables s x h.addr.toNat, g.param with
    | .leaf l, .leaf e _ _ => if pteAddr l.pte = pteAddr e.toNat then touchLeaf s core g.ctx h.addr.toNat .read l else s
    | _, _ => s) s

/-- Constant-space reads (R25, R223): a cause, pages to wait for, or a value for each lane. DEDUCED, log entry 20. -/
def readParams (c : Ctx) (s : State) (rs : List Req) (k : State → List (Nat × Nat) → Res) : Res :=
  match addrCauses s c.g .k rs with
  | some t => .trap s t
  | none => match gridOf s c.g with
    | none => .trap s { cause := .translation, aux := 1 }
    | some g => match rs.findSome? (paramCause g c.g.priv) with
      | some t => .trap s t
      | none => match paramPark g with
        | some p => .park s p
        | none =>
          let hits := rs.filterMap fun r => (paramPlace s g (r.addr.toNat / 4096)).map fun p =>
            { lane := r.lane, addr := BitVec.ofNat 64 g.pkt.params + r.addr, n := r.n,
              place := p.plus (r.addr.toNat % 4096) : Hit }
          match dataCause s hits with
          | some t => .trap (markFailed s hits) t
          | none => k (touchParams s c.core g hits) (rs.map fun r =>
              (r.lane, ofBytes ((fromTo r.addr.toNat r.n).map (paramByte s g))))

/-! ### Reading -/

/-- A value as a load's type writes it (R71, R144). -/
def extendLoad (t : Ty) (x : Nat) : Nat := (wrapInt t x)

/-- The scope of an access: on `.l` none is wider than `.clu` (R143, R290). -/
def effScope (f : Fields) : Nat := if f.space = .l then Nat.min f.scopeCode 2 else f.scopeCode

/-- The value one access of a load reads: plain global loads go through the L1 (R148). DESIGN CHOICE, log entry 10. -/
def loadValue (s : State) (core : Nat) (viaL1 : Bool) (h : Hit) : Nat :=
  if viaL1 && h.place.tagged.isSome then ofBytes (l1Bytes s core h.place h.n) else ofBytes (readPlace s h.n h.place)

/-- The L1 after the accesses of a load: plain loads of writable pages leave their sectors there, others drop or bypass
them (R148, R302). DESIGN CHOICE, log entry 14. -/
def l1After (s : State) (core : Nat) (viaL1 : Bool) (hits : List Hit) : State :=
  hits.foldl (fun s h => match h.leaf with
    | some l => if !viaL1 then l1Drop s core h.place h.n else if pteW l.pte then l1Fill s core h.place h.n else s
    | none => s) s

/-- The bytes that accesses touch. -/
def hitSpots (hits : List Hit) : List (Place × Nat) := hits.map fun h => (h.place, h.n)

/-- The lines of module memory that accesses touch. -/
def hitLines (hits : List Hit) : List Nat := hits.flatMap fun h => h.place.units h.n 128

/-- A core holds threads of the instance that a scope names for a group (R290). DEDUCED, log entry 71. -/
def inInstance (s : State) (g : Group) (scope core : Nat) : Bool :=
  core == g.core || decide (4 ≤ scope) || (scope == 3 && coreDie core == coreDie g.core) ||
  (scope == 2 && (((s.team g.team).bind fun t => s.cluster t.cluster).map fun c => c.cores.contains core).getD false)

/-- An acquire with `.rmt` on tagged lines makes the tagging cores of its instance push first (R303). DEDUCED, log entry 71. -/
def promote (c : Ctx) (s : State) (lines : List Nat) : State :=
  if c.f.rmt then lines.foldl (fun s l => pushLine s l (effScope c.f) (inInstance s c.g (effScope c.f))) s else s

/-- The register writes of a load or returning atomic. -/
def loadWrites (c : Ctx) (vals : List (Nat × Nat)) : List RegWrite :=
  vals.flatMap fun v => regWrites c.f.dst c.sp.d v.1 (extendLoad c.f.ty v.2)

/-- The bits of a value that a load's type sign-extends (R71, R144). -/
def sextBits (t : Ty) : Nat := if tyBits t < 32 ∧ extendLoad t (2 ^ (tyBits t - 1)) ≠ 2 ^ (tyBits t - 1) then tyBits t else 0

/-- The reads of a plain load that may still be performed until its result is written (R292); those of a column are not: its
controller performs them as it accepts them (R266). DESIGN CHOICE, log entry 70. -/
def lateReads (c : Ctx) (hits : List Hit) : List LateRead :=
  (hits.filter fun h => (bankOf h.place).isNone && !(regWrites c.f.dst c.sp.d h.lane 0).isEmpty).map fun h =>
    { place := h.place, n := h.n, lane := (match c.f.dst with | .s _ => 0 | _ => h.lane), sext := sextBits c.f.ty }

/-- The accesses of a load perform (R144, R146, R148, R293). -/
def performLoad (c : Ctx) (s : State) (hits : List Hit) : Res :=
  let acq := c.f.order = .acq
  let viaL1 := !acq && !c.f.fr
  let s := promote c (touchHits s c.core c.g.ctx .read hits) (hitLines hits)
  let vals := hits.map fun h => (h.lane, loadValue s c.core viaL1 h)
  let s := l1After s c.core viaL1 hits
  let s := if acq then acquire s c.core (effScope c.f) else s
  .done (postResult c s (loadWrites c vals) (if acq then [] else lateReads c hits))

/-- A bank that holds another row is found before the data are looked at (R266), then absent and marked data (R234, R424). -/
def consumeRows (s : State) (hits : List Hit) (k : State → Res) : Res :=
  match hits.findSome? (busyCause s) with
  | some t => .trap s t
  | none => consume s hits k

/-- Column accesses are claimed first (R266). -/
def withBanks (c : Ctx) (s : State) (hits : List Hit) (k : State → Res) : Res :=
  if hits.any fun h => (bankOf h.place).isSome then claimBanks s c.gid c.g.ctx c.core hits k else k s

/-- The accesses of an instruction reached in its space, with the stores performed that must come first. DESIGN CHOICE, log entry 10. -/
def reach (c : Ctx) (s : State) (a : Access) (rs : List Req) : Reach :=
  match addrCauses s c.g c.f.space rs with
  | some t => .trap t
  | none => match c.f.space with
    | .l => reachLocal s c.g rs
    | _ => reachGlobal s c.core c.g.ctx a c.g.priv rs

/-- Stores that this access must see have been performed. -/
def settleStores (c : Ctx) (s : State) (hits : List Hit) : State := performStoresFor s c.gid c.core (hitSpots hits)

/-- `ld` (R144). -/
def execLd (f : Fields) (s : State) :=
  runGroup (.ld f) f s fun c s =>
    if c.exec = 0 then .done s
    else
      let rs := requests c (accessBytes f.ty)
      if f.space = .k then readParams c s rs fun s vals => .done (postResult c s (loadWrites c vals))
      else (reach c s .read rs).andThen s fun s hits =>
        let s := settleStores c s hits
        consumeRows s hits fun s => withBanks c s hits fun s => performLoad c s hits

/-- `ldk` (R156). -/
def execLdk (f : Fields) (s : State) :=
  runGroup (.ldk f) f s fun c s =>
    if c.exec = 0 then .done s
    else
      let a := BitVec.ofNat 64 (c.srcA c.low % 2 ^ 32) + immOffset f
      readParams c s [{ lane := c.low, addr := a, n := accessBytes f.ty }] fun s vals =>
        .done (postResult c s (loadWrites c vals))

/-! ### Storing -/

/-- The generation that a peer access carries (R349). -/
def peerGen (s : State) (h : Hit) : Option Nat :=
  match h.peer, h.place with
  | some _, .scratch core off => some (genAt s core off)
  | _, _ => none

/-- Peer operations begin, one for each lane that reaches a peer scratchpad (R321). -/
def beginPeers (s : State) (gid : Nat) : Nat → State × List Nat
  | 0 => (s, [])
  | n + 1 =>
    let (id, s) := beginOp s gid 3 none
    let (s, ids) := beginPeers s gid n
    (s, id :: ids)

/-- How many lanes reach a peer scratchpad. -/
def peerCount (hits : List Hit) : Nat := (hits.filter fun h => h.peer.isSome).length

/-- The `.peer` counter has room (R321). -/
def peerRoom (s : State) (gid : Nat) (hits : List Hit) : Bool :=
  match s.group gid with
  | some g => decide (counterOf g 3 + peerCount hits ≤ 63)
  | none => true

/-- The bytes each lane stores. -/
def storeWrites (s : State) (hits : List Hit) (val : Nat → Nat) : List StoreWrite :=
  hits.map fun h => { place := h.place, bytes := toBytes h.n (val h.lane), gen := peerGen s h }

/-- A store enters the store path, cut into the pieces that are performed on their own (R144, R147, R293): its flag and the peer
operations it counts as fall when all has been performed. DESIGN CHOICE, log entry 6. DESIGN CHOICE, log entry 61. -/
def enterPath (c : Ctx) (s : State) (writes : List StoreWrite) (peers : Nat) (release tag : Bool) : State :=
  let (s, ops) := beginPeers s c.gid peers
  let (id, s) := s.newId
  let (due, s) := someTime s
  let p : PendStore :=
    { gid := c.gid, core := c.core, ctx := c.g.ctx, inHandler := c.g.priv, writes := cutWrites writes, flag := c.f.flag, ops := ops,
      release := release, tag := tag, due := due, team := c.g.team, start := s.clock, salt := s.free, covers := coveredMarks writes
      bin := c.g.bin }
  let s := { s with stores := tins s.stores id p, free := s.free + 1 }
  let s := writes.foldl (fun s w => l1Drop s c.core w.place w.bytes.length) s
  s.modGroup c.gid fun g => g.modThreadOf g.priv fun t => raiseFlag t c.f.flag

/-- A store to column objects is performed by the controller as it is accepted (R266). DESIGN CHOICE, log entry 22. -/
def storeNow (c : Ctx) (s : State) (writes : List StoreWrite) : State :=
  let s := writes.foldl (fun s w => stampWrite (performWrite s c.core c.g.ctx w) w.place) s
  postResult c ((coveredMarks writes).foldl clearMark s) []

/-- A store ends an idempotent team's restartability unless it stays in the own scratchpad (R427). -/
def spendOnStore (c : Ctx) (s : State) (hits : List Hit) : State :=
  if hits.any fun h => h.peer.isSome || match h.place with
    | .scratch _ _ => false
    | _ => true
  then spendRestart s c.g else s

/-- Every earlier event of the group reaches the point that a scope asks for (R292, R293): at `.clu` or wider all are performed,
below it all but the stores to `.g`, which are in the store path. DESIGN CHOICE, log entry 13. DESIGN CHOICE, log entry 61. -/
def settleScope (s : State) (gid scope : Nat) : State := if 2 ≤ scope then performStoresOf s gid else performLocalOf s gid

/-- The release part of an order. DESIGN CHOICE, log entry 13. DESIGN CHOICE, log entry 61. -/
def releaseStores (c : Ctx) (s : State) (rel : Bool) : State := if rel then settleScope s c.gid (effScope c.f) else s

/-- A release at `.die` or wider that completes at its issue waits for the acknowledgements of its core's crossing writes (R304).
DEDUCED, log entry 55. -/
def awaitsAcks (c : Ctx) (s : State) (rel : Bool) : Bool := rel && decide (3 ≤ effScope c.f) && tget 0 s.fences c.core != 0

/-- A release write at `.grp` or `.team` to `.g` tags its line (R303). -/
def tagsLine (c : Ctx) (rel : Bool) : Bool := rel && c.f.space != .l && decide (effScope c.f < 2)

/-- The order releases. -/
def isRelease (o : Order) : Bool := o == .rel || o == .ar
/-- The order acquires. -/
def isAcquire (o : Order) : Bool := o == .acq || o == .ar

/-- `st` (R144). -/
def execSt (f : Fields) (s : State) :=
  runGroup (.st f) f s fun c s =>
    if c.exec = 0 then .done s
    else (reach c s .write (requests c (accessBytes f.ty))).andThen s fun s hits =>
      match absentHit s hits with
      | some (core, line) => .park s (.presence core line)
      | none =>
        if !peerRoom s c.gid hits then .park s (.stall (.counter 3 (peerCount hits)))
        else withBanks c s hits fun s =>
          let s := touchHits (spendOnStore c s hits) c.core c.g.ctx .write hits
          let s := releaseStores c s (isRelease f.order)
          let ws := storeWrites s hits c.srcB
          if hits.any fun h => (bankOf h.place).isSome then .done (storeNow c s ws)
          else .done (enterPath c s ws (peerCount hits) (isRelease f.order && decide (3 ≤ effScope f))
            (tagsLine c (isRelease f.order)))

/-! ### Atomics (R149 to R152) -/

/-- Round-to-nearest-even addition per element, with no flag. -/
def rmwFadd (t : Ty) (a b : Nat) : Nat :=
  let m := (fmtOf t).getD fmtF32
  (perElem t fun i => addF m .rne (elemOf t a i) (elemOf t b i)).1

/-- The new value of `atom` and `red` (R152). -/
def rmwValue (op : Nat) (t : Ty) (old b : Nat) : Nat :=
  let n := tyBits t
  match op with
  | 0 => (old + b) % 2 ^ n
  | 1 => if readInt t b < readInt t old then b else old
  | 2 => if readInt t old < readInt t b then b else old
  | 3 => old &&& b
  | 4 => old ||| b
  | 5 => old ^^^ b
  | 6 => b
  | 7 => if old ≥ b then 0 else old + 1
  | 8 => if old = 0 ∨ old > b then b else old - 1
  | 9 => rmwFadd t old b
  | 10 => (minmaxF fmtF32 false false old b).1
  | _ => (minmaxF fmtF32 true false old b).1

/-- One lane's read-modify-write: the old value, and the state; `new` gives what to write, or nothing. -/
def rmwLane (c : Ctx) (new : Nat → Nat → Option Nat) (acc : State × List (Nat × Nat)) (h : Hit) :
    State × List (Nat × Nat) :=
  let s := acc.1
  let old := ofBytes (readPlace s h.n h.place)
  let s := match new h.lane old with
    | some x => stampWrite (performWrite s c.core c.g.ctx { place := h.place, bytes := toBytes h.n x }) h.place
    | none => l1Drop s c.core h.place h.n
  (s, acc.2 ++ [(h.lane, old)])

/-- `atom`, `cas` and `red` (R145, R149 to R151, R302): at the point of coherence, lanes ascending, with the order's parts
around them. DESIGN CHOICE, log entry 10. -/
def rmwOp (c : Ctx) (s : State) (new : Nat → Nat → Option Nat) (returns : Bool) : Res :=
  if c.exec = 0 then .done s
  else (reach c s .write (requests c (accessBytes c.f.ty))).andThen s fun s hits =>
    let s := settleStores c s hits
    consumeRows s hits fun s =>
      if !peerRoom s c.gid hits then .park s (.stall (.counter 3 (peerCount hits)))
      else withBanks c s hits fun s =>
        let s := releaseStores c s (isRelease c.f.order)
        if awaitsAcks c s (isRelease c.f.order) then .park s (.stall .acks)
        else
        let s := promote c (touchHits (spendRestart s c.g) c.core c.g.ctx .write hits) (hitLines hits)
        let (s, vals) := hits.foldl (rmwLane c new) (s, [])
        let s := if tagsLine c (isRelease c.f.order) then { s with tags := (hitLines hits).foldl (tagLine c.core s.fresh) s.tags } else s
        let s := if isAcquire c.f.order then acquire s c.core (effScope c.f) else s
        .done (postResult c s (if returns then loadWrites c vals else []))

/-- The operand of a lane, at the type's width. -/
def rmwOperand (c : Ctx) (src : Nat → Nat) (l : Nat) : Nat := src l % 2 ^ tyBits c.f.ty

def execAtom (f : Fields) (s : State) :=
  runGroup (.atom f) f s fun c s =>
    rmwOp c s (fun l old => some (rmwValue f.imm13.toNat f.ty old (rmwOperand c c.srcB l))) true
def execRed (f : Fields) (s : State) :=
  runGroup (.red f) f s fun c s =>
    rmwOp c s (fun l old => some (rmwValue f.imm13.toNat f.ty old (rmwOperand c c.srcB l))) false
/-- `cas` (R150). -/
def execCas (f : Fields) (s : State) :=
  runGroup (.cas f) f s fun c s =>
    rmwOp c s (fun l old => if old = rmwOperand c c.srcB l then some (rmwOperand c c.srcC l) else none) true

/-! ### Fences, invalidation, prefetch (R153 to R155) -/

/-- `fence` (R153): the group's earlier events reach the point of its scope (R292, R293), a release waits for acknowledgements
(R304), and an acquire drops lines (R148) and, with `.rmt`, has every tagged line pushed (R303). DESIGN CHOICE, log entry 13. -/
def execFence (f : Fields) (s : State) :=
  runGroup (.fence f) f s fun c s =>
    if c.exec = 0 then .done s
    else
      let s := settleScope s c.gid (effScope f)
      if awaitsAcks c s (isRelease f.order) then .park s (.stall .acks)
      else
        let s := promote c s (s.tags.map fun x => x.1)
        .done (if isAcquire f.order then acquire s c.core (effScope f) else s)

/-- The place that a lane of `cinv.line` or `pf` names, if it translates. -/
def quietPlace (c : Ctx) (s : State) (l : Nat) : Option (Nat × Place × Leaf) :=
  let a := (BitVec.ofNat 64 (c.srcA l) + immOffset c.f).toNat
  if a ≥ 2 ^ 56 then none
  else match translate s c.core c.g.ctx a .read c.g.priv with
    | .ok p leaf => some (a, p, leaf)
    | _ => none

/-- `cinv.line` (R154). -/
def execCinvLine (f : Fields) (s : State) :=
  runGroup (.cinvLine f) f s fun c s =>
    .done (c.lanes.foldl (fun s l => match quietPlace c s l with
      | some (_, p, _) => l1Drop s c.core p 1
      | none => s) s)

/-- `cinv.all` (R154). DEDUCED, log entry 63. -/
def execCinvAll (f : Fields) (s : State) :=
  runGroup (.cinvAll f) f s fun c s => .done (if c.exec = 0 then s else l1DropAll s c.core)

/-- The 128-byte line that a place of module memory lies in, from its first byte. -/
def linePlace : Place → Place
  | .mem pa => .mem (pa / 128 * 128)
  | .foreign d pa => .foreign d (pa / 128 * 128)
  | p => p

/-- `pf` (R155): a line may come into the L1 unless the hint keeps it out. -/
def execPf (f : Fields) (s : State) :=
  runGroup (.pf f) f s fun c s =>
    .done (c.lanes.foldl (fun s l => match quietPlace c s l with
      | some (a, p, leaf) =>
        let s := touchLeaf s c.core c.g.ctx a .read leaf
        if f.hint ≠ .noAlloc ∧ pteW leaf.pte then l1Fill s c.core (linePlace p) 128 else s
      | none => s) s)

/-! ### Presence (R234, R323) -/

/-- An address outside the own and peer scratchpads (R323). -/
def scratchOnly (s : State) (g : Group) (r : Req) : Option TrapInfo :=
  match localAt s g r.addr.toNat r.n with
  | some (.scratch _ _, _) => none
  | _ => some { cause := .localBounds, addr := r.addr, lane := some r.lane }

/-- `lpq` (R323). -/
def execLpq (f : Fields) (s : State) :=
  runGroup (.lpq f) f s fun c s =>
    if c.exec = 0 then .done s
    else
      let rs := c.runLanes.map fun l => ({ lane := l, addr := BitVec.ofNat 64 (c.srcA l), n := 1 } : Req)
      match rs.findSome? (scratchOnly s c.g) with
      | some t => .trap s t
      | none =>
        let t := rs.foldl (fun t r => match localAt s c.g r.addr.toNat 1 with
          | some p => writeOperand t r.lane 1 (b2n (absentLine s 1 p.1).isNone) c.f.dst
          | none => t) c.t
        .done (setThreadOf s c.gid t)

/-- PRESENCE_UNPARK (R234). -/
def execPresenceUnpark (gid : Nat) (s : State) : Host.Outcome State Fault Refusal :=
  .next (match s.group gid with
    | some g => match g.park with
      | some (.presence core line) =>
        if tget 0 (s.core core).absent line = 0 then s.setGroup gid { g with park := none } else s
      | _ => s
    | none => s)

/-! ### How results and stores end -/

/-- Something of a result is due to land. -/
def resultDue (s : State) (p : Pend) : Bool :=
  decide (p.due ≤ s.clock) || (p.flag.isSome && p.writes.any fun w => decide (p.laneDue w.lane ≤ s.clock))

/-- ASYNC_WRITE_LAND (R27, R28): a result that is due reaches its registers; of a flagged one, the lanes that are. -/
def execAsyncWriteLand (id : Nat) (s : State) : Host.Outcome State Fault Refusal :=
  .next (match tfind s.pends id with
    | some p => if p.due ≤ s.clock then landPend s id else landLanes s id
    | none => s)

/-- Something of a store is due to be performed. -/
def storeDue (s : State) (p : PendStore) : Bool := decide (p.due ≤ s.clock) || p.writes.any fun w => decide (p.pieceDue w ≤ s.clock)

/-- STORE_PERFORM (R144, R147): the pieces of a store that are due are performed; or the store waits, a crossing one held at its
die-edge switch (R304). -/
def execStorePerform (id : Nat) (s : State) : Host.Outcome State Fault Refusal :=
  .next (match tfind s.stores id with
    | some p =>
      if !storeDue s p || (tget [] s.heldRel p.core).contains id then s
      else if !mustHold s p then performSome s id
      else if crosses p then { s with heldRel := tput [] s.heldRel p.core (tget [] s.heldRel p.core ++ [id]) }
      else s
    | none => s)

/-- GENERATION_DROP (R349): a peer store whose target has passed to a new allocation is dropped: its stale lanes go, and it
counts as done. -/
def execGenerationDrop (id : Nat) (s : State) : Host.Outcome State Fault Refusal :=
  .next (match tfind s.stores id with
    | some p =>
      let stale := p.writes.filter (writeStale s)
      if stale.isEmpty then s
      else
        let s := countDropped s p.ctx stale.length
        let live := p.writes.filter fun w => !writeStale s w
        if live.isEmpty then performOne { s with stores := tins s.stores id { p with writes := [], covers := [] } } id
        else { s with stores := tins s.stores id { p with writes := live } }
    | none => s)

end Sys2Proof.Machine
end

