-- ==== Sys2Proof/Machine/Image.lean ====
section
/-!
DEFINITION. Images (R158 to R168): descriptors, texel addresses and channel values, sampling and filtering, loads, stores
and queries.
-/
namespace Sys2Proof.Machine
open Sys2Proof

/-! ### Descriptors (R158, R159, R161) -/

/-- Channel widths of a format (R159); [] for a reserved code. -/
def formatBits : Nat → List Nat
  | 1 => [8]
  | 2 | 3 => [8, 8, 8, 8]
  | 4 => [10, 10, 10, 2]
  | 5 => [16]
  | 6 => [16, 16, 16, 16]
  | 7 | 9 => [32]
  | 8 | 10 => [32, 32, 32, 32]
  | _ => []

/-- Bytes per texel. -/
def formatBytes (k : Nat) : Nat := (formatBits k).foldl (· + ·) 0 / 8
/-- The format holds integers. -/
def formatInt (k : Nat) : Bool := k == 9 || k == 10

/-- Fields of a descriptor, as one number. -/
def imBase (d : Nat) : Nat := bits d 55 0
def imWidth (d : Nat) : Nat := bits d 79 64 + 1
def imHeight (d : Nat) : Nat := bits d 95 80 + 1
def imDepth (d : Nat) : Nat := bits d 111 96 + 1
def imFormat (d : Nat) : Nat := bits d 151 144
/-- 0 1D, 1 2D, 2 3D, 3 2D array. -/
def imDim (d : Nat) : Nat := bits d 155 152
def imLevels (d : Nat) : Nat := bits d 159 156 + 1
def imWritable (d : Nat) : Bool := bit d 160
def imMinLod (d : Nat) : Nat := bits d 199 192
def imMaxLod (d : Nat) : Nat := bits d 207 200
def imLinear (d : Nat) : Bool := bits d 209 208 == 1
def imMip (d : Nat) : Nat := bits d 211 210
/-- Address mode of axis 0, 1 or 2. -/
def imMode (d axis : Nat) : Nat := bits d (213 + 2 * axis) (212 + 2 * axis)
def imBorder (d : Nat) : Nat := bits d 219 218

/-- A descriptor that R161 calls invalid. -/
def imInvalid (d : Nat) : Bool :=
  bits d 63 56 != 0 || bits d 143 112 != 0 || bits d 191 161 != 0 || bits d 383 220 != 0 || imBase d % 128 != 0 ||
  decide (imDim d ≥ 4) || (formatBits (imFormat d)).isEmpty || decide (bits d 209 208 ≥ 2) || imMip d == 3 ||
  imBorder d == 3 ||
  (imDim d == 0 && (imHeight d != 1 || imDepth d != 1)) || (imDim d == 1 && imDepth d != 1) ||
  decide (imLevels d - 1 > (Nat.max (Nat.max (imWidth d) (imHeight d)) (if imDim d = 2 then imDepth d else 1)).log2)

/-! ### Texels in memory (R160) -/

/-- Extents of level k. -/
def levelW (d k : Nat) : Nat := Nat.max 1 (imWidth d / 2 ^ k)
def levelH (d k : Nat) : Nat := Nat.max 1 (imHeight d / 2 ^ k)
def levelD (d k : Nat) : Nat := if imDim d = 2 then Nat.max 1 (imDepth d / 2 ^ k) else if imDim d = 3 then imDepth d else 1
def rowPitch (d k : Nat) : Nat := alignUp (levelW d k * formatBytes (imFormat d)) 128
def slicePitch (d k : Nat) : Nat := rowPitch d k * levelH d k
/-- Where level k begins. -/
def levelStart (d k : Nat) : Nat := (fromTo 0 k).foldl (fun a j => a + slicePitch d j * levelD d j) (imBase d)
/-- The address of texel (x, y, z) of level k. -/
def texelAddr (d k x y z : Nat) : Nat :=
  levelStart d k + z * slicePitch d k + y * rowPitch d k + x * formatBytes (imFormat d)

/-! ### Channel values (R159) -/

/-- An exact channel value: a NaN, an infinity, or ± p / q. -/
inductive Chan where
  | nan
  | inf (neg : Bool)
  | rat (neg : Bool) (p q : Nat)
  deriving DecidableEq, Repr

def chanOfF : FVal → Chan
  | .nan _ => .nan
  | .inf n => .inf n
  | .fin n m e => let (p, q) := fracOf m e; .rat n p q

/-- Rounding to nearest even into FP32. -/
def packChan : Chan → Nat
  | .nan => fmtF32.nanBits
  | .inf n => fmtF32.signBit n + fmtF32.infBits
  | .rat n p q => (roundRat fmtF32 .rne n p q).1

/-- floor of the fifth root of x, from bit `k` of the root down. -/
def fifthRoot (x : Nat) : Nat → Nat → Nat
  | 0, r => r
  | k + 1, r => if (r + 2 ^ k) ^ 5 ≤ x then fifthRoot x k (r + 2 ^ k) else fifthRoot x k r

/-- The sRGB transfer function of IEC 61966-2-1 of v / 255, as FP32 bits (log entry 11): v / (255 × 12.92) up to 0.04045, else
((v / 255 + 0.055) / 1.055)^2.4, whose fifth power is rational. PRESUMED, log entry 11. -/
def srgbToLinear (v : Nat) : Nat :=
  if v = 255 then 0x3F800000
  else if v * 100000 ≤ 4045 * 255 then (roundRat fmtF32 .rne false (v * 100) (255 * 1292)).1
  else
    let p := (1000 * v + 14025) ^ 12
    let q := 269025 ^ 12
    let r := fifthRoot (p * 2 ^ 300 / q) 64 0
    (roundRat fmtF32 .rne false (2 * r + 1) (2 ^ 61)).1

/-- The class and value of channel i of a texel whose bytes hold `x`. -/
def chanOf (fmt x i : Nat) : Chan :=
  let ws := formatBits fmt
  let w := (ws.drop i).head?.getD 0
  let v := x / 2 ^ ((ws.take i).foldl (· + ·) 0) % 2 ^ w
  if w = 0 then (if i = 3 then .rat false 1 1 else .rat false 0 1)
  else match fmt with
    | 3 => if i = 3 then .rat false v 255 else chanOfF (unpackF fmtF32 (srgbToLinear v))
    | 5 | 6 => chanOfF (unpackF fmtF16 v)
    | 7 | 8 => chanOfF (unpackF fmtF32 v)
    | 9 | 10 => .rat false v 1
    | _ => .rat false v (2 ^ w - 1)

/-- Channel i of the border colour (R158). -/
def borderChan (d i : Nat) : Chan :=
  match imBorder d with
  | 0 => .rat false 0 1
  | 1 => .rat false (if i = 3 then 1 else 0) 1
  | _ => .rat false 1 1

/-- The signed numerator of a value over a denominator. -/
def chanOver (den : Nat) : Chan → Int
  | .rat n p q => (if n then -1 else 1) * ((p * (den / q) : Nat) : Int)
  | _ => 0
def chanDen : Chan → Nat
  | .rat _ _ q => q
  | _ => 1
def chanNeg : Chan → Bool
  | .rat n _ _ => n
  | .inf n => n
  | .nan => false
def chanIsInf (n : Bool) (c : Chan) : Bool := c == .inf n

/-- The exact sum of weighted values, over a common weight denominator (R163). -/
def weightedSum (wden : Nat) (ts : List (Nat × Chan)) : Chan :=
  let ts := ts.filter fun t => t.1 != 0
  if ts.any fun t => t.2 == .nan then .nan
  else
    let pos := ts.any fun t => chanIsInf false t.2
    let neg := ts.any fun t => chanIsInf true t.2
    if pos && neg then .nan
    else if pos || neg then .inf neg
    else
      let den := ts.foldl (fun q t => Nat.lcm q (chanDen t.2)) 1
      let sum := ts.foldl (fun (a : Int) t => a + (t.1 : Int) * chanOver den t.2) 0
      .rat (if sum = 0 then ts.all fun t => chanNeg t.2 else decide (sum < 0)) sum.natAbs (den * wden)

/-! ### Coordinates, levels and footprints (R162, R163) -/

/-- An FP32 coordinate as a fraction; a NaN or an infinity is 0. -/
def coordOf (x : Nat) : Int × Nat :=
  match unpackF fmtF32 x with
  | .fin n m e => let (p, q) := fracOf m e; ((if n then -(p : Int) else (p : Int)), q)
  | _ => (0, 1)

/-- floor(a / b). -/
def floorDiv (a : Int) (b : Nat) : Int := a.fdiv (b : Int)

/-- frnd.rne of a fraction. -/
def roundInt (x : Int × Nat) : Int :=
  let (k, _) := roundNat .rne (decide (x.1 < 0)) x.1.natAbs x.2
  if x.1 < 0 then -(k : Int) else (k : Int)

/-- An address mode maps an index on an axis of extent n; `none` takes the border colour. -/
def mapIndex (mode n : Nat) (i : Int) : Option Nat :=
  match mode with
  | 0 => some (i % (n : Int)).toNat
  | 1 => some (Nat.min i.toNat (n - 1))
  | 2 => let m := (i % ((2 * n : Nat) : Int)).toNat; some (if m < n then m else 2 * n - 1 - m)
  | _ => if 0 ≤ i ∧ i < (n : Int) then some i.toNat else none

/-- Indices and weights over 256 of one filtered axis. -/
def axisTaps (linear : Bool) (c : Int × Nat) (n : Nat) : List (Int × Nat) :=
  if linear then
    let num := 2 * c.1 * (n : Int) - (c.2 : Int)
    let den := 2 * c.2
    let i0 := floorDiv num den
    let a := (floorDiv ((num - i0 * (den : Int)) * 256) den).toNat
    [(i0, 256 - a), (i0 + 1, a)]
  else [(floorDiv (c.1 * (n : Int)) c.2, 256)]

/-- One texel of a footprint: its weight over 256^4, level and mapped indices; `none` for the border. -/
structure Tap where
  w     : Nat
  level : Nat
  at'   : Option (Nat × Nat × Nat)
  deriving DecidableEq, Repr

/-- λ as a fraction (R162). DESIGN CHOICE, log entry 68. -/
def lodOf (d x : Nat) : Nat × Nat :=
  let lo : Nat × Nat := (imMinLod d, 16)
  let up (a b : Nat × Nat) : Nat × Nat := if a.1 * b.2 < b.1 * a.2 then b else a
  let dn (a b : Nat × Nat) : Nat × Nat := if a.1 * b.2 < b.1 * a.2 then a else b
  let v := match unpackF fmtF32 x with
    | .nan _ => lo
    | .inf n => if n then lo else (2 ^ 20, 1)
    | .fin n m e => if n then lo else up (fracOf m e) lo
  dn (dn v (imMaxLod d, 16)) (imLevels d - 1, 1)

/-- The level that MIP nearest selects, or level 0 under MIP none. -/
def nearestLevel (d lod : Nat) : Nat :=
  if imMip d = 0 then 0
  else let l := lodOf d lod; (2 * l.1 + l.2) / (2 * l.2)

/-- The levels and their weights over 256. -/
def levelsOf (d lod : Nat) : List (Nat × Nat) :=
  if imMip d = 2 then
    let l := lodOf d lod
    let k := l.1 / l.2
    let b := (l.1 % l.2) * 256 / l.2
    if b = 0 then [(k, 256)] else [(k, 256 - b), (k + 1, b)]
  else [(nearestLevel d lod, 256)]

/-- The array layer of a coordinate. -/
def layerOf (d : Nat) (r : Int × Nat) : Nat := Nat.min (roundInt r).toNat (imDepth d - 1)

/-- The texels of one level (R163): the axes the dimension filters, and the layer of an array. -/
def levelTaps (d : Nat) (linear : Bool) (c0 c1 c2 : Int × Nat) (k wk : Nat) : List Tap :=
  let one : List (Int × Nat) := [(0, 256)]
  let xs := axisTaps linear c0 (levelW d k)
  let ys := if imDim d = 0 then one else axisTaps linear c1 (levelH d k)
  let zs := if imDim d = 2 then axisTaps linear c2 (levelD d k) else one
  xs.flatMap fun x => ys.flatMap fun y => zs.map fun z =>
    let mx := mapIndex (imMode d 0) (levelW d k) x.1
    let my := if imDim d = 0 then some 0 else mapIndex (imMode d 1) (levelH d k) y.1
    let mz := if imDim d = 2 then mapIndex (imMode d 2) (levelD d k) z.1
      else if imDim d = 3 then some (layerOf d c2) else some 0
    { w := x.2 * y.2 * z.2 * wk, level := k
      at' := match mx, my, mz with
        | some i, some j, some l => some (i, j, l)
        | _, _, _ => none }

/-- Word j of a block of registers. -/
def wordAt (x j : Nat) : Nat := x / 2 ^ (32 * j) % 2 ^ 32

/-- The texels of a sample with weight (R162, R163). -/
def sampleTaps (d a : Nat) : List Tap :=
  ((levelsOf d (wordAt a 3)).flatMap fun x =>
    levelTaps d (imLinear d) (coordOf (wordAt a 0)) (coordOf (wordAt a 1)) (coordOf (wordAt a 2)) x.1 x.2).filter
    fun t => t.w != 0

/-- The four texels of a gather: (i0, j0), (i1, j0), (i0, j1), (i1, j1) (R164). -/
def gatherTaps (d a : Nat) : List Tap :=
  let k := nearestLevel d (wordAt a 3)
  let ts := (axisTaps true (coordOf (wordAt a 0)) (levelW d k)).map fun x => x.1
  let us := (axisTaps true (coordOf (wordAt a 1)) (levelH d k)).map fun x => x.1
  us.flatMap fun j => ts.map fun i =>
    { w := 1, level := k
      at' := match mapIndex (imMode d 0) (levelW d k) i, mapIndex (imMode d 1) (levelH d k) j with
        | some i, some j => some (i, j, if imDim d = 3 then layerOf d (coordOf (wordAt a 2)) else 0)
        | _, _ => none }

/-- The texel of integer coordinates, if it lies in the image (R165); coordinates that the dimension does not use are
ignored. DEDUCED, log entry 63. -/
def plainTap (d a : Nat) : List Tap :=
  let x := toSigned 32 (wordAt a 0)
  let y := if imDim d = 0 then 0 else toSigned 32 (wordAt a 1)
  let z := if imDim d ≤ 1 then 0 else toSigned 32 (wordAt a 2)
  let k := toSigned 32 (wordAt a 3)
  if 0 ≤ k ∧ k < (imLevels d : Int) ∧ 0 ≤ x ∧ x < (levelW d k.toNat : Int) ∧ 0 ≤ y ∧ y < (levelH d k.toNat : Int) ∧
      0 ≤ z ∧ z < (levelD d k.toNat : Int) then
    [{ w := 1, level := k.toNat, at' := some (x.toNat, y.toNat, z.toNat) }]
  else []

/-! ### Reading descriptors and texels (R161, R168) -/

/-- Plain reads of global memory through the L1; of descriptors, none older than the last acquire (R168). -/
def plainReads (c : Ctx) (s : State) (desc : Bool) (rs : List Req) (k : State → List (Nat × DWord × Nat) → Res) : Res :=
  match addrCauses s c.g .g rs with
  | some t => .trap s t
  | none => (reachGlobal s c.core c.g.ctx .read c.g.priv rs).andThen s fun s hits =>
    let s := settleStores c s hits
    consume s hits fun s =>
      let s := touchHits s c.core c.g.ctx .read hits
      let s := if desc then hits.foldl (fun s h => l1Renew s c.core h.place h.n) s else s
      let vals := hits.map fun h => (h.lane, h.addr, loadValue s c.core true h)
      k (l1After s c.core true hits) vals

/-- The descriptor of every lane, valid and fit for its use; an unfit one raises 0x06 (R161). -/
def withDescriptors (c : Ctx) (s : State) (src : Nat → Nat) (unfit : Nat → Bool) (k : State → List (Nat × Nat) → Res) :
    Res :=
  if c.exec = 0 then .done s
  else
    let rs := c.runLanes.map fun l => ({ lane := l, addr := BitVec.ofNat 64 (src l), n := 64 } : Req)
    plainReads c s true rs fun s vals =>
      match vals.find? fun v => imInvalid v.2.2 || unfit v.2.2 with
      | some v => .trap s { cause := .protection, addr := v.2.1, aux := 5, lane := some v.1 }
      | none => k s (vals.map fun v => (v.1, v.2.2))

/-- The requests of one lane's texels. -/
def tapReqs (l d : Nat) (ts : List Tap) : List Req :=
  ts.filterMap fun t => t.at'.map fun p =>
    { lane := l, addr := BitVec.ofNat 64 (texelAddr d t.level p.1 p.2.1 p.2.2), n := formatBytes (imFormat d) }

/-- The bits of a texel among those read. -/
def texelBits (vals : List (Nat × DWord × Nat)) (l d : Nat) (p : Nat × Nat × Nat) (level : Nat) : Nat :=
  ((vals.find? fun v => v.1 == l && v.2.1 == BitVec.ofNat 64 (texelAddr d level p.1 p.2.1 p.2.2)).map fun v => v.2.2).getD 0

/-- Channel i of a texel of a footprint. -/
def tapChan (vals : List (Nat × DWord × Nat)) (l d : Nat) (t : Tap) (i : Nat) : Chan :=
  match t.at' with
  | some p => chanOf (imFormat d) (texelBits vals l d p t.level) i
  | none => borderChan d i

/-- Four words as a register block. -/
def packWords (ws : List Nat) : Nat := packNat (ws.map fun w => (32, w))

/-- An image read: the footprint of each lane, and its result from the texels read. -/
def imageOp (c : Ctx) (s : State) (unfit : Nat → Bool) (taps : Nat → Nat → List Tap)
    (result : Nat → List Tap → (Tap → Nat → Chan) → Nat) : Res :=
  withDescriptors c s c.srcB unfit fun s ds =>
    plainReads c s false (ds.flatMap fun x => tapReqs x.1 x.2 (taps x.2 (c.srcA x.1))) fun s vals =>
      .done (postResult c s (ds.flatMap fun x =>
        regWrites c.f.dst c.sp.d x.1 (result x.2 (taps x.2 (c.srcA x.1)) (tapChan vals x.1 x.2))))

/-- The type does not match the format's class (R161). -/
def classMismatch (t : Ty) (d : Nat) : Bool := (t == .n32) != formatInt (imFormat d)

/-! ### The instructions -/

/-- `smp` (R162, R163). -/
def execSmp (f : Fields) (s : State) :=
  runGroup (.smp f) f s fun c s =>
    imageOp c s (fun d => formatInt (imFormat d)) sampleTaps fun _ ts chan =>
      packWords ((fromTo 0 4).map fun i => packChan (weightedSum (256 ^ 4) (ts.map fun t => (t.w, chan t i))))

/-- `smpg` (R164). -/
def execSmpg (f : Fields) (s : State) :=
  runGroup (.smpg f) f s fun c s =>
    imageOp c s (fun d => formatInt (imFormat d) || imDim d == 0 || imDim d == 2) gatherTaps fun _ ts chan =>
      packWords (ts.map fun t => packChan (chan t (f.imm13.toNat % 4)))

/-- A channel as `ldi` delivers it: FP32, or an unsigned integer. -/
def plainWord (d : Nat) : Chan → Nat
  | .rat _ p _ => if formatInt (imFormat d) then p else 0
  | _ => 0

/-- `ldi` (R165): zeros outside the image. -/
def execLdi (f : Fields) (s : State) :=
  runGroup (.ldi f) f s fun c s =>
    imageOp c s (classMismatch f.ty) plainTap fun d ts chan =>
      match ts with
      | t :: _ => packWords ((fromTo 0 4).map fun i =>
          if formatInt (imFormat d) then plainWord d (chan t i) else packChan (chan t i))
      | [] => 0

/-- `txq` (R167). -/
def txqValue (q d a : Nat) : Nat :=
  let k := toSigned 32 a
  let inRange : Bool := decide (0 ≤ k ∧ k < (imLevels d : Int))
  match q with
  | 0 => if inRange then levelW d k.toNat else 0
  | 1 => if inRange then levelH d k.toNat else 0
  | 2 => if inRange then levelD d k.toNat else 0
  | 3 => imLevels d
  | 4 => imFormat d
  | _ => imDim d

/-- DESIGN CHOICE, log entry 68. -/
def execTxq (f : Fields) (s : State) :=
  runGroup (.txq f) f s fun c s =>
    withDescriptors c s c.srcB (fun _ => false) fun s ds =>
      .done (postResult c s (ds.flatMap fun x =>
        regWrites c.f.dst 1 x.1 (txqValue (f.imm13.toNat % 8) x.2 (c.srcA x.1 % 2 ^ 32))))

/-! ### Image stores (R166) -/

/-- A value clamped to [0, 1]; a NaN is 0. -/
def clamp01 (x : FVal) : Nat × Nat :=
  match x with
  | .nan _ => (0, 1)
  | .inf n => if n then (0, 1) else (1, 1)
  | .fin n m e =>
    let (p, q) := fracOf m e
    if n then (0, 1) else if p > q then (1, 1) else (p, q)

/-- The value lies above the midpoint of codes v and v + 1 of the inverse transfer function, times 255; or on it with v
odd. For x = p / q: up to 0.0031308, 255 × 12.92 x; else 255 (1.055 x^(5/12) − 0.055), compared by twelfth powers (log entry
11). PRESUMED, log entry 11. -/
def srgbAbove (p q v : Nat) : Bool :=
  if p * 10000000 ≤ 31308 * q then
    let a := 2 * 255 * 1292 * p; let b := (2 * v + 1) * 100 * q
    decide (a > b ∨ (a = b ∧ v % 2 = 1))
  else
    let a := p ^ 5 * 538050 ^ 12; let b := (2000 * v + 1000 + 28050) ^ 12 * q ^ 5
    decide (a > b ∨ (a = b ∧ v % 2 = 1))

/-- The sRGB code of a linear value. -/
def linearToSrgb (p q : Nat) : Nat := ((fromTo 0 255).filter (srgbAbove p q)).length

/-- Channel i of width w as stored from an FP32 or integer word (R166). -/
def storeChan (fmt i w x : Nat) : Nat :=
  match fmt with
  | 5 | 6 => (packF fmtF16 .rne (unpackF fmtF32 x)).1
  | 7 | 8 | 9 | 10 => x
  | _ =>
    let (p, q) := clamp01 (unpackF fmtF32 x)
    if fmt = 3 ∧ i < 3 then linearToSrgb p q else (roundNat .rne false (p * (2 ^ w - 1)) q).1

/-- The bytes of a texel from four words. -/
def storeTexel (fmt x : Nat) : Nat :=
  let ws := formatBits fmt
  packNat ((fromTo 0 ws.length).map fun i =>
    let w := (ws.drop i).head?.getD 0
    (w, storeChan fmt i w (wordAt x i)))

/-- `sti` (R166): a store to each texel in the image. -/
def execSti (f : Fields) (s : State) :=
  runGroup (.sti f) f s fun c s =>
    withDescriptors c s c.srcC (fun d => classMismatch f.ty d || !imWritable d) fun s ds =>
      let rs := ds.flatMap fun x => tapReqs x.1 x.2 (plainTap x.2 (c.srcA x.1))
      match addrCauses s c.g .g rs with
      | some t => .trap s t
      | none => (reachGlobal s c.core c.g.ctx .write c.g.priv rs).andThen s fun s hits =>
        let s := touchHits (spendRestart s c.g) c.core c.g.ctx .write hits
        let val (l : Nat) : Nat := match ds.find? fun x => x.1 == l with
          | some x => storeTexel (imFormat x.2) (c.srcB l)
          | none => 0
        .done (enterPath c s (storeWrites s hits val) 0 false false)

end Sys2Proof.Machine
end

