-- ==== Sys2Proof/Machine/Team.lean ====
section
/-!
DEFINITION. Team, cluster and matrix barriers as groups use them (R202 to R206, R389, R390), register management (R207 to
R210), device-side launch (R211) and special registers (R212 to R214).
-/
namespace Sys2Proof.Machine
open Sys2Proof

/-! ### Arrivals and waits (R203 to R206, R390) -/

/-- The default count of a barrier of kind 0 team, 1 cluster, 2 matrix (R203). -/
def defaultCount (s : State) (g : Group) (kind : Nat) : Nat :=
  if kind = 1 then ((clusterOf s g).map (clusterGroups s)).getD 0 else liveGroups s g.team

/-- A barrier a group names, replaced. -/
def putBarrier (s : State) (g : Group) (kind n : Nat) (b : Barrier) : State :=
  match s.team g.team with
  | none => s
  | some t =>
    if kind = 0 then s.setTeam g.team (t.setBarrier n b)
    else if kind = 2 then settleArrivals (s.setTeam g.team (t.setMatBarrier n b)) g.team
    else s.modCluster t.cluster fun c => c.setBarrier n b

/-- The stream of a group's team still arrives. -/
def streamOfTeam (s : State) (g : Group) : Bool := ((s.team g.team).map Team.streamLive).getD false

/-- A barrier after one arrival of a group. -/
def arrivedBarrier (s : State) (g : Group) (kind n ask : Nat) : Barrier :=
  let b := barrierOf s g kind n
  let dflt := defaultCount s g kind
  if kind = 2 then
    let b := b.expect ask dflt
    ({ b with count := b.count + 1 }).settleMat (streamOfTeam s g) (liveGroups s g.team)
  else b.arrive ask dflt

/-- An arrival: a release for the group's earlier accesses, at `.team` or `.clu` scope, and, at a matrix barrier, register writes (R206, R391), which ends
restartability (R427); a matrix arrival
counts in `.mat` until its phase completes (R391). The phase of the arrival, and the state. -/
def arrive (c : Ctx) (s : State) (kind n ask : Nat) : Bool × State :=
  let s := spendRestart (if kind = 2 then drainGroup s c.gid else settleScope s c.gid (kind + 1)) c.g
  let phase := (barrierOf s c.g kind n).phase
  let b := arrivedBarrier s c.g kind n ask
  let s := if kind = 2 then
    let (id, s) := beginOp s c.gid 1 none
    s.modGroup c.gid fun g => { g with ops := g.ops.map fun o => if o.id = id then { o with bar := some (n, phase) } else o }
  else s
  (phase, putBarrier s c.g kind n b)

/-- The count operand of an arriving form. -/
def askCount (c : Ctx) : Nat := c.srcB c.low % 2 ^ 32

/-- A result written to a scalar destination. -/
def writeScalar (c : Ctx) (s : State) (x : Nat) : State :=
  s.modGroup c.gid fun g => g.setThread (writeOperand g.thread c.low c.sp.d x c.f.dst)

/-- An arriving form without a wait: the phase of the arrival goes to d. -/
def arriveOnly (c : Ctx) (s : State) (kind n : Nat) : Res :=
  let (phase, s) := arrive c s kind n (askCount c)
  .done (writeScalar c s (b2n phase))

/-- What a completed wait does: LASTCODE of a matrix barrier is written; at a cluster barrier it is an acquire at `.clu` (R168,
R206). -/
def waitResult (c : Ctx) (s : State) (kind n : Nat) : State :=
  if kind = 2 then writeScalar c s (barrierOf s c.g 2 n).lastCode else if kind = 1 then acquire s c.core 2 else s

/-- An arriving form that waits on the phase of its arrival: the group parks past the instruction, the arrival standing
(R441). -/
def arriveWait (c : Ctx) (s : State) (kind n : Nat) : Res :=
  let (phase, s) := arrive c s kind n (askCount c)
  if (barrierOf s c.g kind n).phase ≠ phase then .done (waitResult c s kind n)
  else .moved ((advance c s).modGroup c.gid fun g => { g with park := some (.arrived kind n phase c.f.dst) })

/-- A wait against a token. -/
def waitToken (c : Ctx) (s : State) (kind n : Nat) : Res :=
  let tok := bit (c.srcA c.low) 0
  if (barrierOf s c.g kind n).phase ≠ tok then .done (waitResult c s kind n) else .park s (.token kind n tok)

/-- The barrier number. -/
def barNum (c : Ctx) : Nat := c.f.imm13.toNat

def execBta (f : Fields) (s : State) := runGroup (.bta f) f s fun c s => arriveOnly c s 0 (barNum c)
def execBtw (f : Fields) (s : State) := runGroup (.btw f) f s fun c s => waitToken c s 0 (barNum c)
def execBt (f : Fields) (s : State) := runGroup (.bt f) f s fun c s => arriveWait c s 0 (barNum c)
def execBcl (f : Fields) (s : State) := runGroup (.bcl f) f s fun c s => arriveWait c s 1 (barNum c)
def execBclArr (f : Fields) (s : State) := runGroup (.bclArr f) f s fun c s => arriveOnly c s 1 (barNum c)
def execBclWait (f : Fields) (s : State) := runGroup (.bclWait f) f s fun c s => waitToken c s 1 (barNum c)

/-- A matrix arrival that finds the arrivals of the phase complete waits for the phase; a full `.mat` counter stalls (R321,
R389). -/
def arriveMatrix (c : Ctx) (s : State) (k : Res) : Res :=
  let b := barrierOf s c.g 2 (barNum c)
  let full := match b.expected with
    | some e => decide (b.count ≥ e)
    | none => false
  if full then .park s (.heldArrival (barNum c))
  else if counterOf c.g 1 ≥ 63 then .park s (.stall (.counter 1 1))
  else k

def execMsync (f : Fields) (s : State) :=
  runGroup (.msync f) f s fun c s => arriveMatrix c s (arriveWait c s 2 (barNum c))
def execMsyncArr (f : Fields) (s : State) :=
  runGroup (.msyncArr f) f s fun c s => arriveMatrix c s (arriveOnly c s 2 (barNum c))
def execMsyncWait (f : Fields) (s : State) := runGroup (.msyncWait f) f s fun c s => waitToken c s 2 (barNum c)

/-- CLUSTER_BARRIER_RESUME (R205): a group parked on a cluster barrier whose phase has completed resumes. -/
def execClusterBarrierResume (gid : Nat) (s : State) : Host.Outcome State Fault Refusal :=
  .next (match s.group gid with
    | some g => match g.park with
      | some (.arrived 1 n phase dst) => if (barrierOf s g 1 n).phase ≠ phase then endArrived (acquire s g.core 2) gid g 1 n dst else s
      | some (.token 1 n tok) => if (barrierOf s g 1 n).phase ≠ tok then s.setGroup gid { g with park := none } else s
      | _ => s
    | none => s)

/-! ### Register lines (R185 to R188, R207 to R209) -/

/-- Control lines of a width (R187). -/
def controlLines (w : Nat) : Nat := if w = 16 then 3 else if w = 32 then 6 else 13
/-- Passes of a width, which is also the lines of a vector register (R187). -/
def passesOf (w : Nat) : Nat := if w = 64 then 2 else 1
/-- Register lines of a group with given counts (R187). -/
def linesFor (w nv ns : Nat) : Nat := passesOf w * nv + ceilDiv ns 32 + controlLines w
/-- Register lines a group holds; a Spindle job holds none of a slice, a group that has left its core none. -/
def linesOf (g : Group) : Nat := if g.kind = .spindle ∨ g.out then 0 else linesFor g.width g.main.nv g.main.ns

/-- Lines per slice that a context can allocate on a core (R186). -/
def lineLimit (s : State) (core ctx : Nat) : Nat :=
  ((s.core core).residentOf ctx).elim 0 fun r => popNat 8 r.2.banks * 248

/-- Free lines of a context in a slice (R188). -/
def freeLines (s : State) (core slice ctx : Nat) : Nat :=
  lineLimit s core ctx - ((s.groups.filter fun x => x.2.core == core && x.2.slice == slice && x.2.ctx == ctx).map
    fun x => linesOf x.2).foldl (· + ·) 0

/-- The parked grow requests of a context in a slice, oldest first (R207). -/
def growQueue (s : State) (core slice ctx : Nat) : List (Nat × Nat) :=
  sortBy (fun a b => decide (a.2 < b.2)) (s.groups.filterMap fun x =>
    match x.2.park with
    | some (.grow _ _ n) => if x.2.core = core ∧ x.2.slice = slice ∧ x.2.ctx = ctx then some (x.1, n) else none
    | _ => none)

/-- A `.chk` result, in every lane of `exec`. -/
def writeChk (c : Ctx) (s : State) (x : Nat) : State :=
  s.modGroup c.gid fun g => g.setThread (c.lanes.foldl (fun t l => writeOperand t l 1 x c.f.dst) g.thread)

/-- No older request of the context in the slice is parked (R207). -/
def growFirst (s : State) (c : Ctx) : Bool :=
  (growQueue s c.core c.g.slice c.g.ctx).all fun x => match c.g.request with
    | some n => decide (n < x.2)
    | none => false

/-- `vgrow` and `sgrow` (R207, R209): `need` more lines for the group to reach count n. DESIGN CHOICE, log entry 19. -/
def growTo (c : Ctx) (s : State) (scalar : Bool) (now n need : Nat) : Res :=
  let chk := c.f.opt
  let ok (s : State) : State := if chk then writeChk c s 1 else s
  if n ≤ now then .done (ok s)
  else if c.g.priv ∨ linesOf c.g + need > lineLimit s c.core c.g.ctx then
    if chk then .done (writeChk c s 0) else .trap s { cause := .growRefused, aux := BitVec.ofNat 64 n }
  else if growFirst s c ∧ freeLines s c.core c.g.slice c.g.ctx ≥ need then
    .done (ok (s.modGroup c.gid fun g => { g with
      main := if scalar then { g.main with ns := n } else { g.main with nv := n }
      lineBanks := g.lineBanks ++ [(if scalar then 0 else now, ownedBanks s c.core c.g.ctx)] }))
  else if chk then .done (writeChk c s 0)
  else
    let seq := c.g.request.getD ((s.core c.core).slice c.g.slice).growSeq
    let s := s.modCore c.core fun k =>
      k.setSlice c.g.slice { (k.slice c.g.slice) with growSeq := Nat.max (seq + 1) (k.slice c.g.slice).growSeq }
    .park s (.grow scalar n seq)

/-- DESIGN CHOICE, log entry 19. -/
def execVgrow (f : Fields) (s : State) :=
  runGroup (.vgrow f) f s fun c s =>
    let n := f.imm13.toNat
    growTo c s false c.t.nv n ((n - c.t.nv) * passesOf c.g.width)
/-- DESIGN CHOICE, log entry 19. -/
def execSgrow (f : Fields) (s : State) :=
  runGroup (.sgrow f) f s fun c s =>
    let n := f.imm13.toNat
    growTo c s true c.t.ns n (ceilDiv n 32 - ceilDiv c.t.ns 32)

/-- A register write to vector register n or above is pending. -/
def writesAbove (s : State) (gid : Nat) (inHandler : Bool) (n : Nat) : Bool :=
  s.pends.any fun x => x.2.gid == gid && x.2.inHandler == inHandler &&
    x.2.writes.any fun w => !w.scalar && !w.pred && decide (w.reg ≥ n)

/-- `vshrink` (R208). -/
def execVshrink (f : Fields) (s : State) :=
  runGroup (.vshrink f) f s fun c s =>
    let n := f.imm13.toNat
    if n ≥ c.t.nv then .done s
    else if writesAbove s c.gid c.g.priv n then .park s (.stall (.above n))
    else .done (setThreadOf (s.modGroup c.gid fun g => { g with lineBanks := g.lineBanks.filter fun r => decide (r.1 < n) }) c.gid
      { c.t with nv := n, vregs := c.t.vregs.filter fun x => decide (x.1 < 64 * n)
                 staged := c.t.staged.filter fun r => decide (r < n) })

/-- The registers of one range. -/
def rangeRegs (n : Nat) : Operand → List Nat
  | .v r => fromTo r.val n
  | _ => []

/-- `rgn` (R210). -/
def execRgn (f : Fields) (s : State) :=
  runGroup (.rgn f) f s fun c s =>
    let m := f.imm13.toNat
    let rs := rangeRegs (m % 16) f.a ++ rangeRegs (m / 16 % 16) f.b ++ rangeRegs (m / 256) f.c
    .done (setThreadOf s c.gid { c.t with staged := dedup rs })

/-- REGISTER_GROW_RETRY (R207): the oldest parked request of a context in a slice issues again when it can be served or must
be refused. -/
def execRegisterGrowRetry (core slice ctx : Nat) (s : State) : Host.Outcome State Fault Refusal :=
  .next (match growQueue s core slice ctx with
    | (gid, _) :: _ => match s.group gid with
      | some g => match g.park with
        | some (.grow scalar n seq) =>
          let need := if scalar then ceilDiv n 32 - ceilDiv g.main.ns 32 else (n - g.main.nv) * passesOf g.width
          let refused : Bool := decide (linesOf g + need > lineLimit s core ctx)
          if gatedOn s core ctx ∨ causeDue g then s
          else if refused ∨ freeLines s core slice ctx ≥ need then
            let s := s.setGroup gid { g with park := none, request := some seq }
            { s with agenda := .issue gid :: s.agenda }
          else s
        | _ => s
      | none => s
    | [] => s)

/-! ### Device-side launch (R211) -/

/-- One packet offered to a device-side queue: posted while it holds fewer than 256 (R216). -/
def postPacket (fe q ctx : Nat) (acc : State × List (Nat × Nat)) (p : Nat × DWord × Nat) : State × List (Nat × Nat) :=
  let x := acc.1.queue fe q
  if x.posts.length ≥ 256 then (acc.1, acc.2 ++ [(p.1, 1)])
  else (acc.1.setQueue fe q { x with posts := x.posts ++ [(ctx, toBytes 64 p.2.2)] }, acc.2 ++ [(p.1, 0)])

def execLnch (f : Fields) (s : State) :=
  runGroup (.lnch f) f s fun c s =>
    if c.exec = 0 then .done s
    else
      let rs := c.runLanes.map fun l => ({ lane := l, addr := BitVec.ofNat 64 (c.srcA l), n := 64 } : Req)
      let fe := ((gridOf s c.g).map Grid.fe).getD 0
      plainReads c s false rs fun s vals =>
        let s := spendRestart (performStoresOf s c.gid) c.g
        let (s, sts) := vals.foldl (postPacket fe (8 + f.imm13.toNat) c.g.ctx) (s, [])
        .done (s.modGroup c.gid fun g => g.setThread (sts.foldl (fun t x => c.wr t x.1 x.2) g.thread))

/-! ### Special registers (R212 to R214) -/

/-- Grid, cluster and team values of a group (R170). -/
structure Ident where
  pkt : Option Packet
  C   : Nat
  k   : Nat
  G   : Nat
  deriving DecidableEq, Repr

def identOf (s : State) (g : Group) : Ident :=
  { pkt := (gridOf s g).map Grid.pkt, C := g.cindex, k := ((s.team g.team).map Team.rank).getD 0,
    G := ((s.team g.team).map Team.groups).getD 0 }

def Ident.cw (i : Ident) : Nat := (i.pkt.map Packet.clw).getD 1
def Ident.ch (i : Ident) : Nat := (i.pkt.map Packet.clh).getD 1
def Ident.gx (i : Ident) : Nat := (i.pkt.map Packet.gridx).getD 1
def Ident.gy (i : Ident) : Nat := (i.pkt.map Packet.gridy).getD 1

/-- `sr.lmap` of a lane. -/
def laneMapValue (x : Slice) (l : Nat) : Nat :=
  (x.pos.drop (l % 32)).head?.getD 0 + 256 * b2n (x.pos.contains 32) + 512 * b2n x.deg

/-- The value of a special register in lane l (R213). -/
def srValue (s : State) (c : Ctx) (code l : Nat) : Nat :=
  let g := c.g
  let i := identOf s g
  match code with
  | 0x00 => l
  | 0x01 => g.width
  | 0x02 => g.g
  | 0x03 => i.k
  | 0x04 => i.G
  | 0x05 => i.C
  | 0x06 => i.k % i.cw + 256 * (i.k / i.cw)
  | 0x07 => i.cw + 256 * i.ch
  | 0x08 => i.C % i.gx
  | 0x09 => i.C / i.gx % i.gy
  | 0x0A => i.C / (i.gx * i.gy)
  | 0x0B => g.core
  | 0x0C => coreDie g.core
  | 0x0D => g.slice
  | 0x0E => g.ctx
  | 0x0F => (fstatOf c.t l).toNat
  | 0x10 => s.clock - (s.core g.core).clk0
  | 0x11 => ((s.ctx g.ctx).map Context.ctime).getD 0
  | 0x12 => if g.kind = .spindle then l else laneMapValue ((s.core g.core).slice g.slice) l
  | 0x13 => c.e.prio.toNat
  | _ => 0

/-- `srd` (R212). -/
def execSrd (f : Fields) (s : State) :=
  runGroup (.srd f) f s fun c s =>
    let t := c.runLanes.foldl (fun t l => c.wr t l (srValue s c f.imm13.toNat l)) c.t
    let t := if f.opt then clearFstat t c.lanes else t
    .done (setThreadOf s c.gid t)

end Sys2Proof.Machine
end

