-- ==== Sys2Proof/Machine/Rows.lean ====
section
/-!
DEFINITION. The row instructions (R267 to R275), the column controller's own steps (R276 to R278, R281 to R285, R287) and
the mapping of column objects (R261 to R265).
-/
namespace Sys2Proof.Machine
open Sys2Proof

/-! ### Checks (R268) -/

/-- The row an instruction names: its handle, object and object row, and where that row stands. -/
structure RowAt where
  handle : Nat
  obj    : ColObject
  r      : Nat
  bank   : Nat
  row    : Nat
  deriving DecidableEq, Repr

/-- Object row r under handle h of a context on a core. -/
def rowAtOf (s : State) (core ctx h r : Nat) : Option RowAt :=
  match objectOf s core ctx h with
  | none => none
  | some o => if r < objRows o.desc then
      let (b, row) := objRow o.desc r
      some { handle := h, obj := o, r := r, bank := b, row := row }
    else none

/-- Handle and object row in AUX (R406). -/
def RowAt.aux (x : RowAt) : DWord := BitVec.ofNat 64 (x.handle + 256 * x.r)

/-- The row of an instruction, or 0x0B. -/
def withRow (c : Ctx) (s : State) (k : RowAt → Res) : Res :=
  if c.exec = 0 then .done s
  else match rowAtOf s c.core c.g.ctx (c.f.imm13.toNat % 64) (c.srcA c.low % 2 ^ 32) with
    | none => .trap s { cause := .localBounds }
    | some x => k x

/-- The scratchpad range of `row.rd` and `row.wr`: 0x04, then 0x0B where it is not the team's own. -/
def withRange (c : Ctx) (s : State) (k : Nat → Res) : Res :=
  let a := c.srcB c.low
  if a % 128 ≠ 0 then .trap s { cause := .misaligned, addr := BitVec.ofNat 64 a }
  else match localAt s c.g a 2048 with
    | some (.scratch _ off, none) => k off
    | _ => .trap s { cause := .localBounds, addr := BitVec.ofNat 64 a }

/-! ### `row.act` (R270) -/

/-- The controller opens a row for a requester, or the requester waits. -/
def openRow (c : Ctx) (s : State) (x : RowAt) : Res :=
  if x.obj.moving then .park s (.moving c.core x.handle)
  else if canActivate s c.gid c.core x.bank then .done (acceptActivate s c.core x.bank x.row)
  else .park s (.activate c.core x.bank x.row)

def execRowAct (f : Fields) (s : State) :=
  runGroup (.rowAct f) f s fun c s => withRow c s fun x =>
    let s1 := spendRestart s c.g
    match ((s.bank c.core x.bank).view).held with
    | some r =>
      if r = x.row then .done s1
      else if c.f.opt then openRow c (wantClose s1 c.core x.bank) x
      else .trap s { cause := .rowBusy, aux := x.aux }
    | none => openRow c s1 x

/-! ### Consumes and writes (R271 to R273) -/

/-- What a consume or write meets (R271). -/
inductive Consumed where
  | ready | wait | lost
  deriving DecidableEq, Repr

def consumeAt (s : State) (core : Nat) (x : RowAt) : Consumed :=
  match (s.bank core x.bank).view with
  | .ready r => if r = x.row then .ready else .lost
  | .opening r => if r = x.row then .wait else .lost
  | _ => .lost

/-- The 16 lines of a row's range. -/
def rowLines (off : Nat) : List Nat := fromTo (off / 128) 16

/-- An engine will write a line: it is absent until then (R234). -/
def raiseAbsent (s : State) (core : Nat) (lines : List Nat) : State :=
  s.modCore core fun k =>
    { k with absent := lines.foldl (fun a l => tput 0 a l (tget 0 a l + 1)) k.absent }

/-- An engine's write to a line has landed. -/
def lowerAbsent (s : State) (core : Nat) (lines : List Nat) : State :=
  s.modCore core fun k =>
    { k with absent := lines.foldl (fun a l => tput 0 a l (tget 0 a l - 1)) k.absent }

/-- Lines of a scratchpad array are marked poisoned (R424). -/
def markLines (s : State) (core : Nat) (lines : List Nat) : State :=
  s.modCore core fun k => { k with scratchBad := k.scratchBad ++ lines.filter fun l => !k.scratchBad.contains l }

/-- Every line of a range is present. -/
def linesPresent (s : State) (core off : Nat) : Bool := (rowLines off).all fun l => tget 0 (s.core core).absent l == 0

/-! ### Delivery (R272, R273, R276 to R278) -/

/-- A write accepted before an operation on its bank has not performed (R273). -/
def writeBefore (s : State) (core b id : Nat) : Bool := (opsOn s core b).any fun x => x.2.write && decide (x.1 < id)

/-- Rows in delivery now. -/
def delivering (s : State) (core : Nat) : Nat :=
  ((s.core core).rowOps.filter fun x => !x.2.write && match x.2.started with
    | some t => decide (s.clock < t + 4)
    | none => false).length

def setRowOp (s : State) (core id : Nat) (o : RowOp) : State :=
  s.modCore core fun k => { k with rowOps := tins k.rowOps id o }
def dropRowOp (s : State) (core id : Nat) : State := s.modCore core fun k => { k with rowOps := tdel k.rowOps id }

/-- An accepted operation starts if it can: a consume that no earlier write holds takes a delivery slot; a write's source lines
are all present. Neither moves while the bus is retrained (R284). DESIGN CHOICE, log entry 23. -/
def tryDelivery (s : State) (core id : Nat) : State :=
  match tfind (s.core core).rowOps id with
  | none => s
  | some o =>
    if o.started.isSome ∨ (s.core core).retrainEnd.isSome then s
    else if o.write then
      if linesPresent s core o.off then
        setRowOp s core id { o with started := some s.clock, snap := scratchBytes s core o.off 2048 }
      else s
    else if !writeBefore s core o.bank id ∧ delivering s core < 4 then
      setRowOp s core id { o with started := some s.clock }
    else s

/-- A row operation is accepted (R269, R272, R273): counted, its row's destination lines absent; its delivery starts now if it
can (R277). -/
def acceptRowOp (c : Ctx) (s : State) (x : RowAt) (write : Bool) (off : Nat) : State :=
  let (op, s) := beginOp s c.gid 2 (c.f.flag.map fun k => k.val)
  let o : RowOp :=
    { bank := x.bank, row := x.row, write := write, gid := c.gid, op := op, team := c.g.team, off := off
      gen := genAt s c.core off }
  let s := s.modCore c.core fun k => { k with rowOps := tins k.rowOps op o }
  tryDelivery (if write then s else raiseAbsent s c.core (rowLines off)) c.core op

/-- `row.rd` and `row.wr`. -/
def rowMove (c : Ctx) (s : State) (write : Bool) : Res :=
  withRow c s fun x => withRange c s fun off =>
    let chk (s : State) (v : Nat) : State := if c.f.opt then writeChk c s v else s
    match consumeAt s c.core x with
    | .wait => .park s (.row c.core x.bank)
    | .lost => if c.f.opt then .done (writeChk c (spendRestart s c.g) 0) else .trap s { cause := .rowLost, aux := x.aux }
    | .ready =>
      if counterOf c.g 2 ≥ 63 then .park s (.stall (.counter 2 1))
      else
        let s := spendRestart (performStoresOf s c.gid) c.g
        .done (chk (acceptRowOp c s x write off) 1)

def execRowRd (f : Fields) (s : State) := runGroup (.rowRd f) f s fun c s => rowMove c s false
def execRowWr (f : Fields) (s : State) := runGroup (.rowWr f) f s fun c s => rowMove c s true

/-! ### `row.cls` and `row.st` (R274, R275) -/

def execRowCls (f : Fields) (s : State) :=
  runGroup (.rowCls f) f s fun c s => withRow c s fun x =>
    let s := spendRestart s c.g
    if ((s.bank c.core x.bank).view).held = some x.row then .done (wantClose s c.core x.bank) else .done s

/-- Clocks until the bank's next refresh operation, over 256. -/
def refDue (s : State) (core b : Nat) : Nat :=
  match (s.bank core b).phase with
  | some (.refreshing _) => 0
  | _ => Nat.min ((nextRefresh (s.core core) b - s.clock) / 256) 0xFFFF

/-- STATE of object row x. -/
def rowState (s : State) (core : Nat) (x : RowAt) : Nat :=
  if x.obj.moving then 5
  else
    let b := s.bank core x.bank
    let code (r st : Nat) : Nat := if r = x.row then st else 4
    match b.phase with
    | some (.opening r _) => code r (if b.closeWanted then 3 else 1)
    | some (.open r) => code r (if b.closeWanted then 3 else 2)
    | some (.closing r _) => code r 3
    | _ => 0

/-- AGE of the bank's open row. -/
def rowAge (s : State) (core b : Nat) : Nat :=
  match (s.bank core b).phase with
  | some (.open _) => Nat.min (s.clock - (s.bank core b).actAt) 0xFFFF
  | _ => 0

/-- The snapshot of R275. -/
def rowSnapshot (s : State) (core : Nat) (x : RowAt) : Nat :=
  packNat [(3, rowState s core x), (5, 0), (2, x.bank / 16), (4, x.bank % 16), (2, 0), (16, rowAge s core x.bank),
           (16, refDue s core x.bank), (16, 0)]

def execRowSt (f : Fields) (s : State) :=
  runGroup (.rowSt f) f s fun c s => withRow c s fun x => .done (writeScalar c s (rowSnapshot s c.core x))

/-! ### Landing (R272, R273, R276, R280) -/

/-- The oldest accepted operation on a bank that has not performed. -/
def oldestOn (s : State) (core b : Nat) : Option Nat := ((opsOn s core b).head?).map fun x => x.1

/-- ROW_DELIVERY (R277, R278): an accepted operation that could not start yet tries again. -/
def execRowDelivery (core id : Nat) (s : State) : Host.Outcome State Fault Refusal := .next (tryDelivery s core id)

/-- The bytes of a write's source: each aligned 4-byte piece as it stood when the lines were present, or as it stands now
(R273). DESIGN CHOICE, log entry 23. -/
def mixPieces (s : State) : Nat → List Byte → List Byte → List Byte
  | _, [], new => new
  | k, a, b =>
    match a, b with
    | w :: x :: y :: z :: a', w' :: x' :: y' :: z' :: b' =>
      (if Config.freeChoice s.free (4 * k) % 2 = 0 then [w, x, y, z] else [w', x', y', z']) ++ mixPieces s (k + 1) a' b'
    | _, b => b

/-- The poisoned 128-byte units of a row, by unit number. -/
def rowUnitsBad (s : State) (core key : Nat) : List Nat :=
  (fromTo 0 16).filter fun u => (touchedUnits (key + 128 * u) 128 64).any (s.core core).rowsBad.contains

/-- Data of a `row.rd` reaches its scratchpad lines (R272, R280), unless they have passed to another allocation (R349).
DESIGN CHOICE, log entry 23. -/
def landRead (s : State) (core : Nat) (o : RowOp) : State :=
  if genAt s core o.off ≠ o.gen then s
  else
  let key := rowKey o.bank o.row
  let s := writeScratch s core o.off (rowBytes s core key 2048)
  let s := markLines s core ((rowUnitsBad s core key).map fun u => o.off / 128 + u)
  lowerAbsent s core (rowLines o.off)

/-- Data of a `row.con` reaches its latch (R280, R385). -/
def landLatch (s : State) (core t : Nat) (o : RowOp) : State :=
  let key := rowKey o.bank o.row
  let bytes := rowBytes s core key 2048
  let bad := rowUnitsBad s core key
  s.modTeam o.team fun x => { x with seq := x.seq.map fun q =>
    { q with latch := putBytes q.latch (2048 * t) bytes
             latchBad := (q.latchBad.filter fun u => u / 16 != t) ++ bad.map fun u => 16 * t + u } }

/-- Data of a `row.wr` enters the row buffer (R273); poisoned source lines leave their codewords marked. A source that has
passed to another allocation is not read. DESIGN CHOICE, log entry 23. -/
def landWrite (s : State) (core : Nat) (o : RowOp) : State :=
  if genAt s core o.off ≠ o.gen then s
  else
  let key := rowKey o.bank o.row
  let bytes := mixPieces s 0 o.snap (scratchBytes s core o.off 2048)
  let bad := (fromTo 0 16).filter fun u => (s.core core).scratchBad.contains (o.off / 128 + u)
  let s := writeRow { s with free := s.free + 1 } core key bytes
  let s := s.modCore core fun k =>
    { k with rowsBad := k.rowsBad ++ bad.flatMap fun u => [key / 64 + 2 * u, key / 64 + 2 * u + 1] }
  s.modBank core o.bank fun b => { b with writeAt := s.clock }

/-- An operation performs 10 clocks after its start: a write when it is the oldest of its bank, so that every consume before
it has its bytes; a consume after every write before it (R273). -/
def mayLand (s : State) (core id : Nat) (o : RowOp) : Bool :=
  if o.write then oldestOn s core o.bank == some id && (s.core core).retrainEnd.isNone else !writeBefore s core o.bank id

/-- ROW_DATA_LAND (R272, R273, R276). DESIGN CHOICE, log entry 23. -/
def execRowDataLand (core id : Nat) (s : State) : Host.Outcome State Fault Refusal :=
  .next (match tfind (s.core core).rowOps id with
    | none => s
    | some o => match o.started with
      | none => s
      | some t =>
        if s.clock < t + 10 ∨ !mayLand s core id o then s
        else
          let s := dropRowOp s core id
          match o.latch with
          | some n => landLatch s core n o
          | none => finishOp (if o.write then landWrite s core o else landRead s core o) o.gid o.op)

/-! ### The bank's own steps -/

/-- ROW_READY (R276). -/
def execRowReady (core bank : Nat) (s : State) : Host.Outcome State Fault Refusal :=
  .next (match (s.bank core bank).phase with
    | some (.opening r t) => if t ≤ s.clock then s.modBank core bank fun b => { b with phase := some (.open r) } else s
    | _ => s)

/-- ROW_FORCED_CLOSE (R277). -/
def execRowForcedClose (core bank : Nat) (s : State) : Host.Outcome State Fault Refusal :=
  .next (match (s.bank core bank).phase with
    | some (.open _) => if (s.bank core bank).actAt + 48000 ≤ s.clock then wantClose s core bank else s
    | _ => s)

/-- A close may start: the row is open, its accepted operations have performed, and the minimum times of R276 have
passed. -/
def closeMayStart (s : State) (core bank : Nat) : Bool :=
  let b := s.bank core bank
  b.closeWanted && (opsOn s core bank).isEmpty && decide (b.actAt + 36 ≤ s.clock) && decide (b.writeAt + 12 ≤ s.clock ∨ b.writeAt = 0) &&
  match b.phase with
  | some (.open _) => true
  | _ => false

/-- CLOSE_START (R274): the bank is free 14 clocks later, and not before 50 clocks from the activate. -/
def execCloseStart (core bank : Nat) (s : State) : Host.Outcome State Fault Refusal :=
  .next (match (s.bank core bank).phase with
    | some (.open r) =>
      if closeMayStart s core bank then s.modBank core bank fun b =>
        { b with phase := some (.closing r (Nat.max (s.clock + 14) (b.actAt + 50))), closeWanted := false, writeAt := 0 }
      else s
    | _ => s)

/-- BANK_FREE (R276). -/
def execBankFree (core bank : Nat) (s : State) : Host.Outcome State Fault Refusal :=
  .next (match (s.bank core bank).phase with
    | some (.closing _ t) => if t ≤ s.clock then s.modBank core bank fun b => { b with phase := none } else s
    | some (.refreshing t) => if t ≤ s.clock then s.modBank core bank fun b => { b with phase := none } else s
    | _ => s)

/-- The group that a free bank's activate goes to, with its row. -/
def waitingActivate (s : State) (core bank : Nat) : Option (Nat × Nat) :=
  s.groups.findSome? fun x => match x.2.park with
    | some (.activate c b row) => if c = core ∧ b = bank ∧ !gatedOn s core x.2.ctx then some (x.1, row) else none
    | _ => none

/-- ACTIVATE_ACCEPT (R270): a waiting activate is accepted, and its group issues on. DESIGN CHOICE, log entry 26. -/
def execActivateAccept (core bank : Nat) (s : State) : Host.Outcome State Fault Refusal :=
  .next (match waitingActivate s core bank with
    | none => s
    | some (gid, row) =>
      match s.group gid with
      | none => s
      | some g =>
        if causeDue g ∨ !canActivate s gid core bank ∨ (s.core core).movingBank g.ctx bank then s
        else
          let s := (acceptActivate s core bank row).setGroup gid { g with park := none }
          { s with agenda := .issue gid :: s.agenda })

/-- REFRESH_OPERATION (R281): due operations of a bank; an open row closes first, and the operation holds the bank for 40
clocks. -/
def execRefreshOperation (core bank : Nat) (s : State) : Host.Outcome State Fault Refusal :=
  let t := nextRefresh (s.core core) bank
  .next (if s.clock < t then s
    else match (s.bank core bank).phase with
      | none =>
        let period := ((s.core core).layer (bank / 16)).clocks / 512
        let last := t + (s.clock - t) / period * period
        s.modBank core bank fun b => { b with phase := some (.refreshing (s.clock + 40)), refreshed := some last }
      | _ => wantClose s core bank)

/-! ### Layers (R282) -/

/-- The largest interval for a temperature. -/
def intervalCap (celsius : Nat) : Nat :=
  if celsius ≤ 70 then 512 else if celsius ≤ 85 then 256 else if celsius ≤ 95 then 128 else 64

/-- The end of a layer's window (R282): a 16th clean window in a row steps the interval up. -/
def Layer.endWindow (l : Layer) : Layer :=
  let clean := if l.corrected = 0 then l.clean + 1 else 0
  { l with interval := if clean ≥ 16 then Nat.min 512 (2 * l.interval) else l.interval
           clean := clean % 16, corrected := 0, windowEnd := l.windowEnd + 750000000 }

/-- A layer at a temperature: its interval is within the cap at once (R282). -/
def Layer.atTemp (l : Layer) (celsius : Nat) : Layer :=
  { l with celsius := celsius, interval := Nat.min l.interval (intervalCap celsius) }

/-- REFRESH_INTERVAL_STEP (R282): a layer's temperature takes effect, and a window that is over ends. DESIGN CHOICE, log entry 24. -/
def execRefreshIntervalStep (core layer celsius : Nat) (s : State) : Host.Outcome State Fault Refusal :=
  .next (s.modCore core fun k =>
    let l := k.layer layer
    k.setLayer layer ((if l.windowEnd ≤ s.clock then l.endWindow else l).atTemp celsius))

/-- A program's activate is waiting for a bank: of a group's `row.act` or access, or of a sequencer (R283). -/
def activateAsked (s : State) (core bank : Nat) : Bool :=
  (waitingActivate s core bank).isSome ||
  (s.groups.any fun x => match x.2.park with
    | some (.column c bs _) => c == core && bs.contains bank
    | _ => false) ||
  s.teams.any fun t => t.2.core == core && ((t.2.seq.map fun q => q.conOpen).getD false)

/-- The clock at which a bank's next scrub falls due: each of its 4,096 rows in fewer than 6,000,000,000 clocks (R283).
DESIGN CHOICE, log entry 25. -/
def scrubDue (b scrubs : Nat) : Nat := 1048576 * scrubs + 16384 * (b + 1)

/-- PATROL_SCRUB (R283): a row of a bank that holds none, and that no activate asks for, is read: correctable codewords are
written back, others marked; the bank is free 50 clocks later. DESIGN CHOICE, log entry 25. -/
def execPatrolScrub (core bank row : Nat) (s : State) : Host.Outcome State Fault Refusal :=
  .next (if (s.bank core bank).phase.isNone ∧ !activateAsked s core bank then
      (correctRow s core bank row).modBank core bank fun b =>
        { b with phase := some (.closing row (s.clock + 50))
                 scrubs := if b.scrubs % 4096 = row then b.scrubs + 1 else b.scrubs }
    else s)

/-! ### Retraining (R284, R285) -/

/-- Row data is pending on a core. -/
def rowDataPending (s : State) (core : Nat) : Bool :=
  !(s.core core).rowOps.isEmpty || s.groups.any fun x => x.2.core == core && match x.2.park with
    | some (.row _ _) => true
    | some (.counter 2 _) => true
    | some (.presence c l) => (s.core c).rowOps.any fun o => !o.2.write && (rowLines o.2.off).contains l
    | _ => false

/-- RETRAINING (R284, R285): due every 67,108,864 clocks; deferred at most 3,000,000 while row data is pending; then the
bus is held for 2,250 clocks. -/
def execRetraining (core : Nat) (s : State) : Host.Outcome State Fault Refusal :=
  let k := s.core core
  .next (if s.clock < k.retrainAt ∨ k.retrainEnd.isSome then s
    else if rowDataPending s core ∧ s.clock < k.retrainAt + 3000000 then s
    else if delivering s core ≠ 0 ∧ s.clock < k.retrainAt + 3000064 then s
    else s.modCore core fun k =>
      { k with retrainEnd := some (s.clock + 2250)
               retrainAt := k.retrainAt + ((s.clock - k.retrainAt) / 67108864 + 1) * 67108864 })

/-- RETRAINING_END (R284). -/
def execRetrainingEnd (core : Nat) (s : State) : Host.Outcome State Fault Refusal :=
  .next (match (s.core core).retrainEnd with
    | some t => if t ≤ s.clock then s.modCore core fun k => { k with retrainEnd := none } else s
    | none => s)

/-! ### Mapping objects (R261 to R265) -/

/-- A bank lies in column space (R261). -/
def inColumnSpace (colsplit b : Nat) : Bool := decide (4 * (b % 16 / 8) + b / 16 < colsplit)

/-- Status 1 of R265: a descriptor that breaks R263. -/
def descBad (d : DWord) : Bool :=
  let x := d.toNat
  if !bit x 63 then decide (x ≠ 0)
  else bits x 62 60 != 0 || bits x 12 0 != 0 || bits x 59 56 == 0 || bits x 55 40 == 0 || decide (bits x 14 13 ≥ 2) ||
    objCount d == 0 || decide (objFirst d + objCount d > 4096)

/-- Another context owns a bank (R262). -/
def otherOwner (k : Core) (ctx b : Nat) : Bool :=
  match (k.bank b).owner with
  | some o => o != ctx
  | none => false

/-- The status of a mapping. -/
def mapStatus (k : Core) (ctx : Nat) (d : DWord) : Nat :=
  if descBad d then 1
  else if (objUnits d).any fun b => !inColumnSpace k.colsplit b then 2
  else if (objUnits d).any (otherOwner k ctx) then 3
  else 0

/-- Some operation on the banks of an object has been accepted and not performed, or a row of one is not closed. -/
def objectBusy (s : State) (core : Nat) (d : DWord) : Bool :=
  (objUnits d).any fun b => !(opsOn s core b).isEmpty || match (s.bank core b).phase with
    | some (.refreshing _) => false
    | none => false
    | _ => true

/-- Open and opening rows of an object close (R265, R286, R287): those of its own rows. -/
def closeObject (s : State) (core : Nat) (d : DWord) : State :=
  (objUnits d).foldl (fun s b =>
    match ((s.bank core b).view).held with
    | some r => if objFirst d ≤ r ∧ r < objFirst d + objCount d then wantClose s core b else s
    | none => s) s

/-- A row of an object is open, opening or closing. -/
def objectRowsHeld (s : State) (core : Nat) (d : DWord) : Bool :=
  let mine (r : Nat) : Bool := decide (objFirst d ≤ r ∧ r < objFirst d + objCount d)
  (objUnits d).any fun b => (opsOn s core b).any (fun o => mine o.2.row) || match (s.bank core b).phase with
    | some (.opening r _) => mine r
    | some (.open r) => mine r
    | some (.closing r _) => mine r
    | _ => false

/-- The banks that the objects of a context use. -/
def ownedBy (k : Core) (ctx : Nat) : List Nat :=
  (k.objects.filter fun o => o.1 / 64 == ctx).flatMap fun o => objUnits o.2.desc

/-- A bank's rows are zeroed (R259, R262). -/
def zeroBank (k : Core) (b : Nat) : Core :=
  let lo := rowKey b 0; let hi := rowKey (b + 1) 0
  { k with rows := k.rows.filter fun x => decide (x.1 < lo ∨ hi ≤ x.1)
           rowsBad := k.rowsBad.filter fun x => decide (64 * x < lo ∨ hi ≤ 64 * x)
           flips := k.flips.filter fun x => decide (64 * x.1 < lo ∨ hi ≤ 64 * x.1) }

/-- Bank owners follow the mappings of a context (R262): a bank it takes from no owner or another is zeroed unless it was
its own already. -/
def settleOwners (k : Core) (ctx : Nat) : Core :=
  let used := ownedBy k ctx
  (fromTo 0 64).foldl (fun (k : Core) b =>
    match (k.bank b).owner with
    | some o =>
      if o = ctx ∧ !used.contains b then k.setBank b { (k.bank b) with owner := none, lastOwner := some ctx } else k
    | none =>
      if used.contains b then
        let k := if (k.bank b).lastOwner = some ctx then k else zeroBank k b
        k.setBank b { (k.bank b) with owner := some ctx, lastOwner := some ctx }
      else k) k

/-- A destroyed context's data is nobody's: a later context of the same number takes its banks zeroed (R259, R262). -/
def forgetOwner (k : Core) (ctx : Nat) : Core :=
  { k with banks := k.banks.map fun b => (b.1, if b.2.lastOwner = some ctx then { b.2 with lastOwner := none } else b.2) }

/-- A descriptor is installed under a handle, or the handle is unmapped. -/
def installObject (s : State) (core ctx h : Nat) (d : DWord) : State :=
  s.modCore core fun k =>
    let key := 64 * ctx + h
    let k := { k with objects := if d = 0 then tdel k.objects key else tins k.objects key { desc := d } }
    settleOwners k ctx

/-- `cobj.map` (R265). DESIGN CHOICE, log entry 27. -/
def execCobjMap (f : Fields) (s : State) :=
  runGroup (.cobjMap f) f s fun c s =>
    if c.exec = 0 then .done s
    else
      let d := BitVec.ofNat 64 (c.srcA c.low)
      let h := f.imm13.toNat % 64
      let st := mapStatus (s.core c.core) c.g.ctx d
      if st ≠ 0 then .done (writeScalar c s st)
      else match objectOf s c.core c.g.ctx h with
        | some o =>
          if objectRowsHeld s c.core o.desc then .park (closeObject s c.core o.desc) (.stall (.rows c.core h))
          else .done (writeScalar c (installObject s c.core c.g.ctx h d) 0)
        | none => .done (writeScalar c (installObject s c.core c.g.ctx h d) 0)

/-! ### Relocation (R287) -/

/-- The rows of an object are read, each as its activate would find it (R280). -/
def correctObject (s : State) (core : Nat) (d : DWord) : State :=
  (fromTo 0 (objRows d)).foldl (fun s r => correctRow s core (objRow d r).1 (objRow d r).2) s

/-- Object rows are copied to where a new descriptor puts them, with their marks. -/
def copyRows (k : Core) (old new : DWord) : Core :=
  let rows := fromTo 0 (objRows old)
  let data := rows.map fun r =>
    let (b, p) := objRow old r
    (r, (fromTo (rowKey b p) 2048).map (tget 0 k.rows), (fromTo 0 32).filter fun u => k.rowsBad.contains (rowKey b p / 64 + u))
  data.foldl (fun (k : Core) x =>
    let (b, p) := objRow new x.1
    let key := rowKey b p
    { k with rows := putBytes k.rows key x.2.1
             flips := k.flips.filter fun x => decide (x.1 < key / 64 ∨ key / 64 + 32 ≤ x.1)
             rowsBad := (k.rowsBad.filter fun u => decide (u < key / 64 ∨ key / 64 + 32 ≤ u)) ++ x.2.2.map fun u => key / 64 + u }) k

/-- A new place for an object: same rows, valid for the context, and no row it moves onto belongs to another object of
the context. DESIGN CHOICE, log entry 27. -/
def relocationFits (s : State) (core ctx h : Nat) (old new : DWord) : Bool :=
  let k := s.core core
  let places (d : DWord) : List (Nat × Nat) := (fromTo 0 (objRows d)).map (objRow d)
  objRows new == objRows old && new.getLsbD 63 && mapStatus k ctx new == 0 &&
  k.objects.all fun o => o.1 / 64 != ctx || o.1 == 64 * ctx + h || !(places o.2.desc).any (places new).contains

/-- COLUMN_RELOCATE (R287): the object is marked moving and its rows close; when they have, its rows are copied and the new
descriptor is installed. Until then the step comes back each clock. DESIGN CHOICE, log entry 27. -/
def execColumnRelocate (core ctx handle : Nat) (desc : DWord) (s : State) : Host.Outcome State Fault Refusal :=
  .next (match objectOf s core ctx handle with
    | none => s
    | some o =>
      if !relocationFits s core ctx handle o.desc desc then s
      else
        let s := s.modCore core fun k => { k with objects := tins k.objects (64 * ctx + handle) { o with moving := true } }
        if objectRowsHeld s core o.desc ∨ objectRowsHeld s core desc then
          let s := closeObject (closeObject s core o.desc) core desc
          s.addInput (s.clock + 1) (.columnRelocate core ctx handle desc)
        else
          let s := (correctObject s core o.desc).modCore core fun k =>
            settleOwners { k with objects := tins k.objects (64 * ctx + handle) { desc := desc, moving := true } } ctx
          s.modCore core fun k =>
            let k := copyRows k o.desc desc
            { k with objects := tins k.objects (64 * ctx + handle) { desc := desc } })

end Sys2Proof.Machine
end

