-- ==== Sys2Proof/Machine/Objects.lean ====
section
/-!
DEFINITION. `wcnt` (R322) and barrier objects (R324 to R330), with the credits that engines give them (R329).
-/
namespace Sys2Proof.Machine
open Sys2Proof

/-- `wcnt` (R322): a return is an acquire at `.team`, which drops no line. -/
def execWcnt (f : Fields) (s : State) :=
  runGroup (.wcnt f) f s fun c s =>
    if c.exec = 0 then .done s
    else if counterOf c.g c.f.lowFam ≤ f.imm13.toNat then .done s
    else .park s (.counter c.f.lowFam f.imm13.toNat)

/-! ### The object (R324, R327) -/

/-- The fields of a barrier object, in words: GCNT, BYTES, PHASE, PEND, INIT. -/
structure BarObj where
  init  : Nat
  pend  : Nat
  phase : Bool
  bytes : Nat
  gcnt  : Nat
  deriving DecidableEq, Repr

def BarObj.ofNat (x : Nat) : BarObj :=
  { init := bits x 15 0, pend := bits x 31 16, phase := bit x 63, bytes := bits x 95 64, gcnt := bits x 127 96 }

def BarObj.toNat (o : BarObj) : Nat :=
  packNat [(16, o.init), (16, o.pend), (31, 0), (1, b2n o.phase), (32, o.bytes), (32, o.gcnt)]

/-- A phase that has no arrival awaited and no byte outstanding completes (R327). -/
def BarObj.settle (o : BarObj) : BarObj :=
  if o.pend = 0 ∧ o.bytes = 0 then { o with phase := !o.phase, pend := o.init } else o

/-- The object at a byte of a core's array. -/
def readObject (s : State) (core off : Nat) : BarObj := BarObj.ofNat (ofBytes (scratchBytes s core off 16))
def writeObject (s : State) (core off : Nat) (o : BarObj) : State := writeScratch s core off (toBytes 16 o.toNat)

/-- An engine's credit of `n` bytes, with GCNT from a gather (R329, R343). -/
def creditObject (s : State) (core off n : Nat) (gcnt : Option Nat) : State :=
  let o := readObject s core off
  let o := { o with bytes := (o.bytes + (2 ^ 32 - n % 2 ^ 32)) % 2 ^ 32, gcnt := gcnt.getD o.gcnt }
  writeObject s core off o.settle

/-! ### Instructions (R325 to R330) -/

/-- The object an instruction names: core, byte of its array, and whether it is a peer's. -/
def withObject (c : Ctx) (s : State) (k : Nat → Nat → Bool → Res) : Res :=
  if c.exec = 0 then .done s
  else
    let a := c.srcA c.low
    let fail (x : Cause) : Res := .trap s { cause := x, addr := BitVec.ofNat 64 a, lane := some c.low }
    if a % 16 ≠ 0 then fail .misaligned
    else match localAt s c.g a 16 with
      | some (.scratch core off, p) => match peerAway s p with
        | some tid => .park s (.away tid)
        | none => k core off p.isSome
      | _ => fail .localBounds

/-- An update of a peer's object counts in `.peer` until it has been performed there, which it is at once (R321). -/
def countPeer (c : Ctx) (s : State) (peer : Bool) (k : State → Res) : Res :=
  if !peer then k s
  else if counterOf c.g 3 ≥ 63 then .park s (.stall (.counter 3 1))
  else
    let (id, s) := beginOp s c.gid 3 none
    k (finishOp s c.gid id)

/-- A result in every lane of `exec`, or once in a scalar. -/
def writeOnce (c : Ctx) (s : State) (x : Nat) : State :=
  s.modGroup c.gid fun g => g.setThread (c.runLanes.foldl (fun t l => c.wr t l x) g.thread)

/-- `bo.init` (R326). -/
def execBoInit (f : Fields) (s : State) :=
  runGroup (.boInit f) f s fun c s => withObject c s fun core off _ =>
    let n := Nat.min (Nat.max (c.srcB c.low % 2 ^ 32) 1) 65535
    .done (writeObject (spendRestart s c.g) core off { init := n, pend := n, phase := false, bytes := 0, gcnt := 0 })

/-- `bo.exp` (R328): expected bytes are added; a phase may complete by it (R327). -/
def execBoExp (f : Fields) (s : State) :=
  runGroup (.boExp f) f s fun c s => withObject c s fun core off peer => countPeer c s peer fun s =>
    let o := readObject s core off
    let o := { o with bytes := (o.bytes + c.srcB c.low) % 2 ^ 32 }
    .done (writeObject (spendRestart s c.g) core off o.settle)

/-- `bo.arr` (R328). -/
def execBoArr (f : Fields) (s : State) :=
  runGroup (.boArr f) f s fun c s => withObject c s fun core off peer => countPeer c s peer fun s =>
    let s := spendRestart (performStoresOf s c.gid) c.g
    let o := readObject s core off
    let o1 := { o with bytes := if f.b = Operand.zero then o.bytes else (o.bytes + c.srcB c.low) % 2 ^ 32
                       pend := (o.pend + 65535) % 65536 }
    .done (writeScalar c (writeObject s core off o1.settle) (b2n o.phase))

/-- `bo.wait` (R330). -/
def execBoWait (f : Fields) (s : State) :=
  runGroup (.boWait f) f s fun c s => withObject c s fun core off _ =>
    let tok := bit (c.srcB c.low) 0
    if (readObject s core off).phase ≠ tok then .done s else .park s (.object core off tok)

/-- `bo.try` (R330). -/
def execBoTry (f : Fields) (s : State) :=
  runGroup (.boTry f) f s fun c s => withObject c s fun core off _ =>
    .done (writeOnce c s (b2n ((readObject s core off).phase != bit (c.srcB c.low) 0)))

end Sys2Proof.Machine
end

