-- ==== Sys2Proof/Machine/Issue.lean ====
section
/-!
DEFINITION. Which group issues next (R183, R229, R230), and what comes before its instruction runs: a cause that is due,
the end of a park (R183, R441), a header not yet passed (R179), the fetch (R30, R35, R53). The same for the matrix
sequencer (R364, R368, R369).
-/
namespace Sys2Proof.Machine
open Sys2Proof

/-! ### Resources (R229) -/

/-- The issue resource of an instruction: 0 FMA lanes, 1 integer lanes, 2 special-function lanes, 3 memory port, 4 engine
port, 5 control (R229). -/
def resourceOf (i : Instr) : Nat :=
  match rowOf i with
  | none => 5
  | some r =>
    let op := r.opcode
    if (0x040 ≤ op ∧ op ≤ 0x04A) ∨ (0x053 ≤ op ∧ op ≤ 0x055) ∨ op = 0x059 ∨ op = 0x05A then 0
    else if (0x001 ≤ op ∧ op ≤ 0x01D) ∨ op = 0x058 ∨ (0x080 ≤ op ∧ op ≤ 0x08E) ∨ op = 0x109 then 1
    else if 0x04B ≤ op ∧ op ≤ 0x057 then 2
    else if 0x0C0 ≤ op ∧ op ≤ 0x0D4 then 3
    else if (0x0A0 ≤ op ∧ op ≤ 0x0AA) ∨ (0x100 ≤ op ∧ op ≤ 0x103) then 5
    else 4

/-! ### Readiness -/

/-- What a group waits for room in has room (R336, R356, R357, R360, R418). -/
def roomMade (s : State) (g : Group) : Room → Bool
  | .carder n => decide (carderCount (s.core g.core) + n ≤ 16384)
  | .reel ch n => decide (((s.core g.core).channel ch).length + n ≤ 64)
  | .entry q =>
    let x := (s.core g.core).spq q
    !x.entries.isEmpty || !(x.running || x.ending.isSome) || x.ctx != some g.ctx
  | .slot q => decide (((s.core g.core).spq q).entries.length < 64)
  | .ring => ((s.ctx g.ctx).bind freeCallSlot).isSome

/-- What held an instruction's issue holds it no more. -/
def stallOver (s : State) (gid : Nat) (g : Group) : Stall → Bool
  | .issue => true
  | .counter cls n => decide (counterOf g cls + n ≤ 63)
  | .acks => tget 0 s.fences g.core == 0
  | .flags => !flagsPending g.thread
  | .above n => !writesAbove s gid g.priv n
  | .lanes m => !writesTo s gid g.priv m
  | .rows core h => match objectOf s core g.ctx h with
    | some o => !objectRowsHeld s core o.desc
    | none => true

/-- What a group is parked on has come about, so that it issues again (R183). Parks that end in a step of their own
(R205, R207, R234, R419) do not end here. -/
def parkOver (s : State) (gid : Nat) (g : Group) : Park → Bool
  | .pages vpns => !pagesWait s g.ctx vpns
  | .presence _ _ => false
  | .row core bank =>
    let b := (s.core core).bank bank
    match b.phase with
    | some (.opening _ _) => b.closeWanted
    | _ => true
  | .column core bs seq => !bs.any fun b => bankBusy s gid g.ctx core b seq
  | .activate core bank _ =>
    let b := (s.core core).bank bank
    match b.phase with
    | some (.opening _ _) => !b.closeWanted
    | some (.open _) => !b.closeWanted
    | _ => false
  | .token kind n tok => kind != 1 && (barrierOf s g kind n).phase != tok
  | .arrived kind n phase _ => kind != 1 && (barrierOf s g kind n).phase != phase
  | .heldArrival n =>
    let b := barrierOf s g 2 n
    match b.expected with
    | some e => decide (b.count < e)
    | none => true
  | .object core off tok => (readObject s core off).phase != tok
  | .counter cls n => decide (counterOf g cls ≤ n)
  | .grow _ _ _ => false
  | .room r => roomMade s g r
  | .call _ _ _ => false
  | .swap is => !regionsWait s g.ctx is
  | .moving core h => !((objectOf s core g.ctx h).map ColObject.moving).getD false
  | .away tid => (peerAway s (some tid)).isNone
  | .faultSlot _ vpns => !pagesWait s g.ctx vpns
  | .stall w => stallOver s gid g w

/-- A park that is over is left: the group issues again. -/
def unpark (s : State) (gid : Nat) (g : Group) : Park → State
  | .arrived kind n _ dst => endArrived s gid g kind n dst
  | .column _ _ seq => s.setGroup gid { g with park := none, request := some seq }
  | _ => s.setGroup gid { g with park := none }

/-- The instruction at a group's head as it would be fetched now. -/
def headFetch (s : State) (g : Group) : Option Fetched :=
  (headOf g.thread).map fun e => fetchAt s g (issuePc (if g.cur.isSome then g else { g with cur := g.replays.head? }) e)

/-- No lane executes a group's head instruction (R31, R182). -/
def emptyExec (gid : Nat) (g : Group) (i : Instr) (f : Fields) : Bool :=
  match headOf g.thread with
  | some e => (ctxOf i f gid (if g.cur.isSome then g else { g with cur := g.replays.head? }) e).exec == 0
  | none => true

/-- An instruction that could issue now but for its own parks: no flag of a header's wait mask pending, no interlock, no
full flag (R27 to R29, R183). -/
def mayIssue (s : State) (gid : Nat) (g : Group) (i : Instr) : Bool :=
  match i with
  | .clauseHeader h => !waitsOn g.thread h.wait
  | _ => match fieldsOf i with
    | none => true
    | some f => !interlocked s gid g.priv (regsOf i f (spansOf i f)) &&
      match f.flag with
      | some k => decide (flagCount g.thread k.val < 63) || emptyExec gid g i f
      | none => true

/-! ### Holds and bank ports (R172, R190, R228, R229) -/

/-- The numbers of the banks in a mask. -/
def banksIn (m : Nat) : List Nat := (fromTo 0 8).filter fun b => bit m b

/-- The bank of a vector register: register i of the group in slot j stands in owned bank (i + j) mod n, of the banks owned when
its run of lines was allocated; a handler's in the banks of its frame store (R228, R409). DESIGN CHOICE, log entry 72. -/
def regBank (g : Group) (r : Nat) : Option Nat :=
  match g.handler with
  | some h => some (4 * h.store + (r + g.slot) % 4)
  | none =>
    let run := (g.lineBanks.filter fun x => decide (x.1 ≤ r)).foldl
      (fun (best : Option (Nat × Nat)) x => if (best.map fun y => decide (y.1 < x.1)).getD true then some x else best) none
    let bs := banksIn ((run.map fun x => x.2).getD 0)
    (bs.drop ((r + g.slot) % Nat.max bs.length 1)).head?

/-- The unstaged vector registers that an instruction reads (R189, R190). -/
def unstaged (t : Thread) (i : Instr) (f : Fields) : List Nat :=
  let sp := spansOf i f
  ((operandRegs sp.a f.a ++ operandRegs sp.b f.b ++ operandRegs sp.c f.c).filter fun r => r.1 == 0 && !t.staged.contains r.2).map
    fun r => r.2

/-- The passes in which the head entry of a group holds a lane, one at least (R171). -/
def headPasses (g : Group) : Nat :=
  let m := ((headOf g.thread).map Entry.mask).getD 0
  Nat.max 1 (((fromTo 0 (passesOf g.width)).filter fun p => (m >>> (32 * p)) &&& 0xFFFFFFFF#64 != 0).length)

/-- The clocks for which an instruction holds its issue resource (R172, R229). DESIGN CHOICE, log entry 72. -/
def holdOf (x : Slice) (g : Group) (i : Instr) : Nat :=
  let r := resourceOf i
  let slow := if x.deg ∧ 32 ≤ g.width then 2 else 1
  let box := match i with
    | .xbox _ | .xtri _ => 4
    | _ => 1
  if r ≤ 1 then passesOf g.width * slow * box
  else if r = 2 then (if g.width = 16 then 2 else if g.width = 32 then 4 else 8) * slow
  else if r = 3 then headPasses g
  else 1

/-- The instructions whose destination is written some clocks after their issue, when they may (R26): their write takes a port of a
clock in which it is free. -/
def isAsync (i : Instr) : Bool := resourceOf i == 3

/-- The bank ports that an instruction takes: each read of an unstaged register in its clock, one every 6 clocks; the write of a
vector or predicate destination at its writeback (R190, R229). DESIGN CHOICE, log entry 72. -/
def portsOf (s : State) (g : Group) (i : Instr) : List (Nat × Nat × Bool) :=
  match fieldsOf i with
  | none => []
  | some f =>
    let rs := unstaged g.thread i f
    let reads := (rs.zip (fromTo 1 rs.length)).filterMap fun x => (regBank g x.1).map fun b => (b, s.clock + 6 * x.2, false)
    let back := s.clock + 6 * rs.length + holdOf ((s.core g.core).slice g.slice) g i
    let ds := if isAsync i then [] else (operandRegs (spansOf i f).d f.dst).filter fun r => r.1 != 1
    let writes := (ds.zip (fromTo 0 ds.length)).filterMap fun x =>
      (regBank g (if x.1.1 = 0 then x.1.2 else 0)).map fun b => (b, back + x.2, true)
    reads ++ writes

/-- Every resource an instruction needs is free of earlier grants (R229). DESIGN CHOICE, log entry 72. -/
def resourceFree (s : State) (g : Group) (i : Instr) : Bool :=
  let x := (s.core g.core).slice g.slice
  g.kind == .spindle || (decide (tget 0 x.busy (resourceOf i) ≤ s.clock) && (x.ports.isEmpty || (portsOf s g i).all fun p => !x.ports.contains p))

/-- A grant takes the resources of an instruction (R172, R229). DESIGN CHOICE, log entry 72. -/
def takeResources (s : State) (g : Group) (i : Instr) : State :=
  if g.kind = .spindle then s
  else s.modCore g.core fun k =>
    let x := k.slice g.slice
    k.setSlice g.slice { x with
      busy := tput 0 x.busy (resourceOf i) (s.clock + holdOf x g i)
      ports := (x.ports.filter fun p => decide (s.clock ≤ p.2.1)) ++ portsOf s g i }

/-- A group that can take an issue slot, with the resource its head needs; the instruction is absent when what issues is a
cause (R183, R229). -/
def ready (s : State) (gid : Nat) (g : Group) : Option (Nat × Option Instr) :=
  if g.stalled.isSome || g.restore.isSome || g.out || gatedOn s g.core g.ctx || decide (s.clock < g.readyAt) then none
  else if causeDue g then some (5, none)
  else if !((g.park.map (parkOver s gid g)).getD true) then none
  else match headFetch s g with
    | none => none
    | some (.ok i _) => if mayIssue s gid g i && resourceFree s g i then some (resourceOf i, some i) else none
    | some _ => some (5, none)

/-! ### The arbiter (R230) -/

/-- The groups of a slice, oldest first. -/
def sliceGroups (s : State) (core slice : Nat) : List (Nat × Group) :=
  sortBy (fun a b => decide (a.2.age < b.2.age))
    (s.groups.filter fun x => x.2.core == core && x.2.slice == slice && x.2.kind != .spindle)

/-- The groups of a slice that are ready, oldest first, each with its resource and instruction. -/
def readyList (s : State) (core slice : Nat) : List (Nat × Nat × Option Instr) :=
  (sliceGroups s core slice).filterMap fun x => (ready s x.1 x.2).map fun r => (x.1, r.1, r.2)

/-- The address after an instruction at the head of a group. -/
def afterHead (s : State) (gid : Nat) (i : Instr) : DWord :=
  match s.group gid with
  | some g => match headOf g.thread with
    | some e => issuePc g e + BitVec.ofNat 64 (match fieldsOf i with
        | some f => formBytes f.form
        | none => 8)
    | none => 0
  | none => 0

/-- Two heads take no bank port in common. -/
def portsApart (s : State) (x y : Nat × Nat × Option Instr) : Bool :=
  match s.group x.1, x.2.2, s.group y.1, y.2.2 with
  | some g, some i, some h, some j => (portsOf s g i).all fun p => !(portsOf s h j).contains p
  | _, _, _, _ => true

/-- The picks of one slice in one clock (R230). -/
def slicePicks (s : State) (core slice : Nat) : List Turn :=
  match readyList s core slice with
  | [] => []
  | (g1, r1, i1) :: rest =>
    match rest.find? fun x => x.2.1 != r1 && portsApart s (g1, r1, i1) x with
    | some (g2, _, _) => [.issue g1, .issue g2]
    | none => match i1 with
      | some i => [.issue g1, .second g1 i (afterHead s g1 i)]
      | none => [.issue g1]

/-- The registers an instruction writes. -/
def destsOf (i : Instr) : List (Nat × Nat) :=
  match fieldsOf i with
  | none => []
  | some f => operandRegs (spansOf i f).d f.dst ++ match i with
    | .addc _ | .subb _ | .shfl _ | .qtry _ => operandRegs 1 f.c
    | _ => []

/-- Step 3 of R230: the next instruction of the first pick's clause may issue as the second. -/
def secondAllowed (s : State) (gid : Nat) (first : Instr) (pc : DWord) : Bool :=
  match s.group gid with
  | none => false
  | some g => match headOf g.thread, ready s gid g with
    | some e, some (r, some i) =>
      e.pc == pc && !e.nodual && !e.passed && g.park.isNone && r != resourceOf first &&
      (match i with
        | .clauseHeader _ => false
        | _ => true) &&
      match fieldsOf i with
      | some f => (regsOf i f (spansOf i f)).all fun x => !(destsOf first).contains x
      | none => true
    | _, _ => false

/-! ### What a turn comes to -/

/-- A turn either runs an instruction on a state, or has come to a state without one. -/
inductive Picked where
  | run (i : Instr) (s : State)
  | done (s : State)
  deriving DecidableEq, Repr

/-- The entry of an instruction that could not be fetched or decoded: nothing of it was read. -/
def unreadReplay (g : Group) (e : Entry) : Replay :=
  { iaddr := issuePc g e, exec := e.mask, lanes := e.mask, fault := true, read := false }

/-- A cause of fetch or decode, taken when the instruction is due to issue (R30, R35, R53): the PC stays at it. -/
def fetchTrap (s : State) (gid : Nat) (g : Group) (e : Entry) (t : TrapInfo) : State :=
  let rest := (g.replays.drop (if g.cur.isSome then 1 else 0)).map fun r => { r with fault := false }
  takeTrap (s.setGroup gid { g with cur := none, replays := [] }) gid t (unreadReplay g e :: rest) (issuePc g e)

/-- An instruction that the special-function lanes complete ends a row of mismatches (R423). -/
def noteSfu (s : State) (g : Group) (i : Instr) : State :=
  if resourceOf i = 2 ∧ g.kind ≠ .spindle then
    s.modCore g.core fun k => k.setSlice g.slice { (k.slice g.slice) with sfuMiss := 0 }
  else s

/-- A group is about to issue: it is to become the youngest of its slice if it does (R230), its instruction's block has been fetched,
and free choices are drawn afresh. -/
def prepIssue (s : State) (gid : Nat) (g : Group) (e : Entry) : State :=
  let (n, s) := s.newId
  let s := fetchTouch s g (issuePc g e)
  let s := s.setGroup gid { g with turn := n, park := none }
  { s with issuer := some gid, seqIssuer := none, free := s.free + 1 }

/-- What comes before an instruction runs: the group's grant and the resources it takes. -/
def granted (s : State) (gid : Nat) (g : Group) (e : Entry) (i : Instr) : State :=
  takeResources (noteSfu (prepIssue s gid g e) g i) g i

/-- The instruction at the head entry, or what fetching it comes to. -/
def issueHead (s : State) (gid : Nat) (g : Group) (e : Entry) : Picked :=
  match fetchAt s g (issuePc g e) with
  | .ok (.clauseHeader h) _ =>
    if e.passed then .run (.clauseHeader h) (granted s gid g e (.clauseHeader h))
    else .done ({ (modFrontier s gid fun g fr => landEntry s g fr e.mask e.pc e.must) with
                  agenda := .issue gid :: s.agenda })
  | .ok i _ =>
    if e.must then
      .done (fetchTrap s gid g e { cause := .illegal, addr := e.pc, aux := wordOf i })
    else .run i (granted s gid g e i)
  | .reject c w _ =>
    .done (fetchTrap s gid g e { cause := if e.must then .illegal else c, addr := issuePc g e, aux := BitVec.ofNat 64 w })
  | .trap t => .done (fetchTrap (fetchFailed s g (issuePc g e)) gid g e t)
  | .park p => .done (parkGroup s gid p)

/-- The next entry that `tret` re-issues comes to issue (R417). -/
def withReplay (g : Group) : Group :=
  match g.replays with
  | r :: _ => { g with cur := some r }
  | [] => { g with cur := none }

/-- The cause of a halt that no group of its team could be given goes to the next group of the context to issue on the core, held
while that is in a handler (R411, R426). -/
def owedTo (s : State) (g : Group) : Option TrapInfo :=
  if g.kind == .spindle then none
  else ((s.core g.core).residentOf g.ctx).bind fun r => r.2.owed

/-- The group takes that cause. DEDUCED, log entry 58. -/
def giveOwed (s : State) (gid : Nat) (g : Group) (info : TrapInfo) : State :=
  (s.modCore g.core fun k => k.modResident g.ctx fun r => { r with owed := none }).setGroup gid (addPending g info)

/-- A group's turn to issue. DEDUCED, log entry 35. -/
def issueTurn (s : State) (gid : Nat) : Picked :=
  match s.group gid with
  | none => .done s
  | some g =>
    if g.stalled.isSome || g.restore.isSome || g.out || gatedOn s g.core g.ctx then .done s
    else if g.step = 2 then .run (.stepTrap gid) { s with issuer := none, seqIssuer := none }
    else if causeDue g then .run (.trapEntry gid) { s with issuer := none, seqIssuer := none }
    else if !((g.park.map (parkOver s gid g)).getD true) then .done s
    else if (owedTo s g).isSome then
      let s := ((owedTo s g).map (giveOwed s gid g)).getD s
      .done { s with agenda := .issue gid :: s.agenda }
    else
      let s := match g.park with
        | some p => unpark s gid g p
        | none => s
      match s.group gid with
      | none => .done s
      | some g =>
        let g := withReplay g
        match headOf g.thread with
        | none => .done s
        | some e => issueHead s gid g e

/-! ### The matrix sequencer -/

/-- A stream instruction's cause (R369): the sequencer stops and records it, and the lowest-numbered live group of the team
is given it. DEDUCED, log entry 57. -/
def streamTrap (s : State) (tid : Nat) (pc : DWord) (len : Nat) (info : TrapInfo) : State :=
  let info := { info with source := 1, addr := pc }
  let s := s.modTeam tid fun t =>
    { t with seq := t.seq.map fun q => { q with state := .stopped info pc len } }
  match lowestGroup s tid with
  | some gid => deliverCause s gid info
  | none => s

/-- Fetch at a stream address: the 32-byte block rule does not apply (R364). -/
def fetchStream (s : State) (core ctx : Nat) (pc : DWord) : Fetched :=
  if pc.toNat % 4 ≠ 0 then .trap { cause := .misaligned }
  else if pc.toNat ≥ 2 ^ 56 then .trap { cause := .translation }
  else
    let read (va : Nat) : Except Fetched (List Byte) :=
      match translate s core ctx va .fetch false with
      | .fault c aux => .error (.trap { cause := c, aux := BitVec.ofNat 64 aux })
      | .absent vpn => .error (.park (.pages [vpn]))
      | .cow _ _ => .error (.park (.swap []))
      | .region i => .error (.park (.swap [i]))
      | .ok p _ => match placeCause s 4 p with
        | some c => .error (.trap { cause := c })
        | none => .ok (readPlace s 4 p)
    let a := pc.toNat
    match read a with
    | .error f => f
    | .ok b0 =>
      let n := lenBytes (ofBytes b0)
      let rest := (fromTo 1 (n / 4 - 1)).foldl (fun (acc : Except Fetched (List Byte)) k =>
        match acc with
        | .error f => .error f
        | .ok bs => match read (a + 4 * k) with
          | .error f => .error f
          | .ok b => .ok (bs ++ b)) (.ok b0)
      match rest with
      | .error f => f
      | .ok bs => match decodeWord .matrix (ofBytes bs) with
        | .ok (i, len) => .ok i len
        | .error r => .reject r.cause (ofBytes bs) n

/-- The state after a stream instruction has been fetched: the entries of its words are accessed (R240). -/
def touchStream (s : State) (core ctx : Nat) (pc : DWord) (n : Nat) : State :=
  (fromTo 0 (n / 4)).foldl (fun s k => match translate s core ctx (pc.toNat + 4 * k) .fetch false with
    | .ok _ l => touchLeaf s core ctx (pc.toNat + 4 * k) .fetch l
    | _ => s) s

/-- A line of the stream whose check failed on its way out is marked poisoned where it stands (R425). -/
def streamFailed (s : State) (core ctx : Nat) (pc : DWord) : State :=
  (fromTo 0 4).foldl (fun s k => match translate s core ctx (pc.toNat + 4 * k) .fetch false with
    | .ok p _ => poisonPlace s 4 p
    | _ => s) s

/-- A group of a resumed team has not returned from its restore handler (R447). -/
def teamRestoring (s : State) (tid : Nat) : Bool :=
  (groupsOf s tid).any fun x => x.2.restore.isSome || (x.2.handler.map Handler.restored).getD false

/-- An `mwait` whose phase has completed is over (R387). -/
def Sequencer.resumed (q : Sequencer) (t : Team) : Sequencer :=
  match q.state with
  | .waitPhase n phase => if (t.matBarrier n).phase ≠ phase then { q with state := .running } else q
  | _ => q

/-- The sequencer's turn (R368). DESIGN CHOICE, log entry 29. -/
def matrixTurn (s : State) (tid : Nat) : Picked :=
  match s.team tid with
  | none => .done s
  | some t =>
    let ctx := ctxOfTeam s t
    match t.seq with
    | none => .done s
    | some q0 =>
      let q := q0.resumed t
      let s := s.setTeam tid { t with seq := some q }
      if q.state ≠ .running ∨ t.saved ∨ teamRestoring s tid ∨ teamLeft s tid ∨ resumes s t.cluster ∨ gatedOn s t.core ctx then .done s
      else match fetchStream s t.core ctx q.pc with
        | .ok i n => .run i { (touchStream (s.setTeam tid { t with seq := some { q with park := none } }) t.core ctx q.pc n) with issuer := none, seqIssuer := some tid, free := s.free + 1 }
        | .reject c w n => .done (streamTrap s tid q.pc n { cause := c, aux := BitVec.ofNat 64 w })
        | .trap i => .done (streamTrap (streamFailed s t.core ctx q.pc) tid q.pc 8 i)
        | .park p =>
          let (s, p) := enterPark s t.core ctx p
          .done (s.setTeam tid { t with seq := some { q with park := some p } })

end Sys2Proof.Machine
end

