-- ==== Sys2Proof/Machine/Aes.lean ====
section
/-!
DEFINITION. AES-256 in Galois/Counter Mode with a 96-bit IV and no additional data, as decrypt-in records use it (R345);
the manual names the cipher and the public standards define it (log entry 12).
-/
namespace Sys2Proof.Machine
open Sys2Proof

/-! ### The block cipher -/

/-- Doubling in GF(2^8) modulo x^8 + x^4 + x^3 + x + 1. -/
def gf2 (a : Byte) : Byte := (a <<< 1) ^^^ (if a.getLsbD 7 then 0x1B else 0)

/-- Product in GF(2^8), by the low `n` bits of b. -/
def gfMul (a b : Byte) : Nat → Byte
  | 0 => 0
  | n + 1 => (if b.getLsbD 0 then a else 0) ^^^ gfMul (gf2 a) (b >>> 1) n

/-- The inverse of a byte, a^254, with 0 for 0. -/
def gfInv (a : Byte) : Byte :=
  let sq (x : Byte) : Byte := gfMul x x 8
  let a2 := sq a; let a4 := sq a2; let a8 := sq a4; let a16 := sq a8; let a32 := sq a16; let a64 := sq a32
  let m (x y : Byte) : Byte := gfMul x y 8
  m (m (m a2 a4) (m a8 a16)) (m (m a32 a64) (sq a64))

/-- The S-box. -/
def sbox (a : Byte) : Byte :=
  let b := gfInv a
  b ^^^ b.rotateLeft 1 ^^^ b.rotateLeft 2 ^^^ b.rotateLeft 3 ^^^ b.rotateLeft 4 ^^^ 0x63

/-- Exclusive-or of byte strings. -/
def xorBytes (a b : List Byte) : List Byte := a.zipWith (· ^^^ ·) b

/-- The key schedule: `n` further words of 4 bytes after the latest eight, newest first; `i` is the number of the word to
make and `rc` the next round constant. -/
def expandKey : Nat → Nat → Byte → List (List Byte) → List (List Byte)
  | 0, _, _, ws => ws
  | n + 1, i, rc, ws =>
    let prev := ws.head?.getD []
    let old := (ws.drop 7).head?.getD []
    let t := if i % 8 = 0 then xorBytes ((prev.drop 1 ++ prev.take 1).map sbox) [rc, 0, 0, 0]
      else if i % 8 = 4 then prev.map sbox else prev
    expandKey n (i + 1) (if i % 8 = 0 then gf2 rc else rc) (xorBytes old t :: ws)

/-- The fifteen round keys of a 32-byte key. -/
def roundKeys (key : List Byte) : List (List Byte) :=
  let ws := ((fromTo 0 8).map fun i => (key.drop (4 * i)).take 4).reverse
  let all := (expandKey 52 8 1 ws).reverse
  (fromTo 0 15).map fun r => ((all.drop (4 * r)).take 4).flatten

/-- Byte r + 4 c of a block comes from byte r + 4 (c + r). -/
def shiftRows (b : List Byte) : List Byte := (fromTo 0 16).map fun i => (b.drop ((i + 4 * (i % 4)) % 16)).head?.getD 0

def mixColumn : List Byte → List Byte
  | [a, b, c, d] =>
    let three (x : Byte) : Byte := gf2 x ^^^ x
    [gf2 a ^^^ three b ^^^ c ^^^ d, a ^^^ gf2 b ^^^ three c ^^^ d, a ^^^ b ^^^ gf2 c ^^^ three d,
     three a ^^^ b ^^^ c ^^^ gf2 d]
  | x => x

def mixColumns (b : List Byte) : List Byte := (fromTo 0 4).flatMap fun c => mixColumn ((b.drop (4 * c)).take 4)

/-- The rounds after the first key addition. -/
def aesRounds : List (List Byte) → List Byte → List Byte
  | [], b => b
  | [k], b => xorBytes (shiftRows (b.map sbox)) k
  | k :: ks, b => aesRounds ks (xorBytes (mixColumns (shiftRows (b.map sbox))) k)

/-- One block under the round keys. -/
def aesBlock (ks : List (List Byte)) (b : List Byte) : List Byte :=
  match ks with
  | [] => b
  | k :: rest => aesRounds rest (xorBytes b k)

/-! ### Galois/Counter Mode -/

/-- A block as the mode reads it: the first byte holds the most significant bits. -/
def blockNum (b : List Byte) : QWord := b.foldl (fun x y => (x <<< 8) ||| y.zeroExtend 128) 0

/-- Product in GF(2^128), by the bits of x from the most significant one. -/
def ghashMul (x : QWord) : Nat → QWord → QWord
  | 0, _ => 0
  | n + 1, v =>
    (if x.getLsbD n then v else 0) ^^^
      ghashMul x n ((v >>> 1) ^^^ (if v.getLsbD 0 then 0xE1000000000000000000000000000000#128 else 0))

/-- A byte string in blocks of 16, the last filled up with zeros. -/
def blocksOf (bs : List Byte) : List (List Byte) :=
  (fromTo 0 (ceilDiv bs.length 16)).map fun i =>
    let b := (bs.drop (16 * i)).take 16
    b ++ List.replicate (16 - b.length) 0

/-- GHASH of a ciphertext with no additional data. -/
def ghash (h : QWord) (ct : List Byte) : QWord :=
  let y := (blocksOf ct).foldl (fun y b => ghashMul (y ^^^ blockNum b) 128 h) 0
  ghashMul (y ^^^ BitVec.ofNat 128 (8 * ct.length)) 128 h

/-- A counter block: the IV and a 32-bit counter, most significant byte first. -/
def counterBlock (iv : List Byte) (n : Nat) : List Byte := iv ++ (toBytes 4 n).reverse

/-- Decryption: the plaintext, if the tag agrees. PRESUMED, log entry 12. -/
def gcmDecrypt (key iv tag ct : List Byte) : Option (List Byte) :=
  let ks := roundKeys key
  let h := blockNum (aesBlock ks (List.replicate 16 0))
  let t := ghash h ct ^^^ blockNum (aesBlock ks (counterBlock iv 1))
  if t = blockNum tag then
    let stream := (fromTo 0 (ceilDiv ct.length 16)).flatMap fun i => aesBlock ks (counterBlock iv (i + 2))
    some (xorBytes ct stream)
  else none

end Sys2Proof.Machine
end

