-- ==== Sys2Proof/Machine/Reel.lean ====
section
/-!
DEFINITION. The Reel (R331 to R350): transfer records, their checks, the movement of their data, their completion, chains and
channels, and the halt of a context's engine work (R348, R426).
-/
namespace Sys2Proof.Machine
open Sys2Proof

/-! ### What an engine reaches -/

/-- An engine's access: a place and the state, a page or region to wait for, or an ERR code (R333). -/
inductive Got (α : Type) where
  | ok (s : State) (x : α)
  | wait (s : State) (p : Park)
  | err (s : State) (code : Nat)
  deriving DecidableEq, Repr

def Got.andThen {α β : Type} (g : Got α) (k : State → α → Got β) : Got β :=
  match g with
  | .ok s x => k s x
  | .wait s p => .wait s p
  | .err s n => .err s n

/-- Engine work waits for a page or a region, which is asked for (R246, R247, R454). -/
def Got.asked {α : Type} (s : State) (core ctx : Nat) (p : Park) : Got α := .wait (enterPark s core ctx p).1 (enterPark s core ctx p).2

/-- The place of `n` bytes at a global address for engine work of a context. -/
def engineGlobal (s : State) (core ctx a : Nat) (w : Access) : Got Place :=
  if a ≥ 2 ^ 56 then .err s 5
  else match translate s core ctx a w false with
    | .fault c _ => .err s (causeCode c)
    | .absent v => .asked s core ctx (.pages [v])
    | .region i => .asked s core ctx (.swap [i])
    | .cow l sub =>
      let s := coreSwap s core ctx a l sub
      match translate s core ctx a w false with
      | .ok p l => .ok (touchLeaf s core ctx a w l) p
      | _ => .wait s (.swap [])
    | .ok p l => .ok (touchLeaf s core ctx a w l) p

/-- The offset of `n` bytes in the own scratchpad of a chain's team (R24, R332). -/
def ownOff (c : Chain) (a n : Nat) : Option Nat :=
  let off := if a < 0x140000 then some a
    else if 0x1000000 ≤ a ∧ a / 0x1000000 - 1 = c.rank then some (a % 0x1000000) else none
  match off with
  | some o => if o + n ≤ c.own.size then some o else none
  | none => none

/-- The place of an engine access in a space (true: `.l`). An allocation that has passed on is not read (R349). DEDUCED, log entry 28. -/
def engineAt (s : State) (c : Chain) (l : Bool) (a n : Nat) (w : Access) : Got Place :=
  if l then
    match ownOff c a n with
    | some o =>
      if w = .read ∧ genAt s c.own.core c.own.base ≠ c.own.gen then .err s 0x0B
      else .ok s (.scratch c.own.core (c.own.base + o))
    | none => .err s 0x0B
  else engineGlobal s c.own.core c.ctx a w

/-- Bytes that can be moved at once from an address: up to the end of its 128-byte line. -/
def lineRoom (a : Nat) : Nat := 128 - a % 128

/-- What reading a place gives as an ERR code: 0x07 stops, 0x13 goes on (R333). -/
def readErr (s : State) (n : Nat) (p : Place) : Nat := ((placeCause s n p).map causeCode).getD 0

/-- `n` bytes of a range, each with whether its sector is poisoned; a line whose check fails is marked and ends the read (R333,
R425). The fuel bounds the sectors. -/
def engineTake (c : Chain) (l : Bool) : Nat → State → Nat → Nat → Got (List (Byte × Bool))
  | 0, s, _, _ => .ok s []
  | fuel + 1, s, a, n =>
    if n = 0 then .ok s []
    else
      let m := Nat.min n (32 - a % 32)
      (engineAt s c l a m .read).andThen fun s p =>
        match readErr s m p with
        | 7 => .err (poisonPlace s m p) 7
        | e => (engineTake c l fuel s (a + m) (n - m)).andThen fun s bs =>
          .ok s ((readPlace s m p).map (fun b => (b, e == 0x13)) ++ bs)

/-- Bytes of a range none of which may be poisoned: of a record, its layout record, its parameter block. -/
def engineRead (c : Chain) (l : Bool) (fuel : Nat) (s : State) (a n : Nat) : Got (List Byte) :=
  (engineTake c l fuel s a n).andThen fun s bs => if bs.any fun b => b.2 then .err s 0x13 else .ok s (bs.map fun b => b.1)

/-! ### Fields of a record (R331) -/

/-- Bits [hi:lo] of the record a chain runs. -/
def rf (c : Chain) (hi lo : Nat) : Nat := bits (ofBytes c.record) hi lo
def recKind (c : Chain) : Nat := rf c 47 44
def recSize (c : Chain) : Nat := rf c 31 0
def recSsp (c : Chain) : Bool := rf c 41 41 == 1
def recDsp (c : Chain) : Bool := rf c 40 40 == 1
def recSaddr (c : Chain) : Nat := rf c 191 128
def recDaddr (c : Chain) : Nat := rf c 255 192
def recAux (c : Chain) : Nat := rf c 319 256
def recBo (c : Chain) : Bool := rf c 43 43 == 1
def recObj (c : Chain) : Nat := 16 * rf c 336 320
/-- ROWS of a gather record. -/
def recRows (c : Chain) : Nat := rf c 404 384
/-- ORGX, ORGY, ORGZ. -/
def recOrg (c : Chain) (k : Nat) : Int := toSigned 21 (rf c (404 + 21 * k) (384 + 21 * k))

/-- Fields of a layout record (R341). -/
def lf (c : Chain) (hi lo : Nat) : Nat := bits (ofBytes c.aux) hi lo
def boxW (c : Chain) : Nat := lf c 215 208 + 1
def boxH (c : Chain) : Nat := lf c 223 216 + 1
def boxD (c : Chain) : Nat := lf c 231 224 + 1
def elemSize (c : Chain) : Nat := 2 ^ lf c 3 2
def is2D (c : Chain) : Bool := lf c 1 0 == 2
def tileBytes (c : Chain) : Nat := boxW c * boxH c * boxD c * elemSize c

/-- A non-zero unused field or a reserved code of any kind (R332): ERR 0x02. -/
def recordBad (c : Chain) : Bool :=
  let k := recKind c
  decide (k ≥ 6) || rf c 37 32 != 0 || rf c 62 56 != 0 || rf c 351 337 != 0 || rf c 447 447 != 0 || rf c 39 38 == 3 ||
  (k != 1 && (rf c 383 352 != 0 || rf c 446 405 != 0)) || (k != 1 && k != 2 && rf c 404 384 != 0) ||
  (k != 1 && rf c 39 38 != 0) || (k == 0 && recAux c != 0) || (k == 1 && recSize c != 0) ||
  (k == 2 && recRows c == 0) || (k == 3 && (recAux c / 4096 != 0 || !recDsp c)) ||
  (k == 5 && recAux c / 2 ^ 32 != 0) || c.head % 64 != 0

/-- A size or alignment that the kind does not allow (R332): ERR 0x04. -/
def recordMisaligned (c : Chain) : Bool :=
  let k := recKind c
  recSaddr c % 4 != 0 || recDaddr c % 4 != 0 || recSize c % 4 != 0 ||
  ((k == 0 || k == 3) && recSize c == 0) || (k == 4 && (decide (recSize c < 4) || decide (recSize c > 65536))) ||
  (k == 5 && (recAux c == 0 || recAux c % 128 != 0)) || (k == 1 && recAux c % 32 != 0) || (k == 4 && recAux c % 64 != 0)

/-- A breach of the constraints on the box fields of a layout record: those of its size (R335, R341). DEDUCED, log entry 28. -/
def boxBad (c : Chain) : Bool := (is2D c && lf c 231 224 != 0) || (boxW c * elemSize c) % 4 != 0

/-- A breach of the layout record's constraints (R341): ERR 0x02. -/
def layoutBad (c : Chain) : Bool :=
  let e := elemSize c
  decide (lf c 1 0 < 2) || lf c 31 4 != 0 || lf c 255 248 != 0 || lf c 247 232 % 4 != 0 ||
  decide (lf c 247 232 < boxW c * e) || lf c 167 128 % e != 0 || lf c 207 168 % e != 0 ||
  (is2D c && (lf c 127 96 != 0 || lf c 207 168 != 0 || lf c 231 224 != 0))

/-- A box row or a tensor base that breaks its alignment: ERR 0x04. -/
def layoutMisaligned (c : Chain) : Bool := (boxW c * elemSize c) % 4 != 0 || recSaddr c % elemSize c != 0

/-! ### Starting a record (R334 steps 1 and 2) -/

/-- The teams of a chain's cluster, in rank order. -/
def clusterTeams (s : State) (c : Chain) : List Team :=
  match s.team c.team with
  | some t => (teamsOf s t.cluster).filterMap s.team
  | none => []

/-- A team's scratchpad as a target. -/
def targetOf (s : State) (t : Team) : Target :=
  { core := t.core, base := t.scratchBase, size := t.scratchSize, gen := genAt s t.core t.scratchBase }

/-- The targets of a multicast: `none` when a set rank is not below the team count (R344). -/
def multicastTargets (s : State) (c : Chain) : Option (List Target) :=
  let ts := clusterTeams s c
  let ranks := (fromTo 0 12).filter fun k => bit (recAux c) k
  if ranks.all fun k => decide (k < ts.length) then
    some (ranks.filterMap fun k => ((ts.drop k).head?).map (targetOf s))
  else none

/-- The rest of step 1, by kind: the layout record, the parameter block and its key, the targets. -/
def startKind (s : State) (c : Chain) : Got Chain :=
  match recKind c with
  | 1 => (engineRead c false 4 s (recAux c) 32).andThen fun s bs => .ok s { c with aux := bs }
  | 3 => match multicastTargets s c with
    | some ts => .ok s { c with targets := ts }
    | none => .ok s { c with err := 0x0B, early := true, moved := true }
  | 4 => (engineRead c false 4 s (recAux c) 64).andThen fun s bs =>
      let slot := ofBytes (bs.take 4)
      if slot > 255 ∨ ofBytes (bs.drop 32) ≠ 0 then .ok s { c with err := 2, early := true, moved := true }
      else match tfind s.keySlots slot with
      | some k => if k.ctx = c.ctx then .ok s { c with aux := bs, key := k.key }
                  else .ok s { c with err := 6, early := true, moved := true }
      | none => .ok s { c with err := 6, early := true, moved := true }
  | _ => .ok s c

/-- A record that fails at step 1 (R335). -/
def failEarly (c : Chain) (e : Nat) : Chain := { c with err := e, early := true, moved := true }

/-- The lines of the destination range (R334 step 2): core and line. -/
def destLines (c : Chain) : List (Nat × Nat) :=
  let range (t : Target) (a n : Nat) : List (Nat × Nat) :=
    let hi := Nat.min (a + n) t.size
    (touchedUnits (t.base + a) (hi - a) 128).map fun l => (t.core, l)
  let own (a n : Nat) : List (Nat × Nat) := match ownOff c a 1 with
    | some o => range c.own o n
    | none => []
  if !recDsp c then []
  else match recKind c with
    | 1 => (fromTo 0 (boxH c * boxD c)).flatMap fun r => own (recDaddr c + r * lf c 247 232) (boxW c * elemSize c)
    | 2 => own (recDaddr c) (recRows c * recSize c)
    | 3 => c.targets.flatMap fun t => range t (recDaddr c) (recSize c)
    | 5 => own (recDaddr c) (recAux c)
    | _ => own (recDaddr c) (recSize c)

/-- A list of pairs without repeats. -/
def dedupPairs : List (Nat × Nat) → List (Nat × Nat)
  | [] => []
  | x :: xs => x :: (dedupPairs xs).filter fun y => y != x

/-- Presence bits of the destination lines are cleared (R234), those that a free choice picks in this step, in any order; at least
one is. DEDUCED, log entry 28. -/
def clearPresence (s : State) (c : Chain) : State × Chain :=
  let picked := c.clearing.filter fun x => Config.freeChoice s.free (4 * x.2) % 2 == 1
  let ls := if c.clearing.length ≤ 1 then c.clearing else if picked.isEmpty then c.clearing.take 1 else picked
  let s := if c.clearing.length ≤ 1 then s else { s with free := s.free + 1 }
  (ls.foldl (fun s x => raiseAbsent s x.1 [x.2]) s,
   { c with clearing := c.clearing.filter (fun x => !ls.contains x), cleared := c.cleared ++ ls })

/-- Lines that a chain cleared are present again, unless their allocation has passed on. -/
def restorePresence (s : State) (c : Chain) (ls : List (Nat × Nat)) : State :=
  let stale (core line : Nat) : Bool :=
    (c.own :: c.targets).any fun t => t.core == core && decide (t.base ≤ 128 * line ∧ 128 * line < t.base + t.size) &&
      genAt s t.core t.base != t.gen
  ls.foldl (fun s x => if stale x.1 x.2 then s else lowerAbsent s x.1 [x.2]) s

/-- A multicast whose range or object passes a target's end fails before any target is written. -/
def multicastBounds (c : Chain) : Chain :=
  if recKind c = 3 ∧ (decide (recDaddr c ≥ 0x140000) || c.targets.any fun t => decide (recDaddr c + recSize c > t.size))
  then { c with err := 0x0B, moved := true } else c

/-- Step 1 of R334 beyond the reading of the record, and the beginning of step 2. -/
def startChecks (s : State) (c : Chain) : State × Chain :=
  if recordBad c then (s, failEarly c 2)
  else if recordMisaligned c then (s, failEarly c 4)
  else match startKind s c with
    | .wait s p => (s, { c with running := false, record := [], park := some p })
    | .err s e => (s, failEarly c e)
    | .ok s c =>
      if recKind c = 1 ∧ layoutBad c then (s, failEarly c 2)
      else if recKind c = 1 ∧ layoutMisaligned c then (s, failEarly c 4)
      else if c.moved then (s, c)
      else
        let c := multicastBounds c
        if c.moved then (s, c) else clearPresence s { c with clearing := dedupPairs (destLines c) }

/-! ### The queue -/

/-- The place in a channel's queue of the chain that runs or is to run next: one that has started, else the first whose context's
engine work is not halted (R336, R348). -/
def Core.currentAt (k : Core) (ch : Nat) : Option Nat :=
  match indexOf? Chain.begun (k.channel ch) 0 with
  | some i => some i
  | none => indexOf? (fun c : Chain => !k.halted c.ctx) (k.channel ch) 0

/-- That chain. -/
def Core.current (k : Core) (ch : Nat) : Option Chain := (k.currentAt ch).bind fun i => ((k.channel ch).drop i).head?

/-- A channel's current chain is replaced by some chains, one or none. -/
def setCurrent (s : State) (core ch : Nat) (cs : List Chain) : State :=
  s.modCore core fun k => match k.currentAt ch with
    | some i => k.setChannel ch ((k.channel ch).take i ++ cs ++ (k.channel ch).drop (i + 1))
    | none => k

/-- A chain has ended: it leaves its channel and its count falls (R321, R336). -/
def endChain (s : State) (core ch : Nat) (c : Chain) : State := finishOp (setCurrent s core ch []) c.gid c.op

/-- The current chain of a channel, replaced. -/
def setHead (s : State) (core ch : Nat) (c : Chain) : State := setCurrent s core ch [c]

/-- A chain that has started at its next record. -/
def Chain.at' (c : Chain) (head : Nat) (l : Bool) : Chain :=
  { team := c.team, ctx := c.ctx, gid := c.gid, op := c.op, own := c.own, rank := c.rank, prio := c.prio, head := head
    local' := l, begun := true }

/-- Step 1 of R334 for the current chain of a channel. A record that cannot be read, or that the engine does not own, ends the
chain untouched. DEDUCED, log entry 28. -/
def startRecord (s : State) (core ch : Nat) (c : Chain) : State :=
  match engineRead c c.local' 8 s c.head 64 with
  | .wait s p => setHead s core ch { c with begun := true, park := some p }
  | .err s _ => endChain s core ch c
  | .ok s bs =>
    if !bit (ofBytes bs) 63 then endChain s core ch c
    else
      let c := { (c.at' c.head c.local') with running := true, record := bs }
      let (s, c) := startChecks s c
      setHead s core ch c

/-! ### Writing -/

/-- The sectors of the lines of module memory that `n` bytes touch are marked poisoned. -/
def markMem (s : State) (pa n : Nat) : State :=
  let us := (touchedUnits pa n 128).flatMap fun l => fromTo (4 * l) 4
  { s with memBad := s.memBad ++ us.filter fun u => !s.memBad.contains u }

/-- Units of a place that `n` bytes touch are marked poisoned: scratchpad lines, and the sectors of 128-byte lines of module
memory (R333, R424). -/
def markPlace (s : State) (n : Nat) : Place → State
  | .mem pa => markMem s pa n
  | .foreign _ pa => markMem s pa n
  | .scratch c o => markLines s c (touchedUnits o n 128)
  | .column _ _ _ => s

/-- The destination of `n` bytes at DADDR + `d`, in the own scratchpad or global memory; stale when its allocation has passed
on (R349). -/
def destAt (s : State) (c : Chain) (d n : Nat) : Got (Place × Bool) :=
  (engineAt s c (recDsp c) (recDaddr c + d) n .write).andThen fun s p =>
    .ok s (p, recDsp c && genAt s c.own.core c.own.base != c.own.gen)

/-- Between 0x13 and 0x20 the greater is reported (R333); any other code stands as met first. DEDUCED, log entry 28. -/
def meet (old new : Nat) : Nat := if old = 0 ∨ old = 0x13 ∧ new = 0x20 then new else old

/-- The 128-byte line that holds the first byte of a place. -/
def Place.line : Place → Place
  | .mem pa => .mem (pa / 128 * 128)
  | .foreign d pa => .foreign d (pa / 128 * 128)
  | .scratch c o => .scratch c (o / 128 * 128)
  | .column c u b => .column c u (b / 128 * 128)

/-- A run of bytes written behind those before it, joined where it follows the last of them. -/
def joinRun (ws : List StoreWrite) (p : Place) (bs : List Byte) : List StoreWrite :=
  match ws.getLast? with
  | some w => if w.place.plus w.bytes.length = p then ws.dropLast ++ [{ w with bytes := w.bytes ++ bs }]
    else ws ++ [{ place := p, bytes := bs }]
  | none => [{ place := p, bytes := bs }]

/-- Bytes without a poisoned source have been written: the marks of the units that the record has now covered wholly go
(R424). -/
def coverRun (s : State) (c : Chain) (p : Place) (bs : List Byte) : State × Chain :=
  let ws := joinRun c.part p bs
  let last := markUnit (p.plus (bs.length - 1))
  ((coveredMarks ws).foldl clearMark s, { c with part := ws.filter fun w => placesMeet w.place w.bytes.length last.1 last.2 })

/-- Bytes reach a destination, within one line of it, or are dropped. The line is marked poisoned where their source is, or where an
earlier piece of it was (R333). DEDUCED, log entry 28. -/
def deliver (s : State) (c : Chain) (dst : Place × Bool) (bs : List Byte) (bad : Bool) : State × Chain :=
  if dst.2 then (s, { c with err := meet c.err 0x20 })
  else
    let s := corePut s c.own.core dst.1 bs
    let c := { c with done := c.done + bs.length, err := if bad then meet c.err 0x13 else c.err }
    if bad || c.badAt == some dst.1.line then (markPlace s bs.length dst.1, { c with badAt := some dst.1.line, part := [] })
    else if bs.isEmpty then (s, c) else coverRun s c dst.1 bs

/-- One piece: a wait, or the state and chain after it, with the bytes that moved. -/
inductive Piece where
  | wait (s : State) (p : Park)
  | go (s : State) (c : Chain) (n : Nat)
  deriving DecidableEq, Repr

/-- A record stops with a code. -/
def stopRecord (s : State) (c : Chain) (e : Nat) : Piece := .go s { c with err := meet c.err e, moved := true } 0

def Got.piece {α : Type} (g : Got α) (c : Chain) (k : State → α → Piece) : Piece :=
  match g with
  | .ok s x => k s x
  | .wait s p => .wait s p
  | .err s e => stopRecord s c e

/-- Copy `n` bytes from a source address to a destination; `bad` says that what selected them was poisoned. -/
def copyPiece (s : State) (c : Chain) (src n : Nat) (dst : State → Got (Place × Bool)) (bad : Bool) (next : Chain → Chain) : Piece :=
  (engineAt s c (recSsp c) src n .read).piece c fun s p =>
    (dst s).piece c fun s d =>
      match readErr s n p with
      | 7 => stopRecord (poisonPlace s n p) c 7
      | e =>
        let (s, c) := deliver s c d (readPlace s n p) (bad || e == 0x13)
        .go s (next c) n

/-! ### The kinds (R340 to R346) -/

/-- A piece of a linear record (R340). -/
def linearPiece (s : State) (c : Chain) : Piece :=
  if c.pos ≥ recSize c then .go s { c with moved := true } 0
  else
    let n := Nat.min (recSize c - c.pos) (Nat.min (lineRoom (recSaddr c + c.pos)) (lineRoom (recDaddr c + c.pos)))
    copyPiece s c (recSaddr c + c.pos) n (fun s => destAt s c c.pos n) false fun c => { c with pos := c.pos + n }

/-- A piece of a multicast record: `pos` runs over the targets, one after another (R344). -/
def multicastPiece (s : State) (c : Chain) : Piece :=
  match (c.targets.drop (c.pos / recSize c)).head? with
  | none => .go s { c with moved := true } 0
  | some t =>
    let o := c.pos % recSize c
    let n := Nat.min (recSize c - o) (Nat.min (lineRoom (recSaddr c + o)) (lineRoom (recDaddr c + o)))
    let dst : Place × Bool := (.scratch t.core (t.base + recDaddr c + o), genAt s t.core t.base != t.gen)
    copyPiece s c (recSaddr c + o) n (fun s => .ok s dst) false fun c => { c with pos := c.pos + n }

/-- Bytes of the fill pattern at element offset: each 4-byte piece FILLV (R342). -/
def fillBytes (c : Chain) (e : Nat) : List Byte := (toBytes 4 (rf c 383 352) ++ toBytes 4 (rf c 383 352)).take e

/-- A piece of a tile record: an element, or what of it lies in one line of the destination; `sub` is what has been written of it
(R342). -/
def tilePiece (s : State) (c : Chain) : Piece :=
  let e := elemSize c
  if c.pos ≥ boxW c * boxH c * boxD c then .go s { c with moved := true } 0
  else
    let i := c.pos % boxW c; let j := c.pos / boxW c % boxH c; let k := c.pos / (boxW c * boxH c)
    let x := recOrg c 0 + i; let y := recOrg c 1 + j; let z := if is2D c then 0 else recOrg c 2 + k
    let d := (k * boxH c + j) * lf c 247 232 + i * e + c.sub
    let n := Nat.min (e - c.sub) (lineRoom (recDaddr c + d))
    let next (c : Chain) : Chain := if c.sub + n < e then { c with sub := c.sub + n } else { c with pos := c.pos + 1, sub := 0 }
    if 0 ≤ x ∧ x < lf c 63 32 ∧ 0 ≤ y ∧ y < lf c 95 64 ∧ (is2D c ∨ (0 ≤ z ∧ z < lf c 127 96)) then
      let src := recSaddr c + x.toNat * e + y.toNat * lf c 167 128 + z.toNat * lf c 207 168 + c.sub
      copyPiece s c src n (fun s => destAt s c d n) false next
    else match rf c 39 38 with
      | 1 => (destAt s c d n).piece c fun s p =>
          let (s, c) := deliver s c p (((fillBytes c e).drop c.sub).take n) false
          .go s (next c) n
      | 2 => .go s { c with pos := c.pos + 1, sub := 0 } 0
      | _ => stopRecord s c 0x0B

/-- A piece of a gather record: `pos` runs over the source rows, `sub` over the bytes of one, `out` counts the rows selected
(R343). A row that a poisoned mask byte selects is delivered poisoned. DEDUCED, log entry 28. -/
def gatherPiece (s : State) (c : Chain) : Piece :=
  let n := recSize c; let r := c.pos
  if r ≥ recRows c then .go s { c with moved := true } 0
  else
    let next (c : Chain) : Chain := { c with pos := r + 1, sub := 0 }
    (engineTake c (recSsp c) 1 s (recAux c + r / 8) 1).piece c fun s m =>
      let bad := m.any fun b => b.2
      let c := { c with err := if bad then meet c.err 0x13 else c.err }
      if c.sub = 0 ∧ !bit (ofBytes (m.map fun b => b.1)) (r % 8) then .go s (next c) 0
      else if n = 0 then .go s { (next c) with out := c.out + 1 } 0
      else
        let d := c.out * n + c.sub; let src := recSaddr c + r * n + c.sub
        let k := Nat.min (n - c.sub) (Nat.min (lineRoom src) (lineRoom (recDaddr c + d)))
        copyPiece s c src k (fun s => destAt s c d k) bad fun c =>
          if c.sub + k = n then { (next c) with out := c.out + 1 } else { c with sub := c.sub + k }

/-- A range of destinations, all resolved before any is written. -/
def destRange (c : Chain) : Nat → State → Nat → Nat → Got (List ((Place × Bool) × Nat))
  | 0, s, _, _ => .ok s []
  | fuel + 1, s, d, n =>
    if n = 0 then .ok s []
    else
      let m := Nat.min n (lineRoom (recDaddr c + d))
      (destAt s c d m).andThen fun s p => (destRange c fuel s (d + m) (n - m)).andThen fun s ps => .ok s ((p, m) :: ps)

/-- Bytes written to a resolved range, each with whether its source was poisoned. -/
def deliverRange (s : State) (c : Chain) : List ((Place × Bool) × Nat) → List (Byte × Bool) → State × Chain
  | [], _ => (s, c)
  | (p, m) :: ps, bs =>
    let (s, c) := deliver s c p ((bs.take m).map fun b => b.1) ((bs.take m).any fun b => b.2)
    deliverRange s c ps (bs.drop m)

/-- Bytes of a key slot's key, least significant first. -/
def keyBytes (k : BitVec 256) : List Byte := toBytes 32 k.toNat

/-- A decrypt-in record, moved as one piece (R345). Bytes 32 to 63 of its block must be 0. A destination line that holds plaintext
of poisoned bytes is marked; where the tag fails too, the poison was met first. DEDUCED, log entry 28. -/
def decryptPiece (s : State) (c : Chain) : Piece :=
  let n := recSize c
  (engineTake c (recSsp c) 4096 s (recSaddr c) n).piece c fun s ct =>
    (destRange c 1024 s 0 n).piece c fun s ps =>
      let c := { c with err := if ct.any fun b => b.2 then meet c.err 0x13 else c.err }
      match gcmDecrypt (keyBytes c.key) ((c.aux.drop 4).take 12) ((c.aux.drop 16).take 16) (ct.map fun b => b.1) with
      | some pt =>
        let (s, c) := deliverRange s c ps (pt.zip (ct.map fun b => b.2))
        .go s { c with moved := true } n
      | none =>
        let (s, c) := deliverRange s c ps (List.replicate n (0, false))
        .go s { c with moved := true, err := meet c.err 0x14 } n

/-! #### Encoded lines (R492, R495) -/

/-- Bytes of the body of a code; `none` where it is reserved. -/
def bodyBytes (code : Nat) : Option Nat :=
  match code with
  | 0 => some 0 | 1 => some 4 | 4 => some 20 | 2 => some 36 | 3 => some 68 | 15 => some 128 | _ => none

/-- A line from a base and 32 signed deltas of w bits. -/
def deltaLine (body : List Byte) (w : Nat) : List Byte :=
  let b := ofBytes (body.take 4); let ds := ofBytes (body.drop 4)
  (fromTo 0 32).flatMap fun i => toBytes 4 (ofInt 32 ((b : Int) + toSigned w (ds / 2 ^ (w * i))))

/-- The 128 bytes of an encoded line. -/
def expandLine (code : Nat) (body : List Byte) : List Byte :=
  match code with
  | 0 => List.replicate 128 0
  | 1 => (fromTo 0 32).flatMap fun _ => body
  | 4 => deltaLine body 4
  | 2 => deltaLine body 8
  | 3 => deltaLine body 16
  | _ => body

/-- A malformed line ends the record: FOFF is its first byte's offset, and what is left of the destination is poisoned next
(R346). -/
def malformed (s : State) (c : Chain) : Piece := .go s { c with err := meet c.err 0x0E, foff := c.out, broken := true } 0

/-- A destination line of a malformed stream is zeroed and marked poisoned; one that cannot be reached is passed over. -/
def poisonPiece (s : State) (c : Chain) : Piece :=
  let d := 128 * c.pos + c.sub
  let n := Nat.min (128 - c.sub) (lineRoom (recDaddr c + d))
  let next (c : Chain) : Chain := if c.sub + n < 128 then { c with sub := c.sub + n } else { c with pos := c.pos + 1, sub := 0 }
  match destAt s c d n with
  | .wait s p => .wait s p
  | .err s _ => .go s (next c) n
  | .ok s p => .go (if p.2 then s else markPlace (corePut s c.own.core p.1 (List.replicate n 0)) n p.1) (next c) n

/-- A piece of a block-expand record: one line; `pos` counts lines, `out` is the offset in the stream (R346, R495). A line decoded
from poisoned bytes is marked. DEDUCED, log entry 28. -/
def expandPiece (s : State) (c : Chain) : Piece :=
  if 128 * c.pos ≥ recAux c then .go s { c with moved := true } 0
  else if c.broken then poisonPiece s c
  else if c.out + 4 > recSize c then malformed s c
  else (engineTake c (recSsp c) 4 s (recSaddr c + c.out) 4).piece c fun s h =>
    let x := ofBytes (h.map fun b => b.1)
    let c := { c with err := if h.any fun b => b.2 then meet c.err 0x13 else c.err }
    match bodyBytes (x % 16) with
    | none => malformed s c
    | some m =>
      if x / 16 ≠ 0 ∨ c.out + 4 + m > recSize c then malformed s c
      else (engineTake c (recSsp c) 8 s (recSaddr c + c.out + 4) m).piece c fun s body =>
        (destRange c 4 s (128 * c.pos) 128).piece c fun s ps =>
          let bad := (h ++ body).any fun b => b.2
          let (s, c) := deliverRange s c ps ((expandLine (x % 16) (body.map fun b => b.1)).map fun b => (b, bad))
          .go s { c with pos := c.pos + 1, out := c.out + 4 + m } 128

/-- The next piece of a record. -/
def nextPiece (s : State) (c : Chain) : Piece :=
  match recKind c with
  | 0 => linearPiece s c
  | 1 => tilePiece s c
  | 2 => gatherPiece s c
  | 3 => multicastPiece s c
  | 4 => decryptPiece s c
  | _ => expandPiece s c

/-- Pieces until a chunk of 4 KiB has moved, the record waits, or it is done. The bytes moved come back too. DEDUCED, log entry 28. -/
def moveChunk : Nat → State → Chain → Nat → State × Chain × Nat
  | 0, s, c, n => (s, c, n)
  | fuel + 1, s, c, n =>
    if c.moved ∨ n ≥ 4096 then (s, c, n)
    else match nextPiece s c with
      | .wait s p => (s, { c with park := some p }, n)
      | .go s c m => moveChunk fuel s c (n + m)

/-- Lines of the destination that a record has still to write, in whole or in part: those from the place it has come to on, for
every kind goes up its range. -/
def restLines (c : Chain) : List (Nat × Nat) :=
  let range (t : Target) (a n : Nat) : List (Nat × Nat) := (touchedUnits (t.base + a) n 128).map fun l => (t.core, l)
  let own (a n : Nat) : List (Nat × Nat) := match ownOff c a 1 with
    | some o => range c.own o n
    | none => []
  let row (r i : Nat) : List (Nat × Nat) := own (recDaddr c + r * lf c 247 232 + i) (boxW c * elemSize c - i)
  match recKind c with
  | 0 => own (recDaddr c + c.pos) (recSize c - c.pos)
  | 1 =>
    let r := c.pos / boxW c
    row r (c.pos % boxW c * elemSize c + c.sub) ++ (fromTo (r + 1) (boxH c * boxD c - r - 1)).flatMap fun k => row k 0
  | 2 =>
    let d := c.out * recSize c + c.sub
    own (recDaddr c + d) (recRows c * recSize c - d)
  | 3 =>
    let t := c.pos / recSize c
    (c.targets.zipIdx.drop t).flatMap fun x =>
      let o := if x.2 = t then c.pos % recSize c else 0
      range x.1 (recDaddr c + o) (recSize c - o)
  | 4 => own (recDaddr c) (recSize c)
  | _ => own (recDaddr c + 128 * c.pos + c.sub) (recAux c - 128 * c.pos - c.sub)

/-- Lines whose bytes have all landed (R234, R334 step 4): every one that was cleared when nothing more is to move. DEDUCED, log entry 28. -/
def landedLines (c : Chain) : List (Nat × Nat) :=
  if c.moved then c.cleared
  else
    let rest := restLines c
    c.cleared.filter fun x => !rest.contains x

/-! ### Completion (R334 steps 4 to 7, R335) -/

/-- The full byte count of a record's kind, where its fields define it. -/
def fullCredit (c : Chain) : Option Nat :=
  match recKind c with
  | 0 => some (recSize c)
  | 3 => some (recSize c)
  | 4 => some (recSize c)
  | 1 => if c.early ∧ (c.aux.isEmpty ∨ boxBad c) then none else some (tileBytes c)
  | 2 => some (recRows c * recSize c)
  | 5 => some (recAux c % 2 ^ 32)
  | _ => none

/-- The objects a record credits: those in every target of a multicast, else the one in the own scratchpad. -/
def creditTargets (s : State) (c : Chain) : List Target :=
  if recKind c = 3 then (match multicastTargets s c with
    | some ts => if c.targets.isEmpty then ts else c.targets
    | none => [])
  else [c.own]

/-- The object lies outside a credited allocation: 0x0B, and no credit. -/
def objectOut (c : Chain) (t : Target) : Bool := decide (recObj c + 16 > t.size)

/-- Step 6. -/
def giveCredit (s : State) (c : Chain) : State :=
  match recBo c, fullCredit c with
  | true, some n =>
    let g := if recKind c = 2 then some (if c.early then 0 else c.out) else none
    (creditTargets s c).foldl (fun s t =>
      if objectOut c t ∨ genAt s t.core t.base ≠ t.gen then s else creditObject s t.core (t.base + recObj c) n g) s
  | _, _ => s

/-- The ERR a record ends with. -/
def finalErr (s : State) (c : Chain) : Nat :=
  if c.stop ∧ !c.moved then 0x21
  else if recBo c ∧ (creditTargets s c).any (objectOut c) then meet c.err 0x0B else c.err

/-- Step 5: DONE, FOFF and ERR are written and OWN is cleared. -/
def writeStatus (s : State) (c : Chain) (e : Nat) : Got Unit :=
  let l := c.local'
  (engineAt s c l (c.head + 4) 4 .write).andThen fun s p =>
    (engineAt s c l (c.head + 56) 8 .write).andThen fun s q =>
      if l ∧ genAt s c.own.core c.own.base ≠ c.own.gen then .ok s ()
      else
        let s := corePut s c.own.core q (toBytes 4 c.done ++ toBytes 4 c.foff)
        let w := ofBytes (readPlace s 4 p)
        .ok (corePut s c.own.core p (toBytes 4 (setBits (setBits w 23 16 e) 31 31 0))) ()

/-- Step 7: NEXT as it stands now. -/
def readNext (s : State) (c : Chain) : Got Nat :=
  (engineRead c c.local' 4 s (c.head + 8) 8).andThen fun s bs => .ok s (ofBytes bs)

/-- The linked record that has completed retires its `reel.add` (R321, R337). -/
def finishLinks (s : State) (core : Nat) (c : Chain) : State :=
  let mine (x : Link) : Bool := x.addr == c.head && x.local' == c.local' && x.ctx == c.ctx && (!x.local' || x.team == c.team)
  let due := (s.core core).links.filter mine
  let s := s.modCore core fun k => { k with links := k.links.filter fun x => !mine x }
  due.foldl (fun s x => finishOp s x.gid x.op) s

/-! ### The halt of a context's engine work (R348, R426) -/

/-- Chains of a halted context: one that runs a record stops at its next chunk and ends with it, the others leave their queues. -/
def haltChannel (s : State) (core ctx ch : Nat) : State :=
  let cs := (s.core core).channel ch
  let gone := cs.filter fun c => c.ctx == ctx && !c.running
  let s := s.modCore core fun k => k.setChannel ch
    ((cs.filter fun c => !(c.ctx == ctx && !c.running)).map fun c => if c.ctx = ctx then { c with stop := true } else c)
  gone.foldl (fun s c => finishOp s c.gid c.op) s

/-- Spindle jobs of a context on a core stop with ERR 0x21. -/
def haltJobs (s : State) (core ctx : Nat) : State :=
  ((s.groups.filter fun x => x.2.kind == .spindle && x.2.core == core && x.2.ctx == ctx).map fun x => x.1).foldl
    (fun s gid => stopJob s gid 0x21) s

/-- The cause 0x0E goes to the lowest live group of a team, else to the next group of the context to issue on the core
(R426). DEDUCED, log entry 58. -/
def giveHalt (s : State) (core ctx tid : Nat) (info : TrapInfo) : State :=
  match lowestGroup s tid with
  | some gid => deliverCause s gid info
  | none => s.modCore core fun k => k.modResident ctx fun r => { r with owed := some info }

/-- The engine work of a context on a core is halted (R348). -/
def haltEngines (s : State) (core ctx tid addr foff : Nat) : State :=
  let s := s.modCore core fun k => k.modResident ctx fun r => { r with halted := true }
  let s := (fromTo 0 4).foldl (fun s ch => haltChannel s core ctx ch) s
  let s := haltJobs s core ctx
  let due := (s.core core).links.filter fun x => x.ctx == ctx
  let s := s.modCore core fun k => { k with links := k.links.filter fun x => x.ctx != ctx }
  let s := due.foldl (fun s x => finishOp s x.gid x.op) s
  giveHalt s core ctx tid
    { cause := .malformed, source := 2, code := 0x0E, addr := BitVec.ofNat 64 addr, aux := BitVec.ofNat 64 foff }

/-- The chain goes on to its next record, or ends. -/
def nextRecord (s : State) (core ch : Nat) (c : Chain) (e : Nat) : State :=
  if e ≠ 0 ∧ e ≠ 0x13 ∧ e ≠ 0x20 then
    let s := endChain s core ch c
    if e = 0x0E then haltEngines s core c.ctx c.team c.head c.foff else s
  else if c.stop then endChain s core ch c
  else match readNext s c with
    | .ok s n => if n = 0 then endChain s core ch c else setHead s core ch (c.at' n (rf c 42 42 == 1))
    | .wait s p => setHead s core ch { c with park := some p, told := true }
    | .err s _ => endChain s core ch c

/-- Steps 4 to 7 of R334. A record page that is no longer resident is waited for; one that can no longer be written is left
as it is. DEDUCED, log entry 28. -/
def finishRecord (s : State) (core ch : Nat) (c : Chain) : State :=
  let e := finalErr s c
  let s := restorePresence s c c.cleared
  let c := { c with cleared := [], clearing := [] }
  if c.told then nextRecord s core ch c e
  else match writeStatus s c e with
    | .wait s p => setHead s core ch { c with park := some p }
    | .ok s _ => nextRecord (finishLinks (giveCredit s c) core c) core ch c e
    | .err s _ => nextRecord (finishLinks (giveCredit s c) core c) core ch c e

/-! ### Channels (R336, R338) -/

/-- A chain may move: the context is resident on the core within its budget, the chain is parked on nothing, and its engine work is
not halted but for the end of the record that runs. -/
def chainRuns (s : State) (core : Nat) (c : Chain) : Bool :=
  match (s.core core).residentOf c.ctx with
  | some (_, r) => !r.spent && (!r.halted || c.stop) && (c.stop || !engineWaits s c.ctx c.park)
  | none => false

/-- A record has its presence bits to clear. -/
def Chain.clears (c : Chain) : Bool := !c.clearing.isEmpty && !c.moved && !c.stop

/-- A channel's current chain has its record started and not all moved: there is a chunk to move. -/
def chunkDue (s : State) (core ch : Nat) : Bool :=
  match (s.core core).current ch with
  | some c => c.running && !c.moved && !c.stop && !c.clears && chainRuns s core c
  | none => false

/-- A channel's current chain has a record to start, to go on with or to finish. -/
def recordDue (s : State) (core ch : Nat) : Bool :=
  match (s.core core).current ch with
  | some c => (!c.running || c.moved || c.stop || c.clears) && chainRuns s core c
  | none => false

/-- Step 2 of R334 goes on. -/
def clearRecord (s : State) (core ch : Nat) (c : Chain) : State :=
  let (s, c) := clearPresence s c
  setHead s core ch c

/-- REEL_RECORD (R334): the current chain of a channel starts its record, goes on clearing its lines, or finishes it. A chain of a
team that is being saved starts no further one (R350, R443). -/
def execReelRecord (core channel : Nat) (s : State) : Host.Outcome State Fault Refusal :=
  .next (match (s.core core).current channel with
    | none => s
    | some c =>
      if !recordDue s core channel ∨ (!c.running ∧ teamLeft s c.team) then s
      else
        let c := { c with park := none }
        if c.clears then clearRecord s core channel c
        else if c.running then finishRecord s core channel c else startRecord s core channel c)

/-- The channel whose chain has the highest PRIO, ties round-robin from the one after the last served (R338); a channel that is
parked does not hold up the others (R334). -/
def pickChannel (s : State) (core : Nat) : Option Nat :=
  let k := s.core core
  let order := ((fromTo 1 4).map fun i => (k.reelLast + i) % 4).filter (chunkDue s core)
  let prio (ch : Nat) : Nat := ((k.current ch).map Chain.prio).getD 0
  order.foldl (fun best ch => match best with
    | some b => if prio b < prio ch then some ch else some b
    | none => some ch) none

/-- REEL_CHUNK (R338): one chunk of the chosen channel, at 128 bytes a clock. -/
def execReelChunk (core : Nat) (s : State) : Host.Outcome State Fault Refusal :=
  .next (if s.clock < (s.core core).reelFree then s
    else match pickChannel s core with
      | none => s
      | some ch => match (s.core core).current ch with
        | none => s
        | some c =>
          let (s, c, n) := moveChunk 65536 s { c with park := none } 0
          let ls := landedLines c
          let s := restorePresence s c ls
          let s := setHead s core ch { c with cleared := c.cleared.filter fun x => !ls.contains x }
          s.modCore core fun k => { k with reelLast := ch, reelFree := s.clock + ceilDiv n 128 })

/-! ### Instructions (R336, R337, R339) -/

/-- The chain a lane posts. -/
def chainOf (s : State) (c : Ctx) (op head : Nat) (l : Bool) : Option Chain :=
  (s.team c.g.team).map fun t =>
    { team := c.g.team, ctx := c.g.ctx, gid := c.gid, op := op, own := targetOf s t, rank := t.rank
      prio := ((gridOf s c.g).map fun g => g.pkt.prio).getD 0, head := head, local' := l }

/-- A chain joins the tail of a channel, with its `.copy` operation. -/
def postChain (c : Ctx) (s : State) (ch head : Nat) (l : Bool) : State :=
  let (op, s) := beginOp s c.gid 0 none
  match chainOf s c op head l with
  | some x => s.modCore c.core fun k => k.setChannel ch (k.channel ch ++ [x])
  | none => s

/-- Room for the chains of every lane and for their counts. -/
def reelRoom (c : Ctx) (s : State) (ch : Nat) : Option Park :=
  if counterOf c.g 0 + c.runLanes.length > 63 then some (.stall (.counter 0 c.runLanes.length))
  else if ((s.core c.core).channel ch).length + c.runLanes.length > 64 then some (.room (.reel ch c.runLanes.length))
  else none

/-- SPACE of a Reel instruction (R320). -/
def reelLocal (f : Fields) : Bool := f.lowFam == 1

/-- `reel.go` (R336): a post is a release at `.team` (R306). -/
def execReelGo (f : Fields) (s : State) :=
  runGroup (.reelGo f) f s fun c s =>
    let ch := f.imm13.toNat % 4
    match reelRoom c s ch with
    | some p => if c.exec = 0 then .done s else .park s p
    | none =>
      if c.exec = 0 then .done s
      else .done (c.runLanes.foldl (fun s l => postChain c s ch (c.srcA l) (reelLocal f))
        (spendRestart (performStoresOf s c.gid) c.g))

/-- The record at a tail is still to end, and nothing is linked behind it (R337). -/
def tailOpen (s : State) (h : Hit) : Bool :=
  let bs := readPlace s 16 h.place
  bit (ofBytes bs) 63 && ofBytes (bs.drop 8) == 0

/-- One lane's `reel.add` (R337): linked behind a record that is still to end, or posted as a new chain. -/
def addOne (c : Ctx) (s : State) (ch : Nat) (h : Hit) : State × Nat :=
  let new := c.srcB h.lane
  if tailOpen s h then
    let l := bit (ofBytes (readPlace s 16 h.place)) 42
    let s := corePut s c.core (h.place.plus 8) (toBytes 8 new)
    let (op, s) := beginOp s c.gid 0 none
    let x : Link := { addr := new, local' := l, ctx := c.g.ctx, team := c.g.team, gid := c.gid, op := op }
    (s.modCore c.core fun k => { k with links := k.links ++ [x] }, 0)
  else (postChain c s ch new (reelLocal c.f), 1)

/-- The lanes one after another, each with its result. -/
def addAll (c : Ctx) (s : State) (ch : Nat) (hits : List Hit) : State × List (Nat × Nat) :=
  hits.foldl (fun (acc : State × List (Nat × Nat)) h =>
    let (s, x) := addOne c acc.1 ch h
    (s, acc.2 ++ [(h.lane, x)])) (s, [])

/-- `reel.add`: once in each lane, whatever its destination (R318); it waits for room only where it posts. -/
def execReelAdd (f : Fields) (s : State) :=
  runGroup (.reelAdd f) f s fun c s =>
    let ch := f.imm13.toNat % 4
    if c.exec = 0 then .done s
    else if counterOf c.g 0 + c.lanes.length > 63 then .park s (.stall (.counter 0 c.lanes.length))
    else
      let rs := c.lanes.map fun l => ({ lane := l, addr := BitVec.ofNat 64 (c.srcA l), n := 16 } : Req)
      let sp : Space := if reelLocal f then .l else .g
      match addrCauses s c.g sp rs with
      | some t => .trap s t
      | none =>
        let r := if reelLocal f then reachLocal s c.g rs else reachGlobal s c.core c.g.ctx .write c.g.priv rs
        r.andThen s fun s hits =>
          match hits.find? fun h => h.peer.isSome || (bankOf h.place).isSome with
          | some h => .trap s { cause := .localBounds, addr := h.addr, lane := some h.lane }
          | none =>
            consume s hits fun s =>
              let t := spendRestart (performStoresOf (touchHits s c.core c.g.ctx .write hits) c.gid) c.g
              let (t, rs) := addAll c t ch hits
              let posts := (rs.filter fun x => x.2 == 1).length
              if ((s.core c.core).channel ch).length + posts > 64 then .park s (.room (.reel ch posts))
              else .done (t.modGroup c.gid fun g => g.setThread (rs.foldl (fun t x => c.wr t x.1 x.2) g.thread))

/-- The snapshot of R339. -/
def reelSnapshot (k : Core) (ctx ch : Nat) : Nat :=
  let cs := (k.channel ch).filter fun c => c.ctx == ctx
  let head := match k.current ch with
    | some c => c.ctx == ctx
    | none => false
  let spent := ((k.residentOf ctx).map fun r => r.2.spent).getD false
  packNat [(8, cs.length), (1, b2n (cs.any Chain.begun)), (1, b2n (head && spent)), (1, b2n (k.halted ctx))]

/-- `reel.st`. -/
def execReelSt (f : Fields) (s : State) :=
  runGroup (.reelSt f) f s fun c s =>
    .done (writeOnce c s (reelSnapshot (s.core c.core) c.g.ctx (f.imm13.toNat % 4)))

end Sys2Proof.Machine
end

