-- ==== Sys2Proof/Machine/Spindle.lean ====
section
/-!
DEFINITION. The Spindle (R351 to R359): job descriptors, the check of a program, its queues, and how a job issues and ends.
-/
namespace Sys2Proof.Machine
open Sys2Proof

/-! ### The check of a program (R353) -/

/-- An opcode that may appear in a Spindle program. -/
def spindleAllows : Instr → Bool
  | .clauseHeader _ | .nop _ | .bru _ | .exit _ | .trap _ | .srd _ | .qpush _ => true
  | .ld f => decide (f.space ≠ .k) && f.order == .rlx
  | .st f => f.space == .l && f.order == .rlx
  | i => match rowOf i with
    | some r => (decide (0x001 ≤ r.opcode) && decide (r.opcode ≤ 0x01D)) ||
        (decide (0x080 ≤ r.opcode) && decide (r.opcode ≤ 0x083))
    | none => false

/-- Every vector and scalar register named lies below 32. -/
def regsBelow32 (i : Instr) : Bool :=
  match fieldsOf i with
  | none => true
  | some f => (regsOf i f (spansOf i f)).all fun r => r.1 == 2 || decide (r.2 < 32)

/-- The program as decoded: what was read, a page to wait for, or a failed check. -/
inductive Program where
  | ok (is : List (Nat × Instr)) (endAt : Nat)
  | wait (p : Park)
  | bad
  deriving DecidableEq, Repr

/-- The first `n` instructions from an address, decoded by length. -/
def readProgram (s : State) (g : Group) : Nat → Nat → List (Nat × Instr) → Program
  | 0, pc, is => .ok is.reverse pc
  | n + 1, pc, is => match fetchAt s g (BitVec.ofNat 64 pc) with
    | .ok i len => readProgram s g n (pc + len) ((pc, i) :: is)
    | .park p => .wait p
    | _ => .bad

/-- The target of a `bru` at an address. -/
def bruTarget (pc : Nat) (f : Fields) : Nat := (BitVec.ofNat 64 pc + 4#64 * immOffset f).toNat

/-- The branches of a program: address and target. -/
def branches (is : List (Nat × Instr)) : List (Nat × Nat) :=
  is.filterMap fun x => match x.2 with
    | .bru f => some (x.1, bruTarget x.1 f)
    | _ => none

/-- The backward branches with their limits, in address order. -/
def loopsOf (is : List (Nat × Instr)) (limits : List Nat) : List (Nat × Nat × Nat) :=
  (((branches is).filter fun b => decide (b.2 ≤ b.1)).zip limits).map fun x => (x.1.1, x.2, 0)

/-- Where an instruction of a program, by its place in it, may lead within its clause: the next one and the target of a `bru`. -/
def clauseSteps (is : List (Nat × Instr)) (i : Nat) : List Nat :=
  match (is.drop i).head? with
  | none => []
  | some (_, .clauseHeader _) => []
  | some (pc, .bru f) => (i + 1) :: (indexOf? (fun x => x.1 == bruTarget pc f) is 0).toList
  | some _ => [i + 1]

/-- What can be reached in some steps without passing a header. -/
def clauseReach (is : List (Nat × Instr)) : Nat → List Nat → List Nat
  | 0, seen => seen
  | n + 1, seen => clauseReach is n (dedup (seen ++ seen.flatMap (clauseSteps is)))

/-- An instruction names no flag that a clause header does not permit; without a header none is (R29). -/
def flagAllowed (h : Option Header) (i : Instr) : Bool :=
  match (fieldsOf i).bind Fields.flag, h with
  | none, _ => true
  | some k, some n => n.flagX == some k || n.flagY == some k
  | some _, none => false

/-- Every instruction that can be reached behind a clause header names only flags that it permits (R29, R53, R353). -/
def flagsOk (is : List (Nat × Instr)) : Bool :=
  let behind (h : Option Header) (i : Nat) : Bool :=
    (clauseReach is is.length [i]).all fun k => (((is.drop k).head?).map fun x => flagAllowed h x.2).getD true
  behind none 0 && is.zipIdx.all fun x => match x.1.2 with
    | .clauseHeader h => behind (some h) (x.2 + 1)
    | _ => true

/-- The check of R353 on what has been decoded. -/
def programOk (is : List (Nat × Instr)) (limits : List Nat) : Bool :=
  let back := (branches is).filter fun b => decide (b.2 ≤ b.1)
  is.all (fun x => spindleAllows x.2 && regsBelow32 x.2) && flagsOk is &&
  (branches is).all (fun b => is.any fun x => x.1 == b.2) && decide (back.length ≤ 4) &&
  (loopsOf is limits).all fun l => l.2.1 != 0

/-! ### Starting and stopping jobs (R352, R354, R358) -/

/-- A reserved field of a descriptor, or a PLEN outside its range: status 3. -/
def jobBad (d : Nat) : Bool :=
  bits d 439 384 != 0 || bits d 191 184 != 0 || bits d 127 73 != 0 || bits d 63 56 != 0 || bits d 1 0 != 0 ||
  bits d 72 64 == 0 || decide (bits d 72 64 > 256) || bits d 255 224 == 0

/-- LOOP0 to LOOP3. -/
def jobLimits (d : Nat) : List Nat := [bits d 335 320, bits d 351 336, bits d 367 352, bits d 383 368]

/-- Queue q holds a running job or unread entries: status 1. -/
def queueBusy (q : SpQueue) : Bool := q.running || !q.entries.isEmpty || q.ending.isSome

/-- The registers of a job at its start (R354). -/
def jobThread (d : Nat) : Thread :=
  let t : Thread := { nv := 32, ns := 32 }
  let t := setSwide t 0 2 (bits d 183 128)
  let t := setSwide t 2 1 (bits d 223 192)
  let t := setSwide t 3 1 (bits d 255 224)
  setSwide t 4 2 (bits d 319 256)

/-- The group that a job runs as (R351). -/
def jobGroup (c : Ctx) (q d : Nat) : Group :=
  { kind := .spindle, core := c.core, slice := 16, slot := q, ctx := c.g.ctx, team := c.g.team, g := q, width := 16
    main := jobThread d, seed := c.g.seed, cindex := c.g.cindex }

/-- A job starts: its queue is bound, the words the engine writes are cleared, the group stands at PROG. DEDUCED, log entry 30. -/
def startJob (c : Ctx) (s : State) (q d : Nat) (desc : Hit) (is : List (Nat × Instr)) (endAt : Nat) : State :=
  let s := corePut (corePut s c.core (desc.place.plus 55) [0]) c.core (desc.place.plus 56) (toBytes 8 0)
  let (gid, s) := s.newId
  let g := jobGroup c q d
  let g := { g with main := { g.main with frontier := startFrontier s g (lowLanes 16) (BitVec.ofNat 64 (bits d 55 0)) } }
  let x : SpQueue :=
    { ctx := some c.g.ctx, running := true, team := c.g.team, gid := gid, limit := bits d 255 224
      desc := desc.addr.toNat, prog := bits d 55 0, progEnd := endAt, loops := loopsOf is (jobLimits d)
      halts := ((s.core c.core).spq q).halts, reports := ((s.core c.core).spq q).reports }
  (s.setGroup gid g).modCore c.core fun k => k.setSpq q x

/-- `sp.go` (R358): the status goes to d. -/
def execSpGo (f : Fields) (s : State) :=
  runGroup (.spGo f) f s fun c s =>
    if c.exec = 0 then .done s
    else
      let q := f.imm13.toNat % 4
      let r : Req := { lane := c.low, addr := BitVec.ofNat 64 (c.srcA c.low), n := 64 }
      plainReads c s false [r] fun s vals =>
        let d := ((vals.head?).map fun x => x.2.2).getD 0
        let s := spendRestart (performStoresOf s c.gid) c.g
        if queueBusy ((s.core c.core).spq q) then .done (writeScalar c s 1)
        else if jobBad d then .done (writeScalar c s 3)
        else match readProgram s (jobGroup c q d) (bits d 72 64) (bits d 55 0) [] with
          | .wait p => .park s p
          | .bad => .done (writeScalar c s 2)
          | .ok is endAt =>
            if !programOk is (jobLimits d) then .done (writeScalar c s 2)
            else (reachGlobal s c.core c.g.ctx .write c.g.priv [r]).andThen s fun s hits =>
              let s := touchHits s c.core c.g.ctx .write hits
              .done (writeScalar c (hits.foldl (fun s h => startJob c s q d h is endAt) s) 0)

/-- `sp.stop` (R358). -/
def execSpStop (f : Fields) (s : State) :=
  runGroup (.spStop f) f s fun c s =>
    let q := f.imm13.toNat % 4
    if c.exec = 0 then .done s
    else
      let s := spendRestart s c.g
      .done (if ((s.core c.core).spq q).ctx = some c.g.ctx then unbindQueue s c.core q else s)

/-! ### Queues (R356, R357) -/

/-- The word of an entry for a lane. -/
def QEntry.word (e : QEntry) (l : Nat) : Nat := ((e.words.drop (l % 16)).head?.getD 0).toNat

/-- Queue q, bound to the issuing context, or 0x06. -/
def withQueue (c : Ctx) (s : State) (k : SpQueue → Res) : Res :=
  if c.exec = 0 then .done s
  else
    let q := (s.core c.core).spq (c.f.imm13.toNat % 4)
    if q.ctx ≠ some c.g.ctx then .trap s { cause := .protection, aux := 6 } else k q

/-- The oldest entry leaves its queue. -/
def takeEntry (c : Ctx) (s : State) : State :=
  s.modCore c.core fun k =>
    let n := c.f.imm13.toNat % 4
    k.setSpq n { (k.spq n) with entries := (k.spq n).entries.drop 1 }

/-- An entry is taken: its words go to d; a poison entry raises 0x13. -/
def takeWords (c : Ctx) (s : State) (e : QEntry) (k : Thread → Thread) : Res :=
  let s := takeEntry c s
  if e.poison then .trap s { cause := .poison }
  else .done (s.modGroup c.gid fun g =>
    g.setThread (k (c.lanes.foldl (fun t l => c.wr t l (e.word l)) g.thread)))

/-- `qpop` (R357). -/
def execQpop (f : Fields) (s : State) :=
  runGroup (.qpop f) f s fun c s => withQueue c s fun q =>
    let s := spendRestart s c.g
    match q.entries with
    | e :: _ => takeWords c s e fun t => t
    | [] =>
      if q.running ∨ q.ending.isSome then .park s (.room (.entry (f.imm13.toNat % 4)))
      else .done (s.modGroup c.gid fun g => g.setThread (c.lanes.foldl (fun t l => c.wr t l 0) g.thread))

/-- `qtry` (R357). -/
def execQtry (f : Fields) (s : State) :=
  runGroup (.qtry f) f s fun c s => withQueue c s fun q =>
    let s := spendRestart s c.g
    let flag (t : Thread) (x : Nat) : Thread := c.lanes.foldl (fun t l => writeOperand t l 1 x f.c) t
    match q.entries with
    | e :: _ => takeWords c s e fun t => flag t 1
    | [] => .done (s.modGroup c.gid fun g => g.setThread (flag g.thread 0))

/-- `qpush` (R356); the job's earlier stores are seen by the group that takes the entry (R306). -/
def execQpush (f : Fields) (s : State) :=
  runGroup (.qpush f) f s fun c s =>
    if c.exec = 0 then .done s
    else
      let q := (s.core c.core).spq c.g.g
      if q.entries.length ≥ 64 then .park s (.room (.slot c.g.g))
      else if q.done ≥ q.limit then .moved (stopJob s c.gid 0x0E)
      else
        let e : QEntry :=
          { words := (fromTo 0 16).map fun i => if c.exec.getLsbD i then BitVec.ofNat 32 (c.srcA i) else 0 }
        .done ((performLocalOf s c.gid).modCore c.core fun k => k.setSpq c.g.g { q with entries := q.entries ++ [e], done := q.done + 1 })

/-! ### The slot (R351) -/

/-- The job of a queue can issue now. -/
def jobReady (s : State) (core q : Nat) : Bool :=
  let x := (s.core core).spq q
  x.running && match s.group x.gid with
    | some g => !(s.core core).halted g.ctx && (ready s x.gid g).isSome
    | none => false

/-- A job has passed the last of its instructions (R354). -/
def passedEnd (s : State) (q : SpQueue) : Bool :=
  match (s.group q.gid).bind fun g => headOf g.main with
  | some e => decide (e.pc.toNat ≥ q.progEnd) || decide (e.pc.toNat < q.prog)
  | none => false

/-- SPINDLE_ISSUE (R351): one instruction of the next job that is ready. DESIGN CHOICE, log entry 29. -/
def execSpindleIssue (core : Nat) (s : State) : Host.Outcome State Fault Refusal :=
  .next (match ((fromTo 1 4).map fun i => ((s.core core).spLast + i) % 4).find? (jobReady s core) with
    | none => s
    | some q =>
      let s := s.modCore core fun k => { k with spLast := q }
      let x := (s.core core).spq q
      if passedEnd s x then stopJob s x.gid 0x0E else { s with agenda := .issue x.gid :: s.agenda })

/-- Poison entries fill the queue as far as it has room (R359). -/
def pushPoison (q : SpQueue) : SpQueue :=
  let n := Nat.min (64 - q.entries.length) q.poison
  { q with entries := q.entries ++ List.replicate n { words := [], poison := true }, poison := q.poison - n }

/-- FOFF, DONE and ERR reach a descriptor; `none` while its page is awaited. -/
def writeReport (s : State) (core : Nat) (r : Report) : Option State × State :=
  match engineGlobal s core r.ctx (r.desc + 52) .write with
  | .wait s _ => (none, s)
  | .err s _ => (some s, s)
  | .ok s p => match engineGlobal s core r.ctx (r.desc + 56) .write with
    | .ok s q =>
      let w := ofBytes (readPlace s 4 p)
      let s := corePut s core q (toBytes 4 r.done ++ toBytes 4 r.foff.toNat)
      let s := corePut s core p (toBytes 4 (setBits w 31 24 r.err))
      (some s, s)
    | .wait s _ => (none, s)
    | .err s _ => (some s, s)

/-- The halts that ends of jobs of a queue bring happen (R348, R359). -/
def runHalts (s : State) (core queue : Nat) : State :=
  let q := (s.core core).spq queue
  q.halts.foldl (fun s h => haltEngines s core h.ctx h.team h.desc h.foff.toNat)
    (s.modCore core fun k => k.setSpq queue { q with halts := [] })

/-- SPINDLE_JOB_END (R359): an ERR of 0x0E halts the context's engine work (R348); poison entries are pushed as the queue has
room; when all have been, FOFF, DONE and ERR are written. DEDUCED, log entry 30. -/
def execSpindleJobEnd (core queue : Nat) (s : State) : Host.Outcome State Fault Refusal :=
  let s := runHalts s core queue
  let q := (s.core core).spq queue
  .next (match q.ending with
    | some (e, w) =>
      let x := pushPoison q
      s.modCore core fun k => k.setSpq queue
        (if x.poison = 0 then { x with ending := none, reports := x.reports ++ [reportOf s x e w] } else x)
    | none => match q.reports with
      | r :: rest => match writeReport s core r with
        | (some s, _) => s.modCore core fun k => k.setSpq queue { (k.spq queue) with reports := rest }
        | (none, s) => s
      | [] => s)

end Sys2Proof.Machine
end

