-- ==== Sys2Proof/Machine/Front.lean ====
section
/-!
DEFINITION. Command front ends (R215 to R228): doorbells, rings, the checks of launch packets, dependences, completion words,
and the placement of clusters and binding of groups.
-/
namespace Sys2Proof.Machine
open Sys2Proof

/-! ### Packets (R220 to R222) -/

/-- The fields of a packet, with counts as values. -/
def Packet.ofNat (x : Nat) : Packet :=
  { entry := bits x 55 0, tiles := bits x 60 56, matoff := toSigned 24 (bits x 87 64), accum := bits x 93 88
    seed := BitVec.ofNat 32 (bits x 127 96), params := bits x 183 128, resid := bits x 191 184, gridx := bits x 223 192
    gridy := bits x 255 224, gridz := bits x 287 256, width := 16 * 2 ^ bits x 289 288, vregs := 8 * (bits x 294 290 + 1)
    sregs := 16 * (bits x 297 295 + 1), team := bits x 303 298 + 1, clw := bits x 306 304 + 1, clh := bits x 309 307 + 1
    scratch := bits x 312 310 + 1, prio := bits x 315 313, cores := bit x 316, idemp := bit x 317, dep := bits x 319 318
    colmask := bits x 383 320, depaddr := bits x 439 384, depcmp := bits x 447 445, depval := bits x 511 448 }

/-- Clusters of a grid. -/
def Packet.clusters (p : Packet) : Nat := p.gridx * p.gridy * p.gridz

/-- A reserved field or code: 0x01. -/
def packetReserved (x : Nat) : Bool :=
  bits x 63 61 != 0 || bits x 95 94 != 0 || bits x 444 440 != 0 || bits x 289 288 == 3 || decide (bits x 312 310 ≥ 5) ||
  decide (bits x 309 307 ≥ 6) || bits x 319 318 == 3 || decide (bits x 447 445 ≥ 2)

/-- A count out of range: 0x02. -/
def packetRange (p : Packet) : Bool :=
  decide (p.team * p.width > 4096) || decide (p.clw * p.clh > 12) || decide (p.accum > 32) || decide (p.tiles > 16) ||
  p.clusters == 0 || decide (p.clusters > 2 ^ 32)

/-- The address of a packet's matrix stream. -/
def Packet.stream (p : Packet) : Nat := ofInt 64 ((p.entry : Int) + 32 * p.matoff)

/-- A broken alignment: 0x03. -/
def packetAlign (p : Packet) : Bool :=
  p.entry % 4 != 0 || p.params % 65536 != 0 || p.depaddr % 8 != 0 || (p.matoff != 0 && p.stream % 32 != 0)

/-! ### Binding groups (R187, R188, R228) -/

/-- A slice of a core takes groups: it is in service (R423). -/
def sliceServes (s : State) (core n : Nat) : Bool := !((s.core core).slice n).out

/-- Group slots in use in a slice. -/
def slotsUsed (s : State) (core n : Nat) : List Nat :=
  (s.groups.filter fun x => x.2.core == core && x.2.slice == n && x.2.kind != .spindle && !x.2.out).map fun x => x.2.slot

/-- A slice as groups of one context are bound to it: number, free lines, slots in use. -/
structure SliceRoom where
  n     : Nat
  lines : Nat
  used  : List Nat
  deriving DecidableEq, Repr

def sliceRooms (s : State) (core ctx : Nat) : List SliceRoom :=
  ((fromTo 0 16).filter (sliceServes s core)).map fun n =>
    { n := n, lines := freeLines s core n ctx, used := slotsUsed s core n }

/-- The lowest free slot. -/
def freeSlotOf (r : SliceRoom) : Option Nat := (fromTo 0 32).find? fun k => !r.used.contains k

/-- One group that needs `need` lines: the slice with the most free lines, the lowest on a tie, and the lowest slot. -/
def bindOne (rs : List SliceRoom) (need : Nat) : Option (Nat × Nat × List SliceRoom) :=
  let fit := rs.filter fun r => decide (r.lines ≥ need) && (freeSlotOf r).isSome
  let best := fit.foldl (fun (b : Option SliceRoom) r => match b with
    | some x => if x.lines < r.lines then some r else some x
    | none => some r) none
  match best with
  | none => none
  | some r =>
    let slot := (freeSlotOf r).getD 0
    some (r.n, slot, rs.map fun x => if x.n = r.n then { x with lines := x.lines - need, used := slot :: x.used } else x)

/-- Groups bound one after another: (slice, slot) of each. -/
def bindAll : List SliceRoom → List Nat → Option (List (Nat × Nat))
  | _, [] => some []
  | rs, need :: needs => match bindOne rs need with
    | none => none
    | some (n, slot, rs) => (bindAll rs needs).map fun l => (n, slot) :: l

/-! ### Eligibility (R226, R449) -/

/-- What a team needs of a core, whether it is launched or resumed. -/
structure Need where
  ctx    : Nat
  /-- Lines of each group. -/
  lines  : List Nat
  scratch : Nat
  accum  : Nat
  tiles  : Nat
  colmask : Nat
  resid  : Nat
  deriving DecidableEq, Repr

def Packet.need (p : Packet) (ctx : Nat) : Need :=
  { ctx := ctx, lines := List.replicate p.team (linesFor p.width p.vregs p.sregs), scratch := p.scratch, accum := p.accum
    tiles := p.tiles, colmask := p.colmask, resid := p.resid }

/-- The teams on a core; a saved one is on none. -/
def teamsOn (s : State) (core : Nat) : List Team :=
  (s.teams.filter fun x => x.2.core == core && !x.2.saved).map fun x => x.2

/-- The first granule of the lowest free run of `n` of the five (R226, R233). -/
def freeRun (s : State) (core n : Nat) : Option Nat :=
  let used (i : Nat) : Bool := (teamsOn s core).any fun t => decide (t.granule ≤ i ∧ i < t.granule + t.granules)
  (fromTo 0 6).find? fun i => decide (i + n ≤ 5) && (fromTo i n).all fun j => !used j

/-- Every handle of a mask is mapped for a context on a core. -/
def handlesMapped (s : State) (core ctx mask : Nat) : Bool :=
  (fromTo 0 64).all fun h => !bit mask h || (objectOf s core ctx h).isSome

/-- A listed page lies in a fork region that is still to be built, and the template maps it: its translation would wait, not
fault (R449, R454). DEDUCED, log entry 38. -/
def listedPending (s : State) (c : Context) (va : Nat) : Bool :=
  regionPending c .read va && match (c.forkPeer.bind s.ctx).map fun t => walkTables s t va with
    | some (.leaf _) => true
    | _ => false

/-- A listed page counts as resident for R449. -/
def listedResident (s : State) (c : Context) (va : Nat) : Bool :=
  if listedPending s c va then false
  else match walkTables s c va with
  | .leaf l => l.giB || pteRES l.pte
  | .bad _ => true

/-- Entry i of the working-set list, through the leaf of its page. -/
def wsEntry (s : State) (c : Context) (l : Leaf) (i : Nat) : Nat :=
  let va := c.wsBase.toNat + 8 * i
  ofBytes (readPlace s 8 (placeUnder s (leafDom c l va) (leafPa l va)))

/-- What the working-set list of a context holds (R448): `none` while its page is not there to be read; a list that is not mapped lists
nothing. DEDUCED, log entry 38. -/
def wsList (s : State) (c : Context) : Option (List Nat) :=
  if c.wsLen = 0 ∨ c.wsBase.toNat ≥ 2 ^ 56 then some []
  else if regionPending c .read c.wsBase.toNat then none
  else match walkTables s c c.wsBase.toNat with
    | .bad _ => some []
    | .leaf l =>
      if !pteRES l.pte then none
      else some ((fromTo 0 c.wsLen).map fun i => wsEntry s c l i)

/-- The page an entry names. -/
def wsPage (e : Nat) : Nat := bits e 55 17 * 131072

/-- The residency threshold is met (R449). -/
def residMet (s : State) (ctx resid : Nat) : Bool :=
  resid == 0 ||
  match s.ctx ctx with
  | none => false
  | some c => match wsList s c with
    | none => false
    | some es =>
      let n := (es.filter fun e => listedResident s c (wsPage e)).length
      decide (n * 255 ≥ resid * es.length)

/-- The island of a core is powered and has been long enough (R518). -/
def corePowered (s : State) (core : Nat) : Bool :=
  let i := s.island (coreDie core * 12 + core % 48 / 4)
  i.on && i.upAt.isNone

/-- A core is eligible for a team, its context and column needs apart (R226, R228, R174). DEDUCED, log entry 34. -/
def coreFits (s : State) (n : Need) (core : Nat) : Bool :=
  let ts := teamsOn s core
  (bindAll (sliceRooms s core n.ctx) n.lines).isSome && (freeRun s core n.scratch).isSome &&
  decide ((ts.map Team.accum).foldl (· + ·) 0 + n.accum ≤ 32) && decide ((ts.map Team.tiles).foldl (· + ·) 0 + n.tiles ≤ 64)

/-- A core is eligible (R226). -/
def eligible (s : State) (n : Need) (core : Nat) : Bool :=
  ((s.core core).residentOf n.ctx).isSome &&
  corePowered s core && handlesMapped s core n.ctx n.colmask && coreFits s n core

/-! ### The search (R225) -/

/-- The cores of the rectangle with its corner at `c`, in rank order; `none` where it leaves its die. -/
def rectangle (c cw ch : Nat) : Option (List Nat) :=
  if coreX c + cw > 8 ∨ coreY c + ch > 6 then none
  else some ((fromTo 0 ch).flatMap fun dy => (fromTo 0 cw).map fun dx => coreAt (coreDie c) (coreX c + dx) (coreY c + dy))

/-- A front end has cores. -/
def FrontEnd.cores (f : FrontEnd) : List Nat := if f.limit < f.base then [] else fromTo f.base (f.limit + 1 - f.base)

/-- The first rectangle of a shape in a partition, in the order of the search; `ok` says which cells may be used. -/
def findRectangle (f : FrontEnd) (cw ch : Nat) (ok : Nat → Bool) : Option (List Nat) :=
  f.cores.findSome? fun c => match rectangle c cw ch with
    | some cells => if cells.all fun x => decide (f.base ≤ x ∧ x ≤ f.limit) && ok x
        then some cells else none
    | none => none

/-! ### Placing (R174, R228, R366) -/

/-- Quadrants of the accumulator tiles in use on a core: how many each holds. -/
def quadUse (s : State) (core q : Nat) : Nat :=
  ((teamsOn s core).map fun t => (t.quads.filter fun x => x == q).length).foldl (· + ·) 0

/-- Quadrants for `n` new tiles: tile j in j mod 4 if it has room, else the one with the most free tiles (R366). -/
def placeTiles (used : Nat → Nat) : Nat → Nat → List Nat → List Nat
  | 0, _, qs => qs
  | n + 1, j, qs =>
    let free (q : Nat) : Nat := 8 - used q - (qs.filter fun x => x == q).length
    let q := if free (j % 4) > 0 then j % 4
      else (fromTo 1 3).foldl (fun b q => if free b < free q then q else b) 0
    placeTiles used n (j + 1) (qs ++ [q])

/-- The launch registers `s0` to `s3` (R15): the parameter block's address, C and g. -/
def launchRegs (params C g : Nat) : Table Word :=
  [BitVec.ofNat 32 params, BitVec.ofNat 32 (params / 2 ^ 32), BitVec.ofNat 32 C, BitVec.ofNat 32 g].zip (fromTo 0 4)
    |>.foldl (fun m x => tput 0 m x.2 x.1) []

/-- A group as launched (R174). -/
def newGroup (s : State) (p : Packet) (ctx tid core C k g : Nat) (at' : Nat × Nat) (age : Nat) : Group :=
  let tbase := (k * p.team + g) * p.width
  let x : Group :=
    { core := core, slice := at'.1, slot := at'.2, ctx := ctx, team := tid, g := g, width := p.width
      main := { sregs := launchRegs p.params C g, nv := p.vregs, ns := p.sregs, rng := seedAll p.seed C tbase p.width }
      seed := p.seed, cindex := C, tbase := tbase, age := age, lineBanks := [(0, ownedBanks s core ctx)] }
  { x with main := { x.main with frontier := startFrontier s x x.full (BitVec.ofNat 64 p.entry) } }

/-- Groups of a new team, in ascending g. -/
def addGroups (p : Packet) (ctx tid core C k : Nat) : State → Nat → List (Nat × Nat) → State
  | s, _, [] => s
  | s, g, x :: xs =>
    let (gid, s) := s.newId
    addGroups p ctx tid core C k (s.setGroup gid (newGroup s p ctx tid core C k g x gid)) (g + 1) xs

/-- A team without a stream has no descriptors or tiles in use (R364). -/
def Packet.tilesUsed (p : Packet) : Nat := if p.matoff = 0 then 0 else p.tiles
def Packet.accumUsed (p : Packet) : Nat := if p.matoff = 0 then 0 else p.accum

/-- A team of a cluster starts on a core (R174). DESIGN CHOICE, log entry 31. -/
def addTeam (s : State) (p : Packet) (ctx cid C k core : Nat) : State :=
  match bindAll (sliceRooms s core ctx) (p.need ctx).lines, freeRun s core p.scratch with
  | some slots, some gr =>
    let (tid, s) := s.newId
    let t : Team :=
      { cluster := cid, core := core, rank := k, groups := p.team, width := p.width, nv := p.vregs, ns := p.sregs
        tiles := p.tilesUsed, accum := p.accumUsed, granule := gr, granules := p.scratch
        gen := genAt s core (gr * 262144)
        seq := if p.matoff = 0 then none else some { pc := BitVec.ofNat 64 p.stream }
        quads := placeTiles (quadUse s core) p.accumUsed 0 [], restartable := p.idemp }
    addGroups p ctx tid core C k ((freshCaches s core).setTeam tid t) 0 slots
  | _, _ => s

/-- Teams of a cluster on its cores, ranks ascending. -/
def addTeams (p : Packet) (ctx cid C : Nat) : State → Nat → List Nat → State
  | s, _, [] => s
  | s, k, core :: cores => addTeams p ctx cid C (addTeam s p ctx cid C k core) (k + 1) cores

/-- Cluster C of a grid begins on a rectangle (R174, R175). -/
def beginCluster (s : State) (gid : Nat) (g : Grid) (C : Nat) (cells : List Nat) : State :=
  let (cid, s) := s.newId
  let s := { s with clusters := tins s.clusters cid { grid := gid, index := C, cores := cells } }
  addTeams g.pkt g.ctx cid C s 0 cells

/-! ### What a grid places next (R175, R225, R428) -/

/-- The next cluster: a saved one that waits to resume, a flushed one, or one that has not begun. -/
inductive Next where
  | saved (cid : Nat)
  | fresh (C : Nat)
  deriving DecidableEq, Repr

/-- A cluster is wholly saved. -/
def Cluster.waitsResume (c : Cluster) : Bool :=
  match c.saved with
  | some _ => c.cores.isEmpty
  | none => false

/-- Saved clusters of a grid, in ascending C. -/
def savedOf (s : State) (gid : Nat) : List (Nat × Cluster) :=
  sortBy (fun a b => decide (a.2.index < b.2.index))
    (s.clusters.filter fun c => c.2.grid == gid && c.2.waitsResume)

/-- A co-resident grid of which a cluster is still leaving its cores: its clusters are resumed as one (R176). DEDUCED, log entry 33. -/
def gridLeaves (s : State) (gid : Nat) (g : Grid) : Bool := g.pkt.cores && s.clusters.any fun c => c.2.grid == gid && c.2.leaving != 0

/-- Clusters that begin again or are resumed come before those that have not begun. -/
def nextOf (s : State) (gid : Nat) (g : Grid) : Option Next :=
  if gridLeaves s gid g then none
  else match (savedOf s gid).head?, (sortBy (fun a b => decide (a < b)) g.restart).head? with
  | some (cid, c), some C => some (if C < c.index then .fresh C else .saved cid)
  | some (cid, _), none => some (.saved cid)
  | none, some C => some (.fresh C)
  | none, none => if g.begun < g.pkt.clusters then some (.fresh g.begun) else none

/-- What a saved cluster's team needs: its groups' own counts, its scratchpad, tiles and descriptors. -/
def savedNeed (s : State) (tid : Nat) (p : Packet) (ctx : Nat) : Need :=
  { (p.need ctx) with lines := (groupsOf s tid).map fun g => linesFor g.2.width g.2.main.nv g.2.main.ns }

/-- The needs of a cluster, rank by rank. -/
def needsOf (s : State) (g : Grid) : Next → List Need
  | .fresh _ => List.replicate (g.pkt.clw * g.pkt.clh) (g.pkt.need g.ctx)
  | .saved cid => (teamsOf s cid).map fun tid => savedNeed s tid g.pkt g.ctx

/-- Where the next cluster of a grid fits now; a core that is being vacated takes none until that request is complete (R456).
DEDUCED, log entry 49. -/
def fitFor (s : State) (g : Grid) (n : Next) : Option (List Nat) :=
  let f := s.front g.fe
  let ok (n : Need) (core : Nat) : Bool := !f.vacating.contains core && eligible s n core
  if !residMet s g.ctx g.pkt.resid then none
  else match n with
    | .fresh _ => findRectangle f g.pkt.clw g.pkt.clh (ok (g.pkt.need g.ctx))
    | .saved _ =>
      let needs := needsOf s g n
      f.cores.findSome? fun c => match rectangle c g.pkt.clw g.pkt.clh with
        | some cells =>
          if (cells.zip needs).all fun x => decide (f.base ≤ x.1 ∧ x.1 ≤ f.limit) && ok x.2 x.1
          then some cells else none
        | none => none

/-- The grids a front end may place from: begun, with a cluster to place, by PRIO and then order of acceptance. -/
def readyGrids (s : State) (fe : Nat) : List (Nat × Grid) :=
  sortBy (fun a b => decide (a.2.pkt.prio > b.2.pkt.prio) || (a.2.pkt.prio == b.2.pkt.prio && decide (a.2.order < b.2.order)))
    (s.grids.filter fun g => g.2.fe == fe && g.2.state == .begun && (nextOf s g.1 g.2).isSome)

/-- The grids that no blocking grid holds back (R225): the first blocking one, and those of higher priority. -/
def unblocked (gs : List (Nat × Grid)) : List (Nat × Grid) :=
  match gs.find? fun x => x.2.blocking with
  | some b => gs.filter fun x => x.1 == b.1 || decide (x.2.pkt.prio > b.2.pkt.prio)
  | none => gs

/-- A cluster whose next has been placed counts as begun. -/
def countBegun (n : Next) (g : Grid) : Grid :=
  let g := { g with failedAt := none, blocking := false }
  match n with
  | .saved _ => g
  | .fresh C => if C = g.begun then { g with begun := g.begun + 1 } else { g with restart := g.restart.filter fun x => x != C }

/-! ### Checks of a packet against the partition (R222) -/

/-- The partition with nothing placed and the context resident on every core with all eight banks. -/
def emptyPartition (s : State) (fe ctx : Nat) : State :=
  let r : Resident := { ctx := ctx, banks := 255 }
  { s with
    groups := [], teams := [], clusters := []
    cores := (s.front fe).cores.foldl (fun t c => tins t c { residents := [(0, r)] }) [] }

/-- Room for the clusters of a whole grid, placed one after another. -/
def fitsAll (p : Packet) (ctx fe : Nat) : Nat → State → Bool
  | 0, _ => true
  | n + 1, s =>
    match findRectangle (s.front fe) p.clw p.clh (coreFits s (p.need ctx)) with
    | some cells =>
      let (cid, s) := s.newId
      fitsAll p ctx fe n (addTeams p ctx cid 0 s 0 cells)
    | none => false

/-- The grid cannot be placed even in the empty partition: 0x04. -/
def cannotPlace (s : State) (fe ctx : Nat) (p : Packet) : Bool :=
  let e := emptyPartition s fe ctx
  if p.cores then decide (p.clusters > 98304) || !fitsAll p ctx fe p.clusters e else !fitsAll p ctx fe 1 e

/-- The rejection code of a packet, 0 when it passes. -/
def rejection (s : State) (fe ctx x : Nat) : Nat :=
  let p := Packet.ofNat x
  if packetReserved x then 1
  else if packetRange p then 2
  else if packetAlign p then 3
  else if cannotPlace s fe ctx p then 4
  else if p.colmask != 0 && !(s.front fe).cores.any fun c => handlesMapped s c ctx p.colmask then 5
  else 0

/-! ### Completion words (R217, R218) -/

/-- A queue halts with a code (R218, R219, R221), which the service firmware is told (R510). -/
def haltQueue (s : State) (fe q code : Nat) : State :=
  let s := s.setQueue fe q { (s.queue fe q) with halted := true, rejection := code }
  raiseEvent s 0x100 0 (16 * fe + q)

/-- A front end's core whose fault slots its page waits take. -/
def frontCore (s : State) (fe : Nat) : Nat := (s.front fe).base

/-- The next completion word in sequence is written, if it is ready: `none` while its page is awaited. -/
def writeCompletion (s : State) (fe q : Nat) : State :=
  let x := s.queue fe q
  match x.finished.find? fun c => c.1 == x.written + 1 with
  | none => s
  | some (seq, st, ctx) =>
    let word := toBytes 8 (seq % 2 ^ 48 + 2 ^ 48 * st)
    let done (s : State) : State :=
      s.setQueue fe q { (s.queue fe q) with written := seq, finished := (s.queue fe q).finished.filter fun c => c.1 != seq }
    if q < 8 ∧ !x.space then
      if (s.function x.fn).tdi = 3 then done s
      else done { s with hostMem := putBytes s.hostMem (x.fn * 2 ^ 64 + x.cpl) word }
    else match engineGlobal s (frontCore s fe) ctx x.cpl .write with
      | .ok s p => done (agentPut s (192 + fe) p word)
      | .wait s _ => s
      | .err s _ => haltQueue (done s) fe q 7

/-! ### Rings (R218, R219) -/

/-- A write of DOORBELL by a function: only the one bound to the queue reaches it (R502). -/
def ringBell (s : State) (fn fe q : Nat) (p : Word) : State :=
  let x := s.queue fe q
  if fn ≠ x.fn ∨ q ≥ 8 ∨ fe ≥ 16 then
    s.setFunction fn { (s.function fn) with logged := (s.function fn).logged + 1 }
  else if !x.setUp then s
  else if (p.toNat + 2 ^ 32 - x.consumed) % 2 ^ 32 ≤ 2 ^ x.log2n ∧ (p.toNat + 2 ^ 32 - x.producer) % 2 ^ 32 < 2 ^ 31 then
    s.setQueue fe q { x with producer := p.toNat }
  else haltQueue s fe q 6

/-- DOORBELL (R219). -/
def execDoorbell (fn fe q : Nat) (p : Word) (s : State) : Host.Outcome State Fault Refusal := .next (ringBell s fn fe q p)

/-- The queue whose window holds an offset of BAR 2, with the offset in the window (R219). -/
def barWindow (a : Nat) : Nat × Nat × Nat := (a / 0x10000, a / 0x2000 % 8, a % 0x2000)

/-- A word of BAR 2 as a function reads it (R219): DOORBELL is write only, and a window of another function's queue reads 0. -/
def barWord (s : State) (fn a : Nat) : Nat :=
  let (fe, q, off) := barWindow a
  let x := s.queue fe q
  if fe ≥ 16 ∨ fn ≠ x.fn then 0
  else match off with
    | 0x008 => x.consumed
    | 0x010 => (if x.halted then 1 else 0) + 256 * x.rejection
    | _ => 0

/-- A 32-bit word that a function writes to BAR 2 (R219): DOORBELL takes it, every other offset ignores it; through another
function's window it is dropped and logged. -/
def barPut (s : State) (fn a : Nat) (p : Word) : State :=
  let (fe, q, off) := barWindow a
  if fe ≥ 16 then s
  else if off = 0 ∨ fn ≠ (s.queue fe q).fn then ringBell s fn fe q p
  else s

/-- A ring has a packet to copy. -/
def ringPending (x : Queue) : Bool := x.setUp && !x.halted && x.consumed != x.producer

/-- The address of the next slot. -/
def slotAddr (x : Queue) : Nat := x.base + 64 * (x.consumed % 2 ^ x.log2n)

/-- RING_SLOT_READ (R218): the slot of a module-memory ring is reached: it waits for its page, or halts the queue. Completion
words that wait are tried again. -/
def execRingSlotRead (fe q : Nat) (s : State) : Host.Outcome State Fault Refusal :=
  let s := writeCompletion s fe q
  let x := s.queue fe q
  .next (if q ≥ 8 ∨ !x.space ∨ !ringPending x then s
    else match engineGlobal s (frontCore s fe) x.ctx (slotAddr x) .read with
      | .ok s _ => s.setQueue fe q { (s.queue fe q) with waiting := false }
      | .wait s _ => s.setQueue fe q { (s.queue fe q) with waiting := true }
      | .err s _ => haltQueue s fe q 7)

/-- The next packet of a queue, with the context it launches in: `none` when there is none yet. -/
def nextPacket (s : State) (fe q : Nat) : Option (State × Nat × Nat) :=
  let x := s.queue fe q
  if q < 8 then
    if !ringPending x then none
    else if x.space then
      match engineGlobal s (frontCore s fe) x.ctx (slotAddr x) .read with
      | .ok s p => if placeCause s 64 p = none then some (s, x.ctx, ofBytes (readPlace s 64 p)) else none
      | _ => none
    else some (s, x.ctx, ofBytes ((fromTo (x.fn * 2 ^ 64 + slotAddr x) 64).map (tget 0 s.hostMem)))
  else if x.halted ∨ !x.setUp then none
  else (x.posts.head?).map fun p => (s, p.1, ofBytes p.2)

/-- A packet has been copied: its slot is free, and it has its number. -/
def consumePacket (s : State) (fe q : Nat) : State :=
  let x := s.queue fe q
  s.setQueue fe q (if q < 8 then { x with consumed := (x.consumed + 1) % 2 ^ 32, accepted := x.accepted + 1 }
    else { x with posts := x.posts.drop 1, accepted := x.accepted + 1 })

/-- PACKET_ACCEPT (R221): a packet is copied, numbered and checked; one that fails is reported and halts its queue. -/
def execPacketAccept (fe q : Nat) (s : State) : Host.Outcome State Fault Refusal :=
  .next (match nextPacket s fe q with
    | none => s
    | some (s, ctx, w) =>
      let s := consumePacket s fe q
      let seq := (s.queue fe q).accepted
      match rejection s fe ctx w with
      | 0 =>
        let (id, s) := s.newId
        let g : Grid := { fe := fe, ctx := ctx, queue := q, seqNo := seq, pkt := Packet.ofNat w, order := id }
        { s with grids := tins s.grids id g }
      | r =>
        let x := s.queue fe q
        let s := s.setQueue fe q { x with finished := x.finished ++ [(seq, r, ctx)] }
        writeCompletion (haltQueue s fe q r) fe q)

/-! ### Dependences and the beginning of a grid (R223, R224) -/

/-- The dependence word satisfies DEPCMP. -/
def depHolds (p : Packet) (v : Nat) : Bool := if p.depcmp = 0 then v == p.depval else decide (v ≥ p.depval)

/-- DEPENDENCE_POLL (R224): the word is read at its point of coherence. -/
def execDependencePoll (grid : Nat) (s : State) : Host.Outcome State Fault Refusal :=
  .next (match s.grid grid with
    | none => s
    | some g =>
      if g.depMet ∨ g.pkt.dep = 0 ∨ g.state = .begun then s
      else match engineGlobal s (frontCore s g.fe) g.ctx g.pkt.depaddr .read with
        | .ok s p =>
          if placeCause s 8 p = none ∧ depHolds g.pkt (ofBytes (readPlace s 8 p)) then s.modGrid grid fun g => { g with depMet := true }
          else s
        | .wait s _ => s
        | .err s _ => s)

/-- The previous packet of a grid's queue has completed. -/
def orderHolds (s : State) (g : Grid) : Bool :=
  !s.grids.any fun x => x.2.fe == g.fe && x.2.queue == g.queue && x.2.seqNo + 1 == g.seqNo

/-- The condition of a grid's DEP field holds. -/
def depsHold (s : State) (g : Grid) : Bool :=
  match g.pkt.dep with
  | 0 => orderHolds s g
  | 1 => g.depMet
  | _ => orderHolds s g && g.depMet

/-- GRID_BEGIN (R223, R224): the block is captured. -/
def execGridBegin (grid : Nat) (s : State) : Host.Outcome State Fault Refusal :=
  .next (match s.grid grid with
    | none => s
    | some g => if g.state = .waiting ∧ depsHold s g then
        s.modGrid grid fun g => { g with state := .begun, param := paramNow s g } else s)

/-! ### Placement (R225, R227) -/

/-- What is resumed and what is launched, on the cells found. `resume` places a saved cluster. -/
def placeNext (resume : State → Nat → List Nat → State) (s : State) (gid : Nat) (n : Next) (cells : List Nat) : State :=
  match s.grid gid with
  | none => s
  | some g =>
    let s := match n with
      | .fresh C => beginCluster s gid g C cells
      | .saved cid => resume s cid cells
    s.modGrid gid (countBegun n)

/-- The groups of a grid become ready together, in a later clock (R227). -/
def groupsReadyAt (s : State) (gid at' : Nat) : State :=
  let tids := ((s.clusters.filter fun c => c.2.grid == gid).map fun c => c.1).flatMap (teamsOf s)
  { s with groups := s.groups.map fun x => if tids.contains x.2.team then (x.1, { x.2 with readyAt := at' }) else x }

/-- A grid whose next cluster has just failed to fit starts to count (R225). -/
def noteFailure (s : State) (gid : Nat) : State :=
  s.modGrid gid fun g => if g.failedAt.isNone then { g with failedAt := some s.clock } else g

/-- The clusters of a co-resident grid, all of them or none. -/
def placeWhole (resume : State → Nat → List Nat → State) : Nat → State → Nat → Nat → Option (State × Nat)
  | 0, s, _, k => some (s, k)
  | fuel + 1, s, gid, k =>
    match s.grid gid with
    | none => some (s, k)
    | some g => match nextOf s gid g with
      | none => some (s, k)
      | some n => match fitFor s g n with
        | none => none
        | some cells => placeWhole resume fuel (placeNext resume s gid n cells) gid (k + 1)

/-- The first of the grids whose next cluster fits is served; those before it that do not fit are noted. A co-resident grid
is served by the step for whole grids, any other by the step for one cluster. -/
def placeFirst (resume : State → Nat → List Nat → State) (whole : Bool) (fe : Nat) : State → List (Nat × Grid) → State
  | s, [] => s
  | s, (gid, g) :: rest =>
    if g.pkt.cores then
      match placeWhole resume (g.pkt.clusters + 1) s gid 0 with
      | some (s', k) =>
        if whole then (groupsReadyAt s' gid (s.clock + 4 * k)).modFront fe fun f => { f with freeAt := s.clock + 4 * k } else s
      | none => placeFirst resume whole fe (noteFailure s gid) rest
    else match nextOf s gid g with
      | none => placeFirst resume whole fe s rest
      | some n => match fitFor s g n with
        | some cells =>
          if whole then s
          else (placeNext resume s gid n cells).modFront fe fun f => { f with freeAt := s.clock + 4 }
        | none => placeFirst resume whole fe (noteFailure s gid) rest

/-- GRID_BLOCKING (R225). -/
def execGridBlocking (grid : Nat) (s : State) : Host.Outcome State Fault Refusal :=
  .next (s.modGrid grid fun g => match g.failedAt with
    | some t => if s.clock ≥ t + 1048576 then { g with blocking := true } else g
    | none => g)

/-! ### Retirement and completion (R138, R177, R224) -/

/-- A job of a grid has still to report (R224, R359). -/
def reportsDue (s : State) (gid : Nat) : Bool := s.cores.any fun k => k.2.spindle.any fun q => q.2.reports.any fun r => r.grid == gid

/-- Every cluster of a grid has retired, and every event of its threads and jobs is performed or can be. -/
def gridDone (s : State) (gid : Nat) (g : Grid) : Bool :=
  g.state == .begun && g.retired == g.pkt.clusters && g.restart.isEmpty && !reportsDue s gid &&
  !s.clusters.any fun c => c.2.grid == gid

/-- GRID_COMPLETE (R217, R224). -/
def execGridComplete (grid : Nat) (s : State) : Host.Outcome State Fault Refusal :=
  .next (match s.grid grid with
    | none => s
    | some g =>
      if !gridDone s grid g then s
      else
        let s := performStoresCtx s g.ctx
        let s := { s with grids := tdel s.grids grid }
        let x := s.queue g.fe g.queue
        let s := s.setQueue g.fe g.queue { x with finished := x.finished ++ [(g.seqNo, 0, g.ctx)] }
        writeCompletion s g.fe g.queue)

/-- No completion flag and no outstanding counter of a group counts anything (R138). -/
def groupIdle (g : Group) : Bool := !flagsPending g.main && g.ops.isEmpty

/-- GROUP_RETIRE (R138): a group with no live lane and nothing outstanding retires; a Spindle job ends (R354). -/
def execGroupRetire (gid : Nat) (s : State) : Host.Outcome State Fault Refusal :=
  .next (match s.group gid with
    | none => s
    | some g =>
      if !g.main.frontier.isEmpty ∨ g.handler.isSome ∨ g.stalled.isSome ∨ g.restore.isSome ∨ g.out ∨ !groupIdle g then s
      else if g.kind = .spindle then stopJob s gid 0
      else settleTeam (retireGroup s gid) g.team)

end Sys2Proof.Machine
end

