-- ==== Sys2Proof/Machine/Fabric.lean ====
section
/-!
DEFINITION. The fabric and what reaches the module from outside: die-edge switches (R304, R486), Mborok links (R483 to R485), external
ports (R498 to R500), PCIe requests and atomics (R496, R501, R502), IDE and TDISP (R503), SPDM sessions and key slots (R505).
-/
namespace Sys2Proof.Machine
open Sys2Proof

/-! ### Die-edge switches (R304, R486) -/

/-- The agent a switch counts: core `n` of a compute die, or agent `n` of the I/O die (16 front ends, 8 encoders, PCIe, 4
ports). -/
def agentAt (die n : Nat) : Option Nat :=
  if die < 4 ∧ n < 48 then some (48 * die + n) else if die = 4 ∧ n < 29 then some (192 + n) else none

/-- RELEASE_FORWARD (R304): the first store held for a core goes on: a release when no counted write is outstanding, any other
when its counter has room. DEDUCED, log entry 55. -/
def execReleaseForward (die core : Nat) (s : State) : Host.Outcome State Fault Refusal :=
  .next (match agentAt die core with
    | none => s
    | some a => match tget [] s.heldRel a with
      | [] => s
      | id :: rest =>
        let pass (s : State) : State := { s with heldRel := tput [] s.heldRel a rest }
        match tfind s.stores id with
        | none => pass s
        | some p =>
          let n := tget 0 s.fences a
          if (p.release ∧ n = 0) ∨ (!p.release ∧ n < 1023) then performNow (pass s) id else s)

/-- WRITE_ACK (R486). DEDUCED, log entry 55. -/
def execWriteAck (die core : Nat) (s : State) : Host.Outcome State Fault Refusal :=
  .next (match agentAt die core with
    | some a => ackOne s a
    | none => s)

/-! ### Links (R483, R485) -/

/-- The number of a link between two dies, die 4 being the I/O die. -/
def linkKey (a b : Nat) : Option Nat :=
  if a = b ∨ a > 4 ∨ b > 4 then none else some (5 * Nat.min a b + Nat.max a b)

/-- LINK_DETOUR (R485): a link is down and the service firmware is told; no message is lost and no counter changes. DESIGN CHOICE, log entry 44. -/
def execLinkDetour (a b : Nat) (s : State) : Host.Outcome State Fault Refusal :=
  .next (match linkKey a b with
    | none => s
    | some k =>
      if s.linksDown.contains k then s
      else
        let (x, s) := s.draw (2 ^ 32)
        raiseEvent { s with linksDown := s.linksDown ++ [k] } 0x102 0 x)

/-- FLIT_REPLAY (R483): a flit is sent again; nothing else changes. -/
def execFlitReplay (a b : Nat) (s : State) : Host.Outcome State Fault Refusal :=
  .next (if (linkKey a b).isSome then { s with replayed := s.replayed + 1 } else s)

/-! ### External ports (R494, R498) -/

/-- PORT_AUTH_FAIL (R498). -/
def execPortAuthFail (port : Nat) (s : State) : Host.Outcome State Fault Refusal :=
  .next (if port < 4 ∧ (s.port port).trained then s.setPort port { (s.port port) with down := true } else s)

/-- PORT_TRAINING (R494, R498). -/
def execPortTraining (port : Nat) (encoded : Bool) (s : State) : Host.Outcome State Fault Refusal :=
  .next (if port < 4 then s.setPort port { trained := true, down := false, encoded := encoded } else s)

/-! ### Requests from outside (R496 to R502) -/

/-- A function may reach a context: function 0 is the service firmware's, any other reaches those bound to it (R502). DEDUCED, log entry 45. -/
def mayReach (s : State) (fn ctx : Nat) : Bool := decide (fn ≤ 64) && (s.function fn).ctxs.contains ctx

/-- A request that R502 drops is logged. DEDUCED, log entry 45. -/
def logDrop (s : State) (fn : Nat) : State := s.setFunction fn { (s.function fn) with logged := (s.function fn).logged + 1 }

/-- The core whose fault slots a function's page waits take. -/
def functionCore (s : State) (fn : Nat) : Nat := (((s.function fn).fe).map (frontCore s)).getD 0

/-- A request's places, piece by piece within subpages. -/
def ingressPlaces (s : State) (core ctx : Nat) (w : Access) : List (Nat × List Byte) → Got (List (Place × List Byte))
  | [] => .ok s []
  | p :: ps => (engineGlobal s core ctx p.1 w).andThen fun s x =>
      (ingressPlaces s core ctx w ps).andThen fun s xs => .ok s ((x, p.2) :: xs)

/-- Bytes that leave the module: a line whose check fails on the way is marked where it stands, and poisoned data is not
delivered (R424, R425, R497). DESIGN CHOICE, log entry 64. -/
def egress (s : State) (xs : List (Place × List Byte)) : State :=
  match xs.findSome? fun x => placeCause s x.2.length x.1 with
  | some _ => { (xs.foldl (fun s x => poisonPlace s x.2.length x.1) s) with reply := [] }
  | none => { s with reply := xs.flatMap fun x => readPlace s x.2.length x.1 }

/-- A run of bytes cut at subpages; the fuel bounds the pieces. -/
def subpages : Nat → Nat → List Byte → List (Nat × List Byte)
  | 0, _, _ => []
  | fuel + 1, a, bs => if bs.isEmpty then [] else (a, bs.take (4096 - a % 4096)) :: subpages fuel (a + (4096 - a % 4096)) (bs.drop (4096 - a % 4096))

/-- A memory request of a PCIe function in a context's address space; it waits for pages that are not resident. A request beyond
the limits of R501, or that translation refuses, has no effect and no data. DEDUCED, log entry 45. -/
def pcieRequest (s : State) (fn ctx a : Nat) (data : List Byte) (n : Nat) : State :=
  let write := !data.isEmpty
  let bs := if write then data else List.replicate n (0 : Byte)
  if !mayReach s fn ctx then logDrop { s with reply := [] } fn
  else if bs.length > (if write then 512 else 4096) then { s with reply := [] }
  else match ingressPlaces s (functionCore s fn) ctx (if write then .write else .read) (subpages 3 a bs) with
    | .ok s xs => if write then { (xs.foldl (fun s x => agentPut s 216 x.1 x.2) s) with reply := [] } else egress s xs
    | .wait s _ => { s with laters := s.laters ++ [.request fn ctx a data n] }
    | .err s _ => { s with reply := [] }

/-- The key-domain mark of a frame lent to a peer module as backing (R499): no key domain has this number. DESIGN CHOICE, log entry 46. -/
def lentMark : Nat := 16384

/-- A request of a peer module through an external port, by physical address, to frames that this module lends: none that a context
has. The first write to a free frame lends it. DESIGN CHOICE, log entry 46. -/
def peerRequest (s : State) (port a : Nat) (data : List Byte) (n : Nat) : State :=
  let write := !data.isEmpty
  let len := if write then data.length else n
  let frames := touchedUnits a len frameBytes
  let mine (fr : Nat) : Bool := match tfind s.frames fr with
    | none => write && populated s (fr * frameBytes)
    | some d => d == lentMark
  if port ≥ 4 ∨ !(s.port port).trained ∨ (s.port port).down ∨ !frames.all mine then { s with reply := [] }
  else if write then
    let s := frames.foldl (fun s fr => if (tfind s.frames fr).isNone then takeFrame s fr lentMark else s) s
    { (agentPut s (217 + port) (.mem a) data) with reply := [] }
  else egress s [(.mem a, List.replicate n 0)]

/-- The number that stands in place of a context for a request to BAR 2. DEDUCED, log entry 45. -/
def barTwo : Nat := 4096

/-- A request of a PCIe function to BAR 2 (R219): the aligned 32-bit words it writes, or the bytes it reads. DEDUCED, log entry 45. -/
def barRequest (s : State) (fn a : Nat) (data : List Byte) (n : Nat) : State :=
  if data.isEmpty then
    { s with reply := if n > 4096 then [] else (fromTo a n).map fun b => BitVec.ofNat 8 (barWord s fn (b / 4 * 4) / 2 ^ (8 * (b % 4))) }
  else
    let words := if a % 4 ≠ 0 ∨ data.length > 512 then 0 else data.length / 4
    { ((fromTo 0 words).foldl (fun s i => barPut s fn (a + 4 * i) (BitVec.ofNat 32 (ofBytes ((data.drop (4 * i)).take 4)))) s) with
      reply := [] }

/-- The number that stands in place of a context for a request to BAR 0. DEDUCED, log entry 45. -/
def barZero : Nat := 4097

/-- A request of a PCIe function to BAR 0: function 0 reads and writes the mailbox (R510), no other function has one. DEDUCED, log entry 45. -/
def mailRequest (s : State) (fn a : Nat) (data : List Byte) (n : Nat) : State :=
  if fn ≠ 0 ∨ a + (if data.isEmpty then n else data.length) > 4096 then { s with reply := [] }
  else if data.isEmpty then { s with reply := (fromTo a n).map (tget 0 s.mailbox) }
  else { s with mailbox := putBytes s.mailbox a data, reply := [] }

/-- HOST_INGRESS (R219, R496, R499, R500, R502). DEDUCED, log entry 45. -/
def execHostIngress (port : Bool) (agent ctx address : Nat) (data : List Byte) (n : Nat) (s : State) :
    Host.Outcome State Fault Refusal :=
  .next (if port then peerRequest s agent address data n
    else if ctx = barTwo then barRequest s agent address data n
    else if ctx = barZero then mailRequest s agent address data n
    else pcieRequest s agent ctx address data n)

/-- The value a PCIe atomic leaves: FetchAdd, Swap, CAS. -/
def pcieNew (op size old x y : Nat) : Nat :=
  match op with
  | 0 => (old + x) % 2 ^ (8 * size)
  | 1 => x % 2 ^ (8 * size)
  | _ => if old = x % 2 ^ (8 * size) then y % 2 ^ (8 * size) else old

/-- An atomic is performed at the home slice, which answers with the old value. DEDUCED, log entry 45. -/
def pcieAtomic (s : State) (fn ctx va op size : Nat) (x y : DWord) : State :=
  if !mayReach s fn ctx then logDrop { s with reply := [] } fn
  else if (size ≠ 4 ∧ size ≠ 8) ∨ va % size ≠ 0 ∨ op > 2 then { s with reply := [] }
  else match engineGlobal s (functionCore s fn) ctx va .write with
    | .ok s p => match placeCause s size p with
      | some _ => egress s [(p, List.replicate size 0)]
      | none =>
        let old := ofBytes (readPlace s size p)
        { (agentPut s 216 p (toBytes size (pcieNew op size old x.toNat y.toNat))) with reply := toBytes size old }
    | .wait s _ => { s with laters := s.laters ++ [.atomic fn ctx va op size x y] }
    | .err s _ => { s with reply := [] }

/-- PCIE_ATOMIC (R149, R501). -/
def execPcieAtomic (fn ctx va op size : Nat) (x y : DWord) (s : State) : Host.Outcome State Fault Refusal :=
  .next (pcieAtomic s fn ctx va op size x y)

/-! ### IDE, TDISP and SPDM (R501, R503) -/

/-- The host queues of a function halt, and the service firmware is told of each (R221, R510). -/
def haltQueues (s : State) (fn : Nat) : State :=
  ((fromTo 0 16).flatMap fun f => (fromTo 0 8).map fun q => (f, q)).foldl (fun s x =>
    let k := s.queue x.1 x.2
    if k.setUp ∧ k.fn = fn ∧ !k.halted then raiseEvent (s.setQueue x.1 x.2 { k with halted := true }) 0x100 0 (16 * x.1 + x.2)
    else s) s

/-- IDE_FAILURE (R503): the packet is gone; the TDI moves to ERROR and its queues halt. DESIGN CHOICE, log entry 44. -/
def execIdeFailure (fn : Nat) (s : State) : Host.Outcome State Fault Refusal :=
  .next (if fn = 0 ∨ fn > 64 then s
    else
      let (x, s) := s.draw (2 ^ 32)
      haltQueues (raiseEvent (s.setFunction fn { (s.function fn) with tdi := 3 }) 0x101 0 x) fn)

/-- TDISP_REQUEST (R503): unlocked to locked, locked to running, and out of any state to unlocked. -/
def execTdispRequest (fn state : Nat) (s : State) : Host.Outcome State Fault Refusal :=
  .next (if fn = 0 ∨ fn > 64 then s
    else
      let f := s.function fn
      if (state = 1 ∧ f.tdi = 0) ∨ (state = 2 ∧ f.tdi = 1) ∨ state = 0 then s.setFunction fn { f with tdi := state } else s)

/-- SPDM_KEY_EXCHANGE (R501): a secured session with a function is set up. DEDUCED, log entry 47. -/
def execSpdmKeyExchange (fn : Nat) (nonce : BitVec 256) (s : State) : Host.Outcome State Fault Refusal :=
  .next (if fn > 64 then s else s.setFunction fn { (s.function fn) with sessions := nonce :: (s.function fn).sessions })

/-! ### Key slots (R505) -/

/-- Some function that reaches a context has a secured session with the monitor. DEDUCED, log entry 47. -/
def sessionFor (s : State) (ctx : Nat) : Bool := s.functions.any fun f => f.2.ctxs.contains ctx && !f.2.sessions.isEmpty

/-- KEY_SLOT_LOAD (R505). DEDUCED, log entry 47. -/
def execKeySlotLoad (slot : Nat) (key : BitVec 256) (ctx : Nat) (s : State) : Host.Outcome State Fault Refusal :=
  .next (if slot < 256 ∧ sessionFor s ctx then { s with keySlots := tins s.keySlots slot { key := key, ctx := ctx } } else s)

/-- KEY_SLOT_FREE (R505). DEDUCED, log entry 47. -/
def execKeySlotFree (slot : Nat) (s : State) : Host.Outcome State Fault Refusal :=
  .next (match tfind s.keySlots slot with
    | some k => if sessionFor s k.ctx then { s with keySlots := tdel s.keySlots slot } else s
    | none => s)

end Sys2Proof.Machine
end

