-- ==== Sys2Proof/Machine/Carder.lean ====
section
/-!
DEFINITION. The Carder (R360 to R363): deposits, bins, and the continuation groups they launch as.
-/
namespace Sys2Proof.Machine
open Sys2Proof

/-! ### Bins (R361) -/

/-- A deposit belongs to a bin. -/
def inBin (tid : Nat) (target : DWord) (key : Word) (d : Deposit) : Bool :=
  d.team == tid && d.target == target && d.key == key

/-- The bins of a team that hold entries, in ascending key and then target. -/
def binsOf (k : Core) (tid : Nat) : List (Word × DWord) :=
  let all := (k.deposits.filter fun d => d.team == tid).map fun d => (d.key, d.target)
  let distinct := all.foldl (fun acc b => if acc.contains b then acc else acc ++ [b]) []
  sortBy (fun a b => decide (a.1.toNat < b.1.toNat) || (a.1 == b.1 && decide (a.2.toNat < b.2.toNat))) distinct

/-- Launch order within a team: by clock, then key, then target. -/
def readyBefore (a b : Ready) : Bool :=
  a.team == b.team && (decide (a.clock < b.clock) || (a.clock == b.clock &&
    (decide (a.key.toNat < b.key.toNat) || (a.key == b.key && decide (a.target.toNat < b.target.toNat)))))

/-- The first `n` entries of a bin become a ready group. -/
def makeReady (clock tid n : Nat) (k : Core) (b : Word × DWord) : Core :=
  let mine := k.deposits.filter (inBin tid b.2 b.1)
  let taken := mine.take n
  let r : Ready := { clock := clock, team := tid, target := b.2, key := b.1, entries := taken }
  { k with deposits := (k.deposits.filter fun d => !inBin tid b.2 b.1 d) ++ mine.drop n
           ready := insertBy readyBefore r k.ready }

/-- Bins that hold a full group of `w` become ready. -/
def readyFull (clock tid w : Nat) (k : Core) : Core :=
  ((binsOf k tid).filter fun b => decide ((k.deposits.filter (inBin tid b.2 b.1)).length ≥ w)).foldl (makeReady clock tid w) k

/-- Every non-empty bin of a team becomes ready (R363). -/
def readyAll (clock tid : Nat) (k : Core) : Core :=
  (binsOf k tid).foldl (fun k b => makeReady clock tid (k.deposits.filter (inBin tid b.2 b.1)).length k b) k

/-! ### Instructions (R360, R363) -/

/-- The deposits of an instruction, lanes ascending. -/
def depositsOf (c : Ctx) : List Deposit :=
  let n := c.f.imm13.toNat % 16
  let target := c.pc + 4#64 * sext32 c.f.imm32
  c.lanes.map fun l =>
    { team := c.g.team, target := target, key := BitVec.ofNat 32 (c.srcA l)
      words := (fromTo 0 n).map fun j => BitVec.ofNat 32 (c.srcB l / 2 ^ (32 * j)) }

/-- `crd.put` (R360): a release (R306); the lanes then leave as under `exit`. DEDUCED, log entry 73. -/
def execCrdPut (f : Fields) (s : State) :=
  runGroup (.crdPut f) f s fun c s =>
    if c.exec = 0 then .done s
    else if writesTo s c.gid c.g.priv c.exec then .park s (.stall (.lanes c.exec))
    else if carderCount (s.core c.core) + c.lanes.length > 16384 then .park s (.room (.carder c.lanes.length))
    else
      let s := spendRestart (performLocalOf s c.gid) c.g
      let s := s.modCore c.core fun k => readyFull s.clock c.g.team c.g.width { k with deposits := k.deposits ++ depositsOf c }
      .moved (exitLanes c s)

/-- `crd.flush` (R363). -/
def execCrdFlush (f : Fields) (s : State) :=
  runGroup (.crdFlush f) f s fun c s =>
    if c.exec = 0 then .done s
    else .done ((spendRestart s c.g).modCore c.core (readyAll s.clock c.g.team))

/-! ### Launching (R361, R362) -/

/-- The lowest group number that no live group of a team holds. -/
def freeNumber (s : State) (tid : Nat) : Nat :=
  let used := (groupsOf s tid).map fun x => x.2.g
  ((fromTo 0 65).find? fun g => !used.contains g).getD 0

/-- The first ready group of its team may bind: the team has room, no earlier group of the bin lives, and its context stays
on the core. DEDUCED, log entry 58. -/
def mayBind (s : State) (core : Nat) (r : Ready) : Bool :=
  match s.team r.team with
  | none => false
  | some t =>
    let leaving := ((s.core core).residentOf (ctxOfTeam s t)).isNone || ((s.cluster t.cluster).map fun c => c.leaving != 0).getD true
    decide (liveGroups s r.team < t.groups) && !t.saved && !leaving &&
    !(groupsOf s r.team).any fun x => x.2.bin == some (r.target, r.key)

/-- The registers of a continuation group: `v0` the key, `v1` up the payload. -/
def cardRegs (t : Thread) (es : List Deposit) : Thread :=
  (es.zip (fromTo 0 es.length)).foldl (fun t x =>
    let t := setVreg t 0 x.2 x.1.key
    (x.1.words.zip (fromTo 1 x.1.words.length)).foldl (fun t w => setVreg t w.2 x.2 w.1) t) t

/-- The retirement of a bin's groups is a release at `.team` towards its next one (R362, R405). DEDUCED, log entry 58. -/
def releaseBin (s : State) (r : Ready) : State := releaseLocal s fun p => p.team == r.team && p.bin == some (r.target, r.key)

/-- A ready group binds and starts (R362), where a slice has room. -/
def bindReady (s : State) (core : Nat) (r : Ready) : Option State :=
  match s.team r.team with
  | none => none
  | some t =>
    let ctx := ctxOfTeam s t
    match bindOne (sliceRooms s core ctx) (linesFor t.width t.nv t.ns) with
    | none => none
    | some (slice, slot, _) =>
      let grid := ((s.cluster t.cluster).bind fun c => s.grid c.grid)
      let C := ((s.cluster t.cluster).map Cluster.index).getD 0
      let seed := (grid.map fun g => g.pkt.seed).getD 0
      let g := freeNumber s r.team
      let tbase := (t.rank * t.groups + g) * t.width
      let (gid, s) := (releaseBin s r).newId
      let main := cardRegs { nv := t.nv, ns := t.ns, rng := seedAll seed C tbase t.width } r.entries
      let x : Group :=
        { kind := .continuation, core := core, slice := slice, slot := slot, ctx := ctx, team := r.team, g := g
          width := t.width, main := main, seed := seed, cindex := C, tbase := tbase, age := gid
          lineBanks := [(0, ownedBanks s core ctx)]
          bin := some (r.target, r.key) }
      let fr := startFrontier s x (lowLanes r.entries.length) r.target
      let s := s.modCore core fun k => { k with ready := k.ready.erase r }
      some (s.setGroup gid { x with main := { main with frontier := fr } })

/-- The first ready group of each team, in order. -/
def firstReady : List Ready → List Ready
  | [] => []
  | r :: rs => r :: (firstReady rs).filter fun x => x.team != r.team

/-- CARDER_LAUNCH (R362): the first ready group that can bind does. DESIGN CHOICE, log entry 29. DEDUCED, log entry 58. -/
def execCarderLaunch (core : Nat) (s : State) : Host.Outcome State Fault Refusal :=
  .next (((firstReady (s.core core).ready).findSome? fun r =>
    if mayBind s core r then bindReady s core r else none).getD s)

/-- CARDER_AUTO_FLUSH (R363). -/
def execCarderAutoFlush (tid : Nat) (s : State) : Host.Outcome State Fault Refusal :=
  .next (match s.team tid with
    | none => s
    | some t =>
      if liveGroups s tid = 0 ∧ !((s.core t.core).ready.any fun r => r.team == tid) then
        s.modCore t.core (readyAll s.clock tid)
      else s)

end Sys2Proof.Machine
end

