-- ==== Sys2Proof/Machine/Traps.lean ====
section
/-!
DEFINITION. The frame and the frame instructions (R412 to R417), what takes a group into a handler (R407 to R411, R429, R441,
R447), requests to save (R428, R440, R444), and lane faults (R420 to R423).
-/
namespace Sys2Proof.Machine
open Sys2Proof

/-! ### The frame (R412 to R414) -/

/-- CTL. -/
def frameCtl (h : Handler) : Nat :=
  let i := h.info
  packNat [(8, causeCode i.cause), (8, i.code), (3, i.source), (5, 0), (6, i.lane.getD 0), (1, 0), (1, b2n i.lane.isSome),
           (4, h.entries.length), (4, 0), (1, b2n h.enghalt), (13, 0), (2, h.matact), (2, h.action), (1, b2n h.reseng),
           (1, b2n h.step)]

/-- ENTA. -/
def entryWord (r : Replay) : Nat :=
  packNat [(56, r.iaddr.toNat), (1, 1), (1, b2n r.fault), (1, b2n r.skip)]

/-- Frame word n. -/
def frameWord (h : Handler) (n : Nat) : Nat :=
  match n with
  | 0 => frameCtl h
  | 1 => h.pc.toNat
  | 2 => h.live.toNat
  | 3 => h.info.addr.toNat
  | 4 => h.info.aux.toNat
  | 5 => h.ctime.toNat
  | n => if n < 8 then 0 else match (h.entries.drop ((n - 8) / 2)).head? with
    | none => 0
    | some r => if n % 2 = 0 then entryWord r else r.exec.toNat

/-- An entry after a write to its word A or its EXEC. -/
def writeEntry (live : LaneMask) (r : Replay) (word x : Nat) : Replay :=
  if word % 2 = 0 then { r with skip := bit x 58 } else { r with exec := BitVec.ofNat 64 x &&& live }

/-- The frame after a write to word n: RW fields only. -/
def writeFrame (h : Handler) (n x : Nat) : Handler :=
  if n = 0 then
    { h with step := bit x 59, reseng := bit x 58, action := bits x 57 56
             matact := if bits x 55 54 = 3 then h.matact else bits x 55 54 }
  else if n = 1 then { h with pc := BitVec.ofNat 64 x }
  else if n < 8 then h
  else
    let k := (n - 8) / 2
    match (h.entries.drop k).head? with
    | none => h
    | some r => { h with entries := setNth h.entries k (writeEntry h.live r n x) }

/-! ### Control lines (R446) -/

/-- Predicates of lane p as line pair position bits: p0 to p31, p32 to p47. -/
def laneWord (t : Thread) (lane lo n : Nat) : Nat :=
  ((fromTo 0 n).map fun k => if predBit t (lo + k) lane then 2 ^ k else 0).foldl (· + ·) 0

/-- The lane and the first predicate that word (line n, position p) holds, with how many; none for a line of frontier
words. -/
def predSpot (w n p : Nat) : Option (Nat × Nat × Nat) :=
  let lane := if n ≥ 2 then p + 32 else p
  if predBits w n = 0 ∨ lane ≥ w then none else some (lane, if n % 2 = 0 then (0, 32) else (32, 16))

/-- Word (line n, position p) of a trapped group's control lines. -/
def controlWord (g : Group) (h : Handler) (n p : Nat) : Nat :=
  if n ≥ controlLines g.width ∨ p ≥ 32 then 0
  else
    let fr := ((tfind h.ctl (32 * n + p)).getD (frontierWord g.width g.main.frontier n p)).toNat
    match predSpot g.width n p with
    | some (lane, lo, k) => setBits fr (k - 1) 0 (laneWord g.main lane lo k)
    | none => fr

/-- Predicates of a lane from a word. -/
def putPreds (t : Thread) (lane lo n x : Nat) : Thread :=
  (fromTo 0 n).foldl (fun t k => setPred t (lo + k) lane (bit x k)) t

/-- A control word written: its predicates go to the group, its other bits are kept for `tret` to check (R447). -/
def writeControl (g : Group) (h : Handler) (n p x : Nat) : Group × Handler :=
  if n ≥ controlLines g.width ∨ p ≥ 32 then (g, h)
  else
    let h := { h with ctl := tins h.ctl (32 * n + p) (BitVec.ofNat 32 x &&& ~~~predBits g.width n) }
    match predSpot g.width n p with
    | some (lane, lo, k) => ({ g with main := putPreds g.main lane lo k x }, h)
    | none => (g, h)

/-! ### `tfr` and `tinj` (R416) -/

/-- PRIO of the frontier entry that holds a lane. -/
def lanePrio (t : Thread) (l : Nat) : Nat :=
  ((t.frontier.find? fun e => e.mask.getLsbD l).map fun e => e.prio.toNat).getD 0

/-- The object that KIND and n name, in lane l. -/
def frameObject (g : Group) (h : Handler) (kind n l : Nat) : Nat :=
  match kind with
  | 0 => frameWord h n
  | 1 => if n < g.main.nv then (vreg g.main n l).toNat else 0
  | 2 => if n < g.main.ns then (sreg g.main n).toNat else 0
  | 3 => controlWord g h n l
  | 4 => match (h.entries.drop (n / 8)).head? with
    | some r => (tget 0 r.words (64 * (n % 8) + l)).toNat
    | none => 0
  | _ => match n with
    | 0 => (fstatOf g.main l).toNat
    | 1 => (rngOf g.main l).toNat % 2 ^ 32
    | 2 => (rngOf g.main l).toNat / 2 ^ 32
    | _ => lanePrio g.main l

/-- Captured operand word j of entry k in lane l, written. -/
def writeCaptured (h : Handler) (n l x : Nat) : Handler :=
  match (h.entries.drop (n / 8)).head? with
  | some r =>
    let r := { r with words := tput 0 r.words (64 * (n % 8) + l) (BitVec.ofNat 32 x) }
    { h with entries := setNth h.entries (n / 8) r }
  | none => h

/-- FSTAT and RNG of a lane, written; FSTAT keeps its six flags (R20). -/
def writeLaneStatus (t : Thread) (n l x : Nat) : Thread :=
  match n with
  | 0 => { t with fstat := tput 0 t.fstat l (BitVec.ofNat 32 (x % 64)) }
  | 1 => setRng t l (BitVec.ofNat 64 (setBits (rngOf t l).toNat 31 0 x))
  | 2 => setRng t l (BitVec.ofNat 64 (setBits (rngOf t l).toNat 63 32 x))
  | _ => t

/-- The object that KIND and n name, written in lane l. -/
def putObject (g : Group) (h : Handler) (kind n l x : Nat) : Group × Handler :=
  match kind with
  | 0 => (g, writeFrame h n x)
  | 1 => (if n < g.main.nv then { g with main := setVreg g.main n l (BitVec.ofNat 32 x) } else g, h)
  | 2 => (if n < g.main.ns then { g with main := setSreg g.main n (BitVec.ofNat 32 x) } else g, h)
  | 3 => writeControl g h n l x
  | 4 => (g, writeCaptured h n l x)
  | _ => ({ g with main := writeLaneStatus g.main n l x }, h)

def execTfr (f : Fields) (s : State) :=
  runGroup (.tfr f) f s fun c s =>
    match c.g.handler with
    | none => .done s
    | some h => .done (setThreadOf s c.gid
        (c.runLanes.foldl (fun t l => c.wr t l (frameObject c.g h f.low3 f.imm13.toNat l)) c.t))

def execTinj (f : Fields) (s : State) :=
  runGroup (.tinj f) f s fun c s =>
    match c.g.handler with
    | none => .done s
    | some h =>
      let lanes := if isScalar f.a then c.lanes.take 1 else c.lanes
      let (g, h) := lanes.foldl (fun (x : Group × Handler) l => putObject x.1 x.2 f.low3 f.imm13.toNat l (c.srcA l)) (c.g, h)
      .done (s.setGroup c.gid { g with handler := some h })

/-! ### The end of a restore (R444, R447) -/

/-- A group of a cluster is still to return from its restore handler. -/
def restoring (s : State) (cid : Nat) : Bool := (teamsOf s cid).any (teamRestoring s)

/-- A cluster that has been restored gives its slot back. -/
def settleRestore (s : State) (cid : Nat) : State :=
  match s.cluster cid with
  | none => s
  | some c =>
    if c.saved.isSome ∨ restoring s cid then s
    else match s.grid c.grid with
      | some g => (freeSlot s g.ctx { c with slot := none }).modCluster cid fun c => { c with oldSlot := none }
      | none => s

/-- The cluster of a team, settled. -/
def settleTeamRestore (s : State) (tid : Nat) : State :=
  match s.team tid with
  | some t => settleRestore s t.cluster
  | none => s

/-- `tret` (R417): it waits until every handler instruction has finished. -/
def execTret (f : Fields) (s : State) :=
  runGroup (.tret f) f s fun c s =>
    let s := drainGroup s c.gid
    match (s.group c.gid).bind Group.handler with
    | none => .done s
    | some h =>
      if flagsPending h.thread then .park s (.stall .flags)
      else .moved (settleTeamRestore (returnFromTrap s c.gid) c.g.team)

/-! ### Requests to leave (R428, R440, R443, R444, R456) -/

/-- The team's restartable bits (R427). -/
def clusterRestartable (s : State) (cid : Nat) : Bool :=
  (teamsOf s cid).all fun tid => ((s.team tid).map Team.restartable).getD false

/-- A restartable cluster is flushed (R428): its attempt is discarded, its resources are released, and it is to begin
again. -/
def flushCluster (s : State) (cid : Nat) : State :=
  match s.cluster cid with
  | none => s
  | some c =>
    let tids := teamsOf s cid
    let s := { s with stores := s.stores.filter fun x => !tids.contains x.2.team }
    (removeCluster s cid).modGrid c.grid fun g => { g with restart := g.restart ++ [c.index] }

/-- Each group of a cluster is to take 0x15. -/
def askGroup (reason : Nat) (s : State) (gid : Nat) : State :=
  s.modGroup gid fun g => if g.out then g else addPending { g with swreq := reason } { cause := .budget, source := 3 }

/-- A cluster is asked to leave its cores for a reason. -/
def askCluster (reason : Nat) (s : State) (cid : Nat) : State :=
  match s.cluster cid with
  | none => s
  | some c =>
    if c.cores.isEmpty ∨ c.leaving ≠ 0 then s
    else if clusterRestartable s cid then flushCluster s cid
    else
      let s := s.modCluster cid fun c => { c with leaving := reason }
      ((teamsOf s cid).flatMap fun tid => (groupsOf s tid).map fun x => x.1).foldl (askGroup reason) s

/-- The clusters that leave with a set of clusters: co-resident grids leave whole (R176, R443). DEDUCED, log entry 33. -/
def withGrids (s : State) (cids : List Nat) : List Nat :=
  let whole := cids.filterMap fun cid => (s.cluster cid).bind fun c =>
    if ((s.grid c.grid).map fun g => g.pkt.cores).getD false then some c.grid else none
  (s.clusters.filter fun c => cids.contains c.1 || whole.contains c.2.grid).map fun c => c.1

/-- The clusters with a team that satisfies a condition. -/
def clustersOf (s : State) (p : Team → Bool) : List Nat :=
  (s.clusters.filter fun c => !c.2.cores.isEmpty && s.teams.any fun t => t.2.cluster == c.1 && p t.2).map fun c => c.1

/-- Clusters are asked to leave. -/
def askClusters (s : State) (reason : Nat) (cids : List Nat) : State := (withGrids s cids).foldl (askCluster reason) s

/-- A cluster that is being saved has the lowest free slot that holds its layout (R444): `none` where there is none. -/
def takeSlot (s : State) (cid : Nat) : Option State :=
  match s.cluster cid with
  | none => none
  | some c =>
    if c.slot.isSome then some s
    else match s.grid c.grid with
      | none => none
      | some g => match s.ctx g.ctx with
        | none => none
        | some x =>
          let need := 0x1000 + ((teamsOf s cid).map fun tid => ((s.team tid).map Team.slotBytes).getD 0).foldl (· + ·) 0
          match (fromTo 0 (bits x.saveSz.toNat 47 32)).find? fun i => !x.slots.contains i with
          | some i =>
            if need ≤ x.saveSz.toNat % 2 ^ 32 then
              some ((s.modCtx g.ctx fun x => { x with slots := x.slots ++ [i] }).modCluster cid fun c => { c with slot := some i })
            else none
          | none => none

/-! ### Entering a handler -/

/-- A pending cause may be taken now. -/
def mayTrap (s : State) (g : Group) : Bool :=
  !g.pending.isEmpty && !g.priv && atBoundary g && g.stalled.isNone && g.restore.isNone && !g.out &&
  !g.main.frontier.isEmpty && !gatedOn s g.core g.ctx && g.step != 2

/-- TRAP_ENTRY (R407, R441): the pending cause that comes first is taken at the group's boundary; a request to save takes
a save slot first (R444). -/
def execTrapEntry (gid : Nat) (s : State) : Host.Outcome State Fault Refusal :=
  .next (match s.group gid with
    | none => s
    | some g =>
      if !mayTrap s g then s
      else match nextPending g.pending, clusterOf s g with
        | some (info, _), some cid =>
          if info.cause = .budget then
            match takeSlot s cid with
            | some s => takePending s gid
            | none => endCluster s cid g.core g.ctx 3 .localBounds
          else takePending s gid
        | _, _ => takePending s gid)

/-- STEP_TRAP (R429). -/
def execStepTrap (gid : Nat) (s : State) : Host.Outcome State Fault Refusal :=
  .next (match s.group gid with
    | none => s
    | some g =>
      if g.step ≠ 2 ∨ g.priv ∨ g.stalled.isSome ∨ g.main.frontier.isEmpty then s
      else takeTrap (s.setGroup gid { g with step := 0 }) gid { cause := .breakpoint, source := 4 } [] (boundaryPc g))

/-- The frontier words of a restored group, which its handler is to write back (R446, R447). -/
def blankControl (w : Nat) : Table Word :=
  (fromTo 0 (controlLines w)).flatMap fun n => (fromTo 0 (Nat.min w 32)).map fun p => (32 * n + p, 0)

/-- A resumed group enters its handler with its saved frame (R447). -/
def enterRestored (s : State) (gid : Nat) (g : Group) (store : Nat) (h : Handler) : State :=
  let s := enterHandler s gid { g with restore := none } store h.info h.entries h.pc
  s.modGroup gid fun x => { x with
    kept := g.kept
    handler := x.handler.map fun y =>
      { h with store := store, thread := y.thread, restored := true, swreq := 0, ctl := blankControl g.width
               saveAddr := BitVec.ofNat 64 (groupIn s g ((clusterOf s g).bind fun cid => (s.cluster cid).bind Cluster.oldSlot)) } }

/-- A resumed cluster's state has been restored, so its groups may enter their handlers. -/
def teamRestored (s : State) (g : Group) : Bool :=
  match clusterOf s g with
  | some cid => match s.cluster cid with
    | some c => c.saved.isNone
    | none => false
  | none => false

/-- FRAME_STORE_GRANT (R409, R447). -/
def execFrameStoreGrant (gid : Nat) (s : State) : Host.Outcome State Fault Refusal :=
  .next (match s.group gid with
    | none => s
    | some g => match freeStoreOf s g.core g.slice with
      | none => s
      | some n => match g.stalled, g.restore with
        | some (info, entries, pc), _ =>
          if flagsPending g.main then s
          else (enterHandler s gid g n info entries pc).modGroup gid fun x => { x with kept := g.kept }
        | none, some h => if !g.out && teamRestored s g then enterRestored s gid g n h else s
        | none, none => s)

/-! ### Lane faults (R420 to R423) -/

/-- The datapaths of a slice that work. -/
def healthyPaths (x : Slice) : List Nat := (fromTo 0 33).filter fun d => !x.failed.getLsbD d

/-- The position a datapath serves. -/
def servedBy (x : Slice) (d : Nat) : Option Nat := indexOf? (fun p => p == d) x.pos 0

/-- A lane-remap map after datapath d has failed, with whether the spare was taken and degraded mode entered (R422); a map
left with fewer than 16 datapaths takes the slice out of service (R423). DEDUCED, log entry 34. -/
def remap (x : Slice) (d : Nat) : Slice × Bool × Bool :=
  let y := { x with failed := x.failed ||| (1#33 <<< d) }
  if (healthyPaths y).length < 16 then ({ y with out := true }, false, false)
  else match servedBy x d with
    | none => (y, false, false)
    | some p =>
      if !x.deg && !x.failed.getLsbD 32 && !x.pos.contains 32 then ({ y with pos := setNth x.pos p 32 }, true, false)
      else ({ y with deg := true, pos := (fromTo 0 32).map fun p => ((healthyPaths y).drop (p % 16)).head?.getD 0 }, false, true)

/-- Every cluster with a group bound to a slice that went out of service is saved and resumed elsewhere (R423, R456). DEDUCED, log entry 34. -/
def vacateSlice (s : State) (core n : Nat) : State :=
  if ((s.core core).slice n).out then
    askClusters s 3 ((s.groups.filterMap fun x =>
      if x.2.core = core ∧ x.2.slice = n ∧ x.2.kind ≠ .spindle ∧ !x.2.out then clusterOf s x.2 else none))
  else s

/-- What an instruction captures when its result mismatches: its context, when it is next to issue on the lanes of a
resource. -/
def lanesIssue (s : State) (gid : Nat) (g : Group) (ok : Nat → Bool) : Option Ctx :=
  match ready s gid g with
  | some (r, some i) => if !ok r then none else match fieldsOf i, headOf g.thread with
    | some f, some e => some (ctxOf i f gid (withReplay g) e)
    | _, _ => none
  | _ => none

/-- AUX of 0x0D. -/
def laneReport (d p : Nat) (spare deg : Bool) : DWord :=
  BitVec.ofNat 64 (packNat [(8, d), (8, p), (1, b2n spare), (1, b2n deg)])

/-- The lowest lane of `exec` that a datapath serves. -/
def faultedLane (x : Slice) (c : Ctx) (d : Nat) : Option Nat := c.lanes.find? fun l => (x.pos.drop (l % 32)).head? == some d

/-- LANE_FAULT (R422): the instruction that a group is about to issue on the FMA or integer lanes mismatches at a datapath.
It writes nothing, the map is updated, and the group takes 0x0D; in a handler it just issues again. DESIGN CHOICE, log entry 24. -/
def execLaneFault (gid datapath : Nat) (s : State) : Host.Outcome State Fault Refusal :=
  .next (match s.group gid with
    | none => s
    | some g =>
      if datapath ≥ 33 ∨ g.kind = .spindle ∨ ((s.core g.core).slice g.slice).failed.getLsbD datapath then s
      else match lanesIssue s gid g (fun r => decide (r ≤ 1)) with
        | none => s
        | some c =>
          let x := (s.core g.core).slice g.slice
          let (y, spare, deg) := remap x datapath
          let s := s.modCore g.core fun k => k.setSlice g.slice y
          let s := if g.priv then s else
            let lane := faultedLane x c datapath
            let p := (lane.map fun l => l % 32).getD ((servedBy x datapath).getD 0)
            trapAt c s { cause := .laneFault, lane := lane, aux := laneReport datapath p spare deg }
          vacateSlice s g.core g.slice)

/-- SFU_MISMATCH (R423): the instruction issues again in place; a second mismatch in a row on the slice's special-function
lanes takes the slice out of service. DESIGN CHOICE, log entry 24. -/
def execSfuMismatch (gid : Nat) (s : State) : Host.Outcome State Fault Refusal :=
  .next (match s.group gid with
    | none => s
    | some g =>
      if g.kind = .spindle then s
      else match lanesIssue s gid g (fun r => r == 2) with
        | none => s
        | some _ =>
          let s := s.modCore g.core fun k =>
            let x := k.slice g.slice
            k.setSlice g.slice { x with sfuMiss := x.sfuMiss + 1, out := x.out || decide (x.sfuMiss ≥ 1) }
          vacateSlice s g.core g.slice)

end Sys2Proof.Machine
end

