-- ==== Sys2Proof/Machine/Saving.lean ====
section
/-!
DEFINITION. Saving a cluster and resuming it (R350, R442 to R447, R464), and the placement steps of the front end (R225,
R227).
-/
namespace Sys2Proof.Machine
open Sys2Proof

/-! ### Device accesses to a save slot (R443) -/

/-- A run of bytes cut at 4 KiB boundaries; the fuel bounds the pieces. -/
def splitRun : Nat → Nat → List Byte → List (Nat × List Byte)
  | 0, _, _ => []
  | fuel + 1, va, bs =>
    let n := 4096 - va % 4096
    if bs.isEmpty then [] else (va, bs.take n) :: splitRun fuel (va + n) (bs.drop n)

def splitRuns (runs : List (Nat × List Byte)) : List (Nat × List Byte) :=
  runs.flatMap fun r => splitRun (r.2.length / 4096 + 2) r.1 r.2

/-- Where the pieces stand: accesses at supervisor privilege in the context's address space. -/
def reachPieces (s : State) (core ctx : Nat) (w : Access) (ps : List (Nat × List Byte)) : Reach :=
  match ps.find? fun p => decide (p.1 + p.2.length > 2 ^ 56) with
  | some p => .trap { cause := .translation, addr := BitVec.ofNat 64 p.1 }
  | none => reachGlobal s core ctx w true (ps.map fun p => { lane := 0, addr := BitVec.ofNat 64 p.1, n := p.2.length })

/-- The pieces are written. -/
def putPieces (s : State) (core ctx : Nat) (hits : List Hit) (ps : List (Nat × List Byte)) : State :=
  (hits.zip ps).foldl (fun s x => writePlace s x.2.2 x.1.place) (touchHits s core ctx .write hits)

/-- Bytes in the device's own format. DESIGN CHOICE, log entry 32. -/
def deviceBytes (s : State) (k n : Nat) : List Byte :=
  (fromTo 0 n).map fun i => (Config.freeBits s.free (k + i)).truncate 8

/-- What the device has written to a cluster's slot is kept for the check on restore (R445). -/
def addWritten (s : State) (cid : Nat) (runs : List (Nat × List Byte)) : State :=
  s.modCluster cid fun c =>
    let x := c.saved.getD {}
    { c with saved := some { x with written := x.written ++ runs } }

/-! ### `ctx.gate.out` (R446, R464) -/

/-- The captured operands of a frame: word n of lane l at (64 n + l) × 4. -/
def capturedBytes (h : Handler) : List Byte :=
  (fromTo 0 96).flatMap fun n => (fromTo 0 64).flatMap fun l => toBytes 4 (match (h.entries.drop (n / 8)).head? with
    | some r => (tget 0 r.words (64 * (n % 8) + l)).toNat
    | none => 0)

/-- What the device writes to a group's block. -/
def groupRun (s : State) (h : Handler) : List Byte :=
  ((fromTo 0 32).flatMap fun n => toBytes 8 (frameWord h n)) ++ deviceBytes s 0 256 ++ capturedBytes h

/-- The group leaves its core: its frame store, slot and lines go back, and it is to enter its handler again with this frame
when it is restored (R447, R464). DESIGN CHOICE, log entry 18. -/
def leaveCore (s : State) (gid : Nat) (g : Group) (h : Handler) : State :=
  let s := freeStore s g gid
  let h := { h with thread := {}, swreq := 0, restored := true, ctl := [] }
  let main := { g.main with vregs := [], sregs := [], preds := [], staged := [] }
  s.setGroup gid { g with main := main, handler := none, restore := some h, out := true, park := none, swreq := 0 }

def execCtxGateOut (f : Fields) (s : State) :=
  runGroup (.ctxGateOut f) f s fun c s =>
    match c.g.handler with
    | none => .trap s { cause := .protection, aux := 1 }
    | some h =>
      if h.swreq = 0 then .trap s { cause := .protection, aux := 1 }
      else
        let s := drainGroup s c.gid
        match s.group c.gid, clusterOf s c.g with
        | some g, some cid =>
          if flagsPending g.thread then .park s (.stall .flags)
          else
            let run := (h.saveAddr.toNat, groupRun s h)
            let ps := splitRuns [run]
            (reachPieces s c.core c.g.ctx .write ps).andThen s fun s hits =>
              let s := { (putPieces s c.core c.g.ctx hits ps) with free := s.free + 1 }
              .moved (leaveCore (addWritten s cid [run]) c.gid g ((g.handler).getD h))
        | _, _ => .done s

/-! ### Saving a team (R443, R445) -/

/-- Engine work of a team that must end before it is saved: a record that runs, row operations, deliveries, a halt. -/
def teamBusy (s : State) (t : Team) (tid : Nat) : Bool :=
  let k := s.core t.core
  (k.reel.any fun x => x.2.any fun c => c.team == tid && c.running) || (k.rowOps.any fun o => o.2.team == tid) ||
  (k.spindle.any fun q => q.2.halts.any fun h => h.team == tid)

/-- The header of a team block: descriptor j at 0x100 + 16 j, the rest in the device's format. DESIGN CHOICE, log entry 32. -/
def headerBytes (s : State) (t : Team) : List Byte :=
  let descs := (fromTo 0 t.tiles).flatMap fun j => toBytes 16 ((t.seq.map fun q => (tget 0 q.tdesc j).toNat).getD 0)
  deviceBytes s 256 256 ++ descs ++ deviceBytes s 512 (65280 - descs.length)

def latchBytes (t : Team) : List Byte :=
  (fromTo 0 (t.tiles * 2048)).map fun b => (t.seq.map fun q => tget 0 q.latch b).getD 0

/-- An element of a tile in the pair layout of R80: a tile has no type, so the bits above 39 are as either type has them.
DESIGN CHOICE, log entry 32. -/
def pairBytes (asInt : Bool) (x : BitVec 40) : List Byte :=
  toBytes 8 (if asInt then (x.signExtend 64).toNat else x.toNat)

def tilesBytes (s : State) (t : Team) : List Byte :=
  let asInt := Config.freeChoice s.free 9 % 2 == 1
  (fromTo 0 (t.accum * 4096)).flatMap fun e => pairBytes asInt ((t.seq.map fun q => tget 0 q.acc e).getD 0)

/-- Carder entries of a team (R445). -/
def carderEntries (s : State) (t : Team) (tid : Nat) : Nat :=
  let k := s.core t.core
  (k.deposits.filter fun d => d.team == tid).length + ((k.ready.filter fun r => r.team == tid).flatMap Ready.entries).length

/-- What the device writes to a team's block. -/
def teamRun (s : State) (t : Team) (tid : Nat) : Nat × List Byte :=
  (teamBlock s t, headerBytes s t ++ latchBytes t ++ tilesBytes s t ++
    scratchBytes s t.core t.scratchBase t.scratchSize ++ deviceBytes s 65792 (64 * carderEntries s t tid))

/-- The cluster header, written with its last team. -/
def clusterRun (s : State) (t : Team) : List (Nat × List Byte) :=
  let last := (teamsOf s t.cluster).all fun k => ((s.team k).map fun u => u.saved || u.rank == t.rank).getD true
  if last then [(teamBlock s t - t.rank * t.slotBytes - 0x1000, deviceBytes s 2000000 4096)] else []

/-- What a team's core and engines hold, as it is kept. -/
def savedTeamOf (s : State) (t : Team) (tid : Nat) : SavedTeam :=
  let k := s.core t.core
  let lo := t.scratchBase
  { tid := tid
    scratch := (k.scratch.filter fun x => decide (lo ≤ x.1 ∧ x.1 < lo + t.scratchSize)).map fun x => (x.1 - lo, x.2)
    scratchBad := (k.scratchBad.filter fun l => decide (lo / 128 ≤ l ∧ l < (lo + t.scratchSize) / 128)).map fun l => l - lo / 128
    chains := k.reel.flatMap fun x => (x.2.filter fun c => c.team == tid).map fun c => (x.1, c)
    links := k.links.filter fun x => x.team == tid
    jobs := (queuesOf k tid).map fun q => (q, { (k.spq q) with reports := [] }, s.group (k.spq q).gid)
    deposits := k.deposits.filter fun d => d.team == tid
    ready := k.ready.filter fun r => r.team == tid }

/-- The chains, linked records, jobs and bins of a team leave its core. -/
def takeEngines (s : State) (t : Team) (tid : Nat) : State :=
  let jobs := (s.groups.filter fun x => x.2.team == tid && x.2.kind == .spindle).map fun x => x.1
  let s := s.modCore t.core fun k =>
    let k := (fromTo 0 4).foldl (fun (k : Core) ch => k.setChannel ch ((k.channel ch).filter fun c => c.team != tid)) k
    let k := (queuesOf k tid).foldl (fun (k : Core) q => k.setSpq q (k.spq q).unbound) k
    { k with links := k.links.filter fun x => x.team != tid }
  dropBins (jobs.foldl dropGroup s) t tid

/-- A team's state has been written: it holds nothing of its core any more; a cluster whose last team it was waits to
resume. -/
def teamGone (s : State) (t : Team) (tid : Nat) : State :=
  let st := savedTeamOf s t tid
  let s := (releaseScratch (takeEngines s t tid) t).modTeam tid fun t => { t with saved := true }
  let all := (teamsOf s t.cluster).all fun k => ((s.team k).map Team.saved).getD true
  s.modCluster t.cluster fun c =>
    let x := c.saved.getD {}
    { c with saved := some { x with teams := x.teams ++ [st] }
             cores := if all then [] else c.cores, leaving := if all then 0 else c.leaving }

/-- The team is saved, its slot being held. -/
def saveTeam (s : State) (t : Team) (tid : Nat) : State :=
  let ctx := ctxOfTeam s t
  let runs := teamRun s t tid :: clusterRun s t
  let ps := splitRuns runs
  match reachPieces s t.core ctx .write ps with
  | .trap i => endCluster s t.cluster t.core ctx 3 i.cause
  | .park s p => (enterPark s t.core ctx p).1
  | .ok s hits =>
    let s := { (putPieces s t.core ctx hits ps) with free := s.free + 1 }
    teamGone (addWritten s t.cluster runs) t tid

/-- Every event that the threads of a team issued is performed, those of its Spindle jobs included (R308). -/
def drainTeam (s : State) (tid : Nat) : State :=
  ((s.groups.filter fun x => x.2.team == tid).map fun x => x.1).foldl drainGroup (performStoresTeam s tid)

/-- TEAM_SAVE (R443): every group of the team has executed `ctx.gate.out`, and every event the team issued has been
performed. DEDUCED, log entry 33. -/
def execTeamSave (tid : Nat) (s : State) : Host.Outcome State Fault Refusal :=
  .next (match s.team tid with
    | none => s
    | some t =>
      if t.saved ∨ !teamLeft s tid ∨ teamBusy s t tid then s
      else
        let s := drainTeam s tid
        match takeSlot s t.cluster with
        | none => endCluster s t.cluster t.core (ctxOfTeam s t) 3 .localBounds
        | some s => saveTeam s t tid)

/-! ### Resuming (R447) -/

/-- A group takes a new slot, and is the youngest of its slice (R230). -/
def rebind (core : Nat) (s : State) (x : Nat × Nat × Nat) : State :=
  let (age, s) := s.newId
  s.modGroup x.1 fun g => { g with
    core := core, slice := x.2.1, slot := x.2.2, out := false, age := age, lineBanks := [(0, ownedBanks s core g.ctx)] }

/-- A saved team is placed on a core: its groups are bound, its scratchpad and tiles reserved. DESIGN CHOICE, log entry 31. -/
def replaceTeam (s : State) (tid core : Nat) : State :=
  match s.team tid with
  | none => s
  | some t =>
    let gs := groupsOf s tid
    let lines := gs.map fun g => linesFor g.2.width g.2.main.nv g.2.main.ns
    match bindAll (sliceRooms s core (ctxOfTeam s t)) lines, freeRun s core t.granules with
    | some slots, some gr =>
      let t := { t with core := core, granule := gr, gen := genAt s core (gr * 262144), saved := false
                        quads := placeTiles (quadUse s core) t.accum 0 []
                        seq := t.seq.map fun q => { q with held := [], park := none } }
      ((gs.zip slots).map fun x => (x.1.1, x.2)).foldl (rebind core) ((freshCaches s core).setTeam tid t)
    | _, _ => s

/-- A saved cluster is placed on the cells of a rectangle; its state is read back next. -/
def placeSaved (s : State) (cid : Nat) (cells : List Nat) : State :=
  match s.cluster cid with
  | none => s
  | some c =>
    let tids := teamsOf s cid
    let s := (tids.zip cells).foldl (fun s x => replaceTeam s x.1 x.2) s
    let s := s.modCluster cid fun _ => { c with cores := cells, slot := none, oldSlot := c.slot }
    { s with agenda := .event (.clusterResume cid) :: s.agenda }

/-- The queues that saved jobs are to have again are free on the core, and its Carder has room for the saved entries (R360).
DEDUCED, log entry 58. -/
def enginesFit (s : State) (core : Nat) (st : SavedTeam) : Bool :=
  let k := s.core core
  (st.jobs.all fun j => (k.spq j.1).ctx.isNone) &&
  decide (carderCount k + st.deposits.length + (st.ready.map fun r => r.entries.length).foldl (· + ·) 0 ≤ 16384)

/-- Scratchpad, chains, jobs and Carder entries of a team on its new core (R350, R447). -/
def restoreTeam (s : State) (st : SavedTeam) : State :=
  match s.team st.tid with
  | none => s
  | some t =>
    let lo := t.scratchBase
    let s := s.modCore t.core fun k =>
      let k := { k with
        scratch := st.scratch.foldl (fun m x => tput 0 m (lo + x.1) x.2) k.scratch
        scratchBad := k.scratchBad ++ st.scratchBad.map fun l => lo / 128 + l
        deposits := k.deposits ++ st.deposits
        ready := k.ready ++ st.ready
        links := k.links ++ st.links }
      let k := st.chains.foldl (fun (k : Core) x =>
        k.setChannel x.1 (k.channel x.1 ++ [{ x.2 with own := targetOf s t, cleared := [], begun := false, park := none }])) k
      st.jobs.foldl (fun (k : Core) j => k.setSpq j.1 { j.2.1 with reports := (k.spq j.1).reports, halts := (k.spq j.1).halts }) k
    st.jobs.foldl (fun s j => match j.2.2 with
      | some g => s.setGroup j.2.1.gid { g with core := t.core }
      | none => s) s

/-- CLUSTER_RESUME (R447): the device reads what it wrote and compares it; then the teams are restored and the groups may
enter their handlers. -/
def execClusterResume (cid : Nat) (s : State) : Host.Outcome State Fault Refusal :=
  .next (match s.cluster cid with
    | none => s
    | some c => match c.saved, c.cores with
      | some x, core :: _ =>
        let ctx := ((s.grid c.grid).map Grid.ctx).getD 0
        let ps := splitRuns x.written
        if !resumes s cid ∨ !(x.teams.all fun st => enginesFit s (((s.team st.tid).map Team.core).getD 0) st) then s
        else match reachPieces s core ctx .read ps with
          | .trap i => endCluster s cid core ctx 4 i.cause
          | .park s p => (enterPark s core ctx p).1
          | .ok s hits =>
            if (hits.zip ps).all fun h => readPlace s h.2.2.length h.1.place == h.2.2 then
              let s := x.teams.foldl restoreTeam (touchHits s core ctx .read hits)
              settleRestore (s.modCluster cid fun c => { c with saved := none }) cid
            else endCluster s cid core ctx 4 .integrity
      | _, _ => s)

/-! ### Placement (R225, R227) -/

/-- CLUSTER_PLACE (R225): the front end places the next cluster that fits. -/
def execClusterPlace (fe : Nat) (s : State) : Host.Outcome State Fault Refusal :=
  .next (if s.clock < (s.front fe).freeAt then s else placeFirst placeSaved false fe s (unblocked (readyGrids s fe)))

/-- CORESIDENT_PLACE (R227): every cluster of a co-resident grid in one step. -/
def execCoresidentPlace (fe : Nat) (s : State) : Host.Outcome State Fault Refusal :=
  .next (if s.clock < (s.front fe).freeAt then s else placeFirst placeSaved true fe s (unblocked (readyGrids s fe)))

end Sys2Proof.Machine
end

