-- ==== Sys2Proof/Machine/Pages.lean ====
section
/-!
DEFINITION. What the device does with the pages of a context: building tables (R239, R509), moving frames (R248), making pages
resident (R246, R249), sharing frames in place (R251, R454), key domains (R504) and new contexts (R430).
-/
namespace Sys2Proof.Machine
open Sys2Proof

/-! ### The mapped pages of a context -/

/-- Indices and values of the non-zero entries of a table. -/
def tableEntries (s : State) (base : Nat) : List (Nat × Nat) :=
  let ix := dedup ((s.mem.filter fun c => decide (base ≤ c.1 ∧ c.1 < base + 65536)).map fun c => (c.1 - base) / 8)
  ix.map fun i => (i, readNat s (base + 8 * i) 8)

/-- The addresses that some entry of the last level of one level-1 index may map. -/
def regionVas (s : State) (i e : Nat) : List Nat :=
  if !tableOk e then []
  else (tableEntries s (pteAddr e)).flatMap fun x =>
    let va := i * 2 ^ 43 + x.1 * 2 ^ 30
    if pteV x.2 && pteLeaf x.2 then [va]
    else if !tableOk x.2 then []
    else (tableEntries s (pteAddr x.2)).map fun y => va + y.1 * frameBytes

/-- The leaves among some addresses. -/
def leavesAt (s : State) (c : Context) (vas : List Nat) : List (Nat × Leaf) :=
  vas.filterMap fun va => match walkTables s c va with
    | .leaf l => some (va, l)
    | .bad _ => none

/-- Every leaf of a context, by ascending address. -/
def leavesOf (s : State) (ctx : Nat) : List (Nat × Leaf) :=
  match s.ctx ctx with
  | none => []
  | some c => (tableEntries s c.root).flatMap fun x => leavesAt s c (regionVas s x.1 x.2)

/-- The leaf of one address. -/
def leafAt (s : State) (ctx va : Nat) : Option Leaf :=
  match s.ctx ctx with
  | none => none
  | some c => match walkTables s c (va % 2 ^ 56) with
    | .leaf l => some l
    | .bad _ => none

/-- The frames that hold the tables of a context. -/
def tableFrames (s : State) (root : Nat) : List Nat :=
  let l2 := (tableEntries s root).filterMap fun x => if tableOk x.2 then some (pteAddr x.2) else none
  let l3 := l2.flatMap fun t => (tableEntries s t).filterMap fun x => if tableOk x.2 then some (pteAddr x.2) else none
  ((root :: l2) ++ l3).map fun a => a / frameBytes

/-! ### Building tables -/

/-- A frame for a page or a table of a context, in the key domain given. -/
def newFrame (s : State) (ctx dom : Nat) (tiers : List Nat) : Option (Nat × State) :=
  (pickFrame s ctx tiers).map fun fr => (fr, { (takeFrame s fr dom) with free := s.free + 1 })

/-- The table that an entry names, built zeroed if there is none. -/
def tableAt (s : State) (ctx dom entry : Nat) : Option (Nat × State) :=
  let e := readNat s entry 8
  if tableOk e then some (pteAddr e, s)
  else (newFrame s ctx dom (anyTier s)).map fun x => (x.1 * frameBytes, writeNat x.2 entry 8 (1 + x.1 * frameBytes))

/-- The last-level entry of an address, its tables built as needed (R509). -/
def leafSlot (s : State) (ctx va : Nat) : Option (Nat × State) :=
  match s.ctx ctx with
  | none => none
  | some c => match tableAt s ctx c.privDom (c.root + 8 * bits va 55 43) with
    | none => none
    | some (t2, s) => match tableAt s ctx c.privDom (t2 + 8 * bits va 42 30) with
      | none => none
      | some (t3, s) => some (t3 + 8 * bits va 29 17, s)

/-- An entry and its companion word are written. -/
def putLeaf (s : State) (at' pte comp : Nat) : State := writeNat (writeNat s at' 8 pte) (at' + 65536) 8 comp

/-! ### Moving a frame (R248) -/

/-- A captured mapping follows a frame that moves (R223). -/
def retargetParam (old new : Nat) : ParamMap → ParamMap
  | .leaf pte comp giB =>
    let pte := if !giB && pteAddr pte.toNat == old * frameBytes then BitVec.ofNat 64 (setBits pte.toNat 47 16 (2 * new)) else pte
    let comp := if bits comp.toNat 30 0 == old && compMask comp.toNat != 0 then BitVec.ofNat 64 (setBits comp.toNat 30 0 new) else comp
    .leaf pte comp giB
  | m => m

/-- A frame moves with its marks to one that is taken for it, and is released. A line whose check fails on the way is marked
poisoned (R425, R497). DEDUCED, log entry 43. -/
def moveFrame (s : State) (old new dom : Nat) : State :=
  let s := poisonFailed (settleFrame s old) (old * frameBytes) frameBytes
  let s := copyMem (takeFrame s new dom) (old * frameBytes) (new * frameBytes) frameBytes
  let s := { s with grids := s.grids.map fun g => (g.1, { g.2 with param := retargetParam old new g.2.param }) }
  dropFrame s old

/-! ### Backing (R238, R248, R249, R499) -/

/-- The sectors of a backing location cannot be read: the port it lies behind is down (R500). -/
def backingLost (s : State) (loc : Nat) : Bool :=
  match tfind s.portTable (loc / frameBytes) with
  | some p => (s.port p).down || !(s.port p).trained
  | none => false

/-- The page image of a backing location becomes the content of a frame; what cannot be read is poisoned (R249). -/
def readBacking (s : State) (loc fr : Nat) : State :=
  let cells := s.backing.filter fun c => decide (loc ≤ c.1 ∧ c.1 < loc + frameBytes)
  let bad := if backingLost s loc then fromTo 0 4096
    else (s.backingBad.filter fun u => u / 4096 == loc / frameBytes).map fun u => u % 4096
  { s with
    mem := cells.foldl (fun m c => tput memDefault m (c.1 - loc + fr * frameBytes) c.2) s.mem
    memBad := s.memBad ++ bad.map fun u => fr * 4096 + u
    backing := s.backing.filter fun c => decide (c.1 < loc ∨ loc + frameBytes ≤ c.1)
    backingBad := s.backingBad.filter fun u => u / 4096 != loc / frameBytes }

/-- A frame's content becomes the page image of a backing location, with its marks. -/
def writeBacking (s : State) (fr loc : Nat) : State :=
  let s := poisonFailed (settleFrame s fr) (fr * frameBytes) frameBytes
  let cells := s.mem.filter fun c => decide (fr * frameBytes ≤ c.1 ∧ c.1 < fr * frameBytes + frameBytes)
  let bad := s.memBad.filter fun u => u / 4096 == fr
  { s with
    backing := cells.foldl (fun m c => tput 0 m (c.1 - fr * frameBytes + loc) c.2) s.backing
    backingBad := s.backingBad ++ bad.map fun u => loc / 32 + u % 4096 }

/-- A backing location in host memory that no page has: any will do. DEDUCED, log entry 43. -/
def newBacking (s : State) : Nat × State :=
  let (n, s) := s.newId
  (n % 2 ^ 31 * frameBytes, s)

/-! ### Making pages resident (R246, R249) -/

/-- The captured mapping of a parameter block whose page has just become resident (R223). -/
def retargetAbsent (s : State) (ctx va pte : Nat) : State :=
  { s with grids := s.grids.map fun g =>
      if g.2.ctx = ctx ∧ g.2.pkt.params / frameBytes = va / frameBytes then
        (g.1, { g.2 with param := match g.2.param with
          | .leaf p k giB => if pteRES p.toNat then .leaf p k giB else .leaf (BitVec.ofNat 64 pte) k giB
          | m => m })
      else g }

/-- A page of a context becomes resident: its image goes into a frame of one of some tiers. `none` while no frame is free. -/
def bringPage (s : State) (ctx va : Nat) (l : Leaf) (tiers : List Nat) : Option State :=
  if pteRES l.pte then some s
  else
    let done (s : State) (pte : Nat) : State := retargetAbsent (deviceSetLeaf s ctx l pte l.comp) ctx va pte
    if pteTier l.pte ≠ 2 then some (done s (setBit1 l.pte 10 true))
    else (newFrame s ctx (pteKey l.pte) tiers).map fun x =>
      done (readBacking x.2 (pteAddr l.pte) x.1) (setBits (setBits (setBit1 l.pte 10 true) 47 16 (2 * x.1)) 12 11 (frameTier x.1))

/-- A resident page goes to the host tier (R248, R450). -/
def demotePage (s : State) (ctx : Nat) (l : Leaf) : State :=
  let fr := pteAddr l.pte / frameBytes
  let (loc, s) := newBacking s
  let s := writeBacking s fr loc
  dropFrame (deviceSetLeaf s ctx l (setBits (setBits (setBit1 l.pte 10 false) 47 16 (loc / 65536)) 12 11 2) l.comp) fr

/-- A frame may leave module memory or move: not pinned, private, of 128 KiB (R238, R248, R450). -/
def movable (l : Leaf) : Bool := pteRES l.pte && !ptePIN l.pte && !pteSH l.pte && !l.giB

/-- What a park waits for, of pages. -/
def Park.pagesOf : Park → List Nat
  | .pages vpns => vpns
  | .faultSlot _ vpns => vpns
  | _ => []

/-- Who waits for pages: its core, its context, the pages, the priority of its grid. -/
structure PageWait where
  core : Nat
  ctx  : Nat
  vpns : List Nat
  prio : Nat
  deriving DecidableEq, Repr

/-- The priority of a team's grid. -/
def prioOfTeam (s : State) (t : Team) : Nat := ((((s.cluster t.cluster).bind fun c => s.grid c.grid)).map fun y => y.pkt.prio).getD 0

/-- What waits for pages: groups, Reel chains and matrix streams (R246, R334, R365). -/
def pageWaits (s : State) : List PageWait :=
  (s.groups.filterMap fun g => g.2.park.map fun p =>
    { core := g.2.core, ctx := g.2.ctx, vpns := p.pagesOf, prio := ((s.team g.2.team).map (prioOfTeam s)).getD 0 }) ++
  (s.cores.flatMap fun k => k.2.reel.flatMap fun ch => ch.2.filterMap fun c => c.park.map fun p =>
    { core := k.1, ctx := c.ctx, vpns := p.pagesOf, prio := c.prio }) ++
  ((s.teams.filter fun t => !t.2.saved).filterMap fun t => (t.2.seq.bind fun q => q.park).map fun p =>
    { core := t.2.core, ctx := ctxOfTeam s t.2, vpns := p.pagesOf, prio := prioOfTeam s t.2 })

/-- Pages that a parked instruction or an engine waits for stay until it has issued again (R246); so do those that an open
fault names. -/
def wanted (s : State) (ctx va : Nat) : Bool :=
  ((pageWaits s).any fun w => w.ctx == ctx && w.vpns.contains (va / frameBytes)) ||
  s.cores.any fun k => k.2.faults.contains (ctx, va / frameBytes)

/-- The far pages that may go to the host tier to free a frame; which goes is not fixed. DESIGN CHOICE, log entry 41. -/
def victims (s : State) : List (Nat × Nat × Leaf) :=
  s.ctxs.flatMap fun c => ((leavesOf s c.1).filter fun x =>
    movable x.2 && pteTier x.2.pte == 1 && !wanted s c.1 x.1).map fun x => (c.1, x.1, x.2)

/-- One far page goes to the host tier (R450). DESIGN CHOICE, log entry 41. -/
def makeRoom (s : State) : Option State :=
  let vs := victims s
  ((vs.drop (Config.freeChoice s.free 8 % vs.length)).head?).map fun v => { (demotePage s v.1 v.2.2) with free := s.free + 1 }

/-- A page becomes resident; where no frame is free, one is made free first. -/
def bringOrRoom (s : State) (ctx va : Nat) (l : Leaf) (tiers : List Nat) : Option State :=
  match bringPage s ctx va l tiers with
  | some s => some s
  | none => match makeRoom s with
    | some s => bringPage s ctx va l tiers
    | none => none

/-! ### Sharing (R251, R256, R454, R487, R488) -/

/-- The content directory slice of a hash. -/
def sliceOf (h : Nat) : Nat := h / 2 ^ 62 % 4

/-- The entries of a directory slice. -/
def sliceCount (s : State) (n : Nat) : Nat := (s.shared.filter fun x => sliceOf x.2.hash.toNat == n).length

/-- Re-encryption of a frame under another key domain. -/
def rekey (s : State) (fr dom : Nat) : State := { (purgeFrame s fr) with frames := tins s.frames fr dom }

/-- A private page's frame becomes a shared frame in place, under the domain's key. DESIGN CHOICE, log entry 42. -/
def shareInPlace (s : State) (ctx : Nat) (l : Leaf) (dom refs : Nat) : State :=
  let fr := pteAddr l.pte / frameBytes
  let s := settleFrame s fr
  let h := Config.pageHash dom (readMem s (fr * frameBytes) frameBytes)
  let s := { (rekey s fr dom) with shared := tins s.shared fr { domain := dom, refs := refs, hash := h } }
  deviceSetLeaf s ctx l (setBits (setBit1 l.pte 8 true) 61 48 dom) 0

/-! ### Unmapping (R256, R259) -/

/-- The frames of a 1 GiB page that are in use or hold anything are released. -/
def releaseGiB (s : State) (pa : Nat) : State :=
  let within (a : Nat) : Bool := decide (pa ≤ a ∧ a < pa + 2 ^ 30)
  (dedup (((s.frames.map fun x => x.1).filter fun fr => within (fr * frameBytes)) ++
    ((s.mem.filter fun c => within c.1).map fun c => c.1 / frameBytes))).foldl dropFrame s

/-- What a leaf maps is released: the frame or the frames, the private frame of a shared page, its share of the shared frame, its backing. -/
def releaseLeaf (s : State) (l : Leaf) : State :=
  let fr := pteAddr l.pte / frameBytes
  if l.giB then releaseGiB s (pteAddr l.pte)
  else if pteSH l.pte then
    let s := if compMask l.comp = 0 then s else dropFrame s (bits l.comp 30 0)
    dropShared s fr
  else if pteRES l.pte then dropFrame s fr
  else { s with backing := s.backing.filter fun c => decide (c.1 < fr * frameBytes ∨ fr * frameBytes + frameBytes ≤ c.1)
                backingBad := s.backingBad.filter fun u => u / 4096 != fr }

/-! ### Key domains and new contexts (R430, R504) -/

/-- A key-domain number not in use: any one may be given. DESIGN CHOICE, log entry 41. -/
def freeDomain (s : State) : Option Nat :=
  let k := Config.freeChoice s.free 5 % 16384
  ((fromTo k (16384 - k) ++ fromTo 0 k)).find? fun n => (tfind s.keyDoms n).isNone

def newDomain (s : State) (d : KeyDomain) : Option (Nat × State) :=
  (freeDomain s).map fun n => (n, { s with keyDoms := tins s.keyDoms n d, free := s.free + 1 })

/-- The key domain of a dedup domain that a context joins: made with its first member. -/
def joinDedup (s : State) (name id : Nat) : Option (Nat × State) :=
  match s.keyDoms.find? fun x => x.2.dedup == some name with
  | some (n, d) => some (n, { s with keyDoms := tins s.keyDoms n { d with owners := d.owners ++ [id] } })
  | none => newDomain s { dedup := some name, owners := [id] }

/-- A key is destroyed when its domain has no member and no frame any more. -/
def pruneDomains (s : State) : State :=
  { s with keyDoms := s.keyDoms.filter fun x => !x.2.owners.isEmpty || s.frames.any fun f => f.2 == x.1 }

/-- KEYS. -/
def keysWord (priv : Nat) (dedup : Option Nat) : DWord :=
  match dedup with
  | some n => BitVec.ofNat 64 (priv + 65536 * n + 2 ^ 30)
  | none => BitVec.ofNat 64 priv

/-- A zeroed level-1 table for a new context of a partition: no home die yet, so on the die with the most free frames. -/
def rootFrame (s : State) (part dom : Nat) : Option (Nat × State) :=
  let colours := (s.front part).colours
  ((anyTier s).findSome? (frameOn s colours (roomiestDie s colours [0, 1]))).map fun fr =>
    (fr, { (takeFrame s fr dom) with free := s.free + 1 })

/-- A context with a new private key domain, in the dedup key domain given, swapped out. -/
def newContext (s : State) (id : Nat) (dedup : Option Nat) (c : Context) : Option State :=
  match newDomain s { owners := [id] } with
  | none => none
  | some (dom, s) => (rootFrame s c.part dom).map fun x =>
    { x.2 with ctxs := tins x.2.ctxs id { c with root := x.1 * frameBytes, keys := keysWord dom dedup } }

/-- A context ID that is free: any one may be given. DESIGN CHOICE, log entry 41. -/
def freeCtx (s : State) : Option Nat :=
  let k := Config.freeChoice s.free 6 % 4096
  ((fromTo k (4096 - k) ++ fromTo 0 k)).find? fun n => (s.ctx n).isNone

end Sys2Proof.Machine
end

