-- ==== Sys2Proof/Machine/Contexts.lean ====
section
/-!
DEFINITION. The supervisor instructions of contexts (R452 to R465): `ctx.fork`, `ctx.gate.yield`, `tier.rec`, `tier.pin`, `tier.unpin`,
`srw` and `tlb.inv`.
-/
namespace Sys2Proof.Machine
open Sys2Proof

/-! ### The descriptor (R430, R431) -/

/-- CTL of a context. -/
def Context.ctl (c : Context) (id : Nat) : Nat :=
  packNat [(12, id), (12, 0), (2, c.state), (1, 0), (1, b2n c.forking), (4, c.part)]

/-- A word of the descriptor. -/
def Context.word (c : Context) (id : Nat) : Nat → Nat
  | 0 => c.ctl id
  | 1 => c.root
  | 2 => c.handler.toNat
  | 3 => c.saveBase.toNat
  | 4 => c.saveSz.toNat
  | 5 => c.callBase.toNat
  | 6 => c.callSlots + 2 ^ 32 * (c.callCount % 2 ^ 32)
  | 7 => c.ctime % 2 ^ 64
  | 8 => c.timerCmp
  | 9 => c.budget
  | 10 => c.wsBase.toNat
  | 11 => c.wsLen
  | 12 => c.dropped
  | 13 => c.faultLog.toNat
  | 14 => c.forkSrc.toNat
  | 15 => c.keys.toNat
  | _ => 0

/-- What `srw` writes of a word: its RW fields; a HANDLER or SAVEBASE that breaks its alignment is ignored (R461). DEDUCED, log entry 37. -/
def Context.setWord (c : Context) (n x : Nat) : Context :=
  match n with
  | 2 => if x % 4 = 0 then { c with handler := BitVec.ofNat 64 x } else c
  | 3 => if x % 131072 = 0 then { c with saveBase := BitVec.ofNat 64 x } else c
  | 4 => { c with saveSz := BitVec.ofNat 64 (x % 2 ^ 48) }
  | 5 => { c with callBase := BitVec.ofNat 64 x }
  | 6 => { c with callSlots := x % 65536 }
  | 8 => { c with timerCmp := x % 2 ^ 64 }
  | 10 => { c with wsBase := BitVec.ofNat 64 x }
  | _ => c

/-! ### `srw` (R460, R461) -/

/-- A register of `srw`, as the issuing group reads it. -/
def srwValue (s : State) (c : Ctx) (code : Nat) : Nat :=
  let r := (s.core c.core).residentOf c.g.ctx
  match code with
  | 32 => (r.map fun x => ofInt 64 x.2.balance).getD 0
  | 33 => (c.g.handler.map Handler.swreq).getD 0
  | 34 => (c.g.handler.map fun h => h.saveAddr.toNat).getD 0
  | 35 => (r.map fun x => x.2.banks).getD 0
  | n => ((s.ctx c.g.ctx).map fun x => x.word c.g.ctx n).getD 0

/-- The banks that contexts own on a core, apart from one. -/
def othersBanks (k : Core) (ctx : Nat) : Nat :=
  (k.residents.filter fun r => r.2.ctx != ctx).foldl (fun m r => m ||| r.2.banks) 0

/-- Banks in which register lines of a context lie on a core: the lines of a run fall in every bank owned when it was allocated
(R228). -/
def lineBanksOf (s : State) (core ctx : Nat) : Nat :=
  (s.groups.filter fun g => g.2.core == core && g.2.ctx == ctx && g.2.kind != .spindle && !g.2.out).foldl (fun m g =>
    g.2.lineBanks.foldl (fun m r => m ||| r.2) m) 0

/-- The owned set after a write to BANKS: owned banks that hold lines stay (R461). DEDUCED, log entry 37. -/
def newBanks (s : State) (core ctx mask : Nat) (old : Nat) : Nat :=
  ((mask % 256) &&& (255 - othersBanks (s.core core) ctx)) ||| (old &&& lineBanksOf s core ctx)

def srwWrite (s : State) (c : Ctx) (code x : Nat) : State :=
  if code = 35 then
    s.modCore c.core fun k => k.modResident c.g.ctx fun r => { r with banks := newBanks s c.core c.g.ctx x r.banks }
  else if code < 16 then s.modCtx c.g.ctx fun k => k.setWord code x
  else s

/-- DEDUCED, log entry 37. -/
def execSrw (f : Fields) (s : State) :=
  runGroup (.srw f) f s fun c s =>
    if c.exec = 0 then .done s
    else
      let code := f.imm13.toNat % 64
      let old := srwValue s c code
      .done (writeScalar c (srwWrite s c code (c.srcA c.low)) old)

/-- DEDUCED, log entry 37. -/
def execSrwRd (f : Fields) (s : State) :=
  runGroup (.srwRd f) f s fun c s =>
    if c.exec = 0 then .done s else .done (writeScalar c s (srwValue s c (f.imm13.toNat % 64)))

/-! ### `ctx.gate.yield` (R464) -/

def execCtxGateYield (f : Fields) (s : State) :=
  runGroup (.ctxGateYield f) f s fun c s =>
    .done (s.modCore c.core fun k => k.modResident c.g.ctx fun r => { r with yielded := true })

/-! ### `tlb.inv` (R465) -/

/-- The group's earlier writes, and every access of the context that a dropped entry has translated, are performed; then cached
translations go, those of leaves that a test picks and of walk-cache entries. DESIGN CHOICE, log entry 16. -/
def invalidate (s : State) (c : Ctx) (p : Nat → CachedLeaf → Bool) (q : Nat → Bool) : State :=
  dropCopies (performStoresCtx (performStoresOf s c.gid) c.g.ctx) c.g.ctx p q

/-- A cached leaf maps the 128 KiB page of an address. -/
def mapsPage (va vpn : Nat) (x : CachedLeaf) : Bool := vpn == vpnOf va || (x.giB && vpn / 8192 == vpnOf va / 8192)

def execTlbInvPage (f : Fields) (s : State) :=
  runGroup (.tlbInvPage f) f s fun c s =>
    let va := c.srcA c.low % 2 ^ 56
    if c.exec = 0 then .done s
    else .done (invalidate s c (mapsPage va) fun k => k == walkKey 0 1 va || k == walkKey 0 2 va)

def execTlbInvAll (f : Fields) (s : State) :=
  runGroup (.tlbInvAll f) f s fun c s =>
    if c.exec = 0 then .done s else .done (invalidate s c (fun _ _ => true) fun _ => true)

/-! ### `tier.rec` (R462) -/

/-- The entries that `tier.rec.add` appends to a list: pages that are not listed yet, as far as there is room. DEDUCED, log entry 38. -/
def recNew (listed : List Nat) : Nat → Nat → List Nat → List Nat
  | 0, _, acc => acc
  | n + 1, va, acc =>
    let p := va % 2 ^ 56
    let skip := listed.any (fun e => wsPage e == p) || acc.any fun e => wsPage e == p
    recNew listed n (va + 131072) (if skip ∨ listed.length + acc.length ≥ 4096 then acc else acc ++ [p + 1])

/-- Entries are stored into the list from place `at'`, as writes of the handler, and WSLEN becomes `len`. DEDUCED, log entry 38. -/
def storeList (c : Ctx) (s : State) (base : DWord) (at' : Nat) (es : List Nat) (len : Nat) : Res :=
  let rs := (fromTo at' es.length).map fun i => ({ lane := c.low, addr := base + BitVec.ofNat 64 (8 * i), n := 8 } : Req)
  match addrCauses s c.g .g rs with
  | some t => .trap s t
  | none => (reachGlobal s c.core c.g.ctx .write true rs).andThen s fun s hits =>
    let s := touchHits s c.core c.g.ctx .write hits
    let s := (hits.zip es).foldl (fun s x => corePut s c.core x.1.place (toBytes 8 x.2)) s
    .done (writeScalar c (s.modCtx c.g.ctx fun k => { k with wsLen := len }) len)

/-- `tier.rec.add`: n beyond what a list can take adds nothing more. DEDUCED, log entry 38. -/
def execTierRecAdd (f : Fields) (s : State) :=
  runGroup (.tierRecAdd f) f s fun c s =>
    if c.exec = 0 then .done s
    else
      let a := c.srcA c.low
      if a % 131072 ≠ 0 then .trap s { cause := .misaligned, addr := BitVec.ofNat 64 a, lane := some c.low }
      else match s.ctx c.g.ctx with
        | none => .done s
        | some x => match wsList s x with
          | none => if regionPending x .read x.wsBase.toNat then .park s (.swap [bits x.wsBase.toNat 55 43])
                    else .park s (.pages [x.wsBase.toNat / 131072])
          | some es =>
            let new := recNew es (Nat.min (c.srcB c.low % 2 ^ 32) 8192) a []
            storeList c s x.wsBase x.wsLen new (x.wsLen + new.length)

/-- `tier.rec.clr`: the entries become 0. DEDUCED, log entry 38. -/
def execTierRecClr (f : Fields) (s : State) :=
  runGroup (.tierRecClr f) f s fun c s =>
    if c.exec = 0 then .done s
    else match s.ctx c.g.ctx with
      | none => .done s
      | some x => storeList c s x.wsBase 0 (List.replicate x.wsLen 0) 0

/-! ### `tier.pin`, `tier.unpin` (R463) -/

/-- Pages of a context that are pinned. -/
def pinnedCount (s : State) (ctx : Nat) : Nat := ((leavesOf s ctx).filter fun x => ptePIN x.2.pte).length

def setPin (s : State) (ctx : Nat) (pin : Bool) (l : Leaf) : State := deviceSetLeaf s ctx l (setBit1 l.pte 9 pin) l.comp

/-- What the page at an address of a range still waits for (R246, R454): its fork region, or, to be pinned, to be resident. -/
def pinWait (x : Context) (pin : Bool) (va : Nat) (l : Option Leaf) : Option Park :=
  if x.forking ∧ x.isNew ∧ x.pendingRegions.contains (bits va 55 43) then some (.swap [bits va 55 43])
  else match l with
    | some l => if pin && !ptePIN l.pte && !pteRES l.pte then some (.pages [va / 131072]) else none
    | none => none

/-- How far a pass over the pages of a range comes: pages passed, pages changed, and what it waits for, if anything. -/
structure Pinning where
  passed : Nat
  count  : Nat
  wait   : Option Park
  deriving DecidableEq, Repr

/-- The pages of a range, in ascending order (R463): each is waited for, then changed, unless it is unmapped or is so already;
a context has at most 8,192 pinned. DEDUCED, log entry 39. -/
def pinPages (ctx : Nat) (pin : Bool) : Nat → Nat → State → Pinning → State × Pinning
  | 0, _, s, p => (s, p)
  | n + 1, va, s, p =>
    match s.ctx ctx with
    | none => (s, p)
    | some x =>
      let va := va % 2 ^ 56
      let l := leafAt s ctx va
      match pinWait x pin va l with
      | some w => if pin ∧ pinnedCount s ctx ≥ 8192 then (s, p) else (s, { p with wait := some w })
      | none =>
        let next (s : State) (k : Nat) : State × Pinning :=
          pinPages ctx pin n (va + 131072) s { p with passed := p.passed + 1, count := p.count + k }
        match l.filter fun l => ptePIN l.pte != pin with
        | none => next s 0
        | some l => if pin ∧ pinnedCount s ctx ≥ 8192 then (s, p) else next (setPin s ctx pin l) 1

/-- `tier.pin` and `tier.unpin`: the pass goes on where its last wait left it. DEDUCED, log entry 39. -/
def pinRange (c : Ctx) (s : State) (pin : Bool) : Res :=
  if c.exec = 0 then .done s
  else
    let a := c.srcA c.low
    let n := Nat.min (c.srcB c.low % 2 ^ 32) 65535
    let (passed, count) := c.g.pinned
    let keep (s : State) (x : Nat × Nat) : State := s.modGroup c.gid fun g => { g with pinned := x }
    if a % 131072 ≠ 0 then .trap s { cause := .misaligned, addr := BitVec.ofNat 64 a, lane := some c.low }
    else
      let (s, p) := pinPages c.g.ctx pin (n - passed) (a + 131072 * passed) s { passed := passed, count := count, wait := none }
      match p.wait with
      | some w => .park (keep s (p.passed, p.count)) w
      | none => .done (writeScalar c (keep s (0, 0)) p.count)

/-- DEDUCED, log entry 39. -/
def execTierPin (f : Fields) (s : State) := runGroup (.tierPin f) f s fun c s => pinRange c s true
/-- DEDUCED, log entry 39. -/
def execTierUnpin (f : Fields) (s : State) := runGroup (.tierUnpin f) f s fun c s => pinRange c s false

/-! ### `ctx.fork` (R452, R453) -/

/-- The ID that a parameter block asks for, if it can be had. -/
def forkId (s : State) (x : Nat) : Option Nat :=
  if bit x 12 then freeCtx s else if (s.ctx (bits x 11 0)).isNone then some (bits x 11 0) else none

/-- The status of a fork, 0 when it is made. -/
def forkStatus (s : State) (tmpl x : Nat) : Nat :=
  if bits x 511 128 ≠ 0 ∨ bits x 95 48 ≠ 0 ∨ bits x 43 13 ≠ 0 ∨ (bit x 12 ∧ bits x 11 0 ≠ 0) then 5
  else if (forkId s x).isNone ∨ (freeDomain s).isNone then 1
  else if !((s.ctx tmpl).map Context.inDedup).getD false then 2
  else if (leavesOf s tmpl).any fun l => l.2.giB then 3
  else if !bit s.forkPolicy (bits x 47 44) then 4
  else 0

/-- The new context's descriptor, before its keys and its table. -/
def forkDescriptor (t : Context) (tmpl x : Nat) : Context :=
  { part := bits x 47 44, forking := true, handler := t.handler, saveBase := t.saveBase, saveSz := t.saveSz, callBase := t.callBase
    callSlots := t.callSlots, budget := bits x 127 96, wsBase := t.wsBase, wsLen := t.wsLen
    forkSrc := BitVec.ofNat 64 (4096 + tmpl), forkPeer := some tmpl, pendingRegions := fromTo 0 8192, isNew := true }

/-- A dedup domain takes the new context as a member. -/
def joinTemplate (s : State) (dom id : Nat) : State :=
  { s with keyDoms := tadj s.keyDoms dom fun d => { d with owners := d.owners ++ [id] } }

/-- The new context is made and every level-1 index is pending in both: `none` while no frame is free for its table. DEDUCED, log entry 40. -/
def makeFork (s : State) (tmpl x : Nat) (t : Context) (id : Nat) : Option State :=
  (newContext s id (some t.dedupDom) (forkDescriptor t tmpl x)).map fun s =>
    (joinTemplate s t.dedupDom id).modCtx tmpl fun c =>
      { c with forking := true, forkPeer := some id, pendingRegions := fromTo 0 8192, isNew := false }

/-- A template of an earlier fork whose regions are not all built waits for them. DEDUCED, log entry 40. -/
def execCtxFork (f : Fields) (s : State) :=
  runGroup (.ctxFork f) f s fun c s =>
    if c.exec = 0 then .done s
    else plainReads c s false [{ lane := c.low, addr := BitVec.ofNat 64 (c.srcA c.low), n := 64 }] fun s vals =>
      let x := ((vals.head?).map fun v => v.2.2).getD 0
      let st := forkStatus s c.g.ctx x
      if st ≠ 0 then .done (writeScalar c s (65536 * st))
      else match s.ctx c.g.ctx, forkId s x with
        | some t, some id =>
          let s := performStoresOf s c.gid
          if t.forking then .park s (.swap (t.pendingRegions.take 64))
          else match makeFork s c.g.ctx x t id with
            | some s => .done (writeScalar c s id)
            | none => .park s (.swap [])
        | _, _ => .done s

end Sys2Proof.Machine
end

