-- ==== Sys2Proof/Machine/Tier.lean ====
section
/-!
DEFINITION. The tier engine: page faults (R246, R247), moves (R248, R450, R491), the working-set scan (R448), candidacy and merging
(R251, R252, R487, R488), and the regions of a fork pair (R454).
-/
namespace Sys2Proof.Machine
open Sys2Proof

/-! ### Page faults (R246, R247) -/

/-- The priority of a fault: the highest of the grids whose work waits for its page on the core. -/
def faultPrio (s : State) (core : Nat) (x : Nat × Nat) : Nat :=
  ((pageWaits s).filter fun w => w.core == core && w.ctx == x.1 && w.vpns.contains x.2).foldl (fun m w => Nat.max m w.prio) 0

/-- Groups of a core that found no slot for their faults record them as far as slots are free now (R247). -/
def recordFaults (s : State) (core : Nat) : State :=
  s.groups.foldl (fun s x => match x.2.park with
    | some (.faultSlot k vpns) =>
      if k ≠ core then s
      else
        let (s, p) := enterPark s core x.2.ctx (.pages (vpns.filter (pageAbsent s x.2.ctx)))
        s.modGroup x.1 fun g => { g with park := some (match p with
          | .faultSlot _ _ => .faultSlot k vpns
          | _ => .pages vpns) }
    | _ => s) s

/-- The page of a fault is there, or has gone: `none` while no frame can be had. -/
def serveFault (s : State) (x : Nat × Nat) : Option State :=
  match leafAt s x.1 (x.2 * frameBytes) with
  | none => some s
  | some l => bringOrRoom s x.1 (x.2 * frameBytes) l (anyTier s)

/-- PAGE_FAULT_SERVICE: one fault of a core is served, the oldest of the highest priority that can be, and its slot is free for
another. -/
def execPageFaultService (core : Nat) (s : State) : Host.Outcome State Fault Refusal :=
  let order := sortBy (fun a b => decide (faultPrio s core a > faultPrio s core b)) (s.core core).faults
  .next (match order.findSome? fun x => (serveFault s x).map fun s => (x, s) with
    | some (x, s) => recordFaults (s.modCore core fun k => { k with faults := k.faults.filter fun y => y != x }) core
    | none => recordFaults s core)

/-! ### Moves (R248, R450, R491) -/

/-- A private page moves to a frame within module memory. -/
def moveTo (s : State) (ctx : Nat) (l : Leaf) (fr : Nat) : State :=
  let s := { (moveFrame s (pteAddr l.pte / frameBytes) fr (pteKey l.pte)) with free := s.free + 1 }
  deviceSetLeaf s ctx l (setBits (setBits l.pte 47 16 (2 * fr)) 12 11 (frameTier fr)) l.comp

/-- The private frame of a shared page moves. -/
def movePrivate (s : State) (ctx : Nat) (l : Leaf) (c : Context) (fr : Nat) : State :=
  let s := { (moveFrame s (bits l.comp 30 0) fr c.privDom) with free := s.free + 1 }
  deviceSetLeaf s ctx l l.pte (mkComp (compMask l.comp) (fr * frameBytes))

/-- The leaves that map a shared frame. -/
def mappersOf (s : State) (fr : Nat) : List (Nat × Nat × Leaf) :=
  s.ctxs.flatMap fun c => ((leavesOf s c.1).filter fun x => pteSH x.2.pte && pteAddr x.2.pte == fr * frameBytes).map fun x =>
    (c.1, x.1, x.2)

/-- A shared frame may move: no mapping is pinned, and no context that maps it is resident with the page in its list. DEDUCED, log entry 43. -/
def sharedMovable (s : State) (fr : Nat) : Bool :=
  (mappersOf s fr).all fun m => !ptePIN m.2.2.pte && match s.ctx m.1 with
    | some c => c.state != 2 || match wsList s c with
      | some es => !es.any fun e => wsPage e == m.2.1
      | none => false
    | none => true

/-- A shared frame moves: every mapping follows. -/
def moveShared (s : State) (fr dest : Nat) : State :=
  match tfind s.shared fr with
  | none => s
  | some x =>
    let ms := mappersOf s fr
    let s := { (moveFrame s fr dest x.domain) with free := s.free + 1 }
    let s := { s with shared := tins (tdel s.shared fr) dest x }
    ms.foldl (fun s m => deviceSetLeaf s m.1 m.2.2
      (setBits (setBits m.2.2.pte 47 16 (2 * dest)) 12 11 (frameTier dest)) m.2.2.comp) s

/-- A page moves to a tier, if it may and a frame is free there. A shared page's private frame moves before its shared
frame, and neither goes to the host tier. DEDUCED, log entry 43. -/
def movePage (s : State) (ctx va tier : Nat) : State :=
  match s.ctx ctx, leafAt s ctx va with
  | some c, some l =>
    let va := va / frameBytes * frameBytes
    if ptePIN l.pte ∨ l.giB then s
    else if !pteRES l.pte then (if tier ≤ 1 then (bringPage s ctx va l [tier]).getD s else s)
    else if tier > 1 then (if movable l ∧ tier = 2 ∧ !wanted s ctx va then demotePage s ctx l else s)
    else
      let sh := pteAddr l.pte / frameBytes
      let ownCopy (f : Nat → State) : State := ((pickFrame s ctx [tier]).map f).getD s
      if !pteSH l.pte then (if pteTier l.pte = tier then s else ownCopy (moveTo s ctx l))
      else if compMask l.comp ≠ 0 ∧ frameTier (bits l.comp 30 0) ≠ tier then ownCopy (movePrivate s ctx l c)
      else if frameTier sh ≠ tier ∧ sharedMovable s sh then ((pickShared s c sh [tier]).map (moveShared s sh)).getD s
      else s
  | _, _ => s

/-- PAGE_MOVE (R248). -/
def execPageMove (ctx va tier : Nat) (s : State) : Host.Outcome State Fault Refusal := .next (movePage s ctx va tier)

/-- A page that a context's departure from its last core demotes to far (R450): a private one, or a private frame, that is
near. DEDUCED, log entry 43. -/
def outgoing (x : Nat × Leaf) : Bool :=
  !ptePIN x.2.pte && !x.2.giB && pteRES x.2.pte &&
  (if pteSH x.2.pte then compMask x.2.comp != 0 && frameTier (bits x.2.comp 30 0) == 0 else pteTier x.2.pte == 0)

/-- A context has a grid that waits for its residency threshold. -/
def waitsResid (s : State) (ctx : Nat) : Bool :=
  s.grids.any fun g => g.2.ctx == ctx && g.2.state == .begun && !residMet s ctx g.2.pkt.resid && (nextOf s g.1 g.2).isSome

/-! ### Fork regions (R454) -/

/-- One leaf of the template is shared with the new context: `none` while a frame is lacking. -/
def shareLeaf (s : State) (tmpl new dom : Nat) (va : Nat) : Option State :=
  match leafAt s tmpl va, s.ctx new with
  | some l0, some n =>
    match bringOrRoom s tmpl va l0 (anyTier s) with
    | none => none
    | some s => match leafAt s tmpl va with
      | none => some s
      | some l => match leafSlot s new va with
        | none => none
        | some (at', s) =>
          let bare (e : Nat) : Nat := setBit1 (setBit1 e 5 false) 6 false
          if !pteSH l.pte then
            let s := shareInPlace s tmpl l dom 2
            some (putLeaf s at' (bare (setBits (setBit1 l.pte 8 true) 61 48 dom)) 0)
          else if compMask l.comp = 0 then
            some (putLeaf (addShared s (pteAddr l.pte / frameBytes)) at' (bare l.pte) 0)
          else match newFrame s new n.privDom (anyTier s) with
            | none => none
            | some (fr, s) =>
              let s := (fromTo 0 32).foldl (fun s k => if bit (compMask l.comp) k
                then copyMem s (compFrame l.comp + 4096 * k) (fr * frameBytes + 4096 * k) 4096 else s) s
              some (putLeaf (addShared s (pteAddr l.pte / frameBytes)) at' (bare l.pte) (mkComp (compMask l.comp) (fr * frameBytes)))
  | _, _ => some s

/-- Index i is no longer pending; when none is, the fork is over. -/
def regionDone (i : Nat) (c : Context) : Context :=
  let rest := c.pendingRegions.filter fun k => k != i
  if rest.isEmpty then { c with pendingRegions := [], forking := false, forkPeer := none } else { c with pendingRegions := rest }

/-- The template and the new context of a pair that a context belongs to. -/
def forkPair (s : State) (ctx : Nat) : Option (Nat × Nat) :=
  match s.ctx ctx with
  | some c => match c.forkPeer with
    | some p => some (if c.isNew then (p, ctx) else (ctx, p))
    | none => none
  | none => none

/-- The parameter blocks of grids that began before the region was built are captured as it maps them (R223). -/
def captureBuilt (s : State) (ctx i : Nat) : State :=
  { s with grids := s.grids.map fun g =>
      if g.2.ctx = ctx ∧ g.2.param = .pending i then (g.1, { g.2 with param := paramNow s g.2 }) else g }

/-- A pending region is built, every leaf of the template in it; `none` while frames are lacking. DEDUCED, log entry 40. -/
def buildRegion (s : State) (ctx i : Nat) : Option State :=
  match forkPair s ctx with
  | none => some s
  | some (tmpl, new) => match s.ctx tmpl with
    | none => some s
    | some t =>
      if !t.pendingRegions.contains i then some s
      else
        let vas := (leavesAt s t (regionVas s i (readNat s (t.root + 8 * i) 8))).map fun x => x.1
        (vas.foldl (fun (o : Option State) va => match o with
          | some s => shareLeaf s tmpl new t.dedupDom va
          | none => none) (some s)).map fun s =>
          captureBuilt ((s.modCtx tmpl (regionDone i)).modCtx new (regionDone i)) new i

/-- FORK_REGION_BUILD (R454). -/
def execForkRegionBuild (ctx index : Nat) (s : State) : Host.Outcome State Fault Refusal :=
  .next ((buildRegion s ctx index).getD s)

/-- A listed page that is to come in (R450): a fork region that holds it is built, a page of the host goes to far, and a private
page, or the private frame of a shared one, from far to near while near frames are free. DEDUCED, log entry 43. -/
def incomingOne (s : State) (ctx va : Nat) : Option State :=
  match s.ctx ctx with
  | none => none
  | some c =>
    if listedPending s c va then buildRegion s ctx (bits va 55 43)
    else match leafAt s ctx va with
      | none => none
      | some l =>
        let near (f : Nat → State) : Option State := (pickFrame s ctx [0]).map f
        if l.giB then none
        else if !pteRES l.pte then bringOrRoom s ctx va l [1]
        else if movable l ∧ pteTier l.pte = 1 then near (moveTo s ctx l)
        else if pteSH l.pte ∧ !ptePIN l.pte ∧ compMask l.comp ≠ 0 ∧ frameTier (bits l.comp 30 0) = 1 then near (movePrivate s ctx l c)
        else none

/-! ### The working-set list (R448) -/

/-- What a device write to an address needs first: a built region, a resident page, a private copy; as far as frames go. -/
def deviceReady (s : State) (ctx va : Nat) : State :=
  let ready (s : State) : State := match translate s noCore ctx va .write true with
    | .region i => (buildRegion s ctx i).getD s
    | .absent v => match leafAt s ctx (v * frameBytes) with
      | some l => (bringOrRoom s ctx (v * frameBytes) l (anyTier s)).getD s
      | none => s
    | .cow l sub => cowSwap s ctx va l sub
    | _ => s
  ready (ready (ready s))

/-- The device writes into a context's memory. A page that is not mapped writable takes nothing. -/
def deviceWrite (s : State) (ctx va : Nat) (bs : List Byte) : State :=
  let s := deviceReady s ctx va
  match translate s noCore ctx va .write true with
  | .ok p l => writePlace (touchLeaf s noCore ctx va .write l) bs p
  | _ => s

/-- The list can be written. -/
def listWritable (s : State) (c : Context) : Bool :=
  match walkTables s c c.wsBase.toNat with
  | .leaf l => pteW l.pte && decide (c.wsBase.toNat < 2 ^ 56)
  | .bad _ => false

/-- A page found is appended to a list, the oldest entry with EXPL 0 making room. -/
def appendPage (es : List Nat) (va : Nat) : List Nat :=
  if es.any fun e => wsPage e == va then es
  else if es.length < 4096 then es ++ [va]
  else match indexOf? (fun e => e % 2 == 0) es 0 with
    | some k => es.take k ++ es.drop (k + 1) ++ [va]
    | none => es

/-- Entries that differ are stored. -/
def storeChanged (s : State) (ctx : Nat) (base : Nat) (old : List Nat) : Nat → List Nat → State
  | _, [] => s
  | i, e :: es => storeChanged (if (old.drop i).head? = some e then s else deviceWrite s ctx (base + 8 * i) (toBytes 8 e)) ctx base old (i + 1) es

/-- A device write to an address has to wait for a region, a page or a frame. -/
def deviceWaits (s : State) (ctx va : Nat) : Bool :=
  match translate s noCore ctx va .write true with
  | .region _ => true
  | .absent _ => true
  | .cow _ _ => true
  | _ => false

/-- The pages that scans have found are appended to the list as soon as it can be read and written; a list that supervisor
code does not map writable takes none (R448). DEDUCED, log entry 38. -/
def appendFound (s : State) (ctx : Nat) : State :=
  match s.ctx ctx with
  | none => s
  | some c =>
    if c.wsFound.isEmpty then s
    else
      let s := deviceReady s ctx c.wsBase.toNat
      let done (s : State) (n : Nat) : State := s.modCtx ctx fun c => { c with wsLen := n, wsFound := [] }
      if deviceWaits s ctx c.wsBase.toNat then s
      else match s.ctx ctx with
        | none => s
        | some c => match wsList s c with
          | none => s
          | some es =>
            if !listWritable s c then done s c.wsLen
            else
              let new := c.wsFound.foldl appendPage es
              done (storeChanged s ctx c.wsBase.toNat es 0 new) new.length

/-- The working-set scan: A bits of resident 128 KiB pages are cleared, and the pages found with A set are to be listed. DEDUCED, log entry 38. -/
def wsScan (s : State) (ctx : Nat) : State :=
  let found := (leavesOf s ctx).filter fun x => !x.2.giB && pteRES x.2.pte && pteA x.2.pte
  let s := found.foldl (fun s x => deviceSetLeaf s ctx x.2 (setBit1 x.2.pte 5 false) x.2.comp) s
  appendFound (s.modCtx ctx fun c => { c with wsFound := c.wsFound ++ (found.map fun x => x.1).filter fun v => !c.wsFound.contains v }) ctx

/-- INCOMING_MOVE (R450): for a resident context with a grid that waits, the first listed page that is to move does; a list that is
not there comes first. Pages that a scan found are listed if they can be now (R448). -/
def execIncomingMove (ctx : Nat) (s : State) : Host.Outcome State Fault Refusal :=
  let s := appendFound s ctx
  .next (match s.ctx ctx with
    | none => s
    | some c =>
      if c.state ≠ 2 ∨ !waitsResid s ctx then s
      else match wsList s c with
        | none =>
          if regionPending c .read c.wsBase.toNat then (buildRegion s ctx (bits c.wsBase.toNat 55 43)).getD s
          else match leafAt s ctx c.wsBase.toNat with
            | some l => (bringOrRoom s ctx (c.wsBase.toNat / frameBytes * frameBytes) l [1]).getD s
            | none => s
        | some es => (es.findSome? fun e => incomingOne s ctx (wsPage e)).getD s)

/-! ### Candidacy and merging (R251) -/

/-- A page the candidacy step looks at: read-mostly, private, resident, of 128 KiB. -/
def mergeable (l : Leaf) : Bool := pteRM l.pte && !pteSH l.pte && pteRES l.pte && !l.giB

/-- The candidacy step for one page: a set D is cleared, a clear one counted; a candidate goes to the content directory.
DESIGN CHOICE, log entry 42. -/
def candidate (ctx : Nat) (s : State) (x : Nat × Leaf) : State :=
  let vpn := x.1 / frameBytes
  if pteD x.2.pte then
    (deviceSetLeaf s ctx x.2 (setBit1 x.2.pte 6 false) x.2.comp).modCtx ctx fun c => { c with clean := tput 0 c.clean vpn 0 }
  else
    let n := Nat.min (((s.ctx ctx).map fun c => tget 0 c.clean vpn).getD 0 + 1) 255
    let s := s.modCtx ctx fun c => { c with clean := tput 0 c.clean vpn n }
    if n ≥ s.mergeN then { s with agenda := s.agenda ++ [.event (.contentMerge ctx x.1)] } else s

/-- A page with a mark or a failed check is not compared. -/
def frameClean (s : State) (fr : Nat) : Bool :=
  !(s.memBad.any fun u => u / 4096 == fr) && !s.crcBad.any fun u => u / 1024 == fr

/-- A candidate is merged into a shared frame with equal bytes, or its own frame becomes the shared frame. DESIGN CHOICE, log entry 42. -/
def mergePage (s : State) (ctx : Nat) (l : Leaf) (dom : Nat) : State :=
  let fr := pteAddr l.pte / frameBytes
  let s := settleFrame s fr
  let bytes (f : Nat) : List Byte := readMem s (f * frameBytes) frameBytes
  let h := Config.pageHash dom (bytes fr)
  let same := s.shared.filter fun x => x.2.domain == dom && x.2.hash == h
  match same.find? fun x => bytes x.1 == bytes fr && decide (x.2.refs < 2 ^ 24 - 1) && frameClean s x.1 with
  | some (dest, _) =>
    if ptePIN l.pte then s
    else
      let pte := setBits (setBits (setBits (setBit1 l.pte 8 true) 61 48 dom) 47 16 (2 * dest)) 12 11 (frameTier dest)
      let s := deviceSetLeaf (addShared s dest) ctx l pte 0
      dropFrame { s with grids := s.grids.map fun g => (g.1, { g.2 with param := retargetParam fr dest g.2.param }) } fr
  | none =>
    if (same.any fun x => bytes x.1 != bytes fr) ∨ sliceCount s (sliceOf h.toNat) ≥ 1048576 then s
    else shareInPlace s ctx l dom 1

/-- CONTENT_MERGE (R251, R488): a page of a domain member that is still a candidate, its D still clear. DESIGN CHOICE, log entry 42. -/
def execContentMerge (ctx va : Nat) (s : State) : Host.Outcome State Fault Refusal :=
  .next (match s.ctx ctx, leafAt s ctx va with
    | some c, some l =>
      let va := va / frameBytes * frameBytes
      if c.inDedup ∧ mergeable l ∧ !pteD l.pte ∧ tget 0 c.clean (va / frameBytes) ≥ s.mergeN ∧ frameClean s (pteAddr l.pte / frameBytes)
      then mergePage s ctx l c.dedupDom else s
    | _, _ => s)

/-! ### The pass (R252) -/

/-- After a migration, private frames that lie off the home die follow it, within their tier, once no incoming move of the context
is left (R491). -/
def followHome (s : State) (ctx : Nat) : State :=
  match s.ctx ctx with
  | none => s
  | some c =>
    if !c.migrated ∨ (c.state = 2 ∧ waitsResid s ctx) then s
    else
      let home := homeDie c.root
      let colours := (s.front c.part).colours
      (leavesOf s ctx).foldl (fun s x =>
        let l := x.2
        if ptePIN l.pte ∨ l.giB ∨ !pteRES l.pte then s
        else
          let fr := if pteSH l.pte then bits l.comp 30 0 else pteAddr l.pte / frameBytes
          if frameDie fr = home ∨ (pteSH l.pte ∧ compMask l.comp = 0) then s
          else match frameOn s colours home (frameTier fr) with
            | some dest => if pteSH l.pte then movePrivate s ctx l c dest else moveTo s ctx l dest
            | none => s) s

/-- TIER_PASS (R252): the scan of a resident context, candidacy, pending fork regions, the moves after a migration. -/
def execTierPass (ctx : Nat) (s : State) : Host.Outcome State Fault Refusal :=
  .next (match s.ctx ctx with
    | none => s
    | some c =>
      let s := if c.state = 2 then wsScan s ctx else s
      let s := if c.inDedup then ((leavesOf s ctx).filter fun x => mergeable x.2).foldl (candidate ctx) s else s
      let s := (c.pendingRegions.take 64).foldl (fun s i => (buildRegion s ctx i).getD s) s
      followHome s ctx)

end Sys2Proof.Machine
end

