-- ==== Sys2Proof/Machine/Sched.lean ====
section
/-!
DEFINITION. Time slices and budgets (R436, R437), the watchdog (R438) and the timer (R439).
-/
namespace Sys2Proof.Machine
open Sys2Proof

/-- The balance a slice of length `sl` begins with. -/
def refill (c : Context) (sl : Nat) (b : Int) : Int := (if c.budget = 0 then (sl : Int) else (c.budget : Int)) + min b 0

/-- A slice begins for a resident context: its balance is made up and it is no longer gated by its budget or by itself. -/
def beginSlice (s : State) (fe sl : Nat) (r : Resident) : Resident :=
  match s.ctx r.ctx with
  | some c => if c.part = fe then { r with balance := refill c sl r.balance, spent := false, yielded := false, yieldedNow := false } else r
  | none => r

/-- SLICE_BOUNDARY (R252, R436): a slice length set before comes into force, and the tier engine passes over each context of the
partition. -/
def execSliceBoundary (fe : Nat) (s : State) : Host.Outcome State Fault Refusal :=
  let f := s.front fe
  .next (if s.clock < f.nextSlice then s
    else
      let sl := f.slNext
      let s : State := s.setFront fe { f with sl := sl, nextSlice := f.nextSlice + sl }
      let s : State := { s with cores := s.cores.map fun k =>
        (k.1, { k.2 with residents := k.2.residents.map fun r => (r.1, beginSlice s fe sl r.2) }) }
      let passes := (s.ctxs.filter fun c => c.2.part == fe).map fun c => Turn.event (.tierPass c.1)
      { s with agenda := passes ++ s.agenda })

/-- BUDGET_EXHAUSTED (R437). -/
def execBudgetExhausted (core slot : Nat) (s : State) : Host.Outcome State Fault Refusal :=
  .next (s.modCore core fun k => { k with residents := tadj k.residents slot fun r =>
    if r.balance ≤ 0 ∧ !r.spent then { r with spent := true, spentAt := s.clock } else r })

/-- The slice length of a context's partition. -/
def sliceLen (s : State) (ctx : Nat) : Nat := ((s.ctx ctx).map fun c => (s.front c.part).sl).getD 1048576

/-- WATCHDOG (R438). -/
def execWatchdog (gid : Nat) (s : State) : Host.Outcome State Fault Refusal :=
  .next (match s.group gid with
    | none => s
    | some g =>
      if g.kind = .spindle ∨ g.idle < 2 * sliceLen s g.ctx then s
      else deliverCause (s.modGroup gid fun g => { g with idle := 0 }) gid { cause := .watchdog, source := 3 })

/-- The clusters of a context that stand on cores, lowest C first. -/
def clustersByC (s : State) (ctx : Nat) : List (Nat × Cluster) :=
  sortBy (fun a b => decide (a.2.index < b.2.index))
    (s.clusters.filter fun c => !c.2.cores.isEmpty && ((s.grid c.2.grid).map Grid.ctx) == some ctx)

/-- The live groups of a cluster on its cores, by core and then by group number. -/
def groupsByCore (s : State) (cid : Nat) : List (Nat × Group) :=
  sortBy (fun a b => decide (a.2.core < b.2.core) || (a.2.core == b.2.core && decide (a.2.g < b.2.g)))
    (((teamsOf s cid).flatMap (groupsOf s)).filter fun g => !g.2.out && hasLane g.2)

/-- TIMER (R439): the lowest-numbered live group of the lowest-numbered cluster, on the lowest-numbered core that holds it. -/
def execTimer (ctx : Nat) (s : State) : Host.Outcome State Fault Refusal :=
  .next (match s.ctx ctx with
    | none => s
    | some c =>
      if c.timerCmp = 0 ∨ c.ctime < c.timerCmp then s
      else
        let s := s.modCtx ctx fun c => { c with timerCmp := 0 }
        match ((clustersByC s ctx).flatMap fun k => groupsByCore s k.1).head? with
        | some (gid, _) => deliverCause s gid { cause := .timer, source := 3 }
        | none => s)

end Sys2Proof.Machine
end

