-- ==== Sys2Proof/Machine/Sha.lean ====
section
/-!
DEFINITION. SHA-256 (FIPS 180-4), which the boot chain and the measurement registers use (R506, R507).
-/
namespace Sys2Proof.Machine
open Sys2Proof

/-- The greatest number whose k-th power does not exceed `x`, from `r` up, found one of `n` bits at a time. -/
def rootUp (k x : Nat) : Nat → Nat → Nat
  | 0, r => r
  | n + 1, r => rootUp k x n (if (r + 2 ^ n) ^ k ≤ x then r + 2 ^ n else r)

/-- The first 32 bits of the fractional part of the k-th root of `p`, a number below 16 to that power. -/
def rootFraction (k p : Nat) : Word := BitVec.ofNat 32 (rootUp k (p * 2 ^ (32 * k)) 36 0)

/-- The first 64 prime numbers: those up to 311. -/
def smallPrimes : List Nat := (fromTo 2 310).filter fun p => (fromTo 2 (p - 2)).all fun q => p % q != 0

/-- The 64 round constants: from the cube roots of the first 64 primes. -/
def shaK : List Word := smallPrimes.map (rootFraction 3)

/-- The initial hash value: from the square roots of the first eight primes. -/
def shaInit : List Word := (smallPrimes.take 8).map (rootFraction 2)

/-- The number a list of bytes holds, highest first. -/
def ofBytesBE (bs : List Byte) : Nat := bs.foldl (fun x b => 256 * x + b.toNat) 0

/-- Word k of a block. -/
def shaWord (blk : List Byte) (k : Nat) : Word := BitVec.ofNat 32 (ofBytesBE ((blk.drop (4 * k)).take 4))

/-- The schedule, newest word first, grown by `n` words. -/
def shaGrow : Nat → List Word → List Word
  | 0, ws => ws
  | n + 1, ws =>
    let w (k : Nat) : Word := (ws.drop (k - 1)).head?.getD 0
    let s0 := (w 15).rotateRight 7 ^^^ (w 15).rotateRight 18 ^^^ (w 15) >>> 3
    let s1 := (w 2).rotateRight 17 ^^^ (w 2).rotateRight 19 ^^^ (w 2) >>> 10
    shaGrow n ((w 16 + s0 + w 7 + s1) :: ws)

/-- One round on the eight working variables. -/
def shaRound (v : List Word) (kw : Word × Word) : List Word :=
  match v with
  | [a, b, c, d, e, f, g, h] =>
    let t1 := h + (e.rotateRight 6 ^^^ e.rotateRight 11 ^^^ e.rotateRight 25) + ((e &&& f) ^^^ (~~~e &&& g)) + kw.1 + kw.2
    let t2 := (a.rotateRight 2 ^^^ a.rotateRight 13 ^^^ a.rotateRight 22) + ((a &&& b) ^^^ (a &&& c) ^^^ (b &&& c))
    [t1 + t2, a, b, c, d + t1, e, f, g]
  | v => v

/-- One block. -/
def shaBlock (h : List Word) (blk : List Byte) : List Word :=
  let ws := (shaGrow 48 ((fromTo 0 16).map (shaWord blk)).reverse).reverse
  ((shaK.zip ws).foldl shaRound h |>.zip h).map fun x => x.1 + x.2

/-- Whole blocks one after another; the fuel counts them. -/
def shaBlocks : Nat → List Word → List Byte → List Word
  | 0, h, _ => h
  | n + 1, h, bs => shaBlocks n (shaBlock h (bs.take 64)) (bs.drop 64)

/-- The message with its padding. -/
def shaPad (bs : List Byte) : List Byte :=
  let n := bs.length
  bs ++ [0x80] ++ List.replicate ((119 - n % 64) % 64) 0 ++ (toBytes 8 (8 * n)).reverse

/-- SHA-256, its first byte highest. PRESUMED, log entry 12. -/
def sha256 (bs : List Byte) : BitVec 256 :=
  let p := shaPad bs
  BitVec.ofNat 256 ((shaBlocks (p.length / 64) shaInit p).foldl (fun x w => 2 ^ 32 * x + w.toNat) 0)

/-- The bytes of a digest. -/
def digestBytes (m : BitVec 256) : List Byte := (toBytes 32 m.toNat).reverse

end Sys2Proof.Machine
end

