-- ==== Sys2Proof/Machine/Monitor.lean ====
section
/-!
DEFINITION. The security monitor: the calls of the service firmware (R508, R509), the requests that complete later (R510), boot and
measurement (R506, R507), power and temperature (R515 to R518).
-/
namespace Sys2Proof.Machine
open Sys2Proof

/-! ### Answers (R509) -/

/-- A call that returns a status. DESIGN CHOICE, log entry 48. -/
def answer (s : State) (status : Nat) : Host.Outcome State Fault Refusal := .next { s with callA0 := status }

/-- A call that is accepted and completes later. -/
def defer (s : State) (l : Later) : Host.Outcome State Fault Refusal :=
  answer { s with laters := s.laters ++ [l] } 3

/-- The cores of a set that stands at an address of the firmware's memory; `none` where a bit names no core. -/
def coreSet (s : State) (addr : Nat) : Option (List Nat) :=
  let m := ofBytes ((fromTo addr 32).map (tget 0 s.fwMem))
  if m ≥ 2 ^ 192 then none else some ((fromTo 0 192).filter fun c => bit m c)

/-- A context that a call may name: made and not being destroyed. DESIGN CHOICE, log entry 48. -/
def calledCtx (s : State) (id : Nat) : Option Context :=
  match s.ctx id with
  | some c => if c.state = 3 then none else some c
  | none => none

/-! ### Partitions and slices (0x01 to 0x05) -/

/-- Some function of front end `f` has a TDI that is locked or runs (R503). -/
def frontLocked (s : State) (f : Nat) : Bool := s.functions.any fun x => x.2.fe == some f && (x.2.tdi == 1 || x.2.tdi == 2)

/-- A core holds no team, bound group, Carder entry or engine work (R456). -/
def coreVacated (s : State) (c : Nat) : Bool :=
  let k := s.core c
  (teamsOn s c).isEmpty && !(s.groups.any fun g => g.2.core == c && !g.2.out) && k.deposits.isEmpty && k.ready.isEmpty &&
  (k.reel.all fun x => x.2.isEmpty) && k.links.isEmpty && (k.spindle.all fun q => q.2.ctx.isNone) && k.rowOps.isEmpty

/-- Two partitions would share a core (R215). -/
def partsMeet (s : State) (fe base limit : Nat) : Bool :=
  (fromTo 0 16).any fun f => f != fe && (s.front f).cores.any fun c => decide (base ≤ c ∧ c ≤ limit)

/-- PART_SET (R215, R456, R503). DESIGN CHOICE, log entry 48. -/
def execPartSet (fe base limit : Nat) (s : State) : Host.Outcome State Fault Refusal :=
  if fe > 15 ∨ base > 191 ∨ limit > 191 then answer s 2
  else if partsMeet s fe base limit ∨ frontLocked s fe ∨
      (s.front fe).cores.any (fun c => !decide (base ≤ c ∧ c ≤ limit) && !coreVacated s c) then answer s 1
  else answer (s.modFront fe fun f => { f with base := base, limit := limit }) 0

/-- COLOUR_SET (R237, R503). -/
def execColourSet (fe mask : Nat) (s : State) : Host.Outcome State Fault Refusal :=
  if fe > 15 ∨ mask ≥ 65536 then answer s 2
  else if mask = 0 ∨ frontLocked s fe then answer s 1
  else answer (s.modFront fe fun f => { f with colours := mask }) 0

/-- SLICE_SET (R436). -/
def execSliceSet (fe sl : Nat) (s : State) : Host.Outcome State Fault Refusal :=
  if fe > 15 ∨ !((fromTo 16 9).any fun k => sl == 2 ^ k) then answer s 2
  else answer (s.modFront fe fun f => { f with slNext := sl }) 0

/-- MERGE_N (R251). -/
def execMergeN (n : Nat) (s : State) : Host.Outcome State Fault Refusal :=
  if n = 0 ∨ n > 255 then answer s 2 else answer { s with mergeN := n } 0

/-- FORK_POLICY (R453). -/
def execForkPolicy (mask : Nat) (s : State) : Host.Outcome State Fault Refusal :=
  if mask ≥ 65536 then answer s 2 else answer { s with forkPolicy := mask } 0

/-! ### Column space (0x06, 0x07) -/

/-- Frames in use in the steps from `lo` to below `hi` of a core. -/
def stepFrames (s : State) (core lo hi : Nat) : List Nat :=
  (s.frames.filter fun x => frameTier x.1 == 0 && (stackedStep (x.1 * frameBytes)).1 == core &&
    decide (lo ≤ (stackedStep (x.1 * frameBytes)).2 ∧ (stackedStep (x.1 * frameBytes)).2 < hi)).map fun x => x.1

/-- The leaves that name a frame. -/
def usersOf (s : State) (fr : Nat) : List (Nat × Nat × Leaf) :=
  s.ctxs.flatMap fun c => ((leavesOf s c.1).filter fun x =>
    (pteRES x.2.pte && (pteAddr x.2.pte / frameBytes == fr || (x.2.giB && decide (pteAddr x.2.pte ≤ fr * frameBytes ∧
      fr * frameBytes < pteAddr x.2.pte + 2 ^ 30)))) ||
    (pteSH x.2.pte && compMask x.2.comp != 0 && bits x.2.comp 30 0 == fr)).map fun x => (c.1, x.1, x.2)

/-- A frame that cannot move: pinned, of a 1 GiB page, or lent. -/
def framePinned (s : State) (fr : Nat) : Bool :=
  tfind s.frames fr == some lentMark || (usersOf s fr).any fun u => ptePIN u.2.2.pte || u.2.2.giB

/-- The leaves that map a frame are to name another one. -/
def retargetLeaves (s : State) (fr dest : Nat) : State :=
  ((usersOf s fr).filter fun u => !u.2.2.giB && !pteSH u.2.2.pte).foldl (fun s u => deviceSetLeaf s u.1 u.2.2
    (setBits (setBits u.2.2.pte 47 16 (2 * dest)) 12 11 (frameTier dest)) u.2.2.comp) s

/-- A table page moves to a frame, and what points at it follows: leaves that map it, and an entry or ROOT (R490). -/
def moveTable (s : State) (ctx dom : Nat) (entry : Option Nat) (a dest : Nat) : State :=
  let s := retargetLeaves s (a / frameBytes) dest
  let s := dropCopies { (moveFrame s (a / frameBytes) dest dom) with free := s.free + 1 } ctx (fun _ _ => true) fun _ => true
  match entry with
  | some e => writeNat s e 8 (1 + dest * frameBytes)
  | none => s.modCtx ctx fun c => { c with root := dest * frameBytes }

/-- A table that must move does: the state and where the table then stands; `none` while no frame is free. -/
def placeTable (s : State) (ctx dom : Nat) (entry : Option Nat) (a : Nat) (must : Nat → Bool) (pick : State → Option Nat) :
    Option (State × Nat) :=
  if must (a / frameBytes) then (pick s).map fun dest => (moveTable s ctx dom entry a dest, dest * frameBytes) else some (s, a)

/-- The tables that the entries of a table name. -/
def placeBelow (s : State) (ctx dom base : Nat) (must : Nat → Bool) (pick : State → Option Nat) (k : State → Nat → Option State) :
    Option State :=
  (tableEntries s base).foldl (fun (o : Option State) x => match o with
    | none => none
    | some s => if !tableOk x.2 then some s
      else (placeTable s ctx dom (some (base + 8 * x.1)) (pteAddr x.2) must pick).bind fun y => k y.1 y.2) (some s)

/-- Every table page of a context that must move does, level by level; `none` while frames are lacking. -/
def moveTables (s : State) (ctx : Nat) (must : Nat → Bool) (pick : State → Option Nat) : Option State :=
  match s.ctx ctx with
  | none => some s
  | some c => (placeTable s ctx c.privDom none c.root must pick).bind fun x =>
      placeBelow x.1 ctx c.privDom x.2 must pick fun s t2 => placeBelow s ctx c.privDom t2 must pick fun s _ => some s

/-- One frame leaves a step: a page, the private or shared frame of a shared page, or a table page. A shared frame waits until it
may move. -/
def evictFrame (s : State) (fr : Nat) : State :=
  match s.ctxs.find? fun c => (tableFrames s c.2.root).contains fr with
  | some (ctx, _) => (moveTables s ctx (fun f => f == fr) fun s => pickFrame s ctx [0, 1]).getD s
  | none => match (usersOf s fr).head? with
    | none => s
    | some (ctx, _, l) => match s.ctx ctx with
      | none => s
      | some c =>
        let ownCopy (f : Nat → State) : State := ((pickFrame s ctx [0, 1]).map f).getD s
        if !pteSH l.pte then ownCopy (moveTo s ctx l)
        else if bits l.comp 30 0 = fr ∧ compMask l.comp ≠ 0 then ownCopy (movePrivate s ctx l c)
        else if sharedMovable s fr then ((pickShared s c fr [0, 1]).map (moveShared s fr)).getD s else s

/-- A rise of COLSPLIT: one more frame has left, or the change takes effect; `none` in the second place while it goes on. -/
def colsplitStep (s : State) (core value : Nat) : State × Option Nat :=
  let fs := stepFrames s core (s.core core).colsplit value
  if fs.any (framePinned s) then (s, some 1)
  else match fs with
    | fr :: _ => (evictFrame s fr, none)
    | [] => (s.modCore core fun k => { k with colsplit := value }, some 0)

/-- An object of some context uses a bank that leaves column space. -/
def objectsLeave (k : Core) (value : Nat) : List (Nat × ColObject) :=
  k.objects.filter fun o => (objUnits o.2.desc).any fun b => !inColumnSpace value b

/-- COLSPLIT falls: the banks that pass into the near tier are zeroed (R261). -/
def lowerColsplit (k : Core) (value : Nat) : Core :=
  let k := (fromTo 0 64).foldl (fun (k : Core) b =>
    if inColumnSpace k.colsplit b && !inColumnSpace value b then
      let k := zeroBank k b
      k.setBank b { (k.bank b) with owner := none, lastOwner := none }
    else k) k
  { k with colsplit := value }

/-- COLSPLIT_SET (R261, R482). -/
def execColsplitSet (core value : Nat) (s : State) : Host.Outcome State Fault Refusal :=
  let k := s.core core
  let rising := s.laters.any fun l => match l with
    | .colsplit c _ => c == core
    | _ => false
  if core > 191 ∨ value > 8 then answer s 2
  else if rising then answer s 1
  else if value ≤ k.colsplit then
    (if (objectsLeave k value).isEmpty then answer (s.modCore core fun k => lowerColsplit k value) 0 else answer s 1)
  else match colsplitStep s core value with
    | (s, some st) => answer s st
    | (s, none) => defer s (.colsplit core value)

/-- Places that COMPACT may give an object: as many units and rows, in banks that stay in column space. DESIGN CHOICE, log entry 54. -/
def compactPlaces (k : Core) (ctx value : Nat) (old : DWord) (taken : List DWord) : List DWord :=
  let n := (objUnits old).length
  let count := objCount old
  let firsts := 0 :: taken.map fun d => objFirst d + objCount d
  (fromTo 1 15).flatMap fun layers => (fromTo 1 65535).flatMap fun banks =>
    if popNat 4 layers * popNat 16 banks ≠ n then []
    else
      let d (first : Nat) : DWord := BitVec.ofNat 64
        (2 ^ 63 + 2 ^ 56 * layers + 2 ^ 40 * banks + 2 ^ 28 * first + 2 ^ 15 * count + 2 ^ 13 * bits old.toNat 14 13)
      if (objUnits (d 0)).any fun b => !inColumnSpace value b || otherOwner k ctx b then []
      else (firsts.filter fun f => decide (f + count ≤ 4096)).map d

/-- Two places share a row. -/
def placesShare (a b : DWord) : Bool :=
  ((objUnits a).any (objUnits b).contains) && decide (objFirst a < objFirst b + objCount b ∧ objFirst b < objFirst a + objCount a)

/-- The banks of a planned place have an owner (R262). DESIGN CHOICE, log entry 54. -/
def claimPlace (k : Core) (ctx : Nat) (d : DWord) : Core :=
  (objUnits d).foldl (fun k b => k.setBank b { (k.bank b) with owner := some ctx }) k

/-- A place for each object that is to move, in ascending order; `none` where one has none. DESIGN CHOICE, log entry 54. -/
def compactPlan (k : Core) (value : Nat) : List (Nat × ColObject) → List (Nat × DWord) → Option (List (Nat × DWord))
  | [], plan => some plan
  | o :: os, plan =>
    let taken := (k.objects.map fun x => x.2.desc) ++ plan.map fun x => x.2
    match (compactPlaces k (o.1 / 64) value o.2.desc taken).find? fun d => taken.all fun t => !placesShare t d with
    | some d => compactPlan (claimPlace k (o.1 / 64) d) value os (plan ++ [(o.1, d)])
    | none => none

/-- COMPACT (R451): the objects of the banks that would leave column space are moved, or none. DESIGN CHOICE, log entry 54. -/
def execCompact (core value : Nat) (s : State) : Host.Outcome State Fault Refusal :=
  if core > 191 ∨ value > 8 then answer s 2
  else
    let k := s.core core
    match compactPlan k value (objectsLeave k value) [] with
    | none => answer s 1
    | some plan => defer (plan.foldl (fun (s : State) x =>
        s.addInput (s.clock + 1) (.columnRelocate core (x.1 / 64) (x.1 % 64) x.2)) s) (.compact core value)

/-! ### Contexts (0x08 to 0x0C) -/

/-- The dedup domain that a call names: `none` for none. -/
def domainOf (domain : Nat) : Option Nat := if domain = 0xFFFF then none else some domain

/-- A context is made; `none` where a key domain or a frame is lacking. -/
def makeContext (s : State) (id part budget domain : Nat) : Option State :=
  match domainOf domain with
  | none => newContext s id none { part := part, budget := budget }
  | some n => (joinDedup s n id).bind fun x => newContext x.2 id (some x.1) { part := part, budget := budget }

/-- CTX_CREATE (R430, R504). DEDUCED, log entry 40. DEDUCED, log entry 49. -/
def execCtxCreate (id part budget domain : Nat) (s : State) : Host.Outcome State Fault Refusal :=
  if id > 4096 ∨ part > 15 ∨ budget ≥ 2 ^ 32 ∨ (domain > 4095 ∧ domain ≠ 0xFFFF) then answer s 2
  else match (if id = 4096 then freeCtx s else if (s.ctx id).isNone then some id else none) with
    | none => answer s 1
    | some n => match makeContext s n part budget domain with
      | some s => answer { s with callA1 := n } 0
      | none => answer s 1

/-- The clusters of a context. -/
def clustersIn (s : State) (ctx : Nat) : List Nat :=
  (s.clusters.filter fun c => ((s.grid c.2.grid).map Grid.ctx) == some ctx).map fun c => c.1

/-- CTX_DESTROY (R509): the context's clusters end now, those not begun too; the rest goes when its work is over.
DESIGN CHOICE, log entry 48. DEDUCED, log entry 49. -/
def execCtxDestroy (id : Nat) (s : State) : Host.Outcome State Fault Refusal :=
  if id > 4095 then answer s 2
  else match calledCtx s id with
    | none => answer s 1
    | some _ =>
      let s := performStoresCtx (s.modCtx id fun c => { c with state := 3 }) id
      let s := (clustersIn s id).foldl retireCluster s
      let s := { s with grids := s.grids.map fun g => if g.2.ctx = id
        then (g.1, { g.2 with state := .begun, begun := g.2.pkt.clusters, retired := g.2.pkt.clusters, restart := [] }) else g }
      defer s (.destroy id)

/-- CTX_WORD (R430, R509). DEDUCED, log entry 49. -/
def execCtxWord (id word value : Nat) (s : State) : Host.Outcome State Fault Refusal :=
  if id > 4095 then answer s 2
  else match calledCtx s id, word with
    | none, _ => answer s 1
    | some _, 0 => if value > 15 then answer s 2 else answer (s.modCtx id fun c => { c with part := value }) 0
    | some _, 9 => if value ≥ 2 ^ 32 then answer s 2 else answer (s.modCtx id fun c => { c with budget := value }) 0
    | some _, 11 => if value > 4096 then answer s 2 else answer (s.modCtx id fun c => { c with wsLen := value }) 0
    | some _, _ => answer s 1

/-- A range of pages is well formed. -/
def rangeOk (va n : Nat) : Bool := va % frameBytes == 0 && n != 0 && decide (va + n * frameBytes ≤ 2 ^ 56)

/-- The pages of a range. -/
def pagesOf (va n : Nat) : List Nat := (fromTo 0 n).map fun i => va + i * frameBytes

/-- Pending fork regions of a range are built first (R454). -/
def buildRange (s : State) (ctx : Nat) (pages : List Nat) : Option State :=
  (dedup (pages.map fun va => bits va 55 43)).foldl (fun (o : Option State) i => match o with
    | some s => buildRegion s ctx i
    | none => none) (some s)

/-- A page of host memory of function 0 is copied into a frame; source 0 leaves zeros. -/
def copyIn (s : State) (src fr : Nat) : State :=
  let cells := if src = 0 then [] else s.hostMem.filter fun c => decide (src ≤ c.1 ∧ c.1 < src + frameBytes ∧ c.1 < 2 ^ 64)
  { s with mem := cells.foldl (fun m c => tput memDefault m (c.1 - src + fr * frameBytes) c.2) s.mem }

/-- One page is mapped, while a frame is free: no page leaves module memory for it (R450). DESIGN CHOICE, log entry 41. -/
def mapPage (s : State) (ctx : Nat) (c : Context) (va attrs src : Nat) : Option State :=
  (newFrame s ctx c.privDom (anyTier s)).bind fun x =>
    (leafSlot x.2 ctx va).map fun y =>
      putLeaf (copyIn y.2 src x.1) y.1 (mkPte (x.1 * frameBytes) (bit attrs 2) (bit attrs 3) (bit attrs 4) (bit attrs 15)
        (bit attrs 7) (bit attrs 9) true (frameTier x.1) c.privDom) 0

/-- Pages are mapped one after another. -/
def mapPages (ctx : Nat) (c : Context) (attrs : Nat) : Nat → State → Nat → Nat → Option State
  | 0, s, _, _ => some s
  | n + 1, s, va, src => (mapPage s ctx c va attrs src).bind fun s =>
      mapPages ctx c attrs n s (va + frameBytes) (if src = 0 then 0 else src + frameBytes)

/-- Attribute bits that MAP takes: R, W, X, RM, PIN, SUP, where an entry has them. -/
def attrsOk (a : Nat) : Bool := decide (a < 65536) && (fromTo 0 16).all fun i => !bit a i || [2, 3, 4, 7, 9, 15].contains i

/-- MAP (R239, R240, R259). DEDUCED, log entry 40. -/
def execMap (id va n attrs source : Nat) (s : State) : Host.Outcome State Fault Refusal :=
  if id > 4095 ∨ !rangeOk va n ∨ !attrsOk attrs ∨ source ≥ 2 ^ 64 then answer s 2
  else match calledCtx s id, buildRange s id (pagesOf va n) with
    | some c, some t =>
      if (pagesOf va n).any fun p => (leafAt t id p).isSome then answer s 1
      else match mapPages id c attrs n t va source with
        | some s => answer s 0
        | none => answer s 1
    | _, _ => answer s 1

/-- The image of a page that leaves while it is not resident stays for the grids that captured it (R223). -/
def keepAbsent (s : State) (ctx va : Nat) (l : Leaf) : State :=
  if pteRES l.pte then s
  else { s with grids := s.grids.map fun g =>
      if g.2.ctx = ctx ∧ g.2.pkt.params / frameBytes = va / frameBytes ∧ paramAbsent g.2 ≠ [] then
        let loc := pteAddr l.pte + g.2.pkt.params % frameBytes
        (g.1, { g.2 with
          paramOld := (fromTo 0 65536).map fun i => (i, tget 0 s.backing (loc + i))
          param := match g.2.param with
            | .leaf p k giB => .leaf (BitVec.ofNat 64 (setBit1 p.toNat 10 true)) k giB
            | m => m })
      else g }

/-- One page of a context is unmapped (R256, R259); a 1 GiB page by the range that has its first 128 KiB. DEDUCED, log entry 49. -/
def unmapPage (ctx : Nat) (s : State) (va : Nat) : State :=
  match leafAt s ctx va with
  | none => s
  | some l =>
    if l.giB then
      if va % 2 ^ 30 = 0 then dropEntry (writeNat (releaseLeaf s l) l.at' 8 0) ctx l.at' else s
    else
      let s := releaseLeaf (keepAbsent s ctx va l) l
      (dropEntry (putLeaf s l.at' 0 0) ctx l.at').modCtx ctx fun c => { c with clean := tdel c.clean (va / frameBytes) }

/-- UNMAP. -/
def execUnmap (id va n : Nat) (s : State) : Host.Outcome State Fault Refusal :=
  if id > 4095 ∨ !rangeOk va n then answer s 2
  else match calledCtx s id, buildRange s id (pagesOf va n) with
    | some _, some t => answer ((pagesOf va n).foldl (unmapPage id) t) 0
    | _, _ => answer s 1

/-! ### Residency and gating (0x0D to 0x10) -/

/-- Banks that no context owns on a core, lowest first. -/
def unowned (k : Core) : List Nat :=
  (fromTo 0 8).filter fun b => k.residents.all fun r => !bit r.2.banks b

/-- The balance for the rest of a slice (R436). -/
def restBalance (s : State) (c : Context) : Nat :=
  let f := s.front c.part
  let r := f.nextSlice - s.clock
  if c.budget = 0 then r else c.budget * r / f.sl

/-- A context has something on a core: a team, a bound group, engine work (R432). -/
def ctxOn (s : State) (ctx core : Nat) : Bool :=
  let k := s.core core
  let mine (tid : Nat) : Bool := match s.team tid with
    | some t => ctxOfTeam s t == ctx
    | none => false
  (s.teams.any fun t => t.2.core == core && !t.2.saved && ctxOfTeam s t.2 == ctx) ||
  (s.groups.any fun g => g.2.core == core && g.2.ctx == ctx && !g.2.out) ||
  (k.reel.any fun x => x.2.any fun c => c.ctx == ctx) || (k.links.any fun l => l.ctx == ctx) ||
  (k.spindle.any fun q => q.2.ctx == some ctx) || (k.deposits.any fun d => mine d.team) || (k.ready.any fun r => mine r.team) ||
  k.rowOps.any fun o => (k.bank o.2.bank).owner == some ctx

/-- The rows of a context's banks on a core close (R286). -/
def closeBanks (s : State) (ctx core : Nat) : State :=
  (fromTo 0 64).foldl (fun s b =>
    if ((s.bank core b).owner == some ctx) && ((s.bank core b).view).held.isSome then wantClose s core b else s) s

/-- A context is resident on some core. -/
def residentSomewhere (s : State) (ctx : Nat) : Bool := s.cores.any fun k => (k.2.residentOf ctx).isSome

/-- A slot is freed, and the context's cached translations on the core go (R432). A context that has left its last core is swapped
out: its pages are scanned, and its near pages are to go to far (R448, R450). -/
def freeResident (s : State) (ctx core slot : Nat) : State :=
  let s := closeBanks s ctx core
  let s := s.modCore core fun k => { k with residents := tdel k.residents slot, tlb := k.tlb.filter fun x => x.1 / 2 ^ 39 != ctx }
  if residentSomewhere s ctx then s
  else wsScan (s.modCtx ctx fun c => { c with state := if c.state = 2 then 1 else c.state, leftCores := true, tlb := [] }) ctx

/-- RESIDENT (R432, R436). -/
def execResident (id core slot n : Nat) (s : State) : Host.Outcome State Fault Refusal :=
  if id > 4095 ∨ core > 191 ∨ slot > 7 ∨ n > 8 then answer s 2
  else
    let k := s.core core
    match calledCtx s id with
    | none => answer s 1
    | some c =>
      if n = 0 then
        (if ((tfind k.residents slot).map Resident.ctx) ≠ some id ∨ ctxOn s id core then answer s 1
         else answer (freeResident s id core slot) 0)
      else if (tfind k.residents slot).isSome ∨ (k.residentOf id).isSome ∨ (unowned k).length < n then answer s 1
      else
        let r : Resident :=
          { ctx := id, banks := ((unowned k).take n).foldl (fun m b => m + 2 ^ b) 0, balance := (restBalance s c : Nat) }
        let s := s.modCore core fun k => { k with residents := tins k.residents slot r }
        answer (s.modCtx id fun c => { c with state := 2, leftCores := false }) 0

/-- GATE (R433). -/
def execGate (id cores on : Nat) (s : State) : Host.Outcome State Fault Refusal :=
  match coreSet s cores with
  | none => answer s 2
  | some cs =>
    if id > 4095 ∨ on > 1 then answer s 2
    else match calledCtx s id with
      | none => answer s 1
      | some _ => answer (cs.foldl (fun (s : State) c => s.modCore c fun k =>
          k.modResident id fun r => { r with gated := on == 1 }) s) 0

/-- LEAVE (R440). DEDUCED, log entry 33. -/
def execLeave (id cores reason : Nat) (s : State) : Host.Outcome State Fault Refusal :=
  match coreSet s cores with
  | none => answer s 2
  | some cs =>
    if id > 4095 ∨ (reason ≠ 1 ∧ reason ≠ 2) then answer s 2
    else match calledCtx s id with
      | none => answer s 1
      | some _ =>
        let cids := clustersOf s fun t => cs.contains t.core && !t.saved && ctxOfTeam s t == id
        defer (askClusters s reason cids) (.leave id (withGrids s cids))

/-- VACATE (R456). DEDUCED, log entry 33. DEDUCED, log entry 49. -/
def execVacate (fe cores : Nat) (s : State) : Host.Outcome State Fault Refusal :=
  match coreSet s cores with
  | none => answer s 2
  | some cs =>
    if fe > 15 ∨ !cs.all (fun c => (s.front fe).cores.contains c) then answer s 2
    else
      let s := s.modFront fe fun f => { f with vacating := f.vacating ++ cs.filter fun c => !f.vacating.contains c }
      defer (askClusters s 3 (clustersOf s fun t => cs.contains t.core && !t.saved)) (.vacate fe cs)

/-! ### Migration, queues and bindings (0x11 to 0x16) -/

/-- A cluster of a context is placed, or its save is in progress. -/
def placedOrSaving (s : State) (ctx : Nat) : Bool :=
  (clustersIn s ctx).any fun cid => match s.cluster cid with
    | some c => !c.cores.isEmpty || c.leaving != 0
    | none => false

/-- MIGRATE (R490). -/
def execMigrate (id die : Nat) (s : State) : Host.Outcome State Fault Refusal :=
  if id > 4095 ∨ die > 3 then answer s 2
  else match calledCtx s id with
    | none => answer s 1
    | some c => if placedOrSaving s id ∨ c.forking then answer s 1 else defer s (.migrate id die)

/-- The table pages of a context stand on a die, and its translations go (R490). -/
def migrateTables (s : State) (ctx die : Nat) : Option State :=
  match s.ctx ctx with
  | none => some s
  | some c =>
    let colours := (s.front c.part).colours
    (moveTables s ctx (fun f => frameDie f != die) fun s => (anyTier s).findSome? (frameOn s colours die)).map fun s =>
      s.modCtx ctx fun c => { c with tlb := [], migrated := true }

/-- A settings block breaks the rules of R218. DEDUCED, log entry 50. -/
def blockBad (q x : Nat) : Bool :=
  bits x 15 12 != 0 || bit x 23 || bits x 31 25 != 0 || bits x 63 36 != 0 || bits x 255 192 != 0 || bits x 191 128 % 8 != 0 ||
  (if q < 8 then decide (bits x 22 16 > 64 ∨ bits x 35 32 < 4) || bits x 127 64 % 4096 != 0 else !bit x 24)

/-- A queue that may be set up: empty and halted, or never set up. -/
def queueIdle (x : Queue) : Bool := !x.setUp || (x.halted && x.consumed == x.producer && x.posts.isEmpty)

/-- QUEUE_SET (R218). DEDUCED, log entry 50. -/
def execQueueSet (fe q block : Nat) (s : State) : Host.Outcome State Fault Refusal :=
  let x := ofBytes ((fromTo block 32).map (tget 0 s.fwMem))
  if fe > 15 ∨ q > 11 ∨ blockBad q x then answer s 2
  else
    let old := s.queue fe q
    if !queueIdle old then answer s 1
    else answer (s.setQueue fe q { old with
      setUp := true, halted := false, ctx := bits x 11 0, fn := bits x 22 16, space := bit x 24, log2n := bits x 35 32
      base := bits x 127 64, cpl := bits x 191 128, producer := 0, consumed := 0, rejection := 0, waiting := false }) 0

/-- QUEUE_RESUME (R219, R221). DEDUCED, log entry 50. -/
def execQueueResume (fe q : Nat) (s : State) : Host.Outcome State Fault Refusal :=
  if fe > 15 ∨ q > 11 then answer s 2
  else if !(s.queue fe q).setUp then answer s 1
  else answer (s.setQueue fe q { (s.queue fe q) with halted := false }) 0

/-- VF_BIND (R502, R503). -/
def execVfBind (fn fe queues : Nat) (ctxs : List Nat) (s : State) : Host.Outcome State Fault Refusal :=
  if fn = 0 ∨ fn > 64 ∨ fe > 15 ∨ queues > 255 ∨ ctxs.any (fun c => decide (c > 4095)) then answer s 2
  else
    let f := s.function fn
    if f.tdi = 1 ∨ f.tdi = 2 then answer s 1
    else answer (s.setFunction fn { f with fe := some fe, queues := queues, ctxs := ctxs }) 0

/-- ENC_BIND (R511). DESIGN CHOICE, log entry 51. -/
def execEncBind (enc slot id : Nat) (s : State) : Host.Outcome State Fault Refusal :=
  if enc > 7 ∨ slot > 11 ∨ (id > 4095 ∧ id ≠ 0xFFFF) then answer s 2
  else if id ≠ 0xFFFF ∧ (calledCtx s id).isNone then answer s 1
  else
    let e := s.encoder enc
    answer (s.setEncoder enc { e with slots := tput {} e.slots slot { ctx := if id = 0xFFFF then none else some id } }) 0

/-- ENGINE_RESUME (R348, R426). -/
def execEngineResume (id core : Nat) (s : State) : Host.Outcome State Fault Refusal :=
  if id > 4095 ∨ core > 191 then answer s 2
  else if ((s.core core).residentOf id).isNone ∨
      (s.groups.any fun g => g.2.core == core && g.2.ctx == id && g.2.kind != .spindle && !g.2.out && hasLane g.2) then answer s 1
  else answer (s.modCore core fun k => k.modResident id fun r => { r with halted := false, owed := none }) 0

/-! ### Power, islands, events (0x17 to 0x19) -/

/-- PROFILE (R516). -/
def execProfile (watts : Nat) (s : State) : Host.Outcome State Fault Refusal :=
  if watts = 600 ∨ watts = 800 ∨ watts = 1000 then answer { s with profile := watts } 0 else answer s 2

/-- The cores of an island: local cores 4 n to 4 n + 3 of its die. -/
def islandCores (die island : Nat) : List Nat := fromTo (48 * die + 4 * island) 4

/-- ISLAND (R518): an island may go off when its cores are vacated, as every core outside a partition is (R456). -/
def execIsland (die island on : Nat) (s : State) : Host.Outcome State Fault Refusal :=
  let n := 12 * die + island
  let x := s.island n
  if die > 3 ∨ island > 11 ∨ on > 1 then answer s 2
  else if on = 0 then
    (if (islandCores die island).all (coreVacated s) then answer (s.setIsland n { x with on := false, upAt := none }) 0 else answer s 1)
  else if x.on ∧ x.upAt.isNone then answer s 0
  else if x.upAt.isSome then answer s 3
  else answer (s.setIsland n { x with on := true, upAt := some (s.clock + 1500000) }) 3

/-- What power-up zeroes of a core (R518): scratchpads and the L1; registers and accumulators belong to groups and teams, and it
has none. -/
def clearCore (s : State) (c : Nat) : State :=
  s.modCore c fun k => { k with scratch := [], absent := [], scratchBad := [], l1 := [], l1Passed := [], icache := [], tlb := [] }

/-- ISLAND_POWER_UP_DONE (R518): its cores are eligible again. -/
def execIslandPowerUpDone (die island : Nat) (s : State) : Host.Outcome State Fault Refusal :=
  let n := 12 * die + island
  .next (match (s.island n).upAt with
    | none => s
    | some t =>
      if s.clock < t then s
      else
        let cs := islandCores die island
        let s := cs.foldl clearCore (s.setIsland n { (s.island n) with upAt := none })
        raiseEvent s 0x18 0 die)

/-- EVENTS (R510). -/
def execEvents (ring count : Nat) (s : State) : Host.Outcome State Fault Refusal :=
  if ring < 8 ∨ !((fromTo 4 13).any fun k => count == 2 ^ k) then answer s 2
  else answer { s with
    fwMem := putBytes s.fwMem (ring - 8) (toBytes 8 0)
    ring := { s.ring with set := true, base := ring, count := count, write := 0 } } 0

/-- UNKNOWN_CALL (R509): a number that names no call. -/
def execUnknownCall (number : Nat) (s : State) : Host.Outcome State Fault Refusal :=
  if 1 ≤ number ∧ number ≤ 0x19 then .next s else answer s 2

/-! ### What completes later (R510) -/

/-- Everything a destroyed context still has goes (R256, R259, R504). DEDUCED, log entry 49. -/
def eraseContext (s : State) (id : Nat) (c : Context) : State :=
  let tables := tableFrames s c.root
  let s := (leavesOf s id).foldl (fun s x => releaseLeaf s x.2) s
  let s := dropCopies (tables.foldl dropFrame s) id (fun _ _ => true) fun _ => true
  let s := { s with
    ctxs := tdel s.ctxs id
    keyDoms := s.keyDoms.map fun d => (d.1, { d.2 with owners := d.2.owners.filter fun o => o != id })
    keySlots := s.keySlots.filter fun k => k.2.ctx != id
    cores := s.cores.map fun k => (k.1, forgetOwner (settleOwners { k.2 with
      residents := k.2.residents.filter fun r => r.2.ctx != id
      objects := k.2.objects.filter fun o => o.1 / 64 != id
      faults := k.2.faults.filter fun f => f.1 != id } id) id) }
  pruneDomains s

/-- A queue without what a context had in it. -/
def dropQueue (id : Nat) (q : SpQueue) : SpQueue :=
  let q := if q.ctx = some id then q.unbound else q
  { q with reports := q.reports.filter fun r => r.ctx != id, halts := q.halts.filter fun h => h.ctx != id }

/-- Work of a context on the engines of a core is taken off them. -/
def dropWork (id : Nat) (k : Core) : Core :=
  { k with
    reel := k.reel.map fun x => (x.1, x.2.filter fun c => c.ctx != id)
    links := k.links.filter fun l => l.ctx != id
    spindle := k.spindle.map fun q => (q.1, dropQueue id q.2) }

/-- A context of a fork pair on its own. -/
def unpair (c : Context) : Context := { c with forking := false, forkPeer := none, pendingRegions := [] }

/-- A destruction goes on: a fork pair comes apart, accepted row operations finish, then everything goes. -/
def destroyStep (s : State) (id : Nat) : State × Bool :=
  match s.ctx id with
  | none => (s, true)
  | some c =>
    match c.forkPeer with
    | some peer =>
      if c.isNew then ((s.modCtx peer unpair).modCtx id unpair, false)
      else ((c.pendingRegions.take 64).foldl (fun s i => (buildRegion s id i).getD s) s, false)
    | none =>
      let s : State := { s with cores := s.cores.map fun k => (k.1, dropWork id k.2) }
      if s.cores.any fun k => k.2.rowOps.any fun o => (k.2.bank o.2.bank).owner == some id then (s, false)
      else (raiseEvent (eraseContext (s.cores.foldl (fun s k => closeBanks s id k.1) s) id c) 0x09 0 id, true)

/-- The first request, a VACATE, is complete: the front end keeps clear of the cores of its other ones (R456). -/
def endVacate (s : State) (fe : Nat) : State :=
  s.modFront fe fun f => { f with vacating := (s.laters.drop 1).flatMap fun l => match l with
    | .vacate n cs => if n = fe then cs else []
    | _ => [] }

/-- One pending request: what it has come to, and whether it is complete. -/
def stepLater (s : State) : Later → State × Bool
  | .colsplit core value => match colsplitStep s core value with
    | (s, some st) => (raiseEvent s 0x06 st core, true)
    | (s, none) => (s, false)
  | .leave ctx cids =>
    if cids.any fun cid => ((s.cluster cid).map fun c => c.leaving != 0).getD false then (s, false)
    else (raiseEvent s 0x0F 0 ctx, true)
  | .vacate fe cores => if cores.all (coreVacated s) then (raiseEvent (endVacate s fe) 0x10 0 fe, true) else (s, false)
  | .destroy ctx => destroyStep s ctx
  | .migrate ctx die => match migrateTables s ctx die with
    | some s => (raiseEvent s 0x11 0 ctx, true)
    | none => (s, false)
  | .compact core value =>
    if (objectsLeave (s.core core) value).isEmpty then (raiseEvent s 0x07 0 core, true) else (s, false)
  | .request fn ctx a data n => (pcieRequest s fn ctx a data n, true)
  | .atomic fn ctx va op size x y => (pcieAtomic s fn ctx va op size x y, true)

/-- The requests that complete later go on, in the order in which they were made. -/
def runLaters (s : State) : State :=
  s.laters.foldl (fun (s : State) l =>
    let rest := s.laters.drop 1
    match stepLater s l with
    | (t, true) => { t with laters := rest ++ t.laters.drop s.laters.length }
    | (t, false) => { t with laters := rest ++ [l] ++ t.laters.drop s.laters.length }) s

/-! ### Boot and measurement (R506 to R508) -/

/-- MRi takes a digest. PRESUMED, log entry 12. -/
def extendMr (s : State) (i : Nat) (image : List Byte) : State :=
  { s with mrs := tput 0 s.mrs i (sha256 (digestBytes (tget 0 s.mrs i) ++ digestBytes (sha256 image))) }

/-- The datapaths that the fuses record as failed are mapped out (R421, R422). DESIGN CHOICE, log entry 52. -/
def applyFuses (s : State) : State :=
  s.fuses.foldl (fun (s : State) x => s.modCore x.1 fun k => k.setSlice x.2.1 (remap (k.slice x.2.1) x.2.2).1) s

/-- BOOT (R506): the monitor is verified and measured, applies the fuses, and verifies, measures and starts the service firmware;
later images are measured into the registers they name. DESIGN CHOICE, log entry 52. -/
def execBoot (monitor firmware : List Byte) (monitorOk firmwareOk : Bool) (later : List (Nat × List Byte)) (s : State) :
    Host.Outcome State Fault Refusal :=
  .next (if s.boot ≠ .reset then s
    else if !monitorOk then { s with boot := .halted }
    else
      let s := applyFuses (extendMr s 0 monitor)
      if !firmwareOk then { s with boot := .monitor }
      else
        let s := extendMr s 1 firmware
        (later.filter fun x => decide (2 ≤ x.1 ∧ x.1 ≤ 7)).foldl (fun s x => extendMr s x.1 x.2)
          { s with boot := .running, fwStarts := s.fwStarts + 1 })

/-- FIRMWARE_RESTART (R508): running work goes on. DESIGN CHOICE, log entry 52. -/
def execFirmwareRestart (s : State) : Host.Outcome State Fault Refusal :=
  .next (if s.boot = .running then { s with fwStarts := s.fwStarts + 1 } else s)

/-- GET_MEASUREMENTS (R507): register i as measurement block i + 1, with a signature whose bytes are not fixed. DESIGN CHOICE, log entry 64. -/
def execGetMeasurements (index : Nat) (s : State) : Host.Outcome State Fault Refusal :=
  .next (if index = 0 ∨ index > 8 then { s with reply := [] }
    else { s with reply := digestBytes (tget 0 s.mrs (index - 1)) ++ deviceBytes s 0 64, free := s.free + 1 })

/-! ### Power and temperature (R515 to R517) -/

/-- POWER_CONTROL (R516): above the profile the island with the highest measured power is lowered; otherwise an island may be
raised, by what is not fixed. DESIGN CHOICE, log entry 53. -/
def execPowerControl (power : List (Nat × Nat)) (s : State) : Host.Outcome State Fault Refusal :=
  let total := (power.map fun p => p.2).foldl (· + ·) 0
  .next (if total > s.profile then
      match power.foldl (fun (b : Option (Nat × Nat)) p => match b with
        | some q => if q.2 < p.2 then some p else some q
        | none => some p) none with
      | some p => s.setIsland p.1 { (s.island p.1) with duty := Nat.max 1 ((s.island p.1).duty - 1) }
      | none => s
    else
      { (power.foldl (fun (s : State) p => s.setIsland p.1 { (s.island p.1) with
          duty := Nat.min 16 ((s.island p.1).duty + Config.freeChoice s.free p.1 % 16) }) s) with free := s.free + 1 })

/-- THERMAL_THROTTLE (R517): above the limits an island's duty falls by 1, and the service firmware is told when that begins.
DESIGN CHOICE, log entry 24. DESIGN CHOICE, log entry 44. DESIGN CHOICE, log entry 53. -/
def execThermalThrottle (die island logic layer : Nat) (s : State) : Host.Outcome State Fault Refusal :=
  let n := 12 * die + island
  .next (if die > 3 ∨ island > 11 then s
    else if logic ≤ 100 ∧ layer ≤ 95 then { s with hot := tdel s.hot (n + 1) }
    else
      let lowered := s.setIsland n { (s.island n) with duty := Nat.max 1 ((s.island n).duty - 1) }
      if (tfind s.hot (n + 1)).isSome then lowered
      else
        let (x, t) := lowered.draw (2 ^ 32)
        raiseEvent { t with hot := tins t.hot (n + 1) s.clock } 0x104 0 x)

/-- THERMAL_TRIP (R517): above the trip points for 1 ms, the compute dies are reset; a fresh boot follows. Host memory and what is
still to arrive from outside stay. DESIGN CHOICE, log entry 53. -/
def execThermalTrip (logic layer : Nat) (s : State) : Host.Outcome State Fault Refusal :=
  .next (if logic ≤ 110 ∧ layer ≤ 105 then { s with hot := tdel s.hot 0 }
    else match tfind s.hot 0 with
      | none => { s with hot := tins s.hot 0 s.clock }
      | some t =>
        if s.clock < t + 750000 then s
        else { State.reset with
          free := s.free, fresh := s.fresh, hostMem := s.hostMem, fuses := s.fuses
          inputs := s.inputs.map fun i => (i.1 - s.clock, i.2)
          upsets := s.upsets.map fun x => (x.1 - s.clock, x.2) })

end Sys2Proof.Machine
end

