-- ==== Sys2Proof/Machine/Encode.lean ====
section
/-!
DEFINITION. Frame encoders (R511 to R514): `venc` and the coding of a posted frame. The bytes and the size of a bitstream are free values.
-/
namespace Sys2Proof.Machine
open Sys2Proof

/-! ### `venc` (R513) -/

/-- The status of a post. -/
def vencStatus (s : State) (ctx e x : Nat) : Nat :=
  let enc := s.encoder e
  if bits x 231 224 > 11 ∨ (enc.slot (bits x 231 224)).ctx ≠ some ctx then 2
  else if enc.queue.length ≥ 64 then 1 else 0

def execVenc (f : Fields) (s : State) :=
  runGroup (.venc f) f s fun c s =>
    if c.exec = 0 then .done s
    else plainReads c s false [{ lane := c.low, addr := BitVec.ofNat 64 (c.srcA c.low), n := 64 }] fun s vals =>
      let s := spendRestart (performStoresOf s c.gid) c.g
      let x := ((vals.head?).map fun v => v.2.2).getD 0
      let e := f.imm13.toNat % 8
      let st := vencStatus s c.g.ctx e x
      let s := if st = 0 then
          s.setEncoder e { (s.encoder e) with queue := (s.encoder e).queue ++ [(c.g.ctx, toBytes 64 x)] } else s
      .done (writeScalar c s st)

/-! ### Coding a frame (R512, R514) -/

/-- A descriptor that breaks R512. -/
def frameBad (x : Nat) : Bool :=
  bits x 511 320 != 0 || bits x 255 236 != 0 || bits x 223 216 != 0 || bits x 127 120 != 0 || bits x 63 56 != 0 ||
  bits x 233 232 == 3 || (bit x 235 && bits x 233 232 == 0) || decide (bits x 231 224 > 11) || bits x 165 160 != 0 ||
  bits x 70 64 != 0 || bits x 55 0 % 64 != 0

/-- An image that an encoder does not take. -/
def sourceBad (d : Nat) : Bool :=
  imInvalid d || imDim d != 1 || !([2, 3, 4].contains (imFormat d)) || imWidth d % 2 != 0 || imHeight d % 2 != 0 ||
  decide (imWidth d > 3840 ∨ imHeight d > 2160)

/-- A run of `n` bytes cut at subpages; the fuel bounds the pieces. -/
def cutRun : Nat → Nat → Nat → List (Nat × Nat)
  | 0, _, _ => []
  | fuel + 1, a, n => if n = 0 then [] else
    let m := Nat.min n (4096 - a % 4096)
    (a, m) :: cutRun fuel (a + m) (n - m)

/-- The pieces of level 0 of an image. -/
def imagePieces (d : Nat) : List (Nat × Nat) :=
  (fromTo 0 (imHeight d)).flatMap fun y => cutRun 16 (imBase d + y * rowPitch d 0) (imWidth d * formatBytes (imFormat d))

/-- Places of an encoder's accesses; its page waits take fault slots of core 0. -/
def encReach (s : State) (ctx : Nat) (w : Access) : List (Nat × Nat) → Got (List (Place × Nat))
  | [] => .ok s []
  | p :: ps => (engineGlobal s 0 ctx p.1 w).andThen fun s x => (encReach s ctx w ps).andThen fun s xs => .ok s ((x, p.2) :: xs)

/-- The whole of a read; data that is poisoned or fails its check is a failure (R424, R425). -/
def encRead (s : State) (ctx : Nat) (ps : List (Nat × Nat)) : Got (List Byte) :=
  (encReach s ctx .read ps).andThen fun s xs =>
    match xs.findSome? fun x => placeCause s x.2 x.1 with
    | some c => .err (xs.foldl (fun s x => poisonPlace s x.2 x.1) s) (causeCode c)
    | none => .ok s (xs.flatMap fun x => readPlace s x.2 x.1)

/-- Bytes are put at the places of some pieces. -/
def encPut (agent : Nat) : State → List (Place × Nat) → List Byte → State
  | s, [], _ => s
  | s, x :: xs, bs => encPut agent (agentPut s agent x.1 (bs.take x.2)) xs (bs.drop x.2)

/-- What coding a frame comes to: a page to wait for, or a status with the bytes coded, whether a key frame was, and the
stream slot. -/
structure Coded where
  status : Nat
  bytes  : Nat := 0
  key    : Bool := false
  slot   : EncSlot
  deriving DecidableEq, Repr

/-- The stream after a frame of a size and codec. -/
def nextSlot (k : EncSlot) (x d : Nat) : EncSlot :=
  { k with last := some (imWidth d, imHeight d, bits x 233 232), forceKey := false
           rate := if bits x 287 256 = 0 then k.rate else bits x 287 256 }

/-- The frame itself: how many bytes its bitstream takes, and their values, are not fixed. Where OUT cannot be written the manual
states no status. DESIGN CHOICE, log entry 51. -/
def codeFrame (s : State) (agent ctx x d : Nat) (k : EncSlot) : Got Coded :=
  let key := bit x 234 || k.forceKey || k.last != some (imWidth d, imHeight d, bits x 233 232)
  let n := Config.freeChoice s.free 10 % 2 ^ 32
  if n > bits x 159 128 then .ok s { status := 1, slot := { k with forceKey := true } }
  else match encReach s ctx .write (cutRun (n / 4096 + 2) (bits x 119 64) n) with
    | .wait s p => .wait s p
    | .err s _ => .ok s { status := 1 + Config.freeChoice s.free 11 % 4, slot := k }
    | .ok s xs => .ok { (encPut agent s xs (deviceBytes s 0 n)) with free := s.free + 1 }
        { status := 0, bytes := n, key := key, slot := nextSlot k x d }

/-- The source is read and coded. -/
def codeSource (s : State) (agent ctx x : Nat) (k : EncSlot) : Got Coded :=
  match encRead s ctx [(bits x 55 0, 64)] with
  | .wait s p => .wait s p
  | .err s _ => .ok s { status := 3, slot := k }
  | .ok s b =>
    let d := ofBytes b
    if sourceBad d then .ok s { status := 2, slot := k }
    else match encRead s ctx (imagePieces d) with
      | .wait s p => .wait s p
      | .err s _ => .ok s { status := 3, slot := k }
      | .ok s _ => codeFrame s agent ctx x d k

/-- The completion record. -/
def codedRecord (x : Nat) (r : Coded) : List Byte :=
  toBytes 8 (r.status + 256 + 2 ^ 32 * r.bytes) ++ toBytes 8 (bits x 319 288) ++ toBytes 8 (b2n r.key) ++ List.replicate 40 0

/-- A frame is done: its record is written and it leaves the queue. A record that cannot be written is not. DESIGN CHOICE, log entry 51. -/
def endFrame (s : State) (enc ctx x : Nat) (r : Coded) : State :=
  let n := bits x 231 224
  let leave (s : State) : State :=
    let e := s.encoder enc
    s.setEncoder enc { e with queue := e.queue.drop 1, slots := if n ≤ 11 then tput {} e.slots n r.slot else e.slots }
  match encReach s ctx .write [(bits x 215 160 / 64 * 64, 64)] with
  | .ok s xs => leave (encPut (208 + enc) s xs (codedRecord x r))
  | .wait s _ => s
  | .err s _ => leave s

/-- The frame that is at the head of a queue is coded and reported. -/
def runFrame (s : State) (enc ctx x : Nat) : State :=
  let k := (s.encoder enc).slot (bits x 231 224)
  if k.ctx ≠ some ctx then endFrame s enc ctx x { status := 4, slot := k }
  else if frameBad x then endFrame s enc ctx x { status := 2, slot := k }
  else match codeSource s (208 + enc) ctx x k with
    | .wait s _ => s
    | .err s _ => s
    | .ok s r => endFrame s enc ctx x r

/-- ENCODE_FRAME (R514): the oldest posted frame of an encoder, once the page of its record is there. DESIGN CHOICE, log entry 51. -/
def execEncodeFrame (enc : Nat) (s : State) : Host.Outcome State Fault Refusal :=
  .next (match (s.encoder enc).queue with
    | [] => s
    | (ctx, bs) :: _ =>
      let x := ofBytes bs
      match encReach s ctx .write [(bits x 215 160 / 64 * 64, 64)] with
      | .wait s _ => s
      | _ => runFrame s enc ctx x)

end Sys2Proof.Machine
end

