-- ==== Sys2Proof/Machine/Matrix.lean ====
section
/-!
DEFINITION. The matrix sequencer's instructions (R364 to R393) with the accumulation of R90 and R91.
-/
namespace Sys2Proof.Machine
open Sys2Proof

/-! ### Issuing a stream instruction -/

/-- What a stream instruction runs with. -/
structure MCtx where
  tid : Nat
  t   : Team
  q   : Sequencer
  i   : Instr
  f   : Fields
  deriving DecidableEq, Repr

/-- How a stream instruction ends: done, the PC past it or elsewhere; not begun, for something it waits for; a cause. -/
inductive MRes where
  | done (s : State)
  | goto (s : State) (pc : DWord)
  | wait (s : State)
  | trap (s : State) (t : TrapInfo)
  deriving DecidableEq, Repr

def State.modSeq (s : State) (tid : Nat) (f : Sequencer → Sequencer) : State :=
  s.modTeam tid fun t => { t with seq := t.seq.map f }

/-- The number a field names: a descriptor, a tile or a barrier. -/
def opNum : Operand → Option Nat
  | .v r => some r.val
  | _ => none
def opNumD (o : Operand) : Nat := (opNum o).getD 0

/-- The accumulator tiles and descriptors an instruction names. -/
def tilesOf (i : Instr) (f : Fields) : List Operand :=
  match i with
  | .mma _ | .mmb _ | .azero _ | .ald _ | .ascl _ => [f.dst]
  | .ast _ => [f.a]
  | _ => []
def descsOf (i : Instr) (f : Fields) : List Operand :=
  match i with
  | .mma _ | .mmb _ => [f.a, f.b, f.c]
  | .ald _ | .ascl _ => [f.a]
  | .tdef _ | .tld _ | .ast _ | .astStat _ | .rowCon _ => [f.dst]
  | _ => []

/-- A number at or above the team's count (R366). -/
def numberBad (n : Nat) (os : List Operand) : Bool :=
  os.any fun o => match opNum o with
    | some k => decide (k ≥ n)
    | none => false

/-- Step 2 of R369. -/
def matNumbers (c : MCtx) : Option TrapInfo :=
  if numberBad c.t.accum (tilesOf c.i c.f) || numberBad c.t.tiles (descsOf c.i c.f)
  then some { cause := .protection, aux := 7 } else none

/-- The end of a stream instruction. -/
def finishStream (c : MCtx) : MRes → State
  | .done s => s.modSeq c.tid fun q => { q with pc := c.q.pc + BitVec.ofNat 64 (formBytes c.f.form) }
  | .goto s pc => s.modSeq c.tid fun q => { q with pc := pc }
  | .wait s => s
  | .trap s t => streamTrap s c.tid c.q.pc (formBytes c.f.form) t

/-- Issue an instruction of the stream (R368, R369). DESIGN CHOICE, log entry 29. -/
def runStream (i : Instr) (f : Fields) (s : State) (body : MCtx → State → MRes) : Host.Outcome State Fault Refusal :=
  match s.seqIssuer with
  | none => .fault .noGroup
  | some tid => match s.team tid with
    | none => .fault .noGroup
    | some t => match t.seq with
      | none => .fault .noGroup
      | some q =>
        let c : MCtx := { tid := tid, t := t, q := q, i := i, f := f }
        .next (finishStream c (match matNumbers c with
          | some e => .trap s e
          | none => body c s))

/-- Deliveries to a row latch of the team that have not ended (R276, R385). -/
def latchPending (s : State) (c : MCtx) (t : Nat) : Bool :=
  (s.core c.t.core).rowOps.any fun o => o.2.latch == some t && o.2.team == c.tid
def anyLatchPending (s : State) (c : MCtx) : Bool :=
  (s.core c.t.core).rowOps.any fun o => o.2.latch.isSome && o.2.team == c.tid

/-! ### Descriptors at use (R370 to R372) -/

def MCtx.desc (c : MCtx) (t : Nat) : Nat := (tget 0 c.q.tdesc t).toNat

/-- An operand to be read or written through a descriptor: the kinds its position accepts, its lines and bytes in a line, and
whether PITCH is used. -/
structure MUse where
  t     : Nat
  kinds : List Nat
  lines : Nat
  lineBytes : Nat
  pitched : Bool := true
  deriving DecidableEq, Repr

/-- Bits of a field that the kind does not use, with the reserved bits. -/
def unusedBits (d kind : Nat) : Nat :=
  bits d 120 96 + bits d 63 61 + match kind with
    | 1 => bits d 60 37
    | 2 => bits d 60 45 + bits d 20 8
    | 3 => bits d 60 39 + bits d 20 6
    | _ => 0

def descKind (d : Nat) : Nat := bits d 127 124
def descPitch (d : Nat) : Nat := bits d 36 21

/-- E (R371). -/
def MCtx.effective (c : MCtx) (t : Nat) : Int :=
  let d := c.desc t
  let base : Nat := if descKind d = 3 then bits d 38 21 else bits d 20 0
  let it := (tget {} c.q.loops (bits d 122 121)).it
  if bit d 123 then (base : Int) + toSigned 32 (bits d 95 64) * (it : Int) else base

/-- The operand's kind, shape or contents are wrong: 0x0C. -/
def MCtx.shapeWrong (c : MCtx) (u : MUse) : Bool :=
  let d := c.desc u.t
  !u.kinds.contains (descKind d) || unusedBits d (descKind d) != 0 ||
  (descKind d == 1 && u.pitched && decide (descPitch d < u.lineBytes)) ||
  (descKind d == 3 && u.lines * u.lineBytes != 2048)

/-- 0x04 (R371), where PITCH is used (R384). DESIGN CHOICE, log entry 29. -/
def MCtx.crooked (c : MCtx) (u : MUse) : Bool :=
  let d := c.desc u.t
  descKind d == 1 && (c.effective u.t % 32 != 0 || (u.pitched && descPitch d % 32 != 0))

/-- Bytes from one line to the next. -/
def MCtx.pitch (c : MCtx) (u : MUse) : Nat := if u.pitched then descPitch (c.desc u.t) else 0

/-- 0x0B (R371, R373). -/
def MCtx.outside (c : MCtx) (u : MUse) : Bool :=
  let k := descKind (c.desc u.t)
  (k == 1 || k == 3) && decide (c.effective u.t < 0) ||
  k == 1 && decide (c.effective u.t + ((u.lines - 1) * c.pitch u + u.lineBytes : Nat) > c.t.scratchSize)

/-- The live group of the team with number n. -/
def feederGroup (s : State) (tid n : Nat) : Option Group :=
  ((groupsOf s tid).find? fun x => x.2.g == n).map fun x => x.2

/-- Gq of a feeder descriptor. -/
def feederNum (d q : Nat) : Nat := bits d (26 + 6 * q) (21 + 6 * q)

/-- 0x06 of kind 2 (R371, R372). -/
def MCtx.feederBad (c : MCtx) (s : State) (u : MUse) : Bool :=
  let d := c.desc u.t
  let e := c.effective u.t
  descKind d == 2 && (decide (e < 0 ∨ 255 < e) || (fromTo 0 4).any fun q =>
    match feederGroup s c.tid (feederNum d q) with
    | none => true
    | some g => decide (e.toNat + (u.lines / 4 * (u.lineBytes / 4) - 1) / g.width ≥ g.main.nv))

/-- Offset in the core's array of line i of a kind-1 operand. -/
def MCtx.lineAt (c : MCtx) (u : MUse) (i : Nat) : Nat := c.t.scratchBase + (c.effective u.t).toNat + i * c.pitch u

/-- The 128-byte scratchpad lines a kind-1 operand touches. -/
def MCtx.unitsOf (c : MCtx) (u : MUse) : List Nat :=
  if descKind (c.desc u.t) = 1 then (fromTo 0 u.lines).flatMap fun i => touchedUnits (c.lineAt u i) u.lineBytes 128 else []

/-- The 4-byte words of the core's array that a kind-1 operand lies in. -/
def MCtx.wordsOf (c : MCtx) (u : MUse) : List Nat :=
  if descKind (c.desc u.t) = 1 then (fromTo 0 u.lines).flatMap fun i => touchedUnits (c.lineAt u i) u.lineBytes 4 else []

/-- A word has been read already, while the instruction waited. -/
def MCtx.hasWord (c : MCtx) (w : Nat) : Bool := (tfind c.q.held (4 * w)).isSome

/-- The scratchpad lines that are still to be read. -/
def MCtx.unitsDue (c : MCtx) (u : MUse) : List Nat :=
  if c.q.held.isEmpty then c.unitsOf u else ((c.wordsOf u).filter fun w => !c.hasWord w).map fun w => w / 32

/-- Poisoned data in an operand: 0x13 (R373, R385). -/
def MCtx.poisoned (c : MCtx) (s : State) (u : MUse) : Bool :=
  if descKind (c.desc u.t) = 3 then c.q.latchBad.any fun x => x / 16 == u.t
  else (c.unitsDue u).any (s.core c.t.core).scratchBad.contains

/-- Steps 3 to 6 of R369, each over every operand. -/
def useCause (c : MCtx) (s : State) (us : List MUse) : Option TrapInfo :=
  if us.any c.shapeWrong then some { cause := .matrixShape }
  else if us.any c.crooked then some { cause := .misaligned }
  else if us.any c.outside then some { cause := .localBounds }
  else if us.any (c.feederBad s) then some { cause := .protection, aux := 2 }
  else none

/-- Something an operand reads has not arrived (R234, R373, R385). -/
def useWaits (c : MCtx) (s : State) (us : List MUse) : Bool :=
  us.any fun u => (c.unitsDue u).any (fun l => tget 0 (s.core c.t.core).absent l != 0) ||
    (descKind (c.desc u.t) == 3 && latchPending s c u.t)

/-- While an instruction waits, it may read words of lines that are present; which is not fixed (R373, R401). DESIGN CHOICE, log entry 29. -/
def holdWords (c : MCtx) (s : State) (us : List MUse) : State :=
  let k := s.core c.t.core
  let ws := (us.flatMap c.wordsOf).filter fun w => !c.hasWord w && tget 0 k.absent (w / 32) == 0 &&
    !k.scratchBad.contains (w / 32) && Config.freeChoice s.free (4 * w) % 2 == 1
  { (s.modSeq c.tid fun q => { q with held := ws.foldl (fun t w =>
      (fromTo (4 * w) 4).foldl (fun t b => tins t b (tget 0 k.scratch b)) t) q.held }) with free := s.free + 1 }

/-- The instruction has read all it needs: nothing is held for it any more. -/
def MCtx.release (c : MCtx) (s : State) : State :=
  if c.q.held.isEmpty then s else s.modSeq c.tid fun q => { q with held := [] }

/-- An instruction that reads operands through descriptors: its checks, its wait, its data, then its effect. -/
def withReads (c : MCtx) (s : State) (us : List MUse) (k : State → MRes) : MRes :=
  match useCause c s us with
  | some t => .trap (c.release s) t
  | none =>
    if useWaits c s us then .wait (holdWords c s us)
    else if us.any (c.poisoned s) then .trap (c.release s) { cause := .poison }
    else k (c.release s)

/-- One that writes through a descriptor. -/
def withWrite (c : MCtx) (s : State) (u : MUse) (k : Unit → MRes) : MRes :=
  match useCause c s [u] with
  | some t => .trap s t
  | none => k ()

/-- Word u of quarter q of a feeder operand. -/
def feederWord (s : State) (c : MCtx) (d e q u : Nat) : Nat :=
  match feederGroup s c.tid (feederNum d q) with
  | none => 0
  | some g => (vreg g.main (e + u / g.width) (u % g.width)).toNat

/-- Line i of an operand as a number, element 0 lowest (R77, R372). -/
def MCtx.line (c : MCtx) (s : State) (u : MUse) (i : Nat) : Nat :=
  let d := c.desc u.t
  if descKind d = 3 then ofBytes ((fromTo (2048 * u.t + i * u.lineBytes) u.lineBytes).map (tget 0 c.q.latch))
  else if descKind d = 2 then
    let n := u.lineBytes / 4
    let q := i / (u.lines / 4)
    packNat ((fromTo ((i - q * (u.lines / 4)) * n) n).map fun w => (32, feederWord s c d (c.effective u.t).toNat q w))
  else if c.q.held.isEmpty then ofBytes (scratchBytes s c.t.core (c.lineAt u i) u.lineBytes)
  else ofBytes ((fromTo (c.lineAt u i) u.lineBytes).map fun b => (tfind c.q.held b).getD (tget 0 (s.core c.t.core).scratch b))

def MCtx.linesOf (c : MCtx) (s : State) (u : MUse) : List Nat := (fromTo 0 u.lines).map (c.line s u)

/-! ### Tiles -/

def accKey (a i j : Nat) : Nat := 4096 * a + 64 * i + j
def MCtx.elem (c : MCtx) (a i j : Nat) : Nat := (tget 0 c.q.acc (accKey a i j)).toNat

/-- Elements of a tile are written: (i, j, value, flags). -/
def putElems (acc : Table (BitVec 40)) (a : Nat) (es : List (Nat × Nat × Nat × Nat)) : Table (BitVec 40) :=
  es.foldl (fun t e => tput 0 t (accKey a e.1 e.2.1) (BitVec.ofNat 40 e.2.2.1)) acc

def elemFlags (es : List (Nat × Nat × Nat × Nat)) : Nat := es.foldl (fun x e => x ||| e.2.2.2) 0

/-- Flags gather in the matrix status (R367). -/
def raiseMat (q : Sequencer) (flags : Nat) : Sequencer := { q with status := q.status ||| BitVec.ofNat 64 flags }

/-- The region of a tile takes new values. -/
def writeTile (c : MCtx) (s : State) (a : Nat) (es : List (Nat × Nat × Nat × Nat)) : State :=
  s.modSeq c.tid fun q => raiseMat { q with acc := putElems q.acc a es } (elemFlags es)

/-- The elements of the top-left m × n of a tile, each as a value with its flags. -/
def region (m n : Nat) (f : Nat → Nat → Nat × Nat) : List (Nat × Nat × Nat × Nat) :=
  (fromTo 0 m).flatMap fun i => (fromTo 0 n).map fun j => (i, j, f i j)

/-- M and N of a shape code (R374). -/
def dimOf (code : Nat) : Nat := 16 * 2 ^ (code % 4)
def shapeM (f : Fields) : Nat := dimOf f.high5
def shapeN (f : Fields) : Nat := dimOf (f.high5 / 4)

/-! ### `mma` and `mmb` (R374, R375, R378, R379) -/

/-- The elements of an operand. -/
inductive MatElem where
  | fp (f : Fmt)
  | int (w : Nat)
  | bin
  deriving DecidableEq, Repr

def MatElem.width : MatElem → Nat
  | .fp f => f.width
  | .int w => w
  | .bin => 1

/-- The element type of a `mma` (R374). -/
def mmaElem (f : Fields) : MatElem :=
  match fmtOf f.ty with
  | some m => .fp m
  | none => .int (if f.high5 ≥ 16 then 4 else 8)

/-- The other FP8 format, for `.balt`. -/
def otherFp8 : MatElem → MatElem
  | .fp m => .fp (if m = fmtE4M3 then fmtE5M2 else fmtE4M3)
  | e => e

/-- K of an element type and SHAPE[4]: INT8 and INT4 are one row each. -/
def mmaK (f : Fields) (e : MatElem) : Nat :=
  match e with
  | .int w => if w = 4 then 64 else 32
  | e => 256 / e.width * (if f.high5 ≥ 16 then 2 else 1)

/-- Block scales are possible (R374). -/
def scalable : MatElem → Bool
  | .fp f => decide (f.width < 16)
  | .int w => w == 4
  | .bin => false

/-- The elements of a line as exact values. -/
def fpLine (e : MatElem) (k x : Nat) : List FVal :=
  (fromTo 0 k).map fun i =>
    let v := x / 2 ^ (e.width * i) % 2 ^ e.width
    match e with
    | .fp f => unpackF f v
    | _ => FVal.ofInt (toSigned e.width v)

/-- The elements of a line as integers. -/
def intLine (e : MatElem) (k x : Nat) : List Int :=
  (fromTo 0 k).map fun i =>
    let v := x / 2 ^ (e.width * i) % 2 ^ e.width
    match e with
    | .int w => toSigned w v
    | _ => (v : Int)

/-- Chunk c of a line (R90). -/
def chunkOf {α : Type} (xs : List α) (c : Nat) : List α := (xs.drop (32 * c)).take 32

/-- The factor of a block scale X (R78). -/
def scaleVal (x : Nat) : FVal := if x = 255 then .nan false else .fin false 1 ((x : Int) - 127)

/-- The exact chunk sum, a NaN of which is invalid (R90). -/
def chunkSum (as bs : List FVal) (sa sb : FVal) : FVal :=
  match sumF .rne (List.zipWith (fun a b => mulF (mulF a sa) (mulF b sb)) as bs) with
  | .nan _ => .nan true
  | v => v

/-- One chunk enters an FP40 element: an exact addition, one rounding (R90). -/
def fpStep (acc : Nat × Nat) (v : FVal) : Nat × Nat :=
  let (x, fl) := packF fmtF40 .rne (sumF .rne [unpackF fmtF40 acc.1, v])
  (x, acc.2 ||| fl)

/-- `sat40` (R79, R91). -/
def sat40 (x : Int) : Nat × Nat :=
  if x < -(2 ^ 39) then (2 ^ 39, fSAT) else if 2 ^ 39 ≤ x then (2 ^ 39 - 1, fSAT) else (ofInt 40 x, 0)

/-- One chunk sum enters an INT40 element (R91). -/
def intStep (acc : Nat × Nat) (v : Int) : Nat × Nat :=
  let (x, fl) := sat40 (toSigned 40 acc.1 + v)
  (x, acc.2 ||| fl)

/-- An element of an FP40 product, with the scales of its row and column by chunk. -/
def fpElem (k acc : Nat) (as bs : List FVal) (sa sb : List FVal) : Nat × Nat :=
  (fromTo 0 (ceilDiv k 32)).foldl (fun x c =>
    fpStep x (chunkSum (chunkOf as c) (chunkOf bs c) (sa.getD c (scaleVal 127)) (sb.getD c (scaleVal 127)))) (acc, 0)

/-- An element of an INT40 product. -/
def intElem (k acc : Nat) (op : Int → Int → Int) (as bs : List Int) : Nat × Nat :=
  (fromTo 0 (ceilDiv k 32)).foldl (fun x c =>
    intStep x ((List.zipWith op (chunkOf as c) (chunkOf bs c)).foldl (· + ·) 0)) (acc, 0)

/-- The scales of a line of the scale operand, by chunk (R375). -/
def scalesOf (k x : Nat) : List FVal := (fromTo 0 (ceilDiv k 32)).map fun c => scaleVal (x / 256 ^ c % 256)

/-- A product accumulated in FP40. -/
def fpProduct (c : MCtx) (a m n k : Nat) (ea eb : MatElem) (la lb ls : List Nat) : List (Nat × Nat × Nat × Nat) :=
  let as := la.map (fpLine ea k)
  let bs := lb.map (fpLine eb k)
  let ss := ls.map (scalesOf k)
  region m n fun i j => fpElem k (c.elem a i j) (as.getD i []) (bs.getD j []) (ss.getD i []) (ss.getD (m + j) [])

/-- A product accumulated in INT40. -/
def intProduct (c : MCtx) (a m n k : Nat) (e : MatElem) (op : Int → Int → Int) (la lb : List Nat) :
    List (Nat × Nat × Nat × Nat) :=
  let as := la.map (intLine e k)
  let bs := lb.map (intLine e k)
  region m n fun i j => intElem k (c.elem a i j) op (as.getD i []) (bs.getD j [])

/-- The operands of a product: A, B and the scales. -/
def productUses (c : MCtx) (m n k : Nat) (ea eb : MatElem) : List MUse :=
  [{ t := opNumD c.f.a, kinds := [1, 2, 3], lines := m, lineBytes := k * ea.width / 8 },
   { t := opNumD c.f.b, kinds := [1, 2], lines := n, lineBytes := k * eb.width / 8 }] ++
  match opNum c.f.c with
  | some t => [{ t := t, kinds := [1], lines := m + n, lineBytes := k / 32 }]
  | none => []

/-- The lines of operand number n of a list. -/
def useLines (c : MCtx) (s : State) (us : List MUse) (n : Nat) : List Nat := ((us.drop n).head?.map (c.linesOf s)).getD []

/-- `.balt` with a type that has no other format, or a scale operand for a type without scales (R375, R378). -/
def mmaShapeBad (f : Fields) (e : MatElem) : Bool :=
  (f.bit51 && !([.e4m3, .e5m2] : List Ty).contains f.ty) || ((opNum f.c).isSome && !scalable e)

def execMma (f : Fields) (s : State) :=
  runStream (.mma f) f s fun c s =>
    let ea := mmaElem f
    let eb := if f.bit51 then otherFp8 ea else ea
    let k := mmaK f ea
    let m := shapeM f
    let n := shapeN f
    let us := productUses c m n k ea eb
    if mmaShapeBad f ea then .trap s { cause := .matrixShape }
    else withReads c s us fun s =>
      let a := opNumD f.dst
      let fp : Bool := (opNum f.c).isSome || match ea with
        | .fp _ => true
        | _ => false
      .done (writeTile c s a (
        if fp then fpProduct c a m n k ea eb (useLines c s us 0) (useLines c s us 1) (useLines c s us 2)
        else intProduct c a m n k ea (· * ·) (useLines c s us 0) (useLines c s us 1)))

/-- The term of a binary product. -/
def binTerm (and : Bool) (a b : Int) : Int := if and then (if a = 1 ∧ b = 1 then 1 else 0) else (if a = b then 0 else 1)

def execMmb (f : Fields) (s : State) :=
  runStream (.mmb f) f s fun c s =>
    let k := mmaK f .bin
    let m := shapeM f
    let n := shapeN f
    let us := productUses c m n k .bin .bin
    withReads c s us fun s =>
      let a := opNumD f.dst
      .done (writeTile c s a (intProduct c a m n k .bin (binTerm f.bit51) (useLines c s us 0) (useLines c s us 1)))

/-! ### Descriptors (R380) -/

/-- A descriptor takes a value. -/
def putDesc (c : MCtx) (s : State) (t x : Nat) : State :=
  s.modSeq c.tid fun q => { q with tdesc := tput 0 q.tdesc t (BitVec.ofNat 128 x) }

def execTdef (f : Fields) (s : State) :=
  runStream (.tdef f) f s fun c s =>
    let t := opNumD f.dst
    let w := f.imm13.toNat % 4
    .done (putDesc c s t (setBits (c.desc t) (32 * w + 31) (32 * w) f.imm32.toNat))

def execTld (f : Fields) (s : State) :=
  runStream (.tld f) f s fun c s =>
    let off := f.imm32.toNat
    let lines := touchedUnits (c.t.scratchBase + off) 16 128
    if off % 16 ≠ 0 then .trap s { cause := .misaligned }
    else if off + 16 > c.t.scratchSize then .trap s { cause := .localBounds }
    else if lines.any (fun l => tget 0 (s.core c.t.core).absent l != 0) then .wait s
    else if lines.any (s.core c.t.core).scratchBad.contains then .trap s { cause := .poison }
    else .done (putDesc c s (opNumD f.dst) (ofBytes (scratchBytes s c.t.core (c.t.scratchBase + off) 16)))

/-! ### Tiles to and from scratchpad (R381 to R384) -/

def execAzero (f : Fields) (s : State) :=
  runStream (.azero f) f s fun c s =>
    let a := opNumD f.dst
    .done (s.modSeq c.tid fun q => { q with acc := q.acc.filter fun x => x.1 / 4096 != a })

/-- Bytes of an element in scratchpad (R381, R382). -/
def elemBytes : Ty → Nat
  | .f32 | .s32 => 4
  | .f16 | .bf16 => 2
  | .e4m3 | .e5m2 => 1
  | _ => 8

/-- An element as `ald` converts it. -/
def loadElem (t : Ty) (x : Nat) : Nat × Nat :=
  match t with
  | .f32 => packF fmtF40 .rne (unpackF fmtF32 x)
  | .s32 => (ofInt 40 (toSigned 32 x), 0)
  | _ => (x % 2 ^ 40, 0)

def execAld (f : Fields) (s : State) :=
  runStream (.ald f) f s fun c s =>
    let z := elemBytes f.ty
    let m := shapeM f
    let n := shapeN f
    let u : MUse := { t := opNumD f.a, kinds := [1], lines := m, lineBytes := n * z }
    withReads c s [u] fun s =>
      let ls := c.linesOf s u
      .done (writeTile c s (opNumD f.dst) (region m n fun i j =>
        loadElem f.ty (ls.getD i 0 / 2 ^ (8 * z * j) % 2 ^ (8 * z))))

/-- An element as `ast` converts it (R382): `.f40` and `.i40` are copied in the pair layout of R80. -/
def storeElem (int : Bool) (t : Ty) (r : Rnd) (x : Nat) : Nat × Nat :=
  let v := toSigned 40 x
  if int then
    match t with
    | .s32 => if v < -(2 ^ 31) then (2 ^ 31, fSAT) else if 2 ^ 31 ≤ v then (2 ^ 31 - 1, fSAT) else (ofInt 32 v, 0)
    | .f32 => packF fmtF32 r (FVal.ofInt v)
    | _ => (ofInt 64 v, 0)
  else match t with
    | .f40 => (x, 0)
    | t => match fmtOf t with
      | some m => packF m r (unpackF fmtF40 x)
      | none => (x, 0)

def execAst (f : Fields) (s : State) :=
  runStream (.ast f) f s fun c s =>
    let z := elemBytes f.ty
    let m := shapeM f
    let n := shapeN f
    let a := opNumD f.a
    let u : MUse := { t := opNumD f.dst, kinds := [1], lines := m, lineBytes := n * z }
    withWrite c s u fun _ =>
      let rows := (fromTo 0 m).map fun i => (i, (fromTo 0 n).map fun j => storeElem f.opt f.ty f.rnd (c.elem a i j))
      let flags := rows.foldl (fun x r => r.2.foldl (fun x e => x ||| e.2) x) 0
      let s := rows.foldl (fun s r => writeScratch s c.t.core (c.lineAt u r.1) (r.2.flatMap fun e => toBytes z e.1)) s
      .done (s.modSeq c.tid fun q => raiseMat q flags)

def execAstStat (f : Fields) (s : State) :=
  runStream (.astStat f) f s fun c s =>
    let u : MUse := { t := opNumD f.dst, kinds := [1], lines := 1, lineBytes := 8, pitched := false }
    withWrite c s u fun _ =>
      if anyLatchPending s c then .wait s
      else
        let s := writeScratch s c.t.core (c.lineAt u 0) (toBytes 8 c.q.status.toNat)
        .done (s.modSeq c.tid fun q => { q with status := 0 })

/-- One element scaled (R384). -/
def scaleElem (r : Rnd) (x : Nat) (f : FVal) : Nat × Nat := packF fmtF40 r (mulF (unpackF fmtF40 x) f)

def execAscl (f : Fields) (s : State) :=
  runStream (.ascl f) f s fun c s =>
    let m := shapeM f
    let a := opNumD f.dst
    let u : MUse := { t := opNumD f.a, kinds := [1], lines := 1, lineBytes := 4 * m, pitched := false }
    withReads c s [u] fun s =>
      let x := c.line s u 0
      .done (writeTile c s a (region m (shapeN f) fun i j =>
        scaleElem f.rnd (c.elem a i j) (unpackF fmtF32 (x / 2 ^ (32 * i) % 2 ^ 32))))

/-! ### Barriers, loops and the end (R386 to R389) -/

/-- The sequencer's arrival at a matrix barrier (R387, R389), and whether the phase it arrived in has completed. -/
def seqArrive (c : MCtx) (s : State) (n code : Nat) : State :=
  let b := c.t.matBarrier n
  let b := ({ b with seqArrived := true, seqCode := code }).settleMat c.t.streamLive (liveGroups s c.tid)
  settleArrivals (s.setTeam c.tid (c.t.setMatBarrier n b)) c.tid

/-- An arrival waits for the accesses of earlier instructions, and for the phase in which it has arrived already. -/
def arrivalHeld (c : MCtx) (s : State) (n : Nat) : Bool := anyLatchPending s c || (c.t.matBarrier n).seqArrived

def execMsig (f : Fields) (s : State) :=
  runStream (.msig f) f s fun c s =>
    let n := opNumD f.dst
    if arrivalHeld c s n then .wait s else .done (seqArrive c s n (f.imm13.toNat % 256))

def execMwait (f : Fields) (s : State) :=
  runStream (.mwait f) f s fun c s =>
    let n := opNumD f.dst
    if arrivalHeld c s n then .wait s
    else
      let phase := (c.t.matBarrier n).phase
      .done ((seqArrive c s n (f.imm13.toNat % 256)).modSeq c.tid fun q => { q with state := .waitPhase n phase })

/-- A loop counter after `mloop`, and whether the loop goes round again (R386). -/
def loopStep (l : Loop) (n : Nat) : Loop × Bool :=
  let rem := (if l.active then l.rem else n) - 1
  if rem > 0 then ({ active := true, rem := rem, it := (l.it + 1) % 2048 }, true) else ({ active := false, rem := 0, it := 0 }, false)

def execMloop (f : Fields) (s : State) :=
  runStream (.mloop f) f s fun c s =>
    let k := f.imm13.toNat % 4
    let (l, again) := loopStep (tget {} c.q.loops k) (f.imm13.toNat / 4 + 1)
    let s := s.modSeq c.tid fun q => { q with loops := tput {} q.loops k l }
    .goto s (if again then c.q.pc + sext32 f.imm32 * 4 else c.q.pc + 16)

def execMend (f : Fields) (s : State) :=
  runStream (.mend f) f s fun c s =>
    if anyLatchPending s c then .wait s
    else
      let s := s.modSeq c.tid fun q => { q with state := .ended }
      .done (settleTeam (recountBarriers s c.tid) c.tid)

/-! ### `row.con` (R385) -/

/-- The row a kind-3 descriptor names. -/
def conRow (c : MCtx) (s : State) (t : Nat) : Option RowAt :=
  let e := c.effective t
  if e < 0 then none else rowAtOf s c.t.core (ctxOfTeam s c.t) (bits (c.desc t) 5 0) e.toNat

/-- A consume into a latch is accepted. -/
def acceptCon (c : MCtx) (s : State) (x : RowAt) (t : Nat) : State :=
  let (op, s) := s.newId
  let o : RowOp := { bank := x.bank, row := x.row, write := false, gid := 0, op := op, team := c.tid, latch := some t }
  let s := tryDelivery (s.modCore c.t.core fun k => { k with rowOps := tins k.rowOps op o }) c.t.core op
  s.modSeq c.tid fun q => { q with conMiss := 0, conOpen := false }

/-- The row was not open: the plain form, and the fifth failure of `.chk`, raise 0x08; otherwise LOST counts it and the
sequencer is to activate the row. -/
def conLost (c : MCtx) (s : State) (x : RowAt) : MRes :=
  if !c.f.opt ∨ c.q.conMiss ≥ 4 then
    .trap (s.modSeq c.tid fun q => { q with conMiss := 0, conOpen := false }) { cause := .rowLost, aux := x.aux }
  else .wait (s.modSeq c.tid fun q =>
    { q with
      conMiss := q.conMiss + 1, conOpen := true
      status := BitVec.ofNat 64 (setBits q.status.toNat 47 32 (Nat.min (bits q.status.toNat 47 32 + 1) 0xFFFF)) })

/-- The activate of `row.con.chk`, as `row.act.cls` (R270): accepted now, or still to come. A row that is open already is not
activated (R391). -/
def conActivate (c : MCtx) (s : State) (x : RowAt) : MRes :=
  let core := c.t.core
  let opened (s : State) : State := s.modSeq c.tid fun q => { q with conOpen := false }
  match ((s.bank core x.bank).view).held with
  | some r => .wait (if r = x.row then opened s else wantClose s core x.bank)
  | none =>
    if !x.obj.moving ∧ canActivate s s.fresh core x.bank then
      .wait ((opened (acceptActivate s core x.bank x.row)).modTeam c.tid fun t => { t with restartable := false })
    else .wait s

def execRowCon (f : Fields) (s : State) :=
  runStream (.rowCon f) f s fun c s =>
    let t := opNumD f.dst
    let u : MUse := { t := t, kinds := [3], lines := 1, lineBytes := 2048 }
    match useCause c s [u] with
    | some e => .trap s e
    | none => match conRow c s t with
      | none => .trap s { cause := .localBounds }
      | some x =>
        if latchPending s c t then .wait s
        else if c.q.conOpen then conActivate c s x
        else match consumeAt s c.t.core x with
          | .ready => .done (acceptCon c s x t)
          | .wait => .wait s
          | .lost => conLost c s x

end Sys2Proof.Machine
end

