-- ==== Sys2Proof/Machine/Predicates.lean ====
section
/-!
DEFINITION. Predicate instructions (R125 to R128) and ray intersection (R129 to R132).
-/
namespace Sys2Proof.Machine
open Sys2Proof

/-! ### Predicates -/

/-- `plop`: the bit of the table that the three predicates select (R125). -/
def execPlop (f : Fields) (s : State) :=
  runGroup (.plop f) f s fun c s => aluOp c s fun l =>
    (b2n (bit f.imm13.toNat (4 * (c.srcA l % 2) + 2 * (c.srcB l % 2) + c.srcC l % 2)), 0)

/-- `pmov` (R126). -/
def execPmov (f : Fields) (s : State) :=
  runGroup (.pmov f) f s fun c s => aluOp c s fun l => (b2n (c.srcA l % 2 ^ 32 != 0), 0)

/-- The number of a predicate operand. -/
def predNum : Operand → Nat
  | .p n => n.val
  | _ => 0

/-- Predicates N to N + 31 of a lane as a word; those above p47 read 0 (R127). -/
def predWord (t : Thread) (n l : Nat) : Nat :=
  (fromTo 0 32).foldl (fun x i => if n + i < 48 ∧ predBit t (n + i) l then x + 2 ^ i else x) 0

/-- `pbits.get` (R127). -/
def execPbitsGet (f : Fields) (s : State) :=
  runGroup (.pbitsGet f) f s fun c s => aluOp c s fun l => (predWord c.t (predNum f.a) l, 0)

/-- Predicates N + i take bit i of a word where the mask has bit i (R127). -/
def setPredWord (t : Thread) (n l x m : Nat) : Thread :=
  (fromTo 0 32).foldl (fun t i => if n + i < 48 ∧ bit m i then setPred t (n + i) l (bit x i) else t) t

/-- `pbits.set` (R127). -/
def execPbitsSet (f : Fields) (s : State) :=
  runGroup (.pbitsSet f) f s fun c s =>
    .done (setThreadOf s c.gid
      (c.lanes.foldl (fun t l => setPredWord t (predNum f.dst) l (c.srcA l) (c.srcB l)) c.t))

/-- `pset` (R128). -/
def execPset (f : Fields) (s : State) :=
  runGroup (.pset f) f s fun c s => aluOp c s fun l =>
    let b := c.srcB l % 2 ^ 32
    let x := (c.srcA l % 2 ^ 32) &&& b
    (b2n (match f.lowFam with
      | 0 => x != 0
      | 1 => x == b
      | _ => x == 0), 0)

/-! ### Boxes (R130) -/

/-- Word j of a block. -/
def blockWord (x j : Nat) : Nat := x / 2 ^ (32 * j) % 2 ^ 32
/-- Word j of a block as an FP32 value. -/
def blockF (x j : Nat) : FVal := unpackF fmtF32 (blockWord x j)

def maxF (a b : FVal) : FVal := if a.lt b then b else a
def minF (a b : FVal) : FVal := if b.lt a then b else a
/-- A value rounded into FP32 in a mode. -/
def round32 (mode : Rnd) (x : FVal) : FVal := unpackF fmtF32 (packF fmtF32 mode x).1

/-- One axis of a box: the limits after it, from those before. A side that is 0 × ∞ sets no limit, whatever the other is; where
∞ − ∞ leaves x1 or x2 without a value, the limits are free ones (log entry 9). DESIGN CHOICE, log entry 9. -/
def boxAxis (key : Nat) (lo hi o id tn tf : FVal) : FVal × FVal :=
  let d1 := sumF .rne [lo, o.negate]
  let d2 := sumF .rne [hi, o.negate]
  let x1 := mulF d1 id
  let x2 := mulF d2 id
  if (!d1.isNan && x1.isNan) || (!d2.isNan && x2.isNan) then (tn, tf)
  else if d1.isNan || d2.isNan then
    (unpackF fmtF32 (Config.sfuChoice 0x59 (2 * key) % 2 ^ 32), unpackF fmtF32 (Config.sfuChoice 0x59 (2 * key + 1) % 2 ^ 32))
  else (maxF tn (round32 .rd (minF x1 x2)), minF tf (round32 .ru (maxF x1 x2)))

/-- Box j of a block against a ray: whether it is hit, and its entry distance. -/
def boxHit (ray boxes j : Nat) : Bool × FVal :=
  let r := fun i => blockF ray i
  let b := fun i => blockF boxes (6 * j + i)
  let ok := (fromTo 0 8).all (fun i => !(r i).isNan) && (fromTo 0 6).all (fun i => !(b i).isNan)
  let ordered := (fromTo 0 3).all fun k => !(b (3 + k)).lt (b k)
  if !ok then (false, .fin false 0 0)
  else
    let lim := (fromTo 0 3).foldl (fun (lim : FVal × FVal) k =>
      boxAxis (ray + 2 ^ 256 * (boxes / 2 ^ (192 * j) % 2 ^ 192)) (b k) (b (3 + k)) (r k) (r (4 + k)) lim.1 lim.2) (r 3, r 7)
    let bad := lim.1.isNan || lim.2.isNan
    (ordered && !bad && !lim.2.lt lim.1, lim.1)

/-- The result word of `xbox` (R130). -/
def boxResult (ray boxes : Nat) : Nat :=
  let hs := (fromTo 0 4).map fun j => (j, boxHit ray boxes j)
  let hits := hs.filter fun x => x.2.1
  let order := (sortBy (fun a b => a.2.2.lt b.2.2) hits ++ hs.filter fun x => !x.2.1).map fun x => x.1
  let mask := hits.foldl (fun m x => m + 2 ^ x.1) 0
  let idx := packNat (order.map fun j => (2, j))
  mask + 2 ^ 8 * idx + 2 ^ 16 * hits.length

/-- `xbox` (R130). -/
def execXbox (f : Fields) (s : State) :=
  runGroup (.xbox f) f s fun c s => aluOp c s fun l => (boxResult (c.srcA l) (c.srcB l), 0)

/-! ### Triangles (R131, R132) -/

def FVal.isFin : FVal → Bool
  | .fin _ _ _ => true
  | _ => false

/-- round_rne(a / b) into FP32 for finite a and b ≠ 0, the sign of the quotient that of the operands. DESIGN CHOICE, log entry 66. -/
def divF (a b : FVal) : Nat :=
  match a, b with
  | .fin n m e, .fin n' m' e' =>
    let (p, q) := fracOf m (e - e')
    (roundRat fmtF32 .rne (n != n') p (q * m')).1
  | _, _ => fmtF32.nanBits

/-- A vertex in the ray's frame: round_rne(q[kx] − sx × q[kz]), the same for y, and round_rne(sz × q[kz]). -/
def vertexOf (q : Nat → FVal) (kx ky kz : Nat) (sx sy sz : FVal) : FVal × FVal × FVal :=
  (round32 .rne (sumF .rne [q kx, (mulF sx (q kz)).negate]), round32 .rne (sumF .rne [q ky, (mulF sy (q kz)).negate]),
   round32 .rne (mulF sz (q kz)))

/-- An edge function, exact. -/
def edgeF (ax ay bx byy : FVal) : FVal := sumF .rne [mulF ax byy, (mulF ay bx).negate]

def FVal.sgn (x : FVal) : Int := if x.isZero then 0 else if x.isNeg then -1 else 1

/-- The result block of `xtri`: t, u, v, flags (R131, R132). -/
def triResult (cull : Bool) (ray tri : Nat) : Nat :=
  let miss := 0x7F800000
  let r := fun i => blockF ray i
  let v := fun (p i : Nat) => blockF tri (4 * p + i)
  let fin := (fromTo 0 8).all (fun i => (r i).isFin) && (fromTo 0 3).all fun p => (fromTo 0 3).all fun i => (v p i).isFin
  let dir := fun k => r (4 + k)
  let mag := fun k => if (dir k).isNeg then (dir k).negate else dir k
  if !fin ∨ ((dir 0).isZero && (dir 1).isZero && (dir 2).isZero) then miss
  else
    let k01 := if (mag 0).lt (mag 1) then 1 else 0
    let kz := if (mag k01).lt (mag 2) then 2 else k01
    let flip := (dir kz).isNeg
    let kx := if flip then (kz + 2) % 3 else (kz + 1) % 3
    let ky := if flip then (kz + 1) % 3 else (kz + 2) % 3
    let sx := unpackF fmtF32 (divF (dir kx) (dir kz))
    let sy := unpackF fmtF32 (divF (dir ky) (dir kz))
    let sz := unpackF fmtF32 (divF (.fin false 1 0) (dir kz))
    let vert := fun p => vertexOf (fun k => round32 .rne (sumF .rne [v p k, (r k).negate])) kx ky kz sx sy sz
    let (ax, ay, az) := vert 0
    let (bx, by', bz) := vert 1
    let (cx, cy, cz) := vert 2
    if !([ax, ay, az, bx, by', bz, cx, cy, cz].all FVal.isFin) then miss
    else
      let u := edgeF cx cy bx by'
      let w := edgeF bx by' ax ay
      let vv := edgeF ax ay cx cy
      let det := sumF .rne [u, vv, w]
      let signs := [u.sgn, vv.sgn, w.sgn]
      if det.isZero ∨ !(signs.all (fun x => decide (0 ≤ x)) || signs.all fun x => decide (x ≤ 0)) then miss
      else
        let tb := divF (sumF .rne [mulF u az, mulF vv bz, mulF w cz]) det
        let t := unpackF fmtF32 tb
        if t.lt (r 3) || (r 7).lt t || (cull && det.isNeg) then miss
        else tb + 2 ^ 32 * divF vv det + 2 ^ 64 * divF w det + 2 ^ 96 * (1 + 2 * b2n det.isNeg)

/-- `xtri` (R131, R132). -/
def execXtri (f : Fields) (s : State) :=
  runGroup (.xtri f) f s fun c s => aluOp c s fun l => (triResult f.opt (c.srcA l) (c.srcB l), 0)

end Sys2Proof.Machine
end

