-- ==== Sys2Proof/Machine/Due.lean ====
section
/-!
DEFINITION. The machine's own steps that fall due in a clock. Each step looks again at its own condition when its turn comes;
what stands here is only when its turn is set out.
-/
namespace Sys2Proof.Machine
open Sys2Proof

/-- A step is set out under a condition. -/
def dueIf (b : Bool) (i : Instr) : List Instr := if b then [i] else []

/-! ### Time (R436 to R439) -/

def dueFront (s : State) (fe : Nat) : List Instr := dueIf (decide (s.clock ≥ (s.front fe).nextSlice)) (.sliceBoundary fe)

def dueBudget (k : Nat × Core) : List Instr :=
  k.2.residents.flatMap fun r => dueIf (decide (r.2.balance ≤ 0) && !r.2.spent) (.budgetExhausted k.1 r.1)

def dueTimer (c : Nat × Context) : List Instr := dueIf (c.2.timerCmp != 0 && decide (c.2.ctime ≥ c.2.timerCmp)) (.timer c.1)

/-! ### Groups -/

/-- A group with nothing left to run. -/
def emptied (g : Group) : Bool := g.main.frontier.isEmpty && g.handler.isNone && g.stalled.isNone && g.restore.isNone && !g.out

/-- What a parked group waits for that ends in a step of its own (R205, R207, R234, R419). -/
def duePark (s : State) (gid : Nat) (g : Group) : Park → List Instr
  | .presence core line => dueIf (tget 0 (s.core core).absent line == 0) (.presenceUnpark gid)
  | .arrived 1 _ _ _ => [.clusterBarrierResume gid]
  | .token 1 _ _ => [.clusterBarrierResume gid]
  | .call _ _ _ => dueIf (s.clock % 1024 == 0 && !g.out) (.callReplyPoll gid)
  | .grow _ _ _ => [.registerGrowRetry g.core g.slice g.ctx]
  | _ => []

def dueGroup (s : State) (x : Nat × Group) : List Instr :=
  dueIf (x.2.kind != .spindle && decide (x.2.idle ≥ 2 * sliceLen s x.2.ctx)) (.watchdog x.1) ++
  dueIf (x.2.step == 2) (.stepTrap x.1) ++
  dueIf (x.2.stalled.isSome || x.2.restore.isSome) (.frameStoreGrant x.1) ++
  (match x.2.park with
    | some p => duePark s x.1 x.2 p
    | none => []) ++
  dueIf (emptied x.2 && groupIdle x.2) (.groupRetire x.1)

/-! ### Results, stores and crossing writes (R28, R144, R304, R349, R486) -/

/-- Die and number of an agent at its switch. -/
def switchOf (agent : Nat) : Nat × Nat := if agent < 192 then (agent / 48, agent % 48) else (4, agent - 192)

def dueWrites (s : State) : List Instr :=
  (s.pends.flatMap fun p => dueIf (resultDue s p.2) (.asyncWriteLand p.1)) ++
  (s.stores.flatMap fun p =>
    dueIf (p.2.writes.any (writeStale s)) (.generationDrop p.1) ++ dueIf (storeDue s p.2) (.storePerform p.1)) ++
  (s.fences.map fun a => Instr.writeAck (switchOf a.1).1 (switchOf a.1).2) ++
  (s.heldRel.map fun a => Instr.releaseForward (switchOf a.1).1 (switchOf a.1).2)

/-! ### Columns (R270 to R285) -/

def dueBank (s : State) (core : Nat) (x : Nat × Bank) : List Instr :=
  (match x.2.phase with
    | some (.opening _ t) => dueIf (decide (t ≤ s.clock)) (.rowReady core x.1)
    | some (.open _) => dueIf (decide (x.2.actAt + 48000 ≤ s.clock)) (.rowForcedClose core x.1)
    | some (.closing _ t) => dueIf (decide (t ≤ s.clock)) (.bankFree core x.1)
    | some (.refreshing t) => dueIf (decide (t ≤ s.clock)) (.bankFree core x.1)
    | none => []) ++
  dueIf x.2.closeWanted (.closeStart core x.1)

/-- The banks of a core whose refresh is due. -/
def dueRefresh (s : State) (k : Nat × Core) : List Instr :=
  (fromTo 0 64).flatMap fun b => dueIf (decide (s.clock ≥ nextRefresh k.2 b)) (.refreshOperation k.1 b)

/-- Groups that wait for a bank of a core to take their activate. DESIGN CHOICE, log entry 26. -/
def dueActivates (s : State) (core : Nat) : List Instr :=
  (dedup (s.groups.filterMap fun x => match x.2.park with
    | some (.activate c b _) => if c = core then some b else none
    | _ => none)).map fun b => .activateAccept core b

/-- The idle banks of a core whose patrol scrub is due (R283). -/
def dueScrub (s : State) (k : Nat × Core) : List Instr :=
  (fromTo 0 64).flatMap fun b =>
    let x := k.2.bank b
    dueIf (x.phase.isNone && decide (scrubDue b x.scrubs ≤ s.clock)) (.patrolScrub k.1 b (x.scrubs % 4096))

/-- The layers of a core whose window is over (R282). DESIGN CHOICE, log entry 24. -/
def dueWindows (s : State) (k : Nat × Core) : List Instr :=
  (fromTo 0 4).flatMap fun n =>
    dueIf (decide ((k.2.layer n).windowEnd ≤ s.clock)) (.refreshIntervalStep k.1 n (k.2.layer n).celsius)

/-- DESIGN CHOICE, log entry 26. -/
def dueColumn (s : State) (work : Bool) (k : Nat × Core) : List Instr :=
  (match k.2.retrainEnd with
    | some t => dueIf (decide (t ≤ s.clock)) (.retrainingEnd k.1)
    | none => dueIf (decide (s.clock ≥ k.2.retrainAt)) (.retraining k.1)) ++
  k.2.banks.flatMap (dueBank s k.1) ++
  (k.2.rowOps.flatMap fun o => match o.2.started with
    | none => [.rowDelivery k.1 o.1]
    | some t => dueIf (decide (t + 10 ≤ s.clock)) (.rowDataLand k.1 o.1)) ++
  dueRefresh s k ++
  (if work then dueActivates s k.1 else []) ++
  dueScrub s k ++ dueWindows s k

/-! ### Engines -/

def dueReel (s : State) (k : Nat × Core) : List Instr :=
  ((fromTo 0 4).flatMap fun ch => dueIf (recordDue s k.1 ch) (.reelRecord k.1 ch)) ++
  dueIf (decide (s.clock ≥ k.2.reelFree) && (pickChannel s k.1).isSome) (.reelChunk k.1)

def dueSpindle (work : Bool) (k : Nat × Core) : List Instr :=
  (k.2.spindle.flatMap fun q => dueIf (q.2.ending.isSome || !q.2.reports.isEmpty || !q.2.halts.isEmpty) (.spindleJobEnd k.1 q.1)) ++
  dueIf (work && k.2.spindle.any fun q => q.2.running) (.spindleIssue k.1)

/-- A team whose last group has retired with bins still to be made ready (R363). DEDUCED, log entry 58. -/
def flushDue (s : State) (x : Nat × Team) : Bool :=
  !x.2.retired && !x.2.saved && liveGroups s x.1 == 0 && (s.core x.2.core).deposits.any fun d => d.team == x.1

def dueCarder (s : State) (k : Nat × Core) : List Instr :=
  dueIf (!k.2.ready.isEmpty) (.carderLaunch k.1) ++
  (s.teams.filter fun t => t.2.core == k.1).flatMap fun t => dueIf (flushDue s t) (.carderAutoFlush t.1)

/-! ### Front ends (R218 to R227) -/

def dueQueue (fe : Nat) (q : Nat × Queue) : List Instr :=
  dueIf ((q.2.space && ringPending q.2 && decide (q.1 < 8)) || !q.2.finished.isEmpty) (.ringSlotRead fe q.1) ++
  dueIf (if q.1 < 8 then ringPending q.2 else !q.2.posts.isEmpty) (.packetAccept fe q.1)

def dueGrid (s : State) (x : Nat × Grid) : List Instr :=
  dueIf (x.2.state == .waiting && x.2.pkt.dep != 0 && !x.2.depMet && s.clock % 1024 == 0) (.dependencePoll x.1) ++
  dueIf (x.2.state == .waiting && depsHold s x.2) (.gridBegin x.1) ++
  dueIf (!x.2.blocking && match x.2.failedAt with
    | some t => decide (s.clock ≥ t + 1048576)
    | none => false) (.gridBlocking x.1) ++
  dueIf (gridDone s x.1 x.2) (.gridComplete x.1)

def duePlace (s : State) (x : Nat × FrontEnd) : List Instr :=
  x.2.queues.flatMap (dueQueue x.1) ++
  if s.clock ≥ x.2.freeAt ∧ !(readyGrids s x.1).isEmpty then [.coresidentPlace x.1, .clusterPlace x.1] else []

/-! ### Saving and resuming (R443, R447) -/

def dueSave (s : State) : List Instr :=
  (s.teams.flatMap fun t => dueIf (!t.2.saved && teamLeft s t.1) (.teamSave t.1)) ++
  (s.clusters.flatMap fun c => dueIf (resumes s c.1) (.clusterResume c.1))

/-! ### The tier engine (R246, R450) -/

/-- A group of a core waits for a fault slot. -/
def slotWanted (s : State) (core : Nat) : Bool := s.groups.any fun x => match x.2.park with
  | some (.faultSlot k _) => k == core
  | _ => false

def dueMoves (s : State) : List Instr :=
  (s.cores.flatMap fun k => dueIf (!k.2.faults.isEmpty || slotWanted s k.1) (.pageFaultService k.1)) ++
  (s.ctxs.flatMap fun c => dueIf (!c.2.wsFound.isEmpty || (c.2.state == 2 && waitsResid s c.1)) (.incomingMove c.1)) ++
  (s.ctxs.flatMap fun c => if c.2.leftCores then
    (((leavesOf s c.1).find? outgoing).map fun x => Instr.pageMove c.1 x.1 1).toList else [])

/-! ### The throttle (R515) -/

/-- The island of a core. -/
def islandOf (core : Nat) : Nat := 12 * coreDie core + core % 48 / 4

/-- The cores of an island issue work in this clock. DESIGN CHOICE, log entry 56. -/
def worksNow (s : State) (core : Nat) : Bool := decide (s.clock % 16 < (s.island (islandOf core)).duty)

/-! ### All of them -/

/-- The steps of the machine that fall due in this clock, in the order in which they are taken. DESIGN CHOICE, log entry 1. -/
def dueEvents (s : State) : List Instr :=
  (fromTo 0 16).flatMap (dueFront s) ++
  s.cores.flatMap dueBudget ++
  s.ctxs.flatMap dueTimer ++
  (s.islands.flatMap fun i => match i.2.upAt with
    | some t => dueIf (decide (t ≤ s.clock)) (.islandPowerUpDone (i.1 / 12) (i.1 % 12))
    | none => []) ++
  s.cores.flatMap (fun k => dueColumn s (worksNow s k.1) k) ++
  dueWrites s ++
  s.cores.flatMap (dueReel s) ++
  s.cores.flatMap (fun k => dueSpindle (worksNow s k.1) k) ++
  s.cores.flatMap (dueCarder s) ++
  (s.encoders.flatMap fun e => dueIf (!e.2.queue.isEmpty) (.encodeFrame e.1)) ++
  dueMoves s ++
  s.groups.flatMap (dueGroup s) ++
  dueSave s ++
  s.grids.flatMap (dueGrid s) ++
  s.fronts.flatMap (duePlace s)

end Sys2Proof.Machine
end

