-- ==== Sys2Proof/Machine/Clock.lean ====
section
/-!
DEFINITION. One clock of the module: the clock itself, context time, balances and watchdog counts (R435 to R438), and
what falls due in it.
-/
namespace Sys2Proof.Machine
open Sys2Proof

/-- A context runs on a core: resident, ungated, with a bound group there (R433). DEDUCED, log entry 65. -/
def runsOn (s : State) (core ctx : Nat) : Bool :=
  !gatedOn s core ctx && s.groups.any fun x => x.2.core == core && x.2.ctx == ctx && x.2.kind != .spindle && !x.2.out

/-- Context time advances where the context runs on some core (R435). DEDUCED, log entry 65. -/
def tickContexts (s : State) : Table Context :=
  s.ctxs.map fun x =>
    if (s.cores.any fun k => runsOn s k.1 x.1) then (x.1, { x.2 with ctime := x.2.ctime + 1 }) else x

/-- Work a context had issued on a core still runs (R437): results and stores on their way, a chunk of a record. DEDUCED, log entry 65. -/
def inFlight (s : State) (core ctx : Nat) : Bool :=
  (s.pends.any fun p => ((s.group p.2.gid).map fun g => g.core == core && g.ctx == ctx).getD false) ||
  (s.stores.any fun p => p.2.core == core && p.2.ctx == ctx) ||
  (decide ((s.core core).reelFree > s.clock) &&
    (((s.core core).current (s.core core).reelLast).map fun c => c.running && c.ctx == ctx).getD false)

/-- The balance of a resident context falls where the context runs, and after its budget has gated it until the work already
issued ends (R437). DEDUCED, log entry 65. -/
def tickResident (s : State) (core : Nat) (r : Resident) : Resident :=
  if runsOn s core r.ctx || (r.spent && decide (s.clock < r.spentAt + 2048) && inFlight s core r.ctx)
  then { r with balance := r.balance - 1 } else r

/-- What the service firmware and `ctx.gate.yield` have gated or ungated in a clock holds from the next (R433). DEDUCED, log entry 65. -/
def Resident.sampled (r : Resident) : Resident := { r with gatedNow := r.gated, yieldedNow := r.yielded }

/-- Balances fall where the context runs (R437), and gates take effect (R433). -/
def tickCores (s : State) : Table Core :=
  s.cores.map fun k => (k.1, { k.2 with residents := k.2.residents.map fun r => (r.1, (tickResident s k.1 r.2).sampled) })

/-- The clocks the watchdog does not count: parked on a page fetch, a call or a save slot (R438). DEDUCED, log entry 65. -/
def idleExempt (g : Group) : Bool :=
  match g.park with
  | some (.pages _) => true
  | some (.faultSlot _ _) => true
  | some (.call _ _ _) => true
  | _ => g.out

/-- Watchdog counts rise where the context runs (R438). -/
def tickGroups (s : State) : Table Group :=
  s.groups.map fun x =>
    if runsOn s x.2.core x.2.ctx && !idleExempt x.2 then (x.1, { x.2 with idle := x.2.idle + 1 }) else x

/-- Lines leave L2 as the free choices have it: one under a key domain that is not its frame's, or a tagged one, which pushes
first (R236, R303). DESIGN CHOICE, log entry 69. -/
def evictLines (s : State) : State :=
  if s.foreign.isEmpty && s.tags.isEmpty then s
  else
    let gone (which k : Nat) : Bool := Config.freeChoice s.free (4 * k + which) % 2 == 1
    let a := ((s.foreign.map fun x => x.1).filter (gone 0)).foldl evictForeign s
    let b := ((s.tags.map fun x => x.1).filter (gone 1)).foldl (fun s l => pushLine s l 3 fun _ => true) a
    { b with free := b.free + 1 }

/-- One piece of damage to stored data: a codeword has wrong symbols, a line's check fails, no sector of a backing page can be
read. DESIGN CHOICE, log entry 25. -/
def applyUpset (s : State) : Upset → State
  | .codeword core u n => s.modCore core fun k => { k with flips := tput 0 k.flips u (tget 0 k.flips u + n) }
  | .line l => if s.crcBad.contains l then s else { s with crcBad := s.crcBad ++ [l] }
  | .backing p => { s with backingBad := s.backingBad ++ (fromTo (4096 * p) 4096).filter fun u => !s.backingBad.contains u }

/-- The damage due by now is done. -/
def applyUpsets (s : State) : State :=
  let now := s.upsets.filter fun x => decide (x.1 ≤ s.clock)
  now.foldl (fun s x => applyUpset s x.2) { s with upsets := s.upsets.filter fun x => !decide (x.1 ≤ s.clock) }

/-- One clock passes. -/
def tickTime (s : State) : State :=
  { s with clock := s.clock + 1, ctxs := tickContexts s, cores := tickCores s, groups := tickGroups s }

/-- The slices that hold groups, of the cores whose island issues in this clock (R515). DESIGN CHOICE, log entry 1. DESIGN CHOICE, log entry 56. -/
def sliceTurns (s : State) : List Turn :=
  (s.cores.filter fun k => worksNow s k.1).flatMap fun k => (fromTo 0 16).filterMap fun n =>
    if (s.groups.any fun x => x.2.core == k.1 && x.2.slice == n && x.2.kind != .spindle) then some (.slice k.1 n) else none

/-- The sequencers that run, of those cores. -/
def matrixTurns (s : State) : List Turn :=
  s.teams.filterMap fun x => match x.2.seq with
    | some q => if q.state = .ended ∨ !worksNow s x.2.core then none else some (.matrix x.1)
    | none => none

/-- The next clock begins: what completes later goes on, and its steps are set out. DESIGN CHOICE, log entry 1. -/
def tick (s : State) : State :=
  let s := evictLines (runLaters (applyUpsets (tickTime s)))
  { s with
    agenda := s.agenda ++ (dueEvents s).map Turn.event ++ sliceTurns s ++ matrixTurns s
    issuer := none, seqIssuer := none }

/-- The first input that has arrived, and the state without it. DESIGN CHOICE, log entry 59. -/
def dueInput (s : State) : Option (Instr × State) :=
  match s.inputs with
  | (at', i) :: rest => if at' ≤ s.clock then some (i, { s with inputs := rest }) else none
  | [] => none

end Sys2Proof.Machine
end

