-- ==== Sys2Proof/Machine/CrossLane.lean ====
section
/-!
DEFINITION. Cross-lane instructions (R194 to R201).
-/
namespace Sys2Proof.Machine
open Sys2Proof

/-- A cross-lane result: a scalar is written once, even when `exec` is empty; any other destination in each lane of `exec`
(R182, R191). -/
def crossThread (c : Ctx) (t : Thread) (scalar : Nat) (lane : Nat → Nat) : Thread :=
  if isScalar c.f.dst then c.wr t 0 scalar else c.lanes.foldl (fun t l => c.wr t l (lane l)) t

def crossOp (c : Ctx) (s : State) (scalar : Nat) (lane : Nat → Nat) : Res :=
  .done (setThreadOf s c.gid (crossThread c c.t scalar lane))

/-- One value for the scalar and for every lane. -/
def crossAll (c : Ctx) (s : State) (x : Nat) : Res := crossOp c s x fun _ => x

/-! ### Vote and match (R194, R195) -/

/-- A source as a truth value. -/
def truthOf (c : Ctx) (l : Nat) : Bool := c.srcA l % 2 ^ 32 != 0

/-- The value of a vote (R194). -/
def voteValue (c : Ctx) : Nat :=
  if c.exec = 0 then 0
  else match c.f.lowFam with
    | 0 => b2n (c.lanes.all (truthOf c))
    | 1 => b2n (c.lanes.any (truthOf c))
    | 2 => b2n (c.lanes.all (truthOf c) || c.lanes.all fun l => !truthOf c l)
    | _ => (maskOf (c.lanes.filter (truthOf c))).toNat

def execVote (f : Fields) (s : State) := runGroup (.vote f) f s fun c s => crossAll c s (voteValue c)

/-- The lanes of `exec` whose source equals that of lane l. -/
def sameLanes (c : Ctx) (l : Nat) : LaneMask := maskOf (c.lanes.filter fun k => c.srcA k == c.srcA l)

/-- `match` (R195). -/
def execMatchLanes (f : Fields) (s : State) :=
  runGroup (.matchLanes f) f s fun c s =>
    if f.lowFam = 0 then crossOp c s 0 fun l => (sameLanes c l).toNat
    else crossAll c s (if sameLanes c c.low = c.exec then c.exec.toNat else 0)

/-! ### Shuffle (R196) -/

/-- The selector of a lane. -/
def shflSel (c : Ctx) (l : Nat) : Nat := (if c.f.b = .zero then c.f.imm13.toNat else c.srcB l) % 128

/-- The source lane that a mode names, if it is one of the group's. -/
def shflLane (mode w l k : Nat) : Option Nat :=
  let n : Option Nat := match mode with
    | 0 => some k
    | 1 => if k ≤ l then some (l - k) else none
    | 2 => some (l + k)
    | _ => some (l ^^^ k)
  n.bind fun i => if i < w then some i else none

/-- The lane read by lane l, if it is in `exec`. -/
def shflSrc (c : Ctx) (l : Nat) : Option Nat :=
  (shflLane c.f.lowFam c.g.width l (shflSel c l)).bind fun i => if c.exec.getLsbD i then some i else none

/-- `shfl` (R196): all reads before any write. DEDUCED, log entry 63. -/
def execShfl (f : Fields) (s : State) :=
  runGroup (.shfl f) f s fun c s =>
    let t := c.lanes.foldl (fun t l => writeOperand t l 1 (b2n (shflSrc c l).isSome) f.c) c.t
    let t := c.lanes.foldl (fun t l => c.wr t l (c.srcA ((shflSrc c l).getD l))) t
    .done (setThreadOf s c.gid t)

/-! ### Reductions and scans (R197 to R199) -/

/-- One combining step and its flags (R197). -/
def combine (f : Fields) (a b : Nat) : Nat × Nat :=
  let m := Fields.fmt f
  match f.imm13.toNat % 16 with
  | 0 => ((a + b) % 2 ^ 32, 0)
  | 1 => (if readInt f.ty b < readInt f.ty a then b else a, 0)
  | 2 => (if readInt f.ty a < readInt f.ty b then b else a, 0)
  | 3 => (a &&& b, 0)
  | 4 => (a ||| b, 0)
  | 5 => (a ^^^ b, 0)
  | 6 => addF m f.rnd a b
  | 7 => minmaxF m false false a b
  | _ => minmaxF m true false a b

/-- The identity of an operation (R197). -/
def identityOf (f : Fields) : Nat :=
  let m := Fields.fmt f
  match f.imm13.toNat % 16 with
  | 1 => if f.ty = .s32 then 0x7FFFFFFF else 0xFFFFFFFF
  | 2 => if f.ty = .s32 then 0x80000000 else 0
  | 3 => 0xFFFFFFFF
  | 7 => m.infBits
  | 8 => m.signBit true + m.infBits
  | _ => 0

/-- The source of a lane at the type's width. -/
def reduxSrc (c : Ctx) (l : Nat) : Nat := c.srcA l % 2 ^ (if (fmtOf c.f.ty).isSome then elemBits c.f.ty else 32)

/-- Two operands of a step of the tree, either of which may be absent (R93). -/
def treeStep (f : Fields) (a b : Option Nat × Nat) : Option Nat × Nat :=
  match a.1, b.1 with
  | some x, some y =>
    let r := combine f x y
    (some r.1, a.2 ||| b.2 ||| r.2)
  | some x, none => (some x, a.2 ||| b.2)
  | none, y => (y, a.2 ||| b.2)

/-- One level of the tree. -/
def treeLevel (f : Fields) : List (Option Nat × Nat) → List (Option Nat × Nat)
  | a :: b :: t => treeStep f a b :: treeLevel f t
  | l => l

/-- The pairwise tree over 64 lanes: six levels (R93). -/
def treeOf (f : Fields) : Nat → List (Option Nat × Nat) → List (Option Nat × Nat)
  | 0, l => l
  | n + 1, l => treeOf f n (treeLevel f l)

/-- The value and flags of a reduction. -/
def reduxValue (c : Ctx) : Nat × Nat :=
  let leaves := (fromTo 0 64).map fun l => (if c.exec.getLsbD l then some (reduxSrc c l) else none, 0)
  match treeOf c.f 6 leaves with
  | r :: _ => (r.1.getD (identityOf c.f), r.2)
  | [] => (identityOf c.f, 0)

/-- `redux` (R198). -/
def execRedux (f : Fields) (s : State) :=
  runGroup (.redux f) f s fun c s =>
    let r := reduxValue c
    .done (setThreadOf s c.gid (raiseAll (crossThread c c.t r.1 fun _ => r.1) c.lanes r.2))

/-- The prefix combinations over a list of lanes, each lane with the one before it, and the union of flags (R93, R199). -/
def scanFrom (c : Ctx) : List Nat → Option Nat → List (Nat × Option Nat × Nat) × Nat
  | [], _ => ([], 0)
  | l :: ls, acc =>
    let r := match acc with
      | some x => combine c.f x (reduxSrc c l)
      | none => (reduxSrc c l, 0)
    let rest := scanFrom c ls (some r.1)
    ((l, acc, r.1) :: rest.1, r.2 ||| rest.2)

/-- The lanes whose sources an exclusive scan combines: all but the highest of `exec`. -/
def scanLanes (c : Ctx) : List Nat := if c.f.bit51 then c.lanes.dropLast else c.lanes

/-- The prefixes of a scan. -/
def scanRun (c : Ctx) : List (Nat × Option Nat × Nat) × Nat := scanFrom c c.lanes none

/-- `scan` (R199): the flags are those of the steps it makes. -/
def execScan (f : Fields) (s : State) :=
  runGroup (.scan f) f s fun c s =>
    let r := scanRun c
    let fl := (scanFrom c (scanLanes c) none).2
    let t := r.1.foldl (fun t x => c.wr t x.1 (if f.bit51 then x.2.1.getD (identityOf f) else x.2.2)) c.t
    .done (setThreadOf s c.gid (raiseAll t c.lanes fl))

/-! ### Lane masks and the sparing map (R200, R201) -/

/-- The mask of a kind, in lane l (R200). -/
def maskKind (c : Ctx) (kind l : Nat) : Nat :=
  let full := c.g.full.toNat
  match kind with
  | 0 => c.exec.toNat
  | 1 => c.e.mask.toNat
  | 2 => (liveOf c.t).toNat
  | 3 => (2 ^ l - 1) % (full + 1)
  | 4 => (2 ^ (l + 1) - 1) % (full + 1)
  | 5 => full - (2 ^ (l + 1) - 1)
  | _ => full - (2 ^ l - 1)

/-- `lmask` (R200). -/
def execLmask (f : Fields) (s : State) :=
  runGroup (.lmask f) f s fun c s => crossOp c s (maskKind c f.imm13.toNat 0) (maskKind c f.imm13.toNat)

/-- The datapaths that serve a lane position (R173, R201). -/
def servingMask (x : Slice) : Nat := (fromTo 0 33).foldl (fun m d => if x.pos.contains d then m + 2 ^ d else m) 0

/-- The value of `lmap` (R201). -/
def lmapValue (x : Slice) : Nat := servingMask x + 2 ^ 40 * popNat 33 x.failed.toNat + 2 ^ 48 * b2n x.deg

/-- `lmap` (R201). -/
def execLmap (f : Fields) (s : State) :=
  runGroup (.lmap f) f s fun c s => crossAll c s (lmapValue ((s.core c.core).slice c.g.slice))

end Sys2Proof.Machine
end

