-- ==== Sys2Proof/Machine/Dispatch.lean ====
section
/-!
DEFINITION. The meaning of each instruction, one arm for each constructor.
-/
namespace Sys2Proof.Machine
open Sys2Proof

/-- The effect of one instruction or step on a state. -/
def exec (i : Instr) (s : State) : Host.Outcome State Fault Refusal :=
  match i with
  | .clauseHeader h => Sys2Proof.Machine.execClauseHeader h s
  | .add f => Sys2Proof.Machine.execAdd f s
  | .sub f => Sys2Proof.Machine.execSub f s
  | .addc f => Sys2Proof.Machine.execAddc f s
  | .subb f => Sys2Proof.Machine.execSubb f s
  | .mul f => Sys2Proof.Machine.execMul f s
  | .mulhi f => Sys2Proof.Machine.execMulhi f s
  | .mad f => Sys2Proof.Machine.execMad f s
  | .madw f => Sys2Proof.Machine.execMadw f s
  | .min f => Sys2Proof.Machine.execMin f s
  | .max f => Sys2Proof.Machine.execMax f s
  | .and f => Sys2Proof.Machine.execAnd f s
  | .or f => Sys2Proof.Machine.execOr f s
  | .xor f => Sys2Proof.Machine.execXor f s
  | .not f => Sys2Proof.Machine.execNot f s
  | .shl f => Sys2Proof.Machine.execShl f s
  | .shr f => Sys2Proof.Machine.execShr f s
  | .sar f => Sys2Proof.Machine.execSar f s
  | .shf f => Sys2Proof.Machine.execShf f s
  | .bfx f => Sys2Proof.Machine.execBfx f s
  | .bfi f => Sys2Proof.Machine.execBfi f s
  | .popc f => Sys2Proof.Machine.execPopc f s
  | .clz f => Sys2Proof.Machine.execClz f s
  | .brev f => Sys2Proof.Machine.execBrev f s
  | .lea f => Sys2Proof.Machine.execLea f s
  | .sel f => Sys2Proof.Machine.execSel f s
  | .cmp f => Sys2Proof.Machine.execCmp f s
  | .mov f => Sys2Proof.Machine.execMov f s
  | .movi f => Sys2Proof.Machine.execMovi f s
  | .dp4 f => Sys2Proof.Machine.execDp4 f s
  | .fadd f => Sys2Proof.Machine.execFadd f s
  | .fsub f => Sys2Proof.Machine.execFsub f s
  | .fmul f => Sys2Proof.Machine.execFmul f s
  | .ffma f => Sys2Proof.Machine.execFfma f s
  | .fmin f => Sys2Proof.Machine.execFmin f s
  | .fmax f => Sys2Proof.Machine.execFmax f s
  | .fcmp f => Sys2Proof.Machine.execFcmp f s
  | .frnd f => Sys2Proof.Machine.execFrnd f s
  | .ffrac f => Sys2Proof.Machine.execFfrac f s
  | .fclass f => Sys2Proof.Machine.execFclass f s
  | .fldexp f => Sys2Proof.Machine.execFldexp f s
  | .frcp f => Sys2Proof.Machine.execFrcp f s
  | .frsq f => Sys2Proof.Machine.execFrsq f s
  | .fsqrt f => Sys2Proof.Machine.execFsqrt f s
  | .fexp2 f => Sys2Proof.Machine.execFexp2 f s
  | .flog2 f => Sys2Proof.Machine.execFlog2 f s
  | .fsin f => Sys2Proof.Machine.execFsin f s
  | .fcos f => Sys2Proof.Machine.execFcos f s
  | .ftanh f => Sys2Proof.Machine.execFtanh f s
  | .fdp2 f => Sys2Proof.Machine.execFdp2 f s
  | .cvt f => Sys2Proof.Machine.execCvt f s
  | .cvts f => Sys2Proof.Machine.execCvts f s
  | .osmUpd f => Sys2Proof.Machine.execOsmUpd f s
  | .osmFin f => Sys2Proof.Machine.execOsmFin f s
  | .osmFinNorm f => Sys2Proof.Machine.execOsmFinNorm f s
  | .rng f => Sys2Proof.Machine.execRng f s
  | .xbox f => Sys2Proof.Machine.execXbox f s
  | .xtri f => Sys2Proof.Machine.execXtri f s
  | .plop f => Sys2Proof.Machine.execPlop f s
  | .pmov f => Sys2Proof.Machine.execPmov f s
  | .pbitsGet f => Sys2Proof.Machine.execPbitsGet f s
  | .pbitsSet f => Sys2Proof.Machine.execPbitsSet f s
  | .pset f => Sys2Proof.Machine.execPset f s
  | .vote f => Sys2Proof.Machine.execVote f s
  | .matchLanes f => Sys2Proof.Machine.execMatchLanes f s
  | .shfl f => Sys2Proof.Machine.execShfl f s
  | .redux f => Sys2Proof.Machine.execRedux f s
  | .scan f => Sys2Proof.Machine.execScan f s
  | .lmask f => Sys2Proof.Machine.execLmask f s
  | .lmap f => Sys2Proof.Machine.execLmap f s
  | .nop f => Sys2Proof.Machine.execNop f s
  | .bru f => Sys2Proof.Machine.execBru f s
  | .br f => Sys2Proof.Machine.execBr f s
  | .brx f => Sys2Proof.Machine.execBrx f s
  | .call f => Sys2Proof.Machine.execCall f s
  | .calx f => Sys2Proof.Machine.execCalx f s
  | .ret f => Sys2Proof.Machine.execRet f s
  | .exit f => Sys2Proof.Machine.execExit f s
  | .yld f => Sys2Proof.Machine.execYld f s
  | .trap f => Sys2Proof.Machine.execTrap f s
  | .brk f => Sys2Proof.Machine.execBrk f s
  | .vcall f => Sys2Proof.Machine.execVcall f s
  | .ld f => Sys2Proof.Machine.execLd f s
  | .st f => Sys2Proof.Machine.execSt f s
  | .atom f => Sys2Proof.Machine.execAtom f s
  | .cas f => Sys2Proof.Machine.execCas f s
  | .red f => Sys2Proof.Machine.execRed f s
  | .fence f => Sys2Proof.Machine.execFence f s
  | .cinvLine f => Sys2Proof.Machine.execCinvLine f s
  | .cinvAll f => Sys2Proof.Machine.execCinvAll f s
  | .pf f => Sys2Proof.Machine.execPf f s
  | .ldk f => Sys2Proof.Machine.execLdk f s
  | .ldi f => Sys2Proof.Machine.execLdi f s
  | .sti f => Sys2Proof.Machine.execSti f s
  | .smp f => Sys2Proof.Machine.execSmp f s
  | .smpg f => Sys2Proof.Machine.execSmpg f s
  | .txq f => Sys2Proof.Machine.execTxq f s
  | .vgrow f => Sys2Proof.Machine.execVgrow f s
  | .vshrink f => Sys2Proof.Machine.execVshrink f s
  | .sgrow f => Sys2Proof.Machine.execSgrow f s
  | .rgn f => Sys2Proof.Machine.execRgn f s
  | .bta f => Sys2Proof.Machine.execBta f s
  | .btw f => Sys2Proof.Machine.execBtw f s
  | .bt f => Sys2Proof.Machine.execBt f s
  | .bcl f => Sys2Proof.Machine.execBcl f s
  | .bclArr f => Sys2Proof.Machine.execBclArr f s
  | .bclWait f => Sys2Proof.Machine.execBclWait f s
  | .clusterBarrierResume gid => Sys2Proof.Machine.execClusterBarrierResume gid s
  | .lnch f => Sys2Proof.Machine.execLnch f s
  | .srd f => Sys2Proof.Machine.execSrd f s
  | .msync f => Sys2Proof.Machine.execMsync f s
  | .msyncArr f => Sys2Proof.Machine.execMsyncArr f s
  | .msyncWait f => Sys2Proof.Machine.execMsyncWait f s
  | .reelGo f => Sys2Proof.Machine.execReelGo f s
  | .reelAdd f => Sys2Proof.Machine.execReelAdd f s
  | .reelSt f => Sys2Proof.Machine.execReelSt f s
  | .wcnt f => Sys2Proof.Machine.execWcnt f s
  | .boInit f => Sys2Proof.Machine.execBoInit f s
  | .boExp f => Sys2Proof.Machine.execBoExp f s
  | .boArr f => Sys2Proof.Machine.execBoArr f s
  | .boWait f => Sys2Proof.Machine.execBoWait f s
  | .boTry f => Sys2Proof.Machine.execBoTry f s
  | .lpq f => Sys2Proof.Machine.execLpq f s
  | .crdPut f => Sys2Proof.Machine.execCrdPut f s
  | .crdFlush f => Sys2Proof.Machine.execCrdFlush f s
  | .qpop f => Sys2Proof.Machine.execQpop f s
  | .qtry f => Sys2Proof.Machine.execQtry f s
  | .spGo f => Sys2Proof.Machine.execSpGo f s
  | .spStop f => Sys2Proof.Machine.execSpStop f s
  | .qpush f => Sys2Proof.Machine.execQpush f s
  | .rowAct f => Sys2Proof.Machine.execRowAct f s
  | .rowRd f => Sys2Proof.Machine.execRowRd f s
  | .rowWr f => Sys2Proof.Machine.execRowWr f s
  | .rowCls f => Sys2Proof.Machine.execRowCls f s
  | .rowSt f => Sys2Proof.Machine.execRowSt f s
  | .tret f => Sys2Proof.Machine.execTret f s
  | .tfr f => Sys2Proof.Machine.execTfr f s
  | .tinj f => Sys2Proof.Machine.execTinj f s
  | .ctxFork f => Sys2Proof.Machine.execCtxFork f s
  | .ctxGateYield f => Sys2Proof.Machine.execCtxGateYield f s
  | .ctxGateOut f => Sys2Proof.Machine.execCtxGateOut f s
  | .tierRecAdd f => Sys2Proof.Machine.execTierRecAdd f s
  | .tierRecClr f => Sys2Proof.Machine.execTierRecClr f s
  | .tierPin f => Sys2Proof.Machine.execTierPin f s
  | .tierUnpin f => Sys2Proof.Machine.execTierUnpin f s
  | .srw f => Sys2Proof.Machine.execSrw f s
  | .srwRd f => Sys2Proof.Machine.execSrwRd f s
  | .cobjMap f => Sys2Proof.Machine.execCobjMap f s
  | .tlbInvPage f => Sys2Proof.Machine.execTlbInvPage f s
  | .tlbInvAll f => Sys2Proof.Machine.execTlbInvAll f s
  | .venc f => Sys2Proof.Machine.execVenc f s
  | .mma f => Sys2Proof.Machine.execMma f s
  | .mmb f => Sys2Proof.Machine.execMmb f s
  | .tdef f => Sys2Proof.Machine.execTdef f s
  | .tld f => Sys2Proof.Machine.execTld f s
  | .azero f => Sys2Proof.Machine.execAzero f s
  | .ald f => Sys2Proof.Machine.execAld f s
  | .ast f => Sys2Proof.Machine.execAst f s
  | .astStat f => Sys2Proof.Machine.execAstStat f s
  | .ascl f => Sys2Proof.Machine.execAscl f s
  | .msig f => Sys2Proof.Machine.execMsig f s
  | .mwait f => Sys2Proof.Machine.execMwait f s
  | .mloop f => Sys2Proof.Machine.execMloop f s
  | .mend f => Sys2Proof.Machine.execMend f s
  | .rowCon f => Sys2Proof.Machine.execRowCon f s
  | .asyncWriteLand id => Sys2Proof.Machine.execAsyncWriteLand id s
  | .storePerform id => Sys2Proof.Machine.execStorePerform id s
  | .groupRetire gid => Sys2Proof.Machine.execGroupRetire gid s
  | .trapEntry gid => Sys2Proof.Machine.execTrapEntry gid s
  | .frameStoreGrant gid => Sys2Proof.Machine.execFrameStoreGrant gid s
  | .stepTrap gid => Sys2Proof.Machine.execStepTrap gid s
  | .callReplyPoll gid => Sys2Proof.Machine.execCallReplyPoll gid s
  | .laneFault gid datapath => Sys2Proof.Machine.execLaneFault gid datapath s
  | .sfuMismatch gid => Sys2Proof.Machine.execSfuMismatch gid s
  | .presenceUnpark gid => Sys2Proof.Machine.execPresenceUnpark gid s
  | .registerGrowRetry core slice ctx => Sys2Proof.Machine.execRegisterGrowRetry core slice ctx s
  | .islandPowerUpDone die island => Sys2Proof.Machine.execIslandPowerUpDone die island s
  | .encodeFrame enc => Sys2Proof.Machine.execEncodeFrame enc s
  | .activateAccept core bank => Sys2Proof.Machine.execActivateAccept core bank s
  | .closeStart core bank => Sys2Proof.Machine.execCloseStart core bank s
  | .bankFree core bank => Sys2Proof.Machine.execBankFree core bank s
  | .retrainingEnd core => Sys2Proof.Machine.execRetrainingEnd core s
  | .doorbell fn fe q p => Sys2Proof.Machine.execDoorbell fn fe q p s
  | .packetAccept fe q => Sys2Proof.Machine.execPacketAccept fe q s
  | .dependencePoll grid => Sys2Proof.Machine.execDependencePoll grid s
  | .gridBegin grid => Sys2Proof.Machine.execGridBegin grid s
  | .clusterPlace fe => Sys2Proof.Machine.execClusterPlace fe s
  | .coresidentPlace fe => Sys2Proof.Machine.execCoresidentPlace fe s
  | .gridBlocking grid => Sys2Proof.Machine.execGridBlocking grid s
  | .gridComplete grid => Sys2Proof.Machine.execGridComplete grid s
  | .ringSlotRead fe q => Sys2Proof.Machine.execRingSlotRead fe q s
  | .pageFaultService core => Sys2Proof.Machine.execPageFaultService core s
  | .pageMove ctx va tier => Sys2Proof.Machine.execPageMove ctx va tier s
  | .tierPass ctx => Sys2Proof.Machine.execTierPass ctx s
  | .contentMerge ctx va => Sys2Proof.Machine.execContentMerge ctx va s
  | .forkRegionBuild ctx index => Sys2Proof.Machine.execForkRegionBuild ctx index s
  | .incomingMove ctx => Sys2Proof.Machine.execIncomingMove ctx s
  | .sliceBoundary fe => Sys2Proof.Machine.execSliceBoundary fe s
  | .budgetExhausted core slot => Sys2Proof.Machine.execBudgetExhausted core slot s
  | .watchdog gid => Sys2Proof.Machine.execWatchdog gid s
  | .timer ctx => Sys2Proof.Machine.execTimer ctx s
  | .teamSave tid => Sys2Proof.Machine.execTeamSave tid s
  | .clusterResume cid => Sys2Proof.Machine.execClusterResume cid s
  | .rowReady core bank => Sys2Proof.Machine.execRowReady core bank s
  | .rowForcedClose core bank => Sys2Proof.Machine.execRowForcedClose core bank s
  | .rowDataLand core id => Sys2Proof.Machine.execRowDataLand core id s
  | .rowDelivery core id => Sys2Proof.Machine.execRowDelivery core id s
  | .refreshOperation core bank => Sys2Proof.Machine.execRefreshOperation core bank s
  | .refreshIntervalStep core layer celsius => Sys2Proof.Machine.execRefreshIntervalStep core layer celsius s
  | .patrolScrub core bank row => Sys2Proof.Machine.execPatrolScrub core bank row s
  | .retraining core => Sys2Proof.Machine.execRetraining core s
  | .columnRelocate core ctx handle desc => Sys2Proof.Machine.execColumnRelocate core ctx handle desc s
  | .reelRecord core channel => Sys2Proof.Machine.execReelRecord core channel s
  | .reelChunk core => Sys2Proof.Machine.execReelChunk core s
  | .generationDrop id => Sys2Proof.Machine.execGenerationDrop id s
  | .spindleIssue core => Sys2Proof.Machine.execSpindleIssue core s
  | .spindleJobEnd core queue => Sys2Proof.Machine.execSpindleJobEnd core queue s
  | .carderLaunch core => Sys2Proof.Machine.execCarderLaunch core s
  | .carderAutoFlush tid => Sys2Proof.Machine.execCarderAutoFlush tid s
  | .releaseForward die core => Sys2Proof.Machine.execReleaseForward die core s
  | .writeAck die core => Sys2Proof.Machine.execWriteAck die core s
  | .linkDetour a b => Sys2Proof.Machine.execLinkDetour a b s
  | .flitReplay a b => Sys2Proof.Machine.execFlitReplay a b s
  | .portAuthFail port => Sys2Proof.Machine.execPortAuthFail port s
  | .pcieAtomic fn ctx va op size x y => Sys2Proof.Machine.execPcieAtomic fn ctx va op size x y s
  | .ideFailure fn => Sys2Proof.Machine.execIdeFailure fn s
  | .keySlotLoad slot key ctx => Sys2Proof.Machine.execKeySlotLoad slot key ctx s
  | .keySlotFree slot => Sys2Proof.Machine.execKeySlotFree slot s
  | .getMeasurements index => Sys2Proof.Machine.execGetMeasurements index s
  | .boot monitor firmware monitorOk firmwareOk later => Sys2Proof.Machine.execBoot monitor firmware monitorOk firmwareOk later s
  | .firmwareRestart => Sys2Proof.Machine.execFirmwareRestart s
  | .partSet fe base limit => Sys2Proof.Machine.execPartSet fe base limit s
  | .colourSet fe mask => Sys2Proof.Machine.execColourSet fe mask s
  | .sliceSet fe sl => Sys2Proof.Machine.execSliceSet fe sl s
  | .mergeN n => Sys2Proof.Machine.execMergeN n s
  | .forkPolicy mask => Sys2Proof.Machine.execForkPolicy mask s
  | .colsplitSet core value => Sys2Proof.Machine.execColsplitSet core value s
  | .compact core value => Sys2Proof.Machine.execCompact core value s
  | .ctxCreate id part budget domain => Sys2Proof.Machine.execCtxCreate id part budget domain s
  | .ctxDestroy id => Sys2Proof.Machine.execCtxDestroy id s
  | .ctxWord id word value => Sys2Proof.Machine.execCtxWord id word value s
  | .map id va n attrs source => Sys2Proof.Machine.execMap id va n attrs source s
  | .unmap id va n => Sys2Proof.Machine.execUnmap id va n s
  | .resident id core slot n => Sys2Proof.Machine.execResident id core slot n s
  | .gate id cores on => Sys2Proof.Machine.execGate id cores on s
  | .leave id cores reason => Sys2Proof.Machine.execLeave id cores reason s
  | .vacate fe cores => Sys2Proof.Machine.execVacate fe cores s
  | .migrate id die => Sys2Proof.Machine.execMigrate id die s
  | .queueSet fe q block => Sys2Proof.Machine.execQueueSet fe q block s
  | .queueResume fe q => Sys2Proof.Machine.execQueueResume fe q s
  | .vfBind fn fe queues ctxs => Sys2Proof.Machine.execVfBind fn fe queues ctxs s
  | .encBind enc slot id => Sys2Proof.Machine.execEncBind enc slot id s
  | .engineResume id core => Sys2Proof.Machine.execEngineResume id core s
  | .profile watts => Sys2Proof.Machine.execProfile watts s
  | .island die island on => Sys2Proof.Machine.execIsland die island on s
  | .events ring count => Sys2Proof.Machine.execEvents ring count s
  | .unknownCall number => Sys2Proof.Machine.execUnknownCall number s
  | .powerControl power => Sys2Proof.Machine.execPowerControl power s
  | .thermalThrottle die island logic layer => Sys2Proof.Machine.execThermalThrottle die island logic layer s
  | .thermalTrip logic layer => Sys2Proof.Machine.execThermalTrip logic layer s
  | .hostIngress port agent ctx address data n => Sys2Proof.Machine.execHostIngress port agent ctx address data n s
  | .portTraining port encoded => Sys2Proof.Machine.execPortTraining port encoded s
  | .tdispRequest fn state => Sys2Proof.Machine.execTdispRequest fn state s
  | .spdmKeyExchange fn nonce => Sys2Proof.Machine.execSpdmKeyExchange fn nonce s

end Sys2Proof.Machine
end

