-- ==== Sys2Proof/Machine/Run.lean ====
section
/-!
DEFINITION. The next thing the module does: a turn of the clock that has begun, an input that has arrived, or the next
clock.
-/
namespace Sys2Proof.Machine
open Sys2Proof

/-- A step that no group issues. -/
def runEvent (i : Instr) (s : State) : Host.Outcome State Fault Refusal :=
  exec i { s with issuer := none, seqIssuer := none }

/-- What a turn picked, run. -/
def runPicked : Picked → Host.Outcome State Fault Refusal
  | .run i s => exec i s
  | .done s => .next s

/-- One turn. -/
def runTurn (s : State) : Turn → Host.Outcome State Fault Refusal
  | .issue gid => runPicked (issueTurn s gid)
  | .slice core n => .next { s with agenda := slicePicks s core n ++ s.agenda }
  | .second gid first pc => if secondAllowed s gid first pc then runPicked (issueTurn s gid) else .next s
  | .matrix tid => runPicked (matrixTurn s tid)
  | .event i => runEvent i s

/-- The machine goes on by one thing. DESIGN CHOICE, log entry 1. DESIGN CHOICE, log entry 59. -/
def runNext (s : State) : Host.Outcome State Fault Refusal :=
  match s.agenda with
  | t :: rest => runTurn { s with agenda := rest } t
  | [] => match dueInput s with
    | some (i, s) => runEvent i s
    | none => .next (tick s)

end Sys2Proof.Machine
end

