-- ==== Sys2Proof/Machine/Load.lean ====
section
/-!
DEFINITION. One instruction laid out where the machine fetches it next (log entry 3): a context with a page of code, and a
group, a Spindle job or a matrix sequencer that stands at it.
-/
namespace Sys2Proof.Machine
open Sys2Proof

/-- The virtual address the instruction stands at. -/
def loadVa : Nat := 0x20000

/-- Three levels of tables for one page of code, and the code (R239 to R241). DESIGN CHOICE, log entry 3. -/
def loadMemory (s : State) (bytes : List Byte) : State :=
  let s := writeNat s 0x200000 8 (1 + 0x210000)
  let s := writeNat s 0x210000 8 (1 + 0x220000)
  let s := writeNat s 0x220008 8 (mkPte 0x240000 true true true false false false true 0 0)
  writeMem s 0x240000 bytes

/-- The launch of the loaded team (R220). -/
def loadPacket : Packet :=
  { entry := loadVa, tiles := 16, matoff := 0, accum := 32, seed := 0, params := 0, resid := 0, gridx := 1, gridy := 1,
    gridz := 1, width := 32, vregs := 256, sregs := 128, team := 1, clw := 1, clh := 1, scratch := 1, prio := 0,
    cores := false, idemp := false, dep := 0, colmask := 0, depaddr := 0, depcmp := 0, depval := 0 }

/-- The entry the instruction issues from: a header there has been passed, and the flag the instruction names is one its
clause permits (R29). DESIGN CHOICE, log entry 3. -/
def loadEntry (w : Nat) : Entry :=
  { pc := BitVec.ofNat 64 loadVa, prio := 0, mask := lowLanes 32, fresh := false, passed := w % 4 == 3
    flagX := if w % 4 = 3 then none else (readFields .group (formOfLen (w % 4)) w).1.flag }

/-- The machine parts around the instruction, under numbers not used before. DESIGN CHOICE, log entry 3. -/
def loadParts (s : State) (st : Stream) (w : Nat) : State :=
  let n := s.fresh
  let team : Team :=
    { cluster := n + 1, core := 0, rank := 0, groups := 1, width := 32, nv := 256, ns := 128, tiles := 16, accum := 32,
      granule := 0, granules := 1
      seq := if st = .matrix then some { pc := BitVec.ofNat 64 loadVa } else none }
  let group : Group :=
    { kind := if st = .spindle then .spindle else .launched, ctx := 1, team := n + 2
      main := { nv := 256, ns := 128, frontier := [loadEntry w] } }
  let core := s.core 0
  let core := { core with
    residents := tins core.residents 0 { ctx := 1, banks := 255, balance := 1048576 }
    spindle := if st = .spindle
      then tins core.spindle 0 { ctx := some 1, running := true, team := n + 2, gid := n + 3, limit := 16, prog := loadVa, progEnd := loadVa + 4096 }
      else core.spindle }
  { s with
    fresh := n + 4
    ctxs := tins s.ctxs 1 { root := 0x200000 }
    grids := tins s.grids n { fe := 0, ctx := 1, queue := 0, seqNo := 1, pkt := loadPacket, state := .begun, begun := 1 }
    clusters := tins s.clusters (n + 1) { grid := n, index := 0, cores := [0] }
    teams := tins s.teams (n + 2) team
    groups := tins s.groups (n + 3) group
    cores := tins s.cores 0 core
    agenda := [if st = .matrix then .matrix (n + 2) else .issue (n + 3)] }

/-- The instruction whose bits are `w` is the next that the machine fetches and runs. DESIGN CHOICE, log entry 3. -/
def placeWord (s : State) (nbits w : Nat) : State :=
  let x := w % 2 ^ nbits
  let st := if x % 4 = 3 then Stream.group else streamOf (x / 4 % 512)
  loadParts (loadMemory s (toBytes 16 x)) st x

end Sys2Proof.Machine
end

