-- ==== Sys2Proof/Machine/Terms.lean ====
section
/-!
DEFINITION. The terms that statements about instructions are made in: when an instruction of a group issues with nothing in
its way, the end of its issue, and what a state leaves as it was.
-/
namespace Sys2Proof.Machine
open Sys2Proof

/-- The group that `issuer` names has at its head an instruction that runs with `c`, the checks of R33 before its own find
nothing, and neither an interlock nor a full flag holds it (R26 to R30, R14, R22). -/
structure Issues (s : State) (i : Instr) (f : Fields) (c : Ctx) : Prop where
  group : ∃ gid g e, issuerOf s = some (gid, g, e) ∧ c = ctxOf i f gid g e
  flag  : flagForbidden c.e f = false
  priv  : supervisorOnly i = true → c.g.priv = true
  regs  : boundsBad c.t i f c.sp = false
  free  : interlocked s c.gid c.g.priv (regsOf i f c.sp) = false
  room  : ∀ k, f.flag = some k → c.exec = 0 ∨ flagCount c.t k.val < 63

/-- The state at the end of an instruction whose entry goes on at A + length (R180). -/
def ended (c : Ctx) (s : State) : State := afterIssue c (advance c s)

/-- The state at the end of an instruction that has moved its entries itself. -/
def endedMoved (c : Ctx) (s : State) : State := afterIssue c s

/-- Everything a thread holds but its frontier. -/
def Thread.regs (t : Thread) : Thread := t.withFrontier []

/-- The registers in use of a group, without its frontier. -/
def regsNow (s : State) (gid : Nat) : Option Thread := (s.group gid).map fun g => g.thread.regs

/-- The states are equal but for group `gid`: all of memory, every other group and every other part of the module. -/
structure SameButGroup (gid : Nat) (s t : State) : Prop where
  rest : { t with groups := s.groups } = s
  others : ∀ j, j ≠ gid → t.group j = s.group j

/-- A result has gone to an instruction's destination and nowhere else: `v` gives the value and `fl` the FSTAT bits of each lane.
A vector or predicate takes it in the lanes of `exec`; a scalar takes that of the lowest lane, whose FSTAT bits go to every lane
of `exec` (R94, R95); 511 takes nothing (R43). FSTAT bits are only ever set (R20). -/
structure Wrote (c : Ctx) (v fl : Nat → Nat) (t : Thread) : Prop where
  vec  : ∀ d, c.f.dst = .v d → ∀ l ∈ c.lanes, vwide t d.val l c.sp.d = v l % 2 ^ (32 * c.sp.d)
  scl  : ∀ d, c.f.dst = .s d → ∀ l, c.lanes.head? = some l → swide t d.val c.sp.d = v l % 2 ^ (32 * c.sp.d)
  prd  : ∀ p, c.f.dst = .p p → ∀ l ∈ c.lanes, predBit t p.val l = (v l % 2 == 1)
  fst  : ∀ l, l < 64 → fstatOf t l = if l ∈ c.lanes
    then fstatOf c.t l ||| BitVec.ofNat 32 (if isScalar c.f.dst then fl c.low else fl l) else fstatOf c.t l
  vecs : ∀ r l, l < 64 → (∀ d, c.f.dst = .v d → l ∈ c.lanes → r < d.val ∨ d.val + c.sp.d ≤ r) → vreg t r l = vreg c.t r l
  scls : ∀ r, (∀ d, c.f.dst = .s d → c.lanes ≠ [] → r < d.val ∨ d.val + c.sp.d ≤ r) → sreg t r = sreg c.t r
  prds : ∀ p l, l < 64 → (∀ q, c.f.dst = .p q → l ∈ c.lanes → p ≠ q.val) → predBit t p l = predBit c.t p l
  rest : { t with vregs := c.t.vregs, sregs := c.t.sregs, preds := c.t.preds, fstat := c.t.fstat } = c.t

end Sys2Proof.Machine
end

