-- ==== Sys2Proof/Safety.lean ====
section
/-!
DEFINITION. What counts as a safe run, and what the statements about instructions say of one: that it completes, with which
result.
-/
namespace Sys2Proof
open Sys2Proof.Machine

/-- A step of the state has a next state. -/
def StepSafe (s : State) : Prop := ∃ t, Machine.step s = .next t

/-- The first `k` steps from a state each have a next state. -/
def RunSafe : Nat → State → Prop
  | 0, _ => True
  | k + 1, s => ∃ t, Machine.step s = .next t ∧ RunSafe k t

/-- The instruction completes wherever it issues with nothing in its way. A value and FSTAT bits that `P` admits for each lane
of `exec` go to its destination and to FSTAT, nothing else of its thread changes, its entry goes on at A + length, and nothing
else of the machine changes than the end of any issue changes. -/
def Gives (i : Instr) (f : Fields) (P : Ctx → Nat → Nat → Nat → Prop) : Prop :=
  ∀ s c, Issues s i f c → ∃ v fl r, (∀ l ∈ c.lanes, P c l (v l) (fl l)) ∧
    exec i s = .next (ended c (setThreadOf s c.gid r)) ∧ Wrote c v fl r

/-- An integer as the result of a type: wrapped modulo 2^n, or clamped to the type's range with SAT where it clamps (R72,
R100); the register holds it extended by the type's rule (R71). -/
def IntResult (t : Ty) (sat : Bool) (x : Int) (v fl : Nat) : Prop :=
  v < 2 ^ max 32 (tyBits t) ∧ (tyBits t < 32 → toSigned 32 v = readInt t v) ∧
  if sat then readInt t v = max (tyMin t) (min (tyMax t) x) ∧ fl = if tyMin t ≤ x ∧ x ≤ tyMax t then 0 else fSAT
  else (((2 ^ tyBits t : Nat) : Int) ∣ readInt t v - x) ∧ fl = 0

/-- The `n` bits of a result, bit by bit, and no FSTAT bit. -/
def BitResult (n : Nat) (b : Nat → Bool) (v fl : Nat) : Prop := (∀ k, v.testBit k = (decide (k < n) && b k)) ∧ fl = 0

/-- The types of floating-point arithmetic on single values and pairs (R97). -/
def ArithTy (t : Ty) : Prop := t = .f32 ∨ t = .f16 ∨ t = .bf16 ∨ t = .f16x2 ∨ t = .bf16x2

/-- Each element of the result word as `r` gives it, and the union of the elements' FSTAT bits (R77). -/
def ElemResult (t : Ty) (r : Nat → Nat × Nat) (v fl : Nat) : Prop :=
  v < 2 ^ (elemBits t * elemCount t) ∧ (∀ e, e < elemCount t → elemOf t v e = (r e).1) ∧
  fl = if elemCount t = 2 then (r 0).2 ||| (r 1).2 else (r 0).2

/-- A cross-lane result: a scalar destination takes `once`, whatever lanes are in `exec`; any other takes `lane l` in each lane of
`exec`. The FSTAT bits go to every lane of `exec` (R182, R191, R197). -/
def Crossed (c : Ctx) (once : Nat) (lane : Nat → Nat) (fl : Nat) (r : Thread) : Prop :=
  match c.f.dst with
  | .s d => swide r d.val c.sp.d = once % 2 ^ (32 * c.sp.d) ∧
      (∀ n, n < d.val ∨ d.val + c.sp.d ≤ n → sreg r n = sreg c.t n) ∧
      (∀ l, fstatOf r l = if l ∈ c.lanes then fstatOf c.t l ||| BitVec.ofNat 32 fl else fstatOf c.t l) ∧
      { r with sregs := c.t.sregs, fstat := c.t.fstat } = c.t
  | _ => Wrote c lane (fun _ => fl) r

/-- The pairwise tree of R93 over 2^k lanes from lane l, the lower half the left operand. -/
def reduceTree (f : Fields) (x : Nat → Option Nat) : Nat → Nat → Option Nat × Nat
  | 0, l => (x l, 0)
  | k + 1, l => treeStep f (reduceTree f x k l) (reduceTree f x k (l + 2 ^ k))

/-- Every lane of a frontier is in exactly one entry, and no entry is empty (R178). -/
def LanesApart (fr : List Entry) : Prop := (∀ e ∈ fr, e.mask ≠ 0) ∧ fr.Pairwise fun a b => a.mask &&& b.mask = 0

/-- Where a lane stands. -/
def pcOf (fr : List Entry) (l : Nat) : Option DWord := (fr.find? fun e => e.mask.getLsbD l).map Entry.pc

/-- Plain reads of global memory that nothing stops: the state after them, and the value each access read (R144, R161); of a
descriptor (`desc`), with the sectors it lies in renewed first where an acquire has passed them (R168). -/
def PlainReads (c : Ctx) (s : State) (desc : Bool) (rs : List Req) (s' : State) (vals : List (Nat × DWord × Nat)) : Prop :=
  ∃ s1 hits s2, addrCauses s c.g .g rs = none ∧ reachGlobal s c.core c.g.ctx .read c.g.priv rs = .ok s1 hits ∧
    absentHit (settleStores c s1 hits) hits = none ∧ dataCause (settleStores c s1 hits) hits = none ∧
    s2 = (if desc then hits.foldl (fun s h => l1Renew s c.core h.place h.n) (touchHits (settleStores c s1 hits) c.core c.g.ctx .read hits)
      else touchHits (settleStores c s1 hits) c.core c.g.ctx .read hits) ∧
    s' = l1After s2 c.core true hits ∧ vals = hits.map fun h => (h.lane, h.addr, loadValue s2 c.core true h)

/-- The sequencer that `seqIssuer` names has the instruction, which runs with `c`, and its tile and descriptor numbers are in range
(R366, R368, R369). -/
structure Streams (s : State) (i : Instr) (f : Fields) (c : MCtx) : Prop where
  issuer  : s.seqIssuer = some c.tid
  team    : s.team c.tid = some c.t
  seq     : c.t.seq = some c.q
  instr   : c.i = i
  fields  : c.f = f
  numbers : matNumbers c = none

/-- The state at the end of a stream instruction whose PC goes past it (R368). -/
def streamed (c : MCtx) (s : State) : State := s.modSeq c.tid fun q => { q with pc := c.q.pc + BitVec.ofNat 64 (formBytes c.f.form) }

/-- What a stream instruction reads through descriptors is in order, has arrived and is not poisoned (R369). -/
def UsesClean (c : MCtx) (s : State) (us : List MUse) : Prop :=
  useCause c s us = none ∧ useWaits c s us = false ∧ us.any (c.poisoned s) = false

/-- What stops a stream instruction that reads through descriptors: a cause, something that has not arrived, poison. Words read while it
waited are kept, and go with a cause (R369, R373). -/
def UsesStop (c : MCtx) (i : Instr) (s : State) (us : List MUse) : Prop :=
  let stop (t : TrapInfo) : Prop := exec i s = .next (streamTrap (c.release s) c.tid c.q.pc (formBytes c.f.form) t)
  (∀ t, useCause c s us = some t → stop t) ∧
  (useCause c s us = none → useWaits c s us = true → exec i s = .next (holdWords c s us)) ∧
  (useCause c s us = none → useWaits c s us = false → us.any (c.poisoned s) = true → stop { cause := .poison })

/-- The top-left m by n elements of tile `a` take the values `r` gives with FSTAT bits that gather in the matrix status; nothing else
changes but that nothing is held any more, and the PC goes past the instruction (R367, R373). -/
def TileTakes (c : MCtx) (i : Instr) (s : State) (a m n : Nat) (r : Nat → Nat → Nat × Nat) : Prop :=
  ∃ (acc : Table (BitVec 40)) (st : DWord),
    exec i s = .next (streamed c (s.modSeq c.tid fun q => { q with acc := acc, status := st, held := [] })) ∧
    (∀ x y, x < m → y < n → tget 0 acc (accKey a x y) = BitVec.ofNat 40 (r x y).1) ∧
    (∀ k, (∀ x y, x < m → y < n → k ≠ accKey a x y) → tget 0 acc k = tget 0 c.q.acc k) ∧
    (∀ k, st.getLsbD k = true ↔ c.q.status.getLsbD k = true ∨ (k < 64 ∧ ∃ x y, x < m ∧ y < n ∧ (r x y).2.testBit k = true))

end Sys2Proof
end

