-- ==== Sys2Proof/WellFormed.lean ====
section
/-!
DEFINITION. Well-formed instructions: those that steps 3 to 5 of R53 find nothing wrong with.
-/
namespace Sys2Proof

/-- The fields of `i` are ones its encoding admits: its types, operand classes, reserved bits and values (R53). -/
abbrev WellFormed (i : Instr) : Prop := Machine.check i = none

end Sys2Proof
end

