-- ==== Sys2Proof/Certificates/Slice0/Obligations.lean ====
section
/-!
DEFINITION. The statements for the provers. `Issues s i f c` says that instruction `i` issues in state `s` with nothing in its way, `c` being what
it runs with; `ended c` is the end of an issue that goes on at A + length, `endedMoved c` of one that has moved its entry itself.
-/
open Sys2Proof Sys2Proof.Machine

/-! ### Integer and logic instructions -/

/-- R100, R110: the exact value of `add`, `sub`, `mul`, `mad`, `min`, `max` and `dp4`, wrapped or clamped to the type. R101: `addc` and `subb`
take a carry from predicate C and write the carry out to it last. R102: `mulhi` and `madw`. -/
def Obligations.IntegerArithmetic : Prop :=
  (∀ f : Fields,
  let a (c : Ctx) (l : Nat) : Int := readInt f.ty (c.srcA l)
  let b (c : Ctx) (l : Nat) : Int := readInt f.ty (c.srcB l)
  let byteA (c : Ctx) (l i : Nat) : Int := readInt f.ty (c.srcA l / 256 ^ i)
  let byteB (c : Ctx) (l i : Nat) : Int := readInt (f.ty2.getD .s8) (c.srcB l / 256 ^ i)
  Gives (.add f) f (fun c l => IntResult f.ty f.bit51 (a c l + b c l)) ∧
  Gives (.sub f) f (fun c l => IntResult f.ty f.bit51 (a c l - b c l)) ∧
  Gives (.mul f) f (fun c l => IntResult f.ty f.bit51 (a c l * b c l)) ∧
  Gives (.mad f) f (fun c l => IntResult f.ty f.bit51 (a c l * b c l + readInt f.ty (c.srcC l))) ∧
  Gives (.min f) f (fun c l => IntResult f.ty false (min (a c l) (b c l))) ∧
  Gives (.max f) f (fun c l => IntResult f.ty false (max (a c l) (b c l))) ∧
  Gives (.dp4 f) f (fun c l => IntResult .s32 f.bit51 (toSigned 32 (c.srcC l) + byteA c l 0 * byteB c l 0 +
    byteA c l 1 * byteB c l 1 + byteA c l 2 * byteB c l 2 + byteA c l 3 * byteB c l 3))) ∧
  (∀ (f : Fields) (p : Fin 48), f.c = .p p →
  let a (c : Ctx) (l : Nat) : Int := ((c.srcA l % 2 ^ 32 : Nat) : Int)
  let b (c : Ctx) (l : Nat) : Int := ((c.srcB l % 2 ^ 32 : Nat) : Int)
  let k (c : Ctx) (l : Nat) : Int := ((c.srcC l % 2 : Nat) : Int)
  let chains (i : Instr) (x : Ctx → Nat → Int) : Prop := WellFormed i → ∀ s c, Issues s i f c →
    ∃ r, exec i s = .next (ended c (setThreadOf s c.gid r)) ∧
    (∀ l ∈ c.lanes, predBit r p.val l = decide (x c l < 0 ∨ 2 ^ 32 ≤ x c l)) ∧
    (∀ d, f.dst = .v d → ∀ l ∈ c.lanes, ((vreg r d.val l).toNat : Int) = x c l % 2 ^ 32) ∧
    (∀ d, f.dst = .p d → d ≠ p → ∀ l ∈ c.lanes, predBit r d.val l = decide (x c l % 2 = 1)) ∧
    (∀ n l, l < 64 → f.dst ≠ .v n ∨ l ∉ c.lanes → vreg r n.val l = vreg c.t n.val l) ∧
    (∀ q l, l < 64 → q ≠ p ∧ f.dst ≠ .p q ∨ l ∉ c.lanes → predBit r q.val l = predBit c.t q.val l) ∧
    { r with vregs := c.t.vregs, preds := c.t.preds } = c.t
  chains (.addc f) (fun c l => a c l + b c l + k c l) ∧ chains (.subb f) (fun c l => a c l - b c l - k c l)) ∧
  (∀ f : Fields,
  let a (c : Ctx) (l : Nat) : Int := readInt f.ty (c.srcA l)
  let b (c : Ctx) (l : Nat) : Int := readInt f.ty (c.srcB l)
  Gives (.mulhi f) f (fun c l v fl => BitVec.ofNat 32 v = (BitVec.ofInt 64 (a c l * b c l)).extractLsb 63 32 ∧ fl = 0) ∧
  Gives (.madw f) f (fun c l v fl =>
    BitVec.ofNat 64 v = BitVec.ofInt 64 (a c l * b c l) + BitVec.ofNat 64 (c.srcC l) ∧ fl = 0))

/-- R103: bitwise operations at the type's width. R103, R104: shifts, by the count or by the count modulo the width. -/
def Obligations.BitwiseAndShifts : Prop :=
  (∀ f : Fields,
  let a (c : Ctx) (l k : Nat) : Bool := (c.srcA l).testBit k
  let b (c : Ctx) (l k : Nat) : Bool := (c.srcB l).testBit k
  Gives (.and f) f (fun c l => BitResult (tyBits f.ty) fun k => a c l k && b c l k) ∧
  Gives (.or f) f (fun c l => BitResult (tyBits f.ty) fun k => a c l k || b c l k) ∧
  Gives (.xor f) f (fun c l => BitResult (tyBits f.ty) fun k => a c l k ^^ b c l k) ∧
  Gives (.not f) f (fun c l => BitResult (tyBits f.ty) fun k => !a c l k)) ∧
  (∀ f : Fields,
  let n := tyBits f.ty
  let a (c : Ctx) (l k : Nat) : Bool := (c.srcA l).testBit k
  let sh (c : Ctx) (l : Nat) : Nat := if f.bit49 then c.srcB l % 2 ^ 32 % n else c.srcB l % 2 ^ 32
  let x (c : Ctx) (l k : Nat) : Bool := if k < 32 then a c l k else decide (k < 64) && (c.srcB l).testBit (k - 32)
  let fs (c : Ctx) (l : Nat) : Nat := if f.bit49 then c.srcC l % 32 else min (c.srcC l % 2 ^ 32) 32
  Gives (.shl f) f (fun c l => BitResult n fun k => decide (sh c l ≤ k) && a c l (k - sh c l)) ∧
  Gives (.shr f) f (fun c l => BitResult n fun k => decide (k + sh c l < n) && a c l (k + sh c l)) ∧
  Gives (.sar f) f (fun c l => BitResult n fun k => a c l (min (k + sh c l) (n - 1))) ∧
  Gives (.shf f) f (fun c l => BitResult 32 fun k =>
    if f.bit50 then decide (fs c l ≤ k + 32) && x c l (k + 32 - fs c l) else x c l (k + fs c l)))

/-- R105, R106: fields of a word, population count, leading zeros, reversal. -/
def Obligations.BitFieldsAndCounts : Prop := ∀ f : Fields,
  let n := tyBits f.ty
  let len (c : Ctx) (l : Nat) : Nat := c.srcB l / 256 % 256
  let pos (c : Ctx) (l : Nat) : Nat := c.srcB l % 256
  let at' (c : Ctx) (l k : Nat) : Bool :=
    if k < n then (c.srcA l).testBit k else tySigned f.ty && (c.srcA l).testBit (n - 1)
  Gives (.bfx f) f (fun c l => BitResult n fun k =>
    decide (0 < len c l) && (if k < len c l then at' c l (min (pos c l) n + k)
      else tySigned f.ty && at' c l (min (pos c l) n + len c l - 1))) ∧
  Gives (.bfi f) f (fun c l => BitResult n fun k =>
    if pos c l ≤ k ∧ k < pos c l + len c l then (c.srcA l).testBit (k - pos c l) else (c.srcC l).testBit k) ∧
  let a (c : Ctx) (l k : Nat) : Bool := (c.srcA l).testBit k
  Gives (.popc f) f (fun c l v fl => v = ((List.range n).filter (a c l)).length ∧ fl = 0) ∧
  Gives (.clz f) f (fun c l v fl => v ≤ n ∧ (∀ k, n - v ≤ k → k < n → a c l k = false) ∧
    (v < n → a c l (n - 1 - v) = true) ∧ fl = 0) ∧
  Gives (.brev f) f (fun c l => BitResult n fun k => a c l (n - 1 - k))

/-- R107, R108: addresses, selection and moves. R99, R109, R113: comparison. -/
def Obligations.MovesAndComparisons : Prop :=
  (∀ f : Fields,
  Gives (.lea f) f (fun c l v fl => fl = 0 ∧ BitVec.ofNat 64 v =
    if f.opt then c.pc + BitVec.ofInt 64 (readInt f.ty (c.srcB l))
    else BitVec.ofNat 64 (c.srcA l) + BitVec.ofInt 64 (readInt f.ty (c.srcB l)) <<< f.low3) ∧
  Gives (.sel f) f (fun c l v fl => v = (if c.srcC l = 0 then c.srcB l else c.srcA l) ∧ fl = 0) ∧
  Gives (.mov f) f (fun c l v fl => v = c.srcA l ∧ fl = 0) ∧
  Gives (.movi f) f (fun c l v fl =>
    v = (if f.ty = .f16 ∨ f.ty = .bf16 then c.srcB l % 2 ^ 16 else c.srcB l) ∧ fl = 0)) ∧
  (∀ f : Fields,
  let a (c : Ctx) (l : Nat) : Int := readInt f.ty (c.srcA l)
  let b (c : Ctx) (l : Nat) : Int := readInt f.ty (c.srcB l)
  let x (c : Ctx) (l : Nat) : FVal := unpackF (Fields.fmt f) (c.srcA l % 2 ^ (Fields.fmt f).width)
  let y (c : Ctx) (l : Nat) : FVal := unpackF (Fields.fmt f) (c.srcB l % 2 ^ (Fields.fmt f).width)
  let ord (c : Ctx) (l : Nat) : Prop := ¬ (x c l).isNan ∧ ¬ (y c l).isNan
  let yes (v : Nat) (p : Prop) : Prop := (v = 1 ↔ p) ∧ (v = 0 ↔ ¬ p)
  (f.cc < 6 → Gives (.cmp f) f (fun c l v fl => fl = 0 ∧ yes v
    ((f.cc = 0 ∧ a c l = b c l) ∨ (f.cc = 1 ∧ a c l ≠ b c l) ∨ (f.cc = 2 ∧ a c l < b c l) ∨ (f.cc = 3 ∧ a c l ≤ b c l) ∨
      (f.cc = 4 ∧ a c l > b c l) ∨ (f.cc = 5 ∧ a c l ≥ b c l)))) ∧
  (f.cc < 8 → f.ty = .f32 ∨ f.ty = .f16 ∨ f.ty = .bf16 → Gives (.fcmp f) f (fun c l v fl =>
    (fl = if x c l = .nan true ∨ y c l = .nan true then fNV else 0) ∧ yes v
    ((f.cc = 0 ∧ ord c l ∧ (x c l).eqv (y c l)) ∨ (f.cc = 1 ∧ ¬ (ord c l ∧ (x c l).eqv (y c l))) ∨
      (f.cc = 2 ∧ ord c l ∧ (x c l).lt (y c l)) ∨ (f.cc = 3 ∧ ord c l ∧ ¬ (y c l).lt (x c l)) ∨
      (f.cc = 4 ∧ ord c l ∧ (y c l).lt (x c l)) ∨ (f.cc = 5 ∧ ord c l ∧ ¬ (x c l).lt (y c l)) ∨
      (f.cc = 6 ∧ ord c l) ∨ (f.cc = 7 ∧ ¬ ord c l)))))

/-! ### Floating-point, conversion and ray instructions -/

/-- R81 to R83 for a finite value ± p / q: which neighbour each mode delivers, the overflow of R82, and NX, UF and OF. -/
def Obligations.RoundingOncePerResult : Prop := ∀ m ∈ [fmtF32, fmtF16, fmtBF16, fmtE4M3, fmtE5M2, fmtE2M1, fmtF40], ∀ (mode : Rnd) (neg : Bool) (p q : Nat), 0 < p → 0 < q →
  let r := roundRat m mode neg p q
  let mag := r.1 % 2 ^ (m.eb + m.fb)
  -- the value of encoding n, as a fraction
  let num (n : Nat) : Nat := (fracOf (n % 2 ^ m.fb + if n < 2 ^ m.fb then 0 else 2 ^ m.fb) (m.minExp + (n / 2 ^ m.fb - 1 : Nat))).1
  let den (n : Nat) : Nat := (fracOf (n % 2 ^ m.fb + if n < 2 ^ m.fb then 0 else 2 ^ m.fb) (m.minExp + (n / 2 ^ m.fb - 1 : Nat))).2
  let le (n : Nat) : Prop := num n * q ≤ p * den n
  let ge (n : Nat) : Prop := p * den n ≤ num n * q
  let up : Prop := (mode = .ru ∧ neg = false) ∨ (mode = .rd ∧ neg = true)
  r.1 = m.signBit neg + mag ∧
  -- no overflow, or overflow as the table says
  (r.2 &&& fOF = 0 → mag ≤ m.maxE ∧
    (up → ge mag ∧ (0 < mag → ¬ ge (mag - 1))) ∧
    (¬ up → mode ≠ .rne → le mag ∧ (mag < m.maxE → ¬ le (mag + 1))) ∧
    (mode = .rne → ∀ n, n ≤ m.maxE → ((num mag * q : Int) * den n - (p * den mag * den n : Nat)).natAbs ≤
      ((num n * q : Int) * den mag - (p * den n * den mag : Nat)).natAbs ∧
      (n ≠ mag → ((num mag * q : Int) * den n - (p * den mag * den n : Nat)).natAbs =
        ((num n * q : Int) * den mag - (p * den n * den mag : Nat)).natAbs → mag % 2 = 0)) ∧
    (r.2 &&& fNX = 0 ↔ le mag ∧ ge mag) ∧
    (r.2 &&& fUF ≠ 0 ↔ ¬ (le mag ∧ ge mag) ∧ mag < 2 ^ m.fb)) ∧
  (r.2 &&& fOF ≠ 0 → ¬ ge m.maxE ∧ r.2 = fOF ||| fNX ∧
    mag = if m.inf ∧ (mode = .rne ∨ up) then m.infBits else m.maxE)

/-- R111, R119: the exact sum, difference or product of each element, rounded once. R112, R114 to R116: minimum, maximum, integral values,
fractions, class and scaling. A power of two beyond ±2,000 scales as ±2,000 does: the result has overflowed or underflowed. -/
def Obligations.FloatOperations : Prop :=
  (∀ f : Fields,
  let m := Fields.fmt f
  let a (c : Ctx) (l e : Nat) : FVal := unpackF m (elemOf f.ty (c.srcA l) e)
  let b (c : Ctx) (l e : Nat) : FVal := unpackF m (elemOf f.ty (c.srcB l) e)
  let z (c : Ctx) (l e : Nat) : FVal := unpackF m (elemOf f.ty (c.srcC l) e)
  ArithTy f.ty →
  Gives (.fadd f) f (fun c l => ElemResult f.ty fun e => packF m f.rnd (sumF f.rnd [a c l e, b c l e])) ∧
  Gives (.fsub f) f (fun c l => ElemResult f.ty fun e => packF m f.rnd (sumF f.rnd [a c l e, (b c l e).negate])) ∧
  Gives (.fmul f) f (fun c l => ElemResult f.ty fun e => packF m f.rnd (mulF (a c l e) (b c l e))) ∧
  Gives (.ffma f) f (fun c l => ElemResult f.ty fun e =>
    packF m f.rnd (sumF f.rnd [mulF (a c l e) (b c l e), z c l e])) ∧
  Gives (.fdp2 f) f (fun c l v fl => (v, fl) = packF fmtF32 f.rnd (sumF f.rnd
    [mulF (a c l 0) (b c l 0), mulF (a c l 1) (b c l 1), unpackF fmtF32 (c.srcC l % 2 ^ 32)]))) ∧
  (∀ f : Fields,
  let m := Fields.fmt f
  let a (c : Ctx) (l e : Nat) : Nat := elemOf f.ty (c.srcA l) e
  let b (c : Ctx) (l e : Nat) : Nat := elemOf f.ty (c.srcB l) e
  let nan (x : Nat) : Bool := (unpackF m x).isNan
  let nv (x : Nat) : Nat := if unpackF m x = .nan true then fNV else 0
  let pick (isMax : Bool) (x y : Nat) : Nat :=
    if nan x && nan y || (f.opt && (nan x || nan y)) then m.nanBits
    else if nan x then y else if nan y then x
    else if (if isMax then zeroLt (unpackF m x) (unpackF m y) else zeroLt (unpackF m y) (unpackF m x)) then y else x
  let one (c : Ctx) (l : Nat) : Nat := elemOf f.ty (c.srcA l) 0
  ArithTy f.ty →
  Gives (.fmin f) f (fun c l v fl => ∃ r, ElemResult f.ty r v fl ∧ ∀ e, (r e).2 = nv (a c l e) ||| nv (b c l e) ∧
    (r e).1 = pick false (a c l e) (b c l e)) ∧
  Gives (.fmax f) f (fun c l v fl => ∃ r, ElemResult f.ty r v fl ∧ ∀ e, (r e).2 = nv (a c l e) ||| nv (b c l e) ∧
    (r e).1 = pick true (a c l e) (b c l e)) ∧
  Gives (.frnd f) f (fun c l v fl => ∃ r, ElemResult f.ty r v fl ∧ ∀ e, match unpackF m (a c l e) with
    | .fin n p k => (r e).2 = 0 ∧ (r e).1 = (roundRat m .rne n (roundNat f.rnd n (fracOf p k).1 (fracOf p k).2).1 1).1
    | x => r e = packF m .rne x) ∧
  (elemCount f.ty = 1 → Gives (.ffrac f) f (fun c l v fl => match unpackF m (one c l) with
    | .nan s => (v, fl) = packF m .rne (.nan s)
    | .inf _ => v = m.nanBits ∧ fl = fNV
    | .fin n p k =>
      let x := (fracOf p k).1
      let y := (fracOf p k).2
      let frac := if n then (y - x % y) % y else x % y
      (v, fl) = roundRat m f.rnd (decide (frac = 0 ∧ f.rnd = .rd)) frac y)) ∧
  (elemCount f.ty = 1 → Gives (.fclass f) f (fun c l v fl => fl = 0 ∧ v = match unpackF m (one c l) with
    | .nan s => if s then 1 else 2
    | .inf n => if n then 2 ^ 2 else 2 ^ 9
    | .fin n p _ =>
      let sub := one c l % 2 ^ (m.eb + m.fb) < 2 ^ m.fb
      if p = 0 then (if n then 2 ^ 5 else 2 ^ 6)
      else if n then (if sub then 2 ^ 4 else 2 ^ 3) else (if sub then 2 ^ 7 else 2 ^ 8))) ∧
  (elemCount f.ty = 1 → Gives (.fldexp f) f (fun c l v fl => match unpackF m (one c l) with
    | .fin n p k => (v, fl) = packF m f.rnd (.fin n p (k + max (-2000) (min 2000 (toSigned 32 (c.srcB l)))))
    | x => (v, fl) = packF m f.rnd x)))

/-- R117, R118: the special functions: the special cases and the exact results of the table, NX in every other lane, `fsqrt` and every `.f16`
reciprocal and reciprocal root the exact value correctly rounded. Where a source is finite its magnitude is top / bot; a value v is √x
rounded when it lies, among encodings, on the right side of every rounded fraction. Log entry 7 names what is the model's choice here. -/
def Obligations.SpecialFunctionCases : Prop := ∀ f : Fields, f.ty = .f32 ∨ f.ty = .f16 →
  let m := Fields.fmt f
  let x (c : Ctx) (l : Nat) : FVal := unpackF m (elemOf f.ty (c.srcA l) 0)
  let nanCase (y : FVal) (v fl : Nat) : Prop := ∀ s, y = .nan s → v = m.nanBits ∧ fl = if s then fNV else 0
  let invalid (v fl : Nat) : Prop := v = m.nanBits ∧ fl = fNV
  let one (n : Bool) : Nat := m.signBit n + m.bias * 2 ^ m.fb
  let pow (k : Int) : Nat := (m.bias + k).toNat * 2 ^ m.fb
  let nx (fl : Nat) : Prop := fl &&& fNX ≠ 0
  -- a finite source that is not zero: its sign and magnitude
  let fin (y : FVal) (P : Bool → Nat → Nat → Prop) : Prop := ∀ n p e, y = .fin n p e → p ≠ 0 → P n (fracOf p e).1 (fracOf p e).2
  let between (v : Nat) (mode : Rnd) (le ge : Nat → Nat → Prop) : Prop := ∀ a b, 0 < b →
    (le a b → (roundRat m mode false a b).1 ≤ v) ∧ (ge a b → v ≤ (roundRat m mode false a b).1)
  Gives (.frcp f) f (fun c l v fl => nanCase (x c l) v fl ∧
    (∀ n e, x c l = .fin n 0 e → v = m.signBit n + m.infBits ∧ fl = fDZ) ∧
    (∀ n, x c l = .inf n → v = m.signBit n ∧ fl = 0) ∧
    fin (x c l) fun n top bot =>
      (∀ j : Nat, top = 2 ^ j * bot → j < m.bias → v = m.signBit n + pow (-j) ∧ fl = 0) ∧
      (∀ j : Nat, bot = 2 ^ j * top → j ≤ m.bias → v = m.signBit n + pow j ∧ fl = 0) ∧
      ((∀ j, top ≠ 2 ^ j * bot ∧ bot ≠ 2 ^ j * top) → nx fl ∧ (f.ty = .f16 → v = (roundRat m .rne n bot top).1))) ∧
  Gives (.frsq f) f (fun c l v fl => nanCase (x c l) v fl ∧
    (∀ n e, x c l = .fin n 0 e → v = m.signBit n + m.infBits ∧ fl = fDZ) ∧
    (∀ p e, x c l = .fin true p e → p ≠ 0 → invalid v fl) ∧
    (x c l = .inf true → invalid v fl) ∧ (x c l = .inf false → v = 0 ∧ fl = 0) ∧
    fin (x c l) fun n top bot => n = false →
      (∀ j : Nat, top = 4 ^ j * bot → v = pow (-j) ∧ fl = 0) ∧ (∀ j : Nat, bot = 4 ^ j * top → v = pow j ∧ fl = 0) ∧
      ((∀ j, top ≠ 4 ^ j * bot ∧ bot ≠ 4 ^ j * top) → nx fl ∧
        (f.ty = .f16 → between v .rne (fun a b => a * a * top ≤ b * b * bot) (fun a b => b * b * bot ≤ a * a * top)))) ∧
  Gives (.fsqrt f) f (fun c l v fl => nanCase (x c l) v fl ∧
    (∀ n e, x c l = .fin n 0 e → v = m.signBit n ∧ fl = 0) ∧
    (∀ p e, x c l = .fin true p e → p ≠ 0 → invalid v fl) ∧
    (x c l = .inf true → invalid v fl) ∧ (x c l = .inf false → v = m.infBits ∧ fl = 0) ∧
    fin (x c l) fun n top bot => n = false →
      between v f.rnd (fun a b => a * a * bot ≤ b * b * top) (fun a b => b * b * top ≤ a * a * bot) ∧
      (∀ a b, 0 < b → a * a * bot = b * b * top → (v, fl) = roundRat m f.rnd false a b) ∧
      ((∀ a b, 0 < b → a * a * bot ≠ b * b * top) → fl = fNX)) ∧
  Gives (.fexp2 f) f (fun c l v fl => nanCase (x c l) v fl ∧
    (x c l = .inf true → v = 0 ∧ fl = 0) ∧ (x c l = .inf false → v = m.infBits ∧ fl = 0) ∧
    (∀ n e, x c l = .fin n 0 e → v = one false ∧ fl = 0) ∧
    fin (x c l) fun n top bot => if top % bot = 0
      then (v, fl) = if n then roundRat m .rne false 1 (2 ^ (top / bot)) else roundRat m .rne false (2 ^ (top / bot)) 1
      else nx fl) ∧
  Gives (.flog2 f) f (fun c l v fl => nanCase (x c l) v fl ∧
    (∀ n e, x c l = .fin n 0 e → v = m.signBit true + m.infBits ∧ fl = fDZ) ∧
    (∀ p e, x c l = .fin true p e → p ≠ 0 → invalid v fl) ∧
    (x c l = .inf true → invalid v fl) ∧ (x c l = .inf false → v = m.infBits ∧ fl = 0) ∧
    fin (x c l) fun n top bot => n = false →
      (∀ j, top = 2 ^ j * bot → v = (roundRat m .rne false j 1).1 ∧ fl = 0) ∧
      (∀ j, 0 < j → bot = 2 ^ j * top → v = (roundRat m .rne true j 1).1 ∧ fl = 0) ∧
      ((∀ j, top ≠ 2 ^ j * bot ∧ bot ≠ 2 ^ j * top) → nx fl)) ∧
  Gives (.fsin f) f (fun c l v fl => nanCase (x c l) v fl ∧ (∀ n, x c l = .inf n → invalid v fl) ∧
    (∀ n e, x c l = .fin n 0 e → v = m.signBit n ∧ fl = 0) ∧
    fin (x c l) fun n top bot => if 4 * top % bot = 0
      then fl = 0 ∧ v = if 4 * top / bot % 2 = 0 then 0 else one (n ^^ decide (4 * top / bot % 4 = 3)) else nx fl) ∧
  Gives (.fcos f) f (fun c l v fl => nanCase (x c l) v fl ∧ (∀ n, x c l = .inf n → invalid v fl) ∧
    (∀ n e, x c l = .fin n 0 e → v = one false ∧ fl = 0) ∧
    fin (x c l) fun _ top bot => if 4 * top % bot = 0
      then fl = 0 ∧ v = if 4 * top / bot % 2 = 1 then 0 else one (decide (4 * top / bot % 4 = 2)) else nx fl) ∧
  Gives (.ftanh f) f (fun c l v fl => nanCase (x c l) v fl ∧ (∀ n, x c l = .inf n → v = one n ∧ fl = 0) ∧
    (∀ n e, x c l = .fin n 0 e → v = m.signBit n ∧ fl = 0) ∧
    fin (x c l) fun n top bot => if top ≥ 9 * bot then v = one n ∧ fl = 0 else nx fl)

/-- R86, R88, R120: conversions to an integer and to a floating-point type, from either. R21, R87, R121, R122: `rng` and `cvts` draw once in
each lane of `exec`. Log entry 8 names what is the model's choice here. -/
def Obligations.ConversionsAndDraws : Prop :=
  (∀ f : Fields,
  let ts := f.ty2.getD .f32
  let td := f.ty
  let wide := narrowElems td = 0
  let k : Nat := if wide ∧ narrowElems ts ≠ 0 then f.imm13.toNat else 0
  -- the source: a floating-point value, or an integer
  let flt (c : Ctx) (l : Nat) (m : Fmt) : FVal := unpackF m (c.srcA l / 2 ^ (narrowBits ts % 32 * k) % 2 ^ m.width)
  let int (c : Ctx) (l : Nat) : Int := if ts = .i40 then toSigned 40 (c.srcA l) else readInt ts (c.srcA l)
  -- an integer as the destination holds it
  let holds (x : Int) (v : Nat) : Prop :=
    if td = .i40 then BitVec.ofNat 64 v = (BitVec.ofInt 40 x).signExtend 64 else IntResult td false x v 0
  let clamp (x : Int) : Int := max (cvtMin td) (min (cvtMax td) x)
  let out (x : Int) : Prop := x < cvtMin td ∨ cvtMax td < x
  (fmtOf ts = none → fmtOf td = none → wide → Gives (.cvt f) f (fun c l v fl =>
    holds (if f.bit51 then clamp (int c l) else int c l) v ∧ fl = if f.bit51 ∧ out (int c l) then fSAT else 0)) ∧
  (∀ ms, fmtOf ts = some ms → fmtOf td = none → wide → Gives (.cvt f) f (fun c l v fl => match flt c l ms with
    | .nan _ => holds 0 v ∧ fl = fNV ||| fSAT
    | .inf n => holds (if n then cvtMin td else cvtMax td) v ∧ fl = fNV ||| fSAT
    | .fin n p e =>
      let y : Int := (if n then -1 else 1) * (roundNat f.rnd n (fracOf p e).1 (fracOf p e).2).1
      holds (clamp y) v ∧ fl = if out y then fNV ||| fSAT else if (fracOf p e).1 % (fracOf p e).2 = 0 then 0 else fNX)) ∧
  (∀ m, fmtOf td = some m → Gives (.cvt f) f (fun c l v fl =>
    let x := match fmtOf ts with
      | some ms => flt c l ms
      | none => FVal.ofInt (int c l)
    let r := packF m f.rnd x
    let w := 32 / narrowElems td
    let k := f.imm13.toNat
    fl = r.2 ∧ if wide then v = r.1
      else v / 2 ^ (w * k) % 2 ^ w = r.1 % 2 ^ w ∧
        ∀ i, i < 32 → i < w * k ∨ w * k + w ≤ i → v.testBit i = (c.srcB l).testBit i))) ∧
  (∀ f : Fields,
  let next (x : DWord) : DWord := x * 0x5851F42D4C957F2D + 0x14057B7EF767814F
  let word (x : DWord) : Word := (x.extractLsb' 32 32 ^^^ x.extractLsb' 0 32).rotateRight (x.toNat / 2 ^ 59)
  let draws (i : Instr) (P : Ctx → Nat → Nat → Nat → Nat → Prop) : Prop := ∀ s c, Issues s i f c →
    ∃ v fl r, exec i s = .next (ended c (setThreadOf s c.gid r)) ∧ Wrote c v fl { r with rng := c.t.rng } ∧
    (∀ l, rngOf r l = if l ∈ c.lanes then next (rngOf c.t l) else rngOf c.t l) ∧
    ∀ l ∈ c.lanes, P c l (word (next (rngOf c.t l))).toNat (v l) (fl l)
  draws (.rng f) (fun _ _ d v fl => fl = 0 ∧ v = if f.ty = .f32 then (roundRat fmtF32 .rne false (d / 2 ^ 8) (2 ^ 24)).1 else d) ∧
  draws (.cvts f) (fun c l d v fl => ∀ m, fmtOf f.ty = some m → ∀ ms, fmtOf (f.ty2.getD .f32) = some ms →
    narrowElems (f.ty2.getD .f32) = 0 → narrowElems f.ty ≠ 0 →
    let r := packSr m d (unpackF ms (c.srcA l % 2 ^ ms.width))
    let w := 32 / narrowElems f.ty
    let k := f.imm13.toNat
    fl = r.2 ∧ v / 2 ^ (w * k) % 2 ^ w = r.1 % 2 ^ w ∧
      ∀ i, i < 32 → i < w * k ∨ w * k + w ≤ i → v.testBit i = (c.srcB l).testBit i))

/-- R123, R124: the online softmax pair. `ex2` stands for `fexp2` of the difference rounded to nearest even. R129 to R132: `xbox` and `xtri`
write what their tests give and set no FSTAT bit; the shapes of their results. Log entry 9 names what is the model's choice here. -/
def Obligations.SoftmaxAndRays : Prop :=
  (∀ f : Fields,
  let val (x : Nat) : FVal := unpackF fmtF32 (x % 2 ^ 32)
  let nan (x : FVal) : Bool := x.isNan
  let ex2 (x y : FVal) : Nat × Nat :=
    let d := packF fmtF32 .rne (sumF .rne [x, y.negate])
    ((fexp2F fmtF32 d.1).1, d.2 ||| (fexp2F fmtF32 d.1).2)
  let q := 0x7FC00000
  Gives (.osmUpd f) f (fun c l v fl =>
    let m := val (c.srcA l)
    let s := val (c.srcA l / 2 ^ 32)
    let x := val (c.srcB l)
    let t := val (c.srcC l)
    let m2 := if zeroLt m x then c.srcB l else c.srcA l % 2 ^ 32
    if nan m || nan s || nan x || nan t then v = q + 2 ^ 32 * q ∧
      (fl = if [m, s, x, t].contains (.nan true) then fNV else 0)
    else if m = .inf true ∧ x = .inf true then v = c.srcA l % 2 ^ 32 ∧ fl = 0
    else if m = .inf false ∨ x = .inf false then v = m2 + 2 ^ 32 * q ∧ fl = fNV
    else
      let e1 := if m = .inf true then (0, 0) else ex2 m (val m2)
      let e2 := if x = .inf true then (0, 0) else ex2 x (val m2)
      let r := packF fmtF32 .rne (sumF .rne [mulF s (val e1.1), mulF t (val e2.1)])
      v = m2 + 2 ^ 32 * r.1 ∧ fl = e1.2 ||| e2.2 ||| r.2) ∧
  Gives (.osmFin f) f (fun c l v fl =>
    let m := val (c.srcA l)
    let n := val (c.srcB l)
    if nan m || nan n then v = q ∧ fl = if m = .nan true ∨ n = .nan true then fNV else 0
    else if m = .inf true ∧ n = .inf true then v = 0x3F800000 ∧ fl = 0
    else (v, fl) = ex2 m n) ∧
  Gives (.osmFinNorm f) f (fun c l v fl =>
    let s := unpackF fmtF32 (c.srcA l / 2 ^ 32)
    if s.isZero then v = 0 ∧ fl = 0 else (v, fl) = frcpF fmtF32 (c.srcA l / 2 ^ 32))) ∧
  (∀ f : Fields,
  Gives (.xbox f) f (fun c l v fl => fl = 0 ∧ v = boxResult (c.srcA l) (c.srcB l) ∧
    let hit (j : Nat) : Bool := (boxHit (c.srcA l) (c.srcB l) j).1
    let at' (j : Nat) : FVal := (boxHit (c.srcA l) (c.srcB l) j).2
    let idx (n : Nat) : Nat := v / 2 ^ (8 + 2 * n) % 4
    let count := v / 2 ^ 16 % 8
    v < 2 ^ 19 ∧ v / 2 ^ 4 % 16 = 0 ∧ (∀ j, j < 4 → v.testBit j = hit j) ∧
    (∀ n m, n < 4 → m < 4 → n ≠ m → idx n ≠ idx m) ∧
    (∀ n, n < 4 → hit (idx n) = decide (n < count)) ∧
    (∀ n, n + 1 < count → ¬ (at' (idx (n + 1))).lt (at' (idx n)) ∧
      (¬ (at' (idx n)).lt (at' (idx (n + 1))) → idx n < idx (n + 1))) ∧
    (∀ n, count ≤ n → n + 1 < 4 → idx n < idx (n + 1))) ∧
  Gives (.xtri f) f (fun c l v fl => fl = 0 ∧ v = triResult f.opt (c.srcA l) (c.srcB l) ∧
    (v = 0x7F800000 ∨ v / 2 ^ 96 = 1 ∨ (v / 2 ^ 96 = 3 ∧ f.opt = false))))

/-- R125 to R128: predicate instructions. -/
def Obligations.PredicateInstructions : Prop := ∀ f : Fields,
  Gives (.plop f) f (fun c l v fl => fl = 0 ∧
    v = (f.imm13.toNat / 2 ^ (4 * (c.srcA l % 2) + 2 * (c.srcB l % 2) + c.srcC l % 2)) % 2) ∧
  Gives (.pmov f) f (fun c l v fl => fl = 0 ∧ v = if c.srcA l % 2 ^ 32 = 0 then 0 else 1) ∧
  Gives (.pset f) f (fun c l v fl => fl = 0 ∧
    let a := BitVec.ofNat 32 (c.srcA l)
    let b := BitVec.ofNat 32 (c.srcB l)
    (f.lowFam = 0 → (v = 1 ↔ a &&& b ≠ 0) ∧ v ≤ 1) ∧ (f.lowFam = 1 → (v = 1 ↔ a &&& b = b) ∧ v ≤ 1) ∧
    (f.lowFam = 2 → (v = 1 ↔ a &&& b = 0) ∧ v ≤ 1)) ∧
  (∀ n, f.a = .p n → Gives (.pbitsGet f) f (fun c l =>
    BitResult 32 fun i => decide (n.val + i < 48) && predBit c.t (n.val + i) l)) ∧
  (∀ n, f.dst = .p n → ∀ s c, Issues s (.pbitsSet f) f c → ∃ r,
    exec (.pbitsSet f) s = .next (ended c (setThreadOf s c.gid r)) ∧
    (∀ l ∈ c.lanes, ∀ q, q < 48 → predBit r q l =
      if n.val ≤ q ∧ q < n.val + 32 ∧ (c.srcB l).testBit (q - n.val) then (c.srcA l).testBit (q - n.val) else predBit c.t q l) ∧
    (∀ l, l < 64 → l ∉ c.lanes → ∀ q, predBit r q l = predBit c.t q l) ∧ { r with preds := c.t.preds } = c.t)

/-! ### Cross-lane instructions -/

/-- R194, R195, R200, R201, R191: votes, matches, lane masks and the sparing map. A scalar is written once, even when no lane is in `exec`.
R196: a shuffle reads all its sources before any write, and writes to the predicate whether the lane read is in `exec`. Log entry 63 names
what is the model's choice here. -/
def Obligations.CrossLaneMoves : Prop :=
  (∀ f : Fields,
  let t (c : Ctx) (l : Nat) : Bool := decide (c.srcA l % 2 ^ 32 ≠ 0)
  (∀ s c, Issues s (.vote f) f c → ∃ x r, exec (.vote f) s = .next (ended c (setThreadOf s c.gid r)) ∧
    Crossed c x (fun _ => x) 0 r ∧ (c.lanes = [] → x = 0) ∧ (c.lanes ≠ [] →
    (f.lowFam = 0 → (x = 1 ↔ ∀ l ∈ c.lanes, t c l) ∧ x ≤ 1) ∧ (f.lowFam = 1 → (x = 1 ↔ ∃ l ∈ c.lanes, t c l) ∧ x ≤ 1) ∧
    (f.lowFam = 2 → (x = 1 ↔ ∀ l ∈ c.lanes, ∀ k ∈ c.lanes, t c l = t c k) ∧ x ≤ 1) ∧
    (f.lowFam = 3 → ∀ l, x.testBit l = (decide (l ∈ c.lanes) && t c l)))) ∧
  (∀ s c, Issues s (.matchLanes f) f c → ∃ x v r, exec (.matchLanes f) s = .next (ended c (setThreadOf s c.gid r)) ∧
    Crossed c x v 0 r ∧
    (f.lowFam = 0 → x = 0 ∧ ∀ l ∈ c.lanes, ∀ k, (v l).testBit k = (decide (k ∈ c.lanes) && decide (c.srcA k = c.srcA l))) ∧
    (f.lowFam = 1 → (∀ l, v l = x) ∧
      x = if ∀ l ∈ c.lanes, ∀ k ∈ c.lanes, c.srcA l = c.srcA k then c.exec.toNat else 0)) ∧
  (∀ s c, Issues s (.lmask f) f c → c.g.width ≤ 64 → f.imm13.toNat < 7 → ∃ x v r,
    exec (.lmask f) s = .next (ended c (setThreadOf s c.gid r)) ∧ Crossed c x v 0 r ∧
    (f.imm13.toNat < 3 → ∀ l, v l = x) ∧ (f.imm13.toNat = 0 → x = c.exec.toNat) ∧ (f.imm13.toNat = 1 → x = c.e.mask.toNat) ∧
    (f.imm13.toNat = 2 → ∀ k, k < 64 → x.testBit k = c.t.frontier.any fun e => e.mask.getLsbD k) ∧
    ∀ l ∈ c.lanes, ∀ k, (v l).testBit k = match f.imm13.toNat with
      | 3 => decide (k < l ∧ k < c.g.width)
      | 4 => decide (k ≤ l ∧ k < c.g.width)
      | 5 => decide (l < k ∧ k < c.g.width)
      | 6 => decide (l ≤ k ∧ k < c.g.width)
      | _ => (v l).testBit k) ∧
  (∀ s c, Issues s (.lmap f) f c → ∃ x r, exec (.lmap f) s = .next (ended c (setThreadOf s c.gid r)) ∧
    Crossed c x (fun _ => x) 0 r ∧
    let sl := (s.core c.core).slice c.g.slice
    (∀ i, i < 33 → x.testBit i = sl.pos.contains i) ∧ x / 2 ^ 33 % 2 ^ 7 = 0 ∧
    x / 2 ^ 40 % 2 ^ 6 = ((List.range 33).filter fun i => sl.failed.getLsbD i).length ∧ x / 2 ^ 46 % 4 = 0 ∧
    x / 2 ^ 48 = if sl.deg then 1 else 0)) ∧
  (∀ (f : Fields) (s : State) (c : Ctx), Issues s (.shfl f) f c →
  ∀ d, f.dst = .v d → (f.c = .zero ∨ ∃ q, f.c = .p q) →
  let k (l : Nat) : Int := ((if f.b = .zero then f.imm13.toNat else c.srcB l) % 128 : Nat)
  let n (l : Nat) : Int := if f.lowFam = 0 then k l else if f.lowFam = 1 then l - k l else if f.lowFam = 2 then l + k l
    else ((l ^^^ (k l).toNat : Nat) : Int)
  let ok (l : Nat) : Bool := decide (0 ≤ n l) && decide (n l < c.g.width) && decide ((n l).toNat ∈ c.lanes)
  ∃ r, exec (.shfl f) s = .next (ended c (setThreadOf s c.gid r)) ∧
    (∀ l ∈ c.lanes, vwide r d.val l c.sp.d = c.srcA (if ok l then (n l).toNat else l) % 2 ^ (32 * c.sp.d)) ∧
    (∀ q, f.c = .p q → ∀ l ∈ c.lanes, predBit r q.val l = ok l) ∧
    (∀ m l, l < 64 → l ∉ c.lanes ∨ m < d.val ∨ d.val + c.sp.d ≤ m → vreg r m l = vreg c.t m l) ∧
    (∀ m l, l < 64 → l ∉ c.lanes ∨ (∀ q, f.c = .p q → m ≠ q.val) → predBit r m l = predBit c.t m l) ∧
    { r with vregs := c.t.vregs, preds := c.t.preds } = c.t)

/-- R93, R197 to R199: `redux` combines in the pairwise tree, `scan` in ascending order; lanes outside `exec` contribute nothing, the flags of
every step go to every lane of `exec`, and an empty set gives the identity. -/
def Obligations.ReductionsAndScans : Prop := ∀ f : Fields,
  (∀ s c, Issues s (.redux f) f c → ∃ r, exec (.redux f) s = .next (ended c (setThreadOf s c.gid r)) ∧
    let x := reduceTree f (fun l => if l ∈ c.lanes then some (reduxSrc c l) else none) 6 0
    Crossed c (x.1.getD (identityOf f)) (fun _ => x.1.getD (identityOf f)) x.2 r) ∧
  (∀ s c, Issues s (.scan f) f c → ∀ d, f.dst = .v d →
    let before (l : Nat) : List Nat := c.lanes.filter fun k => decide (k < l)
    let prefixOf (ls : List Nat) : Option Nat × Nat := ls.foldl (fun x k => treeStep f x (some (reduxSrc c k), 0)) (none, 0)
    let upTo (l : Nat) : List Nat := if f.bit51 then before l else before l ++ [l]
    ∃ v fl r, exec (.scan f) s = .next (ended c (setThreadOf s c.gid r)) ∧ Wrote c v (fun _ => fl) r ∧
      (∀ l ∈ c.lanes, v l = (prefixOf (upTo l)).1.getD (identityOf f)) ∧
      fl = match c.lanes.getLast? with
        | some l => (prefixOf (upTo l)).2
        | none => 0)

/-! ### Control flow -/

/-- R29, R57: a clause header completes when no flag of its wait mask is pending, and holds the group until then; `nop` completes. R138, R139,
R180: `exit` takes the lanes of `exec` out of the frontier, their entry's other lanes go on at A + length, every other lane stays where it
was, and their pending vector writes are discarded; it waits while a write that names no flag is still to land in them (R27). `yld` puts
its entry, at A + length, behind every other of its priority. Log entry 73 names what is the model's choice here. -/
def Obligations.HeadersWaitAndLanesLeave : Prop :=
  (∀ (h : Header) (f : Fields) (s : State) (c : Ctx),
  (Issues s (.clauseHeader h) noFields c → (∀ k, k < 12 → h.wait.getLsbD k = true → flagCount c.t k = 0) →
    exec (.clauseHeader h) s = .next (ended c s)) ∧
  (Issues s (.clauseHeader h) noFields c → (∃ k, k < 12 ∧ h.wait.getLsbD k = true ∧ flagCount c.t k ≠ 0) →
    exec (.clauseHeader h) s = .next (parkGroup s c.gid (.stall .issue))) ∧
  (Issues s (.nop f) f c → exec (.nop f) s = .next (ended c s))) ∧
  (∀ (f : Fields) (s : State) (c : Ctx),
  (Issues s (.exit f) f c → c.exec = 0 → exec (.exit f) s = .next (ended c s)) ∧
  (Issues s (.exit f) f c → c.exec ≠ 0 → writesTo s c.gid c.g.priv c.exec = true →
    exec (.exit f) s = .next (parkGroup s c.gid (.stall (.lanes c.exec)))) ∧
  (Issues s (.exit f) f c → c.exec ≠ 0 → writesTo s c.gid c.g.priv c.exec = false → ∃ t, exec (.exit f) s = .next (endedMoved c t) ∧
    t.mem = s.mem ∧ t.cores = s.cores ∧ t.ctxs = s.ctxs ∧ t.stores = s.stores ∧ regsNow t c.gid = regsNow s c.gid ∧
    (∀ g, t.group c.gid = some g → (∀ e ∈ g.thread.frontier, e.mask &&& c.exec = 0) ∧
      (LanesApart c.t.frontier → ∀ l, l < 64 → pcOf g.thread.frontier l =
        if c.exec.getLsbD l then none else if c.e.mask.getLsbD l then some c.next else pcOf c.t.frontier l)) ∧
    (∀ id p, tfind t.pends id = some p → p.gid = c.gid → p.inHandler = c.g.priv →
      ∀ w ∈ p.writes, w.scalar = true ∨ c.exec.getLsbD w.lane = false)) ∧
  (Issues s (.yld f) f c → ∃ a b, removeEntry c.e.mask c.t.frontier = a ++ b ∧ (∀ x ∈ a, c.e.prio.toNat ≤ x.prio.toNat) ∧
    (∀ x, b.head? = some x → x.prio.toNat < c.e.prio.toNat) ∧
    exec (.yld f) s = .next (endedMoved c (modFrontier s c.gid fun g _ => landEntry s g (a ++ c.e :: b) c.e.mask c.next false))))

/-- R29, R135 to R137, R180, R182, R354: branches, calls and returns. Where every target is aligned and below 2^56 the lanes of `exec` go to
their targets; a call first writes A + length to its destination in those lanes, or nowhere where the destination is 511; no other
register and no memory changes. With no lane in `exec` the entry goes on. A `bru` that does not take all of its entry raises 0x03; one of
a Spindle job that the start check has numbered counts its trips, starts anew where it is not taken, and stops the job at its limit. R18,
R33, R137: a target that is not a multiple of 4 raises 0x04 and one at or above 2^56 raises 0x05, for the lowest failing lane, and no lane
moves. Log entry 36 names what is the model's choice here. -/
def Obligations.ControlTransfers : Prop :=
  (∀ (f : Fields) (s : State) (c : Ctx),
  let offset : DWord := c.pc + 4#64 * (sext13 f.imm13 + sext32 f.imm32)
  let reg (l : Nat) : DWord := BitVec.ofNat 64 (c.srcA l)
  let legal (tgt : Nat → DWord) : Prop := ∀ l ∈ c.lanes, (tgt l).toNat % 4 = 0 ∧ (tgt l).toNat < 2 ^ 56
  let linkedTo (r : Thread) : Prop := (f.dst = .zero → r = c.t) ∧ ∀ d, f.dst = .v d → { r with vregs := c.t.vregs } = c.t ∧
    (∀ l ∈ c.lanes, vwide r d.val l c.sp.d = c.next.toNat % 2 ^ (32 * c.sp.d)) ∧
    (∀ n l, l < 64 → l ∉ c.lanes ∨ n < d.val ∨ d.val + c.sp.d ≤ n → vreg r n l = vreg c.t n l)
  let jumps (i : Instr) (link : Bool) (tgt : Nat → DWord) : Prop := Issues s i f c →
    (c.exec = 0 → exec i s = .next (ended c s)) ∧
    (c.exec ≠ 0 → legal tgt → ∃ r, exec i s = .next (endedMoved c (setThreadOf s c.gid (r.withFrontier
        (transfer s c.g c.e.mask c.exec c.next (byTarget tgt c.lanes) c.t.frontier)))) ∧
      (link = false → r = c.t) ∧ (link = true → linkedTo r))
  let q := (s.core c.g.core).spq c.g.g
  let counted (n : Nat → Nat) : State := s.modCore c.g.core fun k => k.setSpq c.g.g
    { q with loops := q.loops.map fun x => if x.1 = c.pc.toNat then (x.1, x.2.1, n x.2.2) else x }
  let lands (u : State) : State := endedMoved c (modFrontier u c.gid fun g fr => landEntry u g fr c.e.mask offset false)
  jumps (.br f) false (fun _ => offset) ∧ jumps (.brx f) false reg ∧ jumps (.call f) true (fun _ => offset) ∧
  jumps (.calx f) true reg ∧ jumps (.ret f) false reg ∧
  (Issues s (.bru f) f c →
    (c.exec ≠ 0 → c.exec ≠ c.e.mask → exec (.bru f) s = .next (finish c (.trap s { cause := .nonUniform }))) ∧
    (c.g.kind ≠ .spindle ∨ (q.loops.find? fun x => x.1 == c.pc.toNat) = none →
      (c.exec = 0 → exec (.bru f) s = .next (ended c s)) ∧
      (c.exec ≠ 0 → c.exec = c.e.mask → offset.toNat % 4 = 0 → offset.toNat < 2 ^ 56 → exec (.bru f) s = .next (lands s))) ∧
    (∀ a limit trips, c.g.kind = .spindle → (q.loops.find? fun x => x.1 == c.pc.toNat) = some (a, limit, trips) →
      (c.exec = 0 → exec (.bru f) s = .next (ended c (counted fun _ => 0))) ∧
      (c.exec ≠ 0 → c.exec = c.e.mask → offset.toNat % 4 = 0 → offset.toNat < 2 ^ 56 →
        exec (.bru f) s = .next (if trips < limit then lands (counted fun _ => trips + 1) else endedMoved c (stopJob s c.gid 0x0E)))))) ∧
  (∀ (f : Fields) (s : State) (c : Ctx) (l : Nat),
  let offset : DWord := c.pc + 4#64 * (sext13 f.imm13 + sext32 f.imm32)
  let reg (l : Nat) : DWord := BitVec.ofNat 64 (c.srcA l)
  let bad (t : DWord) : Prop := t.toNat % 4 ≠ 0 ∨ t.toNat ≥ 2 ^ 56
  let raises (i : Instr) (tgt : Nat → DWord) : Prop := Issues s i f c → l ∈ c.lanes → bad (tgt l) →
    (∀ k ∈ c.lanes, k < l → ¬ bad (tgt k)) → exec i s = .next (finish c (.trap s
      { cause := if (tgt l).toNat % 4 ≠ 0 then .misaligned else .translation, addr := tgt l, lane := some l }))
  raises (.br f) (fun _ => offset) ∧ raises (.brx f) reg ∧ raises (.call f) (fun _ => offset) ∧ raises (.calx f) reg ∧
  raises (.ret f) reg ∧ (c.exec = c.e.mask → raises (.bru f) (fun _ => offset)))

/-- R178 to R180: a transfer puts each lane of `exec` at its target and the other lanes of the entry at A + length, and moves no other lane;
an entry that comes to a header takes its priority and joins an entry that stands at the same header with that priority, each lane at its
address. Every lane stays in exactly one entry. Log entry 36 names what is the model's choice here. -/
def Obligations.LanesStayInOneEntry : Prop := (∀ (s : State) (g : Group) (fr : List Entry) (e : Entry) (m : LaneMask) (next : DWord) (tgt : Nat → DWord), LanesApart fr → e ∈ fr →
    e.passed = false → m &&& e.mask = m → m ≠ 0 →
    let fr' := transfer s g e.mask m next (byTarget tgt (lanesOf m)) fr
    LanesApart fr' ∧ ∀ l, l < 64 → pcOf fr' l =
      if m.getLsbD l then some (tgt l) else if e.mask.getLsbD l then some next else pcOf fr l) ∧
  (∀ (fr : List Entry) (e : Entry) (h : Header), LanesApart fr → e ∈ fr →
    let fr' := passHeader fr e h
    LanesApart fr' ∧ (∀ l, l < 64 → pcOf fr' l = pcOf fr l) ∧
    (∃ x ∈ fr', x.pc = e.pc ∧ x.mask &&& e.mask = e.mask ∧ x.prio = h.prio ∧ x.passed = true) ∧
    (∀ o ∈ fr, o ≠ e → o.pc = e.pc → o.prio = h.prio → o.passed = true → fr'.length + 1 = fr.length))

/-- R140, R407, R412, R413: `trap` and `brk` are taken after they have completed: no replay entry, the lanes in AUX, the code in CODE, the
resume address that of the head after them. R407, R409 to R414: taking a trap. The lower free frame store of the slice is taken, the frame
holds the cause, the replay entries, the resume address, the live lanes and CTIME, and the handler starts at HANDLER at supervisor
privilege in every lane, with 8 vector and 16 scalar registers that read 0, its RNG seeded as at launch. With no store free, or while a
completion flag is pending, the group waits with the trap. In a handler a second cause ends the cluster with a double trap; a Spindle job
ends with the cause's code. Log entry 17 names what is the model's choice here. -/
def Obligations.TakingATrap : Prop :=
  (∀ (f : Fields) (s : State) (c : Ctx),
  let a := advance c (s.modGroup c.gid fun g => { g with cur := none, replays := g.replays.drop (if g.cur.isSome then 1 else 0) })
  let pc := ((a.group c.gid).map boundaryPc).getD c.next
  let takes (i : Instr) (k : Cause) : Prop := Issues s i f c →
    let info : TrapInfo := { cause := k, code := f.imm13.toNat % 256, addr := c.pc, aux := c.exec }
    (c.exec = 0 → exec i s = .next (ended c s)) ∧
    (c.exec ≠ 0 → exec i s = .next (takeTrap a c.gid info [] pc)) ∧
    (c.exec ≠ 0 → c.g.priv = false → c.g.kind ≠ .spindle → ∀ g n, (drainGroup a c.gid).group c.gid = some g → g.kind = c.g.kind →
      g.priv = false → freeStoreOf (drainGroup a c.gid) g.core g.slice = some n → flagsPending g.main = false →
      ∃ t u h, exec i s = .next t ∧ t.group c.gid = some u ∧ u.handler = some h ∧ h.info = info ∧ h.entries = [] ∧ h.pc = pc ∧
        u.main.vregs = g.main.vregs ∧ u.main.sregs = g.main.sregs ∧ u.main.frontier = g.main.frontier ∧
        t.mem = (drainGroup a c.gid).mem)
  takes (.trap f) .software ∧ takes (.brk f) .breakpoint) ∧
  (∀ (s : State) (gid : Nat) (g : Group) (info : TrapInfo) (es : List Replay) (pc : DWord)
    (x : Context), let d := drainGroup s gid
  d.group gid = some g →
  (g.kind = .spindle → takeTrap s gid info es pc = stopJob d gid (if info.cause = .software then 0x0E else causeCode info.cause)) ∧
  (g.kind ≠ .spindle → g.priv = true → takeTrap s gid info es pc = endGroupCluster d gid 1 info.cause) ∧
  (g.kind ≠ .spindle → g.priv = false → freeStoreOf d g.core g.slice = none ∨ flagsPending g.main = true → takeTrap s gid info es pc =
    d.setGroup gid { g with stalled := some (info, es, pc), kept := keptPark g.park, park := none }) ∧
  (∀ n, g.kind ≠ .spindle → g.priv = false → d.ctx g.ctx = some x → freeStoreOf d g.core g.slice = some n →
    flagsPending g.main = false →
    let t := takeTrap s gid info es pc
    ∃ u h, t.group gid = some u ∧ u.handler = some h ∧ u.priv = true ∧
      h.info = info ∧ h.entries = es ∧ h.pc = pc ∧ h.live = liveOf g.main ∧ h.ctime = BitVec.ofNat 64 x.ctime ∧ h.store = n ∧
      (n = 0 ∨ (n = 1 ∧ ∃ o, ((d.core g.core).slice g.slice).stores.1 = some o)) ∧
      (let st := ((t.core g.core).slice g.slice).stores; st = if n = 0 then (some gid, st.2) else (st.1, some gid)) ∧
      h.thread.nv = 8 ∧ h.thread.ns = 16 ∧ (∀ r l, vreg h.thread r l = 0) ∧ (∀ r, sreg h.thread r = 0) ∧
      (∀ p l, predBit h.thread p l = false) ∧ (∀ l, fstatOf h.thread l = 0) ∧
      h.thread.rng = seedAll g.seed g.cindex g.tbase g.width ∧
      (∀ e ∈ h.thread.frontier, e.pc = x.handler ∧ e.mask = g.full) ∧ h.thread.frontier.length = 1 ∧
      u.park = none ∧ u.kept = keptPark g.park ∧ u.main.frontier = g.main.frontier ∧ u.main.vregs = g.main.vregs ∧
      u.main.sregs = g.main.sregs ∧ u.main.preds = g.main.preds ∧ u.main.fstat = g.main.fstat ∧ u.main.rng = g.main.rng ∧
      t.mem = d.mem ∧ (∀ j, j ≠ gid → t.group j = d.group j)))

/-- R14, R22, R28 to R30, R33: the checks before an instruction's own, in their order. A flag that its clause does not permit raises 0x01 with
the instruction word in AUX; at user privilege a supervisor instruction raises 0x06 with AUX 1; a register operand at or beyond the
current count raises 0x06 with AUX 2, whatever lanes are in `exec`. The instruction has no other effect. -/
def Obligations.ChecksBeforeExecution : Prop := ∀ (f : Fields) (i : Instr) (s : State) (gid : Nat) (g : Group) (e : Entry),
  issuerOf s = some (gid, g, e) →
  let raises (x : TrapInfo) : Prop := exec i s = .next (finish (ctxOf i f gid g e) (.trap s x))
  (i ∈ [.add f, .fadd f, .ld f, .st f, .atom f, .ldi f, .smp f, .reelGo f, .rowRd f, .qpop f] → ∀ k, f.flag = some k →
    e.flagX ≠ some k → e.flagY ≠ some k → raises { cause := .illegal, addr := issuePc g e, aux := wordOf i }) ∧
  (i ∈ [.tret f, .tfr f, .tinj f, .ctxFork f, .ctxGateYield f, .ctxGateOut f, .tierRecAdd f, .tierRecClr f, .tierPin f, .tierUnpin f,
    .srw f, .srwRd f, .cobjMap f, .tlbInvPage f, .tlbInvAll f] → flagForbidden e f = false → g.priv = false →
    raises { cause := .protection, aux := 1 }) ∧
  (i ∈ [.add f, .mad f, .fadd f, .mov f, .shfl f, .redux f, .ld f, .st f, .atom f, .bta f] → flagForbidden e f = false →
    (∃ n, f.dst = .v n ∧ g.thread.nv < n.val + (spansOf i f).d) ∨ (∃ n, f.a = .s n ∧ g.thread.ns < n.val + (spansOf i f).a) →
    raises { cause := .protection, aux := 2 })

/-- R413, R414, R416: `tfr` reads a word of the frame, a trapped register, a control word, a captured word, FSTAT, RNG or PRIO; `tinj` writes
the RW fields of the frame, or one of the others in the lanes of `exec`, and nothing else of the trapped thread or its frame. R408, R409,
R412, R417: `tret` waits for the flags of its handler; then it frees the frame store, ends the handler, resumes engine work and the
sequencer as CTL says, and applies the frame: it replays the entries that are not skipped in the lanes still live, resumes the head at PC
without a replay, takes every lane out of the frontier, or ends the cluster. Log entry 18 names what is the model's choice here. -/
def Obligations.HandlerInstructions : Prop :=
  (∀ (f : Fields) (s : State) (c : Ctx) (h : Handler), c.g.handler = some h →
  let n := f.imm13.toNat
  let k := f.low3
  let entry (j : Nat) : Option Replay := (h.entries.drop j).head?
  (Issues s (.tfr f) f c → ∃ v r, exec (.tfr f) s = .next (ended c (setThreadOf s c.gid r)) ∧ Wrote c v (fun _ => 0) r ∧ ∀ l ∈ c.lanes,
    (k = 0 → (n = 0 → v l % 2 ^ 8 = causeCode h.info.cause ∧ v l / 2 ^ 8 % 2 ^ 8 = h.info.code % 2 ^ 8 ∧
        v l / 2 ^ 16 % 8 = h.info.source % 8 ∧ v l / 2 ^ 24 % 64 = h.info.lane.getD 0 % 64 ∧
        (v l).testBit 31 = h.info.lane.isSome ∧ v l / 2 ^ 32 % 16 = h.entries.length % 16 ∧ (v l).testBit 40 = h.enghalt ∧
        v l / 2 ^ 54 % 4 = h.matact % 4 ∧ v l / 2 ^ 56 % 4 = h.action % 4 ∧ (v l).testBit 58 = h.reseng ∧ (v l).testBit 59 = h.step) ∧
      (n = 1 → v l = h.pc.toNat) ∧ (n = 2 → v l = h.live.toNat) ∧ (n = 3 → v l = h.info.addr.toNat) ∧
      (n = 4 → v l = h.info.aux.toNat) ∧ (n = 5 → v l = h.ctime.toNat) ∧ (n = 6 ∨ n = 7 → v l = 0) ∧
      (8 ≤ n → (entry ((n - 8) / 2) = none → v l = 0) ∧ ∀ e, entry ((n - 8) / 2) = some e →
        (n % 2 = 0 → v l % 2 ^ 56 = e.iaddr.toNat % 2 ^ 56 ∧ v l / 2 ^ 56 = 1 + 2 * b2n e.fault + 4 * b2n e.skip) ∧
        (n % 2 = 1 → v l = e.exec.toNat))) ∧
    (k = 1 → v l = if n < c.g.main.nv then (vreg c.g.main n l).toNat else 0) ∧
    (k = 2 → v l = if n < c.g.main.ns then (sreg c.g.main n).toNat else 0) ∧
    (k = 3 → v l = controlWord c.g h n l) ∧
    (k = 4 → (entry (n / 8) = none → v l = 0) ∧ ∀ e, entry (n / 8) = some e → v l = (tget 0 e.words (64 * (n % 8) + l)).toNat) ∧
    (k = 5 → (n = 0 → v l = (fstatOf c.g.main l).toNat) ∧ (n = 1 → v l = (rngOf c.g.main l).toNat % 2 ^ 32) ∧
      (n = 2 → v l = (rngOf c.g.main l).toNat / 2 ^ 32) ∧ (n = 3 → v l = lanePrio c.g.main l))) ∧
  (Issues s (.tinj f) f c → ∃ (g' : Group) (h' : Handler),
    exec (.tinj f) s = .next (ended c (s.setGroup c.gid { g' with handler := some h' })) ∧
    { g' with main := c.g.main } = c.g ∧ (c.lanes = [] → g' = c.g ∧ h' = h) ∧
    (k = 0 → isScalar f.a = true → c.lanes ≠ [] → g' = c.g ∧ let x := c.srcA c.low
      (n = 0 → h' = { h with step := x.testBit 59, reseng := x.testBit 58, action := x / 2 ^ 56 % 4
                             matact := if x / 2 ^ 54 % 4 = 3 then h.matact else x / 2 ^ 54 % 4 }) ∧
      (n = 1 → h' = { h with pc := BitVec.ofNat 64 x }) ∧ (2 ≤ n → n < 8 → h' = h) ∧
      (8 ≤ n → h' = { h with entries := h'.entries } ∧ h'.entries.length = h.entries.length ∧
        (∀ j, j ≠ (n - 8) / 2 → (h'.entries.drop j).head? = entry j) ∧
        ∀ e, entry ((n - 8) / 2) = some e → (h'.entries.drop ((n - 8) / 2)).head? =
          some (if n % 2 = 0 then { e with skip := x.testBit 58 } else { e with exec := BitVec.ofNat 64 x &&& h.live }))) ∧
    (k = 1 → isScalar f.a = false → h' = h ∧ { g'.main with vregs := c.g.main.vregs } = c.g.main ∧
      ∀ m l, l < 64 → vreg g'.main m l =
        if m = n ∧ l ∈ c.lanes ∧ n < c.g.main.nv then BitVec.ofNat 32 (c.srcA l) else vreg c.g.main m l) ∧
    (k = 2 → isScalar f.a = true → c.lanes ≠ [] → h' = h ∧ { g'.main with sregs := c.g.main.sregs } = c.g.main ∧
      ∀ m, sreg g'.main m = if m = n ∧ n < c.g.main.ns then BitVec.ofNat 32 (c.srcA c.low) else sreg c.g.main m) ∧
    (k = 3 → isScalar f.a = false → { g'.main with preds := c.g.main.preds } = c.g.main ∧ h' = { h with ctl := h'.ctl } ∧
      ∀ l ∈ c.lanes, ∀ lane lo m, n < controlLines c.g.width → l < 32 → predSpot c.g.width n l = some (lane, lo, m) →
        ∀ j, j < m → predBit g'.main (lo + j) lane = (c.srcA l).testBit j) ∧
    (k = 4 → isScalar f.a = false → g' = c.g ∧ h' = { h with entries := h'.entries } ∧
      (∀ j, j ≠ n / 8 → (h'.entries.drop j).head? = entry j) ∧ ∀ e, entry (n / 8) = some e → ∃ ws,
        (h'.entries.drop (n / 8)).head? = some { e with words := ws } ∧ ∀ j l, l < 64 → tget 0 ws (64 * j + l) =
          if j = n % 8 ∧ l ∈ c.lanes then BitVec.ofNat 32 (c.srcA l) else tget 0 e.words (64 * j + l)) ∧
    (k = 5 → isScalar f.a = false → h' = h ∧ { g'.main with fstat := c.g.main.fstat, rng := c.g.main.rng } = c.g.main ∧
      ∀ l, l < 64 → (fstatOf g'.main l = if n = 0 ∧ l ∈ c.lanes then BitVec.ofNat 32 (c.srcA l % 64) else fstatOf c.g.main l) ∧
        (rngOf g'.main l).toNat % 2 ^ 32 = (if n = 1 ∧ l ∈ c.lanes then c.srcA l % 2 ^ 32 else (rngOf c.g.main l).toNat % 2 ^ 32) ∧
        (rngOf g'.main l).toNat / 2 ^ 32 = (if n = 2 ∧ l ∈ c.lanes then c.srcA l % 2 ^ 32 else (rngOf c.g.main l).toNat / 2 ^ 32)))) ∧
  (∀ (f : Fields) (s : State) (c : Ctx) (g : Group) (h : Handler), Issues s (.tret f) f c →
  let d := drainGroup s c.gid
  d.group c.gid = some g → g.handler = some h →
  (flagsPending h.thread = true → exec (.tret f) s = .next (parkGroup d c.gid (.stall .flags))) ∧
  (flagsPending h.thread = false →
    let rs := (h.entries.filter fun r => !r.skip).map fun r => { r with exec := r.exec &&& liveOf g.main }
    let s1 := freeStore d g c.gid
    let s2 := if h.reseng ∧ h.enghalt then resumeEngines s1 g.core g.ctx else s1
    let s3 := if h.info.source = 1 then applyMatact s2 g.team h.matact else s2
    let out := { g with handler := none, park := g.kept, kept := none, step := b2n h.step, heldReplays := [], heldMove := none
                        swreq := if h.swreq = 0 then g.swreq else 0 }
    ((s1.core g.core).slice g.slice).stores.1 ≠ some c.gid ∧ ((s1.core g.core).slice g.slice).stores.2 ≠ some c.gid ∧
    ∃ t, exec (.tret f) s = .next (endedMoved c (settleTeamRestore t c.g.team)) ∧
      (frontierChanged g h = true → t = endGroupCluster s3 c.gid 4 .integrity) ∧
      (frontierChanged g h = false →
        (h.action = 3 → t = endGroupCluster (s3.setGroup c.gid out) c.gid 2 h.info.cause) ∧
        (h.action = 2 → t = s3.setGroup c.gid { out with park := none, main := { g.main with frontier := [] } }) ∧
        (h.action = 1 ∨ (h.action = 0 ∧ h.entries = [] ∧ (g.heldReplays = [] ∨ h.pc ≠ h.pc0)) → ∃ fr,
          t = s3.setGroup c.gid { out with main := { g.main with frontier := fr } } ∧
          ((headOf g.main).map Entry.pc = some h.pc → fr = g.main.frontier) ∧
          ∀ e, headOf g.main = some e → LanesApart g.main.frontier → ∀ l, l < 64 →
            pcOf fr l = if e.mask.getLsbD l then some h.pc else pcOf g.main.frontier l) ∧
        (h.action = 0 → h.entries ≠ [] → rs = [] → ∃ fr, t = s3.setGroup c.gid { out with main := { g.main with frontier := fr } }) ∧
        (h.action = 0 → rs ≠ [] → t = s3.setGroup c.gid { out with replays := rs, movePc := if h.pc ≠ h.pc0 then some h.pc else none }) ∧
        (h.action = 0 → h.entries = [] → g.heldReplays ≠ [] → h.pc = h.pc0 →
          t = s3.setGroup c.gid { out with replays := g.heldReplays, movePc := g.heldMove }))))

/-- R141, R418, R419: `vcall` with a free ring slot whose pages can be written posts its record there and parks the group with its entry past
it; with none free it waits. A group parked on a call, whose slot's DONE word reads 1, has the reply in its destination in the lanes of
the call, gives the slot back and goes on; with DONE not 1 it stays parked. Log entry 21 names what is the model's choice here. -/
def Obligations.SupervisorCalls : Prop := (∀ (f : Fields) (s : State) (c : Ctx), Issues s (.vcall f) f c → c.exec = 0 → exec (.vcall f) s = .next (ended c s)) ∧
  (∀ (f : Fields) (s s1 : State) (c : Ctx) (x : Context) (hits : List Hit), Issues s (.vcall f) f c → c.exec ≠ 0 →
    s.ctx c.g.ctx = some x →
    (freeCallSlot x = none → exec (.vcall f) s = .next (parkGroup s c.gid (.room .ring))) ∧
    ∀ slot, freeCallSlot x = some slot →
      let bytes := callHeader c (x.callCount + 1) ++ callArgs c
      reachGlobal s c.core c.g.ctx .write true (callReqs c.low (x.callBase + BitVec.ofNat 64 (8192 * slot)) bytes.length) = .ok s1 hits →
      let d := putCall (touchHits (performStoresOf s1 c.gid) c.core c.g.ctx .write hits) c.core hits bytes
      ∃ t, exec (.vcall f) s = .next (endedMoved c t) ∧ t.mem = d.mem ∧
        (∀ u, t.group c.gid = some u → u.park = some (.call slot f.dst c.exec)) ∧
        (∀ y, d.ctx c.g.ctx = some y → ∃ z, t.ctx c.g.ctx = some z ∧ z.callCount = y.callCount + 1 ∧ slot ∈ z.callBusy)) ∧
  (∀ (s s1 : State) (gid slot : Nat) (g : Group) (x : Context) (dst : Operand) (m : LaneMask) (hits : List Hit),
    s.group gid = some g → g.park = some (.call slot dst m) → s.ctx g.ctx = some x →
    let a := x.callBase + BitVec.ofNat 64 (8192 * slot)
    reachGlobal s g.core g.ctx .read true [{ lane := 0, addr := a, n := 4096 }, { lane := 0, addr := a + 4096#64, n := 4096 }] =
      .ok s1 hits →
    let d := touchHits s1 g.core g.ctx .read hits
    let bs := hits.flatMap fun h => readPlace d 4096 h.place
    d.group gid = some g →
    (ofBytes ((bs.drop 24).take 8) ≠ 1 → exec (.callReplyPoll gid) s = .next d) ∧
    (ofBytes ((bs.drop 24).take 8) = 1 → ∃ t u, exec (.callReplyPoll gid) s = .next t ∧ t.group gid = some u ∧ u.park = none ∧
      t.mem = d.mem ∧ (∀ r, dst = .v r → ∀ l ∈ lanesOf m, (vreg u.thread r.val l).toNat = ofBytes ((bs.drop (0x1040 + 4 * l)).take 4)) ∧
      ∀ z, t.ctx g.ctx = some z → slot ∉ z.callBusy))

/-! ### Memory -/

/-- R33, R142: an access whose address is no multiple of its size raises 0x04, a global one at or above 2^56 raises 0x05 and a local one
outside what the team can reach raises 0x0B, for the lowest failing lane; no lane then accesses memory. R240, R242, R257: what translation
makes of a leaf: a supervisor page at user privilege and a missing right raise 0x06, in that order; a page that is not resident is asked
for; a write to a shared subpage makes a copy; otherwise the physical address of R239 and R241, under the key domain that the entry names,
or the context's own for a private subpage: where that is not the frame's, its lines are others. Log entries 16 and 69 name what is the
model's choice here. -/
def Obligations.AddressChecks : Prop :=
  (∀ (f : Fields) (s : State) (c : Ctx) (l : Nat),
  let addr (l : Nat) (off : DWord) : DWord := BitVec.ofNat 64 (c.srcA l) + off
  let n := tyBits f.ty / 8
  let cause (a : DWord) : Option Cause := if a.toNat % max n 1 ≠ 0 then some .misaligned
    else if f.space = .l then (if (localAt s c.g a.toNat n).isNone then some .localBounds else none)
    else if a.toNat ≥ 2 ^ 56 then some .translation else none
  let traps (i : Instr) (off : DWord) : Prop := f.space ≠ .k → Issues s i f c → l ∈ c.runLanes →
    (∀ k ∈ c.runLanes, k < l → cause (addr k off) = none) → ∀ x, cause (addr l off) = some x →
    exec i s = .next (finish c (.trap s { cause := x, addr := addr l off, lane := some l }))
  traps (.ld f) (sext13 f.imm13 + sext32 f.imm32) ∧ traps (.st f) (sext13 f.imm13 + sext32 f.imm32) ∧
  traps (.atom f) (sext32 f.imm32) ∧ traps (.cas f) (sext32 f.imm32) ∧ traps (.red f) (sext32 f.imm32)) ∧
  (∀ (s : State) (core ctx va : Nat) (a : Access) (priv : Bool) (x : Context) (l : Leaf),
  s.ctx ctx = some x → x.forking = false → leafFor s core ctx x a va = .leaf l →
  let right := match a with
    | .read => bit l.pte 2
    | .write => bit l.pte 3
    | .fetch => bit l.pte 4
  let copied := bit l.pte 8 && bit (l.comp / 2 ^ 32) (va / 4096 % 32)
  let ownCopy := !l.giB && copied
  let pa := if l.giB then l.pte / 2 ^ 16 % 2 ^ 32 * 65536 + va % 2 ^ 30
    else if copied then l.comp % 2 ^ 31 * 131072 + va % 131072 else l.pte / 2 ^ 16 % 2 ^ 32 * 65536 + va % 131072
  let dom := if ownCopy then x.keys.toNat % 2 ^ 14 else l.pte / 2 ^ 48 % 2 ^ 14
  let place : Place := match tfind s.frames (pa / 131072) with
    | some d => if d = dom then .mem pa else .foreign dom pa
    | none => .mem pa
  (bit l.pte 15 = true → priv = false → translate s core ctx va a priv = .fault .protection 3) ∧
  (bit l.pte 15 = false ∨ priv = true → right = false → translate s core ctx va a priv = .fault .protection 4) ∧
  (bit l.pte 15 = false ∨ priv = true → right = true → bit l.pte 10 = false → translate s core ctx va a priv = .absent (va / 131072)) ∧
  (bit l.pte 15 = false ∨ priv = true → right = true → bit l.pte 10 = true →
    (a = .write → bit l.pte 8 = true → copied = false → translate s core ctx va a priv = .cow l (va / 4096 % 32)) ∧
    (a ≠ .write ∨ bit l.pte 8 = false ∨ copied = true → translate s core ctx va a priv = .ok place l)))

/-- R26, R28, R44, R71, R144: a load whose accesses are reached, whose data are there and whose banks can take it starts an asynchronous write
of the bytes at its addresses, low byte first and extended by its type; the flag it names counts it; with no lane in `exec` nothing
happens. Constant-space loads and `ldk` read the parameter block as it stood when the grid began (R25, R156, R223). Log entries 6, 10, 14,
70 and 71 name what is the model's choice here. -/
def Obligations.LoadsPostTheirBytes : Prop := (∀ (f : Fields) (s s1 : State) (c : Ctx) (hits : List Hit), Issues s (.ld f) f c →
    (c.exec = 0 → exec (.ld f) s = .next (ended c s)) ∧
    (c.exec ≠ 0 → f.space ≠ .k → reach c s .read (requests c (tyBits f.ty / 8)) = .ok s1 hits →
      let d := settleStores c s1 hits
      hits.findSome? (busyCause d) = none → absentHit d hits = none → dataCause d hits = none →
      hits.any (bankWaits d c.gid c.g.ctx) = false →
      let viaL1 := decide (f.order ≠ .acq) && !f.fr
      let d := (rowsToOpen d hits).foldl (fun s x => openAndClose s c.core x) d
      let e := promote c (touchHits d c.core c.g.ctx .read hits) (hitLines hits)
      let r := l1After e c.core viaL1 hits
      exec (.ld f) s = .next (ended c (postResult c
        (if f.order = .acq then acquire r c.core (if f.space = .l then min f.scopeCode 2 else f.scopeCode) else r)
        (hits.flatMap fun h => regWrites f.dst c.sp.d h.lane (wrapInt f.ty (loadValue e c.core viaL1 h : Nat)))
        (if f.order = .acq then [] else lateReads c hits))))) ∧
  (∀ (c : Ctx) (s : State) (ws : List RegWrite) (late : List LateRead), ∃ (d : State) (p : Pend) (id : Nat),
    postResult c s ws late = (({ d with pends := tins s.pends id p }).modGroup c.gid fun g =>
      g.modThreadOf g.priv fun t => raiseFlag t c.f.flag) ∧
    { d with fresh := s.fresh, free := s.free } = s ∧ p.gid = c.gid ∧ p.flag = c.f.flag ∧ p.inHandler = c.g.priv ∧ s.clock < p.due ∧
    p.writes = ws ∧ p.late = late) ∧
  (∀ (f : Fields) (s : State) (c : Ctx) (g : Grid) (pte comp : DWord) (giB : Bool),
    gridOf s c.g = some g → g.param = .leaf pte comp giB → bit pte.toNat 2 = true → bit pte.toNat 10 = true →
    bit pte.toNat 15 = false ∨ c.g.priv = true →
    let n := tyBits f.ty / 8
    let fits (a : DWord) : Prop := a.toNat % Nat.max n 1 = 0 ∧ a.toNat + n ≤ 65536
    let bytes (a : DWord) : Nat := ofBytes ((fromTo a.toNat n).map (paramByte s g))
    let at' (l : Nat) (a : DWord) : List Hit := (paramPlace s g (a.toNat / 4096)).toList.map fun p =>
      { lane := l, addr := BitVec.ofNat 64 g.pkt.params + a, n := n, place := p.plus (a.toNat % 4096) }
    let clean (hs : List Hit) : Prop := ∀ h ∈ hs, placeCause s n h.place = none
    let off : DWord := sext13 f.imm13 + sext32 f.imm32
    let addr (l : Nat) : DWord := BitVec.ofNat 64 (c.srcA l) + off
    let addrK : DWord := BitVec.ofNat 64 (c.srcA c.low % 2 ^ 32) + off
    let hits := c.runLanes.flatMap fun l => at' l (addr l)
    (Issues s (.ld f) f c → f.space = .k → c.exec ≠ 0 → (∀ l ∈ c.runLanes, fits (addr l)) → clean hits →
      exec (.ld f) s = .next (ended c (postResult c (touchParams s c.core g hits) (c.runLanes.flatMap fun l =>
        regWrites f.dst c.sp.d l (wrapInt f.ty (bytes (addr l) : Nat)))))) ∧
    (Issues s (.ldk f) f c → c.exec = 0 → exec (.ldk f) s = .next (ended c s)) ∧
    (Issues s (.ldk f) f c → c.exec ≠ 0 → fits addrK → clean (at' c.low addrK) →
      exec (.ldk f) s = .next (ended c (postResult c (touchParams s c.core g (at' c.low addrK))
        (regWrites f.dst c.sp.d c.low (wrapInt f.ty (bytes addrK : Nat)))))))

/-- R26 to R28, R147: when a result is due its registers take it, its flag count falls and it is no longer on its way; before that only lanes
of a flagged result whose own clock has come take theirs, and the count stands. A read that may still be performed gives each aligned word
as it was read or as it stands now. Memory, other groups and everything else but the L1 stay as they were. Log entries 6 and 70 name what
is the model's choice here. -/
def Obligations.ResultsLandWhenDue : Prop := ∀ (s : State) (id : Nat) (p : Pend), tfind s.pends id = some p →
  (s.clock < p.due → ∃ (t : State), exec (.asyncWriteLand id) s = .next t ∧
    { t with pends := s.pends, groups := s.groups, cores := s.cores } = s ∧ (∀ j, j ≠ id → tfind t.pends j = tfind s.pends j) ∧
    (∃ q, tfind t.pends id = some q ∧ q.flag = p.flag ∧ q.due = p.due) ∧ (∀ j, j ≠ p.gid → t.group j = s.group j) ∧
    ∀ g, s.group p.gid = some g → g.priv = p.inHandler → ∃ (u : Group), t.group p.gid = some u ∧
      (∀ k, flagCount u.thread k = flagCount g.thread k) ∧
      (∀ r l, l < 64 → (∀ w ∈ p.writes, w.scalar = false → w.pred = false →
          w.lane < 64 ∧ (w.reg ≠ r ∨ w.lane ≠ l ∨ p.flag = none ∨ s.clock < p.laneDue l)) →
        vreg u.thread r l = vreg g.thread r l) ∧
      (∀ w, p.writes = [w] → p.late = [] → w.scalar = false → w.pred = false → p.flag ≠ none → p.laneDue w.lane ≤ s.clock →
        vreg u.thread w.reg w.lane = w.value)) ∧
  (p.due ≤ s.clock → ∃ (t : State), exec (.asyncWriteLand id) s = .next t ∧ tfind t.pends id = none ∧
    (∀ j, j ≠ id → tfind t.pends j = tfind s.pends j) ∧ { t with pends := s.pends, groups := s.groups, cores := s.cores } = s ∧
    (∀ j, j ≠ p.gid → t.group j = s.group j) ∧
    ∀ g, s.group p.gid = some g → g.priv = p.inHandler → ∃ (u : Group), t.group p.gid = some u ∧
      (∀ k, p.flag = some k → flagCount u.thread k = flagCount g.thread k - 1) ∧
      (∀ k, p.flag ≠ some k → flagCount u.thread k = flagCount g.thread k) ∧
      (∀ w, p.writes = [w] → p.late = [] → w.scalar = false → w.pred = false → vreg u.thread w.reg w.lane = w.value) ∧
      (∀ w, p.writes = [w] → p.late = [] → w.scalar = true → w.pred = false → sreg u.thread w.reg = w.value) ∧
      (∀ w l, p.writes = [w] → p.late = [l] → l.lane = w.lane → l.n = 4 → l.sext = 0 → l.place.offset % 4 = 0 → w.scalar = false →
        w.pred = false → vreg u.thread w.reg w.lane = w.value ∨
          vreg u.thread w.reg w.lane = BitVec.ofNat 32 (ofBytes (readPlace s 4 l.place))) ∧
      (∀ r l, l < 64 → (∀ w ∈ p.writes, w.scalar = false → w.pred = false → w.lane < 64 ∧ (w.reg ≠ r ∨ w.lane ≠ l)) →
        vreg u.thread r l = vreg g.thread r l))

/-- R144, R146, R147, R293: a store whose accesses are reached enters the store path, cut at multiples of 4 bytes, with the bytes of its
lanes, low byte first, at the places its addresses name, and its flag counts it; no byte of any memory has changed by it yet. One to
column objects is performed as it is accepted (R266). R144 to R147, R486: a store that is due and that no die-edge switch holds is
performed: the bytes of a write to module memory stand at its address, every other byte of module memory is as before, and the store has
left the path; before that, its pieces whose own clock has come are. A crossing one that must wait stands at its switch, another waits
where it is (R304). A peer store whose target has passed to a new allocation drops its lanes there, which count in DROPPED, and is over
when none is left (R349). Log entries 6, 55, 61 and 71 name what is the model's choice here. -/
def Obligations.StoresAndTheirPath : Prop :=
  ((∀ (f : Fields) (s s1 : State) (c : Ctx) (hits : List Hit), Issues s (.st f) f c →
    (c.exec = 0 → exec (.st f) s = .next (ended c s)) ∧
    (c.exec ≠ 0 → reach c s .write (requests c (tyBits f.ty / 8)) = .ok s1 hits → absentHit s1 hits = none →
      (peerRoom s1 c.gid hits = false → exec (.st f) s = .next (parkGroup s1 c.gid (.stall (.counter 3 (peerCount hits))))) ∧
      (peerRoom s1 c.gid hits = true → hits.findSome? (busyCause s1) = none → hits.any (bankWaits s1 c.gid c.g.ctx) = false →
      let d := (rowsToOpen s1 hits).foldl (fun s x => openAndClose s c.core x) s1
      let rel := decide (f.order = .rel ∨ f.order = .ar)
      let wide := if f.space = .l then min f.scopeCode 2 else f.scopeCode
      let d := touchHits (spendOnStore c d hits) c.core c.g.ctx .write hits
      let d := if rel then settleScope d c.gid wide else d
      let ws : List StoreWrite := hits.map fun h => { place := h.place, bytes := toBytes h.n (c.srcB h.lane), gen := peerGen d h }
      exec (.st f) s = .next (ended c (if hits.any fun h => (bankOf h.place).isSome then storeNow c d ws
        else enterPath c d ws (hits.filter fun h => h.peer.isSome).length (rel && decide (3 ≤ wide))
          (rel && f.space != .l && decide (wide < 2))))))) ∧
  (∀ (c : Ctx) (d : State) (ws : List StoreWrite) (peers : Nat) (release tag : Bool), ∃ (id : Nat) (p : PendStore),
    let t := enterPath c d ws peers release tag
    tfind t.stores id = some p ∧ (∀ j, j ≠ id → tfind t.stores j = tfind d.stores j) ∧ p.gid = c.gid ∧ p.core = c.core ∧ p.flag = c.f.flag ∧
    p.ops.length = peers ∧ p.release = release ∧ p.tag = tag ∧ t.clock < p.due ∧ t.mem = d.mem ∧ t.foreign = d.foreign ∧
    (∀ k, (t.core k).scratch = (d.core k).scratch ∧ (t.core k).rows = (d.core k).rows) ∧
    p.writes = ws.flatMap (fun w => cutWrite w.bytes.length w) ∧ (∀ w ∈ p.writes, w.place.offset % 4 + w.bytes.length ≤ 4) ∧
    ∀ w ∈ ws, ∀ k, k < w.bytes.length → ∃ x ∈ p.writes, ∃ j, j < x.bytes.length ∧ x.place.plus j = w.place.plus k ∧
      x.bytes[j]? = w.bytes[k]?)) ∧
  (∀ (s : State) (id : Nat) (p : PendStore), tfind s.stores id = some p →
  let held := (tget [] s.heldRel p.core).contains id
  let apart : Prop := ∀ q ∈ s.stores, q.1 < id → storesMeet q.2 p = false
  (s.clock < p.due → (∀ w ∈ p.writes, s.clock < p.pieceDue w) → exec (.storePerform id) s = .next s) ∧
  (held = true → exec (.storePerform id) s = .next s) ∧
  (p.due ≤ s.clock → held = false → mustHold s p = true → exec (.storePerform id) s = .next (if crosses p
    then { s with heldRel := tput [] s.heldRel p.core (tget [] s.heldRel p.core ++ [id]) } else s)) ∧
  (s.clock < p.due → (∃ w ∈ p.writes, p.pieceDue w ≤ s.clock) → held = false → mustHold s p = false → apart → ∃ (t : State),
    exec (.storePerform id) s = .next t ∧
    tfind t.stores id = some { p with writes := p.writes.filter fun w => !decide (p.pieceDue w ≤ s.clock) } ∧
    (∀ a, (∀ w ∈ p.writes, p.pieceDue w ≤ s.clock → ∀ pa, w.place = .mem pa → a < pa ∨ pa + w.bytes.length ≤ a) →
      readByte t a = readByte s a)) ∧
  (p.due ≤ s.clock → held = false → mustHold s p = false → apart → ∃ (t : State), exec (.storePerform id) s = .next t ∧
    tfind t.stores id = none ∧
    (∀ a, (∀ w ∈ p.writes, ∀ pa, w.place = .mem pa → a < pa ∨ pa + w.bytes.length ≤ a) → readByte t a = readByte s a) ∧
    (∀ w pa, p.writes = [w] → w.place = .mem pa → ∀ k, k < w.bytes.length → readByte t (pa + k) = w.bytes.getD k 0) ∧
    (∀ w core off, p.writes = [w] → w.place = .scratch core off → writeStale s w = false → t.mem = s.mem ∧
      ∀ k, k < w.bytes.length → tget 0 (t.core core).scratch (off + k) = w.bytes.getD k 0)) ∧
  (∀ x : Context, s.ctx p.ctx = some x →
    let stale := p.writes.filter (writeStale s)
    let live := p.writes.filter fun w => !writeStale s w
    (stale = [] → exec (.generationDrop id) s = .next s) ∧
    (stale ≠ [] → ∃ (t : State) (y : Context), exec (.generationDrop id) s = .next t ∧ t.mem = s.mem ∧ t.ctx p.ctx = some y ∧
      y.dropped = min (x.dropped + stale.length) (2 ^ 64 - 1) ∧
      (live ≠ [] → tfind t.stores id = some { p with writes := live }) ∧ (live = [] → tfind t.stores id = none))))

/-- R149 to R152: the read-modify-write of each lane in turn, at the point of coherence, with R152's new value; the returning forms deliver
the old values. A release waits for the acknowledgements of its core's crossing writes (R304). Log entries 10 and 71 name what is the
model's choice here. -/
def Obligations.AtomicsReadModifyWrite : Prop := ∀ (f : Fields) (s s1 : State) (c : Ctx) (hits : List Hit),
  let n := tyBits f.ty
  let b (l : Nat) : Nat := c.srcB l % 2 ^ n
  let k := f.imm13.toNat
  let less (x y : Nat) : Bool := decide (readInt f.ty x < readInt f.ty y)
  let m := Fields.fmt f
  -- R152
  let new (l old : Nat) : Option Nat := some (
    if k = 0 then (old + b l) % 2 ^ n else if k = 1 then (if less (b l) old then b l else old)
    else if k = 2 then (if less old (b l) then b l else old) else if k = 3 then old &&& b l else if k = 4 then old ||| b l
    else if k = 5 then old ^^^ b l else if k = 6 then b l else if k = 7 then (if old ≥ b l then 0 else old + 1)
    else if k = 8 then (if old = 0 ∨ old > b l then b l else old - 1)
    else if k = 9 then (perElem f.ty fun e => packF m .rne (sumF .rne [unpackF m (elemOf f.ty old e), unpackF m (elemOf f.ty (b l) e)])).1
    else if k = 10 then (minmaxF fmtF32 false false old (b l)).1 else (minmaxF fmtF32 true false old (b l)).1)
  let swap (l old : Nat) : Option Nat := if old = b l then some (c.srcC l % 2 ^ n) else none
  let rel := decide (f.order = .rel ∨ f.order = .ar)
  let acq := decide (f.order = .acq ∨ f.order = .ar)
  let wide := if f.space = .l then min f.scopeCode 2 else f.scopeCode
  let runs (i : Instr) (new : Nat → Nat → Option Nat) (returns : Bool) : Prop := Issues s i f c →
    (c.exec = 0 → exec i s = .next (ended c s)) ∧
    (c.exec ≠ 0 → reach c s .write (requests c (n / 8)) = .ok s1 hits →
      let d := settleStores c s1 hits
      hits.findSome? (busyCause d) = none → absentHit d hits = none → dataCause d hits = none →
      (peerRoom d c.gid hits = false → exec i s = .next (parkGroup d c.gid (.stall (.counter 3 (peerCount hits))))) ∧
      (peerRoom d c.gid hits = true → hits.any (bankWaits d c.gid c.g.ctx) = false →
      let d := (rowsToOpen d hits).foldl (fun s x => openAndClose s c.core x) d
      let d := if rel then settleScope d c.gid wide else d
      if rel ∧ 3 ≤ wide ∧ tget 0 d.fences c.core ≠ 0 then exec i s = .next (parkGroup d c.gid (.stall .acks)) else
      let d := promote c (touchHits (spendRestart d c.g) c.core c.g.ctx .write hits) (hitLines hits)
      let r := hits.foldl (rmwLane c new) (d, [])
      let e := if rel ∧ f.space ≠ .l ∧ wide < 2
        then { r.1 with tags := (hitLines hits).foldl (tagLine c.core r.1.fresh) r.1.tags } else r.1
      let e := if acq then acquire e c.core wide else e
      exec i s = .next (ended c (postResult c e (if returns then
        r.2.flatMap fun v => regWrites f.dst c.sp.d v.1 (wrapInt f.ty (v.2 : Nat)) else [])))))
  (k < 12 → runs (.atom f) new true ∧ runs (.red f) new false) ∧ runs (.cas f) swap true

/-- R148, R153 to R155, R293, R304: a fence at `.clu` or wider performs the group's earlier stores, a narrower one those to scratchpads and
columns, a releasing one at `.die` or wider waits for acknowledgements; an acquiring one at `.die` scope or wider drops the L1's lines of
writable pages. `cinv.all` drops them too; `cinv.line` and `pf` raise nothing. None changes a register. R234, R323: `lpq` reads 1 where
the line of its address is present and 0 where an engine has still to fill it, and raises 0x0B outside the scratchpads; a group that
waited for a line goes on when it has been filled. Log entries 13 and 14 name what is the model's choice here. -/
def Obligations.FencesCachesAndPresence : Prop :=
  (∀ (f : Fields) (s : State) (c : Ctx),
  let wide := if f.space = .l then min f.scopeCode 2 else f.scopeCode
  (Issues s (.fence f) f c → c.exec = 0 → exec (.fence f) s = .next (ended c s)) ∧
  (Issues s (.fence f) f c → c.exec ≠ 0 →
    let d := if 2 ≤ wide then performStoresOf s c.gid else performLocalOf s c.gid
    let e := promote c d (d.tags.map fun x => x.1)
    (f.order = .rel ∨ f.order = .ar → 3 ≤ wide → tget 0 d.fences c.core ≠ 0 →
      exec (.fence f) s = .next (parkGroup d c.gid (.stall .acks))) ∧
    ((f.order ≠ .rel ∧ f.order ≠ .ar) ∨ wide < 3 ∨ tget 0 d.fences c.core = 0 → exec (.fence f) s = .next (ended c
      (if f.order ≠ .acq ∧ f.order ≠ .ar then e else if 3 ≤ wide then l1DropAll e c.core else if wide = 2 then l1Pass e c.core else e)))) ∧
  (Issues s (.cinvAll f) f c → exec (.cinvAll f) s = .next (ended c (if c.exec = 0 then s else l1DropAll s c.core))) ∧
  (Issues s (.cinvLine f) f c → ∃ (t : State), exec (.cinvLine f) s = .next (ended c t) ∧ t.mem = s.mem ∧ t.groups = s.groups ∧
    t.stores = s.stores ∧ t.pends = s.pends ∧ (∀ l ∈ c.lanes, ∀ a p leaf, quietPlace c s l = some (a, p, leaf) → p.offset < 2 ^ 48 →
      ∀ u ∈ p.units 1 32, tfind (t.core c.core).l1 u = none)) ∧
  (Issues s (.pf f) f c → ∃ (t : State), exec (.pf f) s = .next (ended c t) ∧ t.groups = s.groups ∧ t.stores = s.stores ∧ t.pends = s.pends)) ∧
  (∀ (f : Fields) (s : State) (c : Ctx),
  let a (l : Nat) : Nat := (BitVec.ofNat 64 (c.srcA l) : DWord).toNat
  let scratch (l : Nat) : Prop := ∃ core off q, localAt s c.g (a l) 1 = some (.scratch core off, q)
  (Issues s (.lpq f) f c → c.exec = 0 → exec (.lpq f) s = .next (ended c s)) ∧
  (Issues s (.lpq f) f c → c.exec ≠ 0 → ∀ at' : Nat → Nat × Nat,
    (∀ l ∈ c.runLanes, ∃ q, localAt s c.g (a l) 1 = some (.scratch (at' l).1 (at' l).2, q)) →
    ∃ (v : Nat → Nat) (r : Thread), exec (.lpq f) s = .next (ended c (setThreadOf s c.gid r)) ∧ Wrote { c with sp := { c.sp with d := 1 } } v (fun _ => 0) r ∧
      ∀ l ∈ c.runLanes, v l = if tget 0 (s.core (at' l).1).absent ((at' l).2 / 128) = 0 then 1 else 0) ∧
  (Issues s (.lpq f) f c → ∀ l ∈ c.runLanes, ¬ scratch l → (∀ k ∈ c.runLanes, k < l → scratch k) →
    exec (.lpq f) s = .next (finish c (.trap s { cause := .localBounds, addr := BitVec.ofNat 64 (c.srcA l), lane := some l }))) ∧
  (∀ gid g core line, s.group gid = some g → g.park = some (.presence core line) →
    (tget 0 (s.core core).absent line = 0 → exec (.presenceUnpark gid) s = .next (s.setGroup gid { g with park := none })) ∧
    (tget 0 (s.core core).absent line ≠ 0 → exec (.presenceUnpark gid) s = .next s)))

/-- R160, R161, R164, R165, R167: image reads. With descriptors that are valid and fit, and texels that are reached, the result of each lane
is on its way: the weighted sum of the footprint's channels (`smp`), one channel of four texels (`smpg`), the channels of one texel, zeros
outside the image (`ldi`), or a field of the descriptor (`txq`). A descriptor that is invalid or unfit raises 0x06 with AUX 5. The weights
of a sample add up to one (R162, R163). R161, R166: an image store of a writable image puts the channels of each lane's texel in the store
path at the texel's address, and stores nothing outside the image; a descriptor that is invalid or unfit raises 0x06 with AUX 5. Log entry
11 names what is the model's choice here. -/
def Obligations.ImageAccesses : Prop :=
  ((∀ d a : Nat, ((sampleTaps d a).map Tap.w).foldl (· + ·) 0 = 256 ^ 4) ∧
    ∀ (f : Fields) (s s1 s2 : State) (c : Ctx) (ds ts : List (Nat × DWord × Nat)),
  let descs := c.runLanes.map fun l => ({ lane := l, addr := BitVec.ofNat 64 (c.srcB l), n := 64 } : Req)
  let texels (taps : Nat → Nat → List Tap) : List Req := ds.flatMap fun x => tapReqs x.1 x.2.2 (taps x.2.2 (c.srcA x.1))
  let chan (x : Nat × DWord × Nat) (t : Tap) (i : Nat) : Chan := tapChan ts x.1 x.2.2 t i
  let starts (i : Instr) (unfit : Nat → Bool) : Prop := Issues s i f c →
    (c.exec = 0 → exec i s = .next (ended c s)) ∧
    (c.exec ≠ 0 → PlainReads c s true descs s1 ds → ∀ v, (ds.find? fun v => imInvalid v.2.2 || unfit v.2.2) = some v →
      exec i s = .next (finish c (.trap s1 { cause := .protection, addr := v.2.1, aux := 5, lane := some v.1 })))
  let reads (i : Instr) (unfit : Nat → Bool) (taps : Nat → Nat → List Tap) (result : Nat × DWord × Nat → Nat) : Prop :=
    starts i unfit ∧ (Issues s i f c → c.exec ≠ 0 → PlainReads c s true descs s1 ds →
    (∀ v ∈ ds, imInvalid v.2.2 = false ∧ unfit v.2.2 = false) → PlainReads c s1 false (texels taps) s2 ts →
    exec i s = .next (ended c (postResult c s2 (ds.flatMap fun x => regWrites f.dst c.sp.d x.1 (result x)))))
  reads (.smp f) (fun d => formatInt (imFormat d)) sampleTaps (fun x => packWords ((fromTo 0 4).map fun i =>
    packChan (weightedSum (256 ^ 4) ((sampleTaps x.2.2 (c.srcA x.1)).map fun t => (t.w, chan x t i))))) ∧
  reads (.smpg f) (fun d => formatInt (imFormat d) || imDim d == 0 || imDim d == 2) gatherTaps (fun x => packWords
    ((gatherTaps x.2.2 (c.srcA x.1)).map fun t => packChan (chan x t (f.imm13.toNat % 4)))) ∧
  reads (.ldi f) (fun d => (f.ty == .n32) != formatInt (imFormat d)) plainTap (fun x => match plainTap x.2.2 (c.srcA x.1) with
    | t :: _ => packWords ((fromTo 0 4).map fun i => if formatInt (imFormat x.2.2) then plainWord x.2.2 (chan x t i)
        else packChan (chan x t i))
    | [] => 0) ∧
  starts (.txq f) (fun _ => false) ∧
  (Issues s (.txq f) f c → c.exec ≠ 0 → PlainReads c s true descs s1 ds → (∀ v ∈ ds, imInvalid v.2.2 = false) →
    exec (.txq f) s = .next (ended c (postResult c s1 (ds.flatMap fun x => regWrites f.dst 1 x.1
      (let k := toSigned 32 (c.srcA x.1)
       let inRange := 0 ≤ k ∧ k < (imLevels x.2.2 : Int)
       let q := f.imm13.toNat % 8
       if q = 0 then (if inRange then max 1 (imWidth x.2.2 / 2 ^ k.toNat) else 0)
       else if q = 1 then (if inRange then max 1 (imHeight x.2.2 / 2 ^ k.toNat) else 0)
       else if q = 2 then (if inRange then levelD x.2.2 k.toNat else 0)
       else if q = 3 then imLevels x.2.2 else if q = 4 then imFormat x.2.2 else imDim x.2.2)))))) ∧
  (∀ (f : Fields) (s s1 s2 : State) (c : Ctx) (ds : List (Nat × DWord × Nat)) (hits : List Hit),
  Issues s (.sti f) f c → (c.exec = 0 → exec (.sti f) s = .next (ended c s)) ∧ (c.exec ≠ 0 →
  let descs := c.runLanes.map fun l => ({ lane := l, addr := BitVec.ofNat 64 (c.srcC l), n := 64 } : Req)
  let bad (d : Nat) : Bool := imInvalid d || ((f.ty == .n32) != formatInt (imFormat d)) || !bit d 160
  PlainReads c s true descs s1 ds →
  (∀ v, ds.find? (fun v => bad v.2.2) = some v → exec (.sti f) s = .next (finish c (.trap s1
    { cause := .protection, addr := v.2.1, aux := 5, lane := some v.1 }))) ∧
  ((∀ v ∈ ds, bad v.2.2 = false) →
    let rs := ds.flatMap fun x => tapReqs x.1 x.2.2 (plainTap x.2.2 (c.srcA x.1))
    addrCauses s1 c.g .g rs = none → reachGlobal s1 c.core c.g.ctx .write c.g.priv rs = .ok s2 hits →
    let d := touchHits (spendRestart s2 c.g) c.core c.g.ctx .write hits
    let val (l : Nat) : Nat := match ds.find? fun x => x.1 == l with
      | some x => storeTexel (imFormat x.2.2) (c.srcB l)
      | none => 0
    exec (.sti f) s = .next (ended c (enterPath c d (hits.map fun h => { place := h.place, bytes := toBytes h.n (val h.lane), gen := peerGen d h })
      0 false false)))))

/-! ### Barriers, registers and launches -/

/-- R203 to R206, R389, R390: arrivals and waits at team (0), cluster (1) and matrix (2) barriers. An arrival releases the group's earlier
stores, counts, and flips the phase with the last one; the arriving forms deliver the phase of the arrival, or wait for it to end; a wait
passes when the phase differs from its token. Only the barrier named changes. A matrix arrival waits while the arrivals of its phase are
complete, or 63 of its group count. -/
def Obligations.BarrierArrivalsAndWaits : Prop := ∀ (f : Fields) (s : State) (c : Ctx) (t : Team), s.team c.g.team = some t →
  let n := f.imm13.toNat
  let ask := c.srcB c.low % 2 ^ 32
  let old (kind : Nat) : Barrier := barrierOf s c.g kind n
  let groups (kind : Nat) : Nat := if kind = 1 then clusterGroups s t.cluster else liveGroups s c.g.team
  let want (kind : Nat) : Nat := (old kind).expected.getD (if ask = 0 then groups kind else min ask 4095)
  let full (kind : Nat) : Prop := want kind ≤ (old kind).count + 1
  let ends (kind : Nat) : Bool := if kind = 2 then (if t.streamLive then (old 2).seqArrived && (decide (full 2) || groups 2 == 0)
    else decide (full 2)) else decide (full kind)
  let arrived (kind : Nat) (u : State) : Prop :=
    let b := barrierOf u c.g kind n
    b.phase = (if ends kind then !(old kind).phase else (old kind).phase) ∧
    b.count = (if ends kind then 0 else (old kind).count + 1) ∧
    b.expected = (if ends kind then none else some (want kind)) ∧
    b.lastCode = (if ends kind ∧ kind = 2 then (if t.streamLive then (old 2).seqCode else 0xFF) else (old kind).lastCode) ∧
    (∀ k m, k ≠ kind ∨ m ≠ n → k ≤ 2 → barrierOf u c.g k m = barrierOf s c.g k m) ∧
    u.mem = (if kind = 2 then drainGroup s c.gid else if kind = 1 then performStoresOf s c.gid else performLocalOf s c.gid).mem
  let open' (kind : Nat) : Prop := (kind = 1 → s.cluster t.cluster ≠ none) ∧
    (kind = 2 → (∀ k, (old 2).expected = some k → (old 2).count < k) ∧ counterOf c.g 1 < 63)
  let delivers (u : State) (x : Nat) : Prop := ∀ d, f.dst = .s d → ∀ g, u.group c.gid = some g →
    swide g.thread d.val c.sp.d = x % 2 ^ (32 * c.sp.d)
  let arrives (kind : Nat) (i : Instr) : Prop := Issues s i f c → open' kind → ∃ u, exec i s = .next (ended c u) ∧ arrived kind u ∧
    delivers u (if (old kind).phase then 1 else 0)
  let arrivesAndWaits (kind : Nat) (i : Instr) : Prop := Issues s i f c → open' kind → ∃ u, arrived kind u ∧
    (ends kind = true → exec i s = .next (ended c u) ∧
      (kind = 2 → delivers u (if t.streamLive then (old 2).seqCode else 0xFF))) ∧
    (ends kind = false → exec i s = .next (endedMoved c u) ∧
      ∀ g, u.group c.gid = some g → g.park = some (.arrived kind n (old kind).phase f.dst))
  let waits (kind : Nat) (i : Instr) : Prop := Issues s i f c →
    ((old kind).phase ≠ (c.srcA c.low).testBit 0 → ∃ u, exec i s = .next (ended c u) ∧ (kind = 0 → u = s) ∧ (kind = 1 → u = l1Pass s c.core) ∧
      (kind = 2 → delivers u (old 2).lastCode)) ∧
    ((old kind).phase = (c.srcA c.low).testBit 0 →
      exec i s = .next (parkGroup s c.gid (.token kind n ((c.srcA c.low).testBit 0))))
  let holds (i : Instr) : Prop := Issues s i f c →
    (∀ k, (old 2).expected = some k → k ≤ (old 2).count → exec i s = .next (parkGroup s c.gid (.heldArrival n))) ∧
    ((∀ k, (old 2).expected = some k → (old 2).count < k) → 63 ≤ counterOf c.g 1 →
      exec i s = .next (parkGroup s c.gid (.stall (.counter 1 1))))
  arrives 0 (.bta f) ∧ arrives 1 (.bclArr f) ∧ arrives 2 (.msyncArr f) ∧
  arrivesAndWaits 0 (.bt f) ∧ arrivesAndWaits 1 (.bcl f) ∧ arrivesAndWaits 2 (.msync f) ∧
  holds (.msync f) ∧ holds (.msyncArr f) ∧ waits 0 (.btw f) ∧ waits 1 (.bclWait f) ∧ waits 2 (.msyncWait f) ∧
  (∀ (gid : Nat) (g : Group) (m : Nat) (p : Bool) (dst : Operand), s.group gid = some g →
    (g.park = some (.arrived 1 m p dst) → exec (.clusterBarrierResume gid) s = .next (if (barrierOf s g 1 m).phase = p then s
      else (l1Pass s g.core).setGroup gid { g with park := none })) ∧
    (g.park = some (.token 1 m p) → exec (.clusterBarrierResume gid) s = .next (if (barrierOf s g 1 m).phase = p then s
      else s.setGroup gid { g with park := none })))

/-- R207 to R210: register counts. `vgrow` and `sgrow` reach a larger count when the lines are free and no older request waits, are refused
beyond what the context can allocate or in a handler, and wait otherwise; with `.chk` they write 1 or 0 and never wait. `vshrink` waits
for writes to what it gives up. `rgn` changes no register. A request that waits issues again when it can be served or must be refused. -/
def Obligations.RegisterCounts : Prop := ∀ (f : Fields) (s : State) (c : Ctx),
  let n := f.imm13.toNat
  let lines (nv ns : Nat) : Nat := passesOf c.g.width * nv + (ns + 31) / 32
  let grows (i : Instr) (scalar : Bool) : Prop := Issues s i f c →
    let now := if scalar then c.t.ns else c.t.nv
    let need := if scalar then lines 0 n - lines 0 c.t.ns else lines n 0 - lines c.t.nv 0
    let refused : Prop := c.g.priv = true ∨ linesOf c.g + need > lineLimit s c.core c.g.ctx
    let free : Prop := (∀ x ∈ growQueue s c.core c.g.slice c.g.ctx, ∃ r, c.g.request = some r ∧ r < x.2) ∧ need ≤ freeLines s c.core c.g.slice c.g.ctx
    let answers (u : State) (x : Nat) : State := if f.opt then writeChk c u x else u
    (n ≤ now → exec i s = .next (ended c (answers s 1))) ∧
    (now < n → ¬ refused → free → ∃ u g, exec i s = .next (ended c (answers u 1)) ∧ SameButGroup c.gid s u ∧ u.group c.gid = some g ∧
      { g with main := c.g.main, lineBanks := c.g.lineBanks } = c.g ∧
      g.lineBanks = c.g.lineBanks ++ [(if scalar then 0 else now, ownedBanks s c.core c.g.ctx)] ∧
      g.main = if scalar then { c.g.main with ns := n } else { c.g.main with nv := n }) ∧
    (now < n → f.opt = true → refused ∨ ¬ free → exec i s = .next (ended c (writeChk c s 0))) ∧
    (now < n → f.opt = false → refused → exec i s = .next (finish c (.trap s { cause := .growRefused, aux := BitVec.ofNat 64 n }))) ∧
    (now < n → f.opt = false → ¬ refused → ¬ free → ∃ u seq, exec i s = .next (parkGroup u c.gid (.grow scalar n seq)) ∧
      u.groups = s.groups ∧ u.mem = s.mem ∧ ∀ r, c.g.request = some r → seq = r)
  grows (.vgrow f) false ∧ grows (.sgrow f) true ∧
  (Issues s (.vshrink f) f c → c.t.nv ≤ n → exec (.vshrink f) s = .next (ended c s)) ∧
  (Issues s (.vshrink f) f c → n < c.t.nv → writesAbove s c.gid c.g.priv n = true → exec (.vshrink f) s =
    .next (parkGroup s c.gid (.stall (.above n)))) ∧
  (Issues s (.vshrink f) f c → n < c.t.nv → writesAbove s c.gid c.g.priv n = false → ∃ u g, exec (.vshrink f) s = .next (ended c u) ∧
    SameButGroup c.gid s u ∧ u.group c.gid = some g ∧ g.thread.nv = n ∧ (∀ r l, l < 64 → r < n → vreg g.thread r l = vreg c.t r l) ∧
    { g.thread with nv := c.t.nv, vregs := c.t.vregs, staged := c.t.staged } = c.t) ∧
  (Issues s (.rgn f) f c → ∃ r, exec (.rgn f) s = .next (ended c (setThreadOf s c.gid r)) ∧ { r with staged := c.t.staged } = c.t) ∧
  (∀ (core slice ctx gid seq : Nat) (rest : List (Nat × Nat)) (g : Group) (scalar : Bool) (m k : Nat),
    growQueue s core slice ctx = (gid, seq) :: rest → s.group gid = some g → g.park = some (.grow scalar m k) →
    gatedOn s core ctx = false → causeDue g = false →
    let need := if scalar then (m + 31) / 32 - (g.main.ns + 31) / 32 else (m - g.main.nv) * passesOf g.width
    exec (.registerGrowRetry core slice ctx) s = .next
      (if linesOf g + need > lineLimit s core ctx ∨ need ≤ freeLines s core slice ctx then
        let u := s.setGroup gid { g with park := none, request := some k }
        { u with agenda := .issue gid :: u.agenda }
      else s))

/-- R211, R216: `lnch` offers the 64 bytes at each lane's address to the queue it names, lowest lane first, and writes 0 where the queue took
them and 1 where it held 256. R212, R213: `srd` writes the special register; with its option it then clears FSTAT in the lanes of `exec`. -/
def Obligations.LaunchesAndSpecialRegisters : Prop := ∀ (f : Fields) (s : State) (c : Ctx),
  (Issues s (.lnch f) f c → c.exec = 0 → exec (.lnch f) s = .next (ended c s)) ∧
  (∀ s1 vals, Issues s (.lnch f) f c → c.exec ≠ 0 →
    PlainReads c s false (c.runLanes.map fun l => { lane := l, addr := BitVec.ofNat 64 (c.srcA l), n := 64 }) s1 vals →
    let d := spendRestart (performStoresOf s1 c.gid) c.g
    let fe := ((gridOf s c.g).map Grid.fe).getD 0
    let q := 8 + f.imm13.toNat
    let room := 256 - (d.queue fe q).posts.length
    ∃ (u : State), exec (.lnch f) s = .next (ended c (u.modGroup c.gid fun g => g.setThread ((fromTo 0 vals.length).foldl (fun t k =>
        writeOperand t ((vals.getD k (0, 0, 0)).1) c.sp.d (if k < room then 0 else 1) f.dst) g.thread))) ∧
      u.groups = d.groups ∧ u.mem = d.mem ∧
      (u.queue fe q).posts = (d.queue fe q).posts ++ (vals.take room).map fun v => (c.g.ctx, toBytes 64 v.2.2)) ∧
  (Issues s (.srd f) f c → ∃ v r, exec (.srd f) s = .next (ended c (setThreadOf s c.gid r)) ∧
    Wrote c v (fun _ => 0) { r with fstat := c.t.fstat } ∧
    (∀ l, l < 64 → fstatOf r l = if f.opt = true ∧ l ∈ c.lanes then 0 else fstatOf c.t l) ∧ ∀ l ∈ c.lanes,
    let k := f.imm13.toNat
    (k = 0x00 → v l = l) ∧ (k = 0x01 → v l = c.g.width) ∧ (k = 0x02 → v l = c.g.g) ∧ (k = 0x05 → v l = c.g.cindex) ∧
    (k = 0x0B → v l = c.g.core) ∧ (k = 0x0D → v l = c.g.slice) ∧ (k = 0x0E → v l = c.g.ctx) ∧
    (k = 0x0F → v l = (fstatOf c.t l).toNat) ∧ (k = 0x10 → v l = s.clock - (s.core c.g.core).clk0) ∧
    (k = 0x11 → ∀ x, s.ctx c.g.ctx = some x → v l = x.ctime) ∧ (k = 0x13 → v l = c.e.prio.toNat) ∧ (k = 0x0C → v l = c.g.core / 48) ∧
    (k = 0x12 → c.g.kind = .spindle → v l = l) ∧
    (k = 0x12 → c.g.kind ≠ .spindle → let x := (s.core c.g.core).slice c.g.slice
      v l = (x.pos.drop (l % 32)).head?.getD 0 + (if x.pos.contains 32 then 256 else 0) + if x.deg then 512 else 0) ∧
    (∀ t, s.team c.g.team = some t → (k = 0x03 → v l = t.rank) ∧ (k = 0x04 → v l = t.groups)) ∧
    (∀ G, gridOf s c.g = some G → (k = 0x08 → v l = c.g.cindex % G.pkt.gridx) ∧
      (k = 0x09 → v l = c.g.cindex / G.pkt.gridx % G.pkt.gridy) ∧
      (k = 0x0A → v l = c.g.cindex / (G.pkt.gridx * G.pkt.gridy)) ∧ (k = 0x07 → v l = G.pkt.clw + 256 * G.pkt.clh) ∧
      ∀ t, s.team c.g.team = some t → k = 0x06 → v l = t.rank % G.pkt.clw + 256 * (t.rank / G.pkt.clw)))

/-! ### Rows and columns -/

/-- R270, R274, R276, R277, R281: a bank's own steps. A row is ready when its time has come, is asked to close 48,000 clocks after its
activate, closes when nothing accepted on it remains and the minimum times have passed, and frees its bank 14 clocks later and not before
50 from the activate; a waiting activate is accepted when the bank can take it; a refresh waits for the bank and holds it 40 clocks. R280,
R282 to R285: a layer's refresh interval doubles at the end of a 16th clean window, not above 512 ms, and keeps to its temperature's limit
at once; the scrub of a free bank changes no byte of a row, corrects and counts the symbols of codewords with up to 4 wrong ones, which
halve the interval when they pass 64, not below 64 ms, and marks the others; retraining starts when due unless row data is pending, holds
the bus 2,250 clocks, and ends. Log entries 25 and 26 name what is the model's choice here. -/
def Obligations.BanksAndUpkeep : Prop :=
  (∀ (core bank : Nat) (s : State),
  let b := s.bank core bank
  let becomes (i : Instr) (b' : Bank) : Prop := exec i s = .next (s.modBank core bank fun _ => b')
  (∀ r t, b.phase = some (.opening r t) →
    (t ≤ s.clock → becomes (.rowReady core bank) { b with phase := some (.open r) }) ∧
    (s.clock < t → exec (.rowReady core bank) s = .next s)) ∧
  (∀ r, b.phase = some (.open r) → b.closeWanted = false →
    (b.actAt + 48000 ≤ s.clock → becomes (.rowForcedClose core bank) { b with closeWanted := true }) ∧
    (s.clock < b.actAt + 48000 → exec (.rowForcedClose core bank) s = .next s)) ∧
  (∀ r, b.phase = some (.open r) →
    let may : Prop := b.closeWanted = true ∧ opsOn s core bank = [] ∧ b.actAt + 36 ≤ s.clock ∧ (b.writeAt = 0 ∨ b.writeAt + 12 ≤ s.clock)
    (may → becomes (.closeStart core bank)
      { b with phase := some (.closing r (max (s.clock + 14) (b.actAt + 50))), closeWanted := false, writeAt := 0 }) ∧
    (¬ may → exec (.closeStart core bank) s = .next s)) ∧
  (∀ r t, b.phase = some (.closing r t) ∨ b.phase = some (.refreshing t) →
    (t ≤ s.clock → becomes (.bankFree core bank) { b with phase := none }) ∧
    (s.clock < t → exec (.bankFree core bank) s = .next s)) ∧
  (∀ gid row g, waitingActivate s core bank = some (gid, row) → s.group gid = some g → causeDue g = false →
    canActivate s gid core bank = true → (s.core core).movingBank g.ctx bank = false → ∃ u, exec (.activateAccept core bank) s = .next u ∧
      u.bank core bank = { b with phase := some (.opening row (s.clock + 20)), actAt := s.clock, closeWanted := false } ∧
      u.group gid = some { g with park := none } ∧ u.agenda = .issue gid :: s.agenda ∧ u.mem = s.mem) ∧
  (let due : Nat := nextRefresh (s.core core) bank;
    (s.clock < due → exec (.refreshOperation core bank) s = .next s) ∧
    (due ≤ s.clock → b.phase = none → ∃ t, t ≤ s.clock ∧
      becomes (.refreshOperation core bank) { b with phase := some (.refreshing (s.clock + 40)), refreshed := some t }) ∧
    (due ≤ s.clock → b.phase ≠ none → exec (.refreshOperation core bank) s = .next (wantClose s core bank)))) ∧
  (∀ (core : Nat) (s : State),
  let k := s.core core
  (∀ layer celsius, let l := k.layer layer
    let past := decide (l.windowEnd ≤ s.clock)
    let cap := if celsius ≤ 70 then 512 else if celsius ≤ 85 then 256 else if celsius ≤ 95 then 128 else 64
    ∃ u, exec (.refreshIntervalStep core layer celsius) s = .next u ∧ (u.core core).rows = k.rows ∧
      (∀ m, m ≠ layer → (u.core core).layer m = k.layer m) ∧
      (u.core core).layer layer = { l with
        celsius := celsius
        interval := min (if past ∧ l.corrected = 0 ∧ 15 ≤ l.clean then min 512 (2 * l.interval) else l.interval) cap
        clean := if past then (if l.corrected = 0 then (l.clean + 1) % 16 else 0) else l.clean
        corrected := if past then 0 else l.corrected
        windowEnd := if past then l.windowEnd + 750000000 else l.windowEnd }) ∧
  (∀ bank row, let b := s.bank core bank
    let l := k.layer (bank / 16)
    let wrong := k.flips.filter fun x => decide (rowKey bank row / 64 ≤ x.1 ∧ x.1 < rowKey bank row / 64 + 32)
    let fixed := ((wrong.filter fun (x : Nat × Nat) => decide (x.2 ≤ 4)).map fun (x : Nat × Nat) => x.2).sum
    let free := b.phase = none ∧ activateAsked s core bank = false
    (¬ free → exec (.patrolScrub core bank row) s = .next s) ∧
    (free → ∃ u, exec (.patrolScrub core bank row) s = .next u ∧
      u.bank core bank = { b with phase := some (.closing row (s.clock + 50))
                                  scrubs := if b.scrubs % 4096 = row then b.scrubs + 1 else b.scrubs } ∧
      (u.core core).rows = k.rows ∧ u.mem = s.mem ∧ (∀ x ∈ wrong, 4 < x.2 → x.1 ∈ (u.core core).rowsBad) ∧
      (∀ x ∈ wrong, x ∉ (u.core core).flips) ∧ ((u.core core).layer (bank / 16)).corrected = l.corrected + fixed ∧
      ((u.core core).layer (bank / 16)).interval =
        if l.corrected ≤ 64 ∧ 64 < l.corrected + fixed then max 64 (l.interval / 2) else l.interval)) ∧
  (s.clock < k.retrainAt ∨ k.retrainEnd ≠ none → exec (.retraining core) s = .next s) ∧
  (k.retrainAt ≤ s.clock → k.retrainEnd = none → rowDataPending s core = true → s.clock < k.retrainAt + 3000000 →
    exec (.retraining core) s = .next s) ∧
  (k.retrainAt ≤ s.clock → k.retrainEnd = none → rowDataPending s core = false ∨ k.retrainAt + 3000000 ≤ s.clock →
    delivering s core = 0 → ∃ t, s.clock < t ∧ t ≤ s.clock + 67108864 ∧ (t - k.retrainAt) % 67108864 = 0 ∧
      exec (.retraining core) s = .next (s.modCore core fun k => { k with retrainEnd := some (s.clock + 2250), retrainAt := t })) ∧
  (∀ t, k.retrainEnd = some t →
    (t ≤ s.clock → exec (.retrainingEnd core) s = .next (s.modCore core fun k => { k with retrainEnd := none })) ∧
    (s.clock < t → exec (.retrainingEnd core) s = .next s)))

/-- R268 to R275: the row instructions. `row.act` opens its row when the bank can take an activate, is done when the row is open, waits, or
raises 0x09 where another row stands; `row.rd` and `row.wr` are accepted, counted, when their row is open, wait while it opens, and find
it lost otherwise (0x08, or 0 with `.chk`), and start to move at once when nothing is in their way; `row.cls` asks for a close of that
row; `row.st` reads the bank. With no lane in `exec` nothing happens; a row that does not exist raises 0x0B. R272, R273, R276 to R278,
R280, R385: how an accepted row operation performs. A consume takes one of four delivery slots when no write of its bank came before it; a
write starts when its source lines are present; neither moves while the bus is retrained. Ten clocks after its start the 2,048 bytes of a
consume stand in the scratchpad, its lines present again, or in the latch of a matrix stream; those of a write stand in the row, each
aligned 4-byte piece from one of its two readings. Log entries 22 and 23 name what is the model's choice here. -/
def Obligations.RowsAndTheirData : Prop :=
  (∀ (f : Fields) (s : State) (c : Ctx),
  let named := rowAtOf s c.core c.g.ctx (f.imm13.toNat % 64) (c.srcA c.low % 2 ^ 32)
  let d := spendRestart s c.g
  let row (i : Instr) (own : RowAt → RowView → Prop) : Prop := Issues s i f c →
    (c.exec = 0 → exec i s = .next (ended c s)) ∧
    (c.exec ≠ 0 → named = none → exec i s = .next (finish c (.trap s { cause := .localBounds }))) ∧
    (c.exec ≠ 0 → ∀ x, named = some x → own x (s.bank c.core x.bank).view)
  row (.rowAct f) (fun x v =>
    (v.held = some x.row → exec (.rowAct f) s = .next (ended c d)) ∧
    (∀ r, v.held = some r → r ≠ x.row → f.opt = false →
      exec (.rowAct f) s = .next (finish c (.trap s { cause := .rowBusy, aux := BitVec.ofNat 64 (x.handle + 256 * x.r) }))) ∧
    (∀ r, v.held = some r → r ≠ x.row → f.opt = true → x.obj.moving = false →
      exec (.rowAct f) s = .next (parkGroup (wantClose d c.core x.bank) c.gid (.activate c.core x.bank x.row))) ∧
    (v.held = none → x.obj.moving = true → exec (.rowAct f) s = .next (parkGroup d c.gid (.moving c.core x.handle))) ∧
    (v.held = none → x.obj.moving = false → canActivate s c.gid c.core x.bank = false →
      exec (.rowAct f) s = .next (parkGroup d c.gid (.activate c.core x.bank x.row))) ∧
    (v.held = none → x.obj.moving = false → canActivate s c.gid c.core x.bank = true → ∃ u, exec (.rowAct f) s = .next (ended c u) ∧
      u.bank c.core x.bank = { (s.bank c.core x.bank) with
        phase := some (.opening x.row (s.clock + 20)), actAt := s.clock, closeWanted := false } ∧
      (∀ b, b ≠ x.bank → u.bank c.core b = s.bank c.core b) ∧ u.mem = s.mem ∧ u.groups = s.groups)) ∧
  (∀ write, let i : Instr := if write then .rowWr f else .rowRd f
    row i (fun x v => ∀ k off, let a := c.srcB c.low
      (a % 128 ≠ 0 → exec i s = .next (finish c (.trap s { cause := .misaligned, addr := BitVec.ofNat 64 a }))) ∧
      (a % 128 = 0 → (∀ k off, localAt s c.g a 2048 ≠ some (.scratch k off, none)) →
        exec i s = .next (finish c (.trap s { cause := .localBounds, addr := BitVec.ofNat 64 a }))) ∧
      (a % 128 = 0 → localAt s c.g a 2048 = some (.scratch k off, none) →
        (v = .opening x.row → exec i s = .next (parkGroup s c.gid (.row c.core x.bank))) ∧
        (v ≠ .opening x.row → v ≠ .ready x.row → exec i s = .next (if f.opt then ended c (writeChk c d 0)
          else finish c (.trap s { cause := .rowLost, aux := BitVec.ofNat 64 (x.handle + 256 * x.r) }))) ∧
        (v = .ready x.row → 63 ≤ counterOf c.g 2 → exec i s = .next (parkGroup s c.gid (.stall (.counter 2 1)))) ∧
        (v = .ready x.row → counterOf c.g 2 < 63 → ∃ (u : State) (op : Nat) (started : Option Nat) (snap : List Byte),
          exec i s = .next (ended c (if f.opt then writeChk c u 1 else u)) ∧ u.mem = (performStoresOf s c.gid).mem ∧
          (u.core c.core).scratch = ((performStoresOf s c.gid).core c.core).scratch ∧
          (u.core c.core).rows = ((performStoresOf s c.gid).core c.core).rows ∧
          tfind (u.core c.core).rowOps op =
            some ({ bank := x.bank, row := x.row, write, gid := c.gid, op, team := c.g.team, off, gen := genAt s c.core off, started, snap } : RowOp) ∧
          (started = none ∨ started = some s.clock) ∧ ((s.core c.core).retrainEnd ≠ none → started = none) ∧
          ((s.core c.core).retrainEnd = none → write = false → writeBefore u c.core x.bank op = false → delivering s c.core < 4 →
            started = some s.clock) ∧
          ((s.core c.core).retrainEnd = none → write = true → linesPresent s c.core off = true →
            started = some s.clock ∧ snap = scratchBytes (performStoresOf s c.gid) c.core off 2048) ∧
          (∀ l, tget 0 (u.core c.core).absent l = tget 0 (s.core c.core).absent l +
            if write = false ∧ off / 128 ≤ l ∧ l < off / 128 + 16 then 1 else 0))))) ∧
  row (.rowCls f) (fun x v => exec (.rowCls f) s = .next (ended c (if v.held = some x.row then wantClose d c.core x.bank else d))) ∧
  row (.rowSt f) (fun x v => ∃ n, exec (.rowSt f) s = .next (ended c (writeScalar c s n)) ∧
    n / 2 ^ 8 % 4 = x.bank / 16 % 4 ∧ n / 2 ^ 10 % 16 = x.bank % 16 ∧ n / 2 ^ 48 = 0 ∧
    (x.obj.moving = true → n % 8 = 5) ∧
    (x.obj.moving = false → (v = .ready x.row → n % 8 = 2) ∧ (v = .opening x.row → n % 8 = 1) ∧ (v = .idle → n % 8 = 0) ∧
      (∀ r, v.held = some r → r ≠ x.row → n % 8 = 4)) ∧
    (v = .ready x.row → n / 2 ^ 16 % 2 ^ 16 = min (s.clock - (s.bank c.core x.bank).actAt) 0xFFFF))) ∧
  (∀ (core id : Nat) (s : State) (o : RowOp), tfind (s.core core).rowOps id = some o →
  let k := s.core core
  let start (o' : RowOp) : Prop :=
    exec (.rowDelivery core id) s = .next (s.modCore core fun k => { k with rowOps := tins k.rowOps id o' })
  (o.started.isSome = true ∨ k.retrainEnd.isSome = true → exec (.rowDelivery core id) s = .next s) ∧
  (o.started = none → k.retrainEnd = none → o.write = true →
    (linesPresent s core o.off = true → start { o with started := some s.clock, snap := scratchBytes s core o.off 2048 }) ∧
    (linesPresent s core o.off = false → exec (.rowDelivery core id) s = .next s)) ∧
  (o.started = none → k.retrainEnd = none → o.write = false →
    (writeBefore s core o.bank id = false → delivering s core < 4 → start { o with started := some s.clock }) ∧
    (writeBefore s core o.bank id = true ∨ 4 ≤ delivering s core → exec (.rowDelivery core id) s = .next s)) ∧
  (∀ t, o.started = some t →
    let late : Prop := t + 10 ≤ s.clock ∧ (o.write = true → oldestOn s core o.bank = some id ∧ k.retrainEnd = none) ∧
      (o.write = false → writeBefore s core o.bank id = false)
    (¬ late → exec (.rowDataLand core id) s = .next s) ∧
    (late → ∃ (u : State), exec (.rowDataLand core id) s = .next u ∧ tfind (u.core core).rowOps id = none ∧ u.mem = s.mem ∧
      (o.latch = none → o.write = false → genAt s core o.off = o.gen →
        scratchBytes u core o.off 2048 = rowBytes s core (rowKey o.bank o.row) 2048 ∧ (u.core core).rows = k.rows ∧
        (∀ a, a < o.off ∨ o.off + 2048 ≤ a → tget 0 (u.core core).scratch a = tget 0 k.scratch a) ∧
        ∀ l, tget 0 (u.core core).absent l = tget 0 k.absent l - if o.off / 128 ≤ l ∧ l < o.off / 128 + 16 then 1 else 0) ∧
      (o.latch = none → o.write = true → genAt s core o.off = o.gen → o.snap.length = 2048 → (u.core core).scratch = k.scratch ∧
        (∀ a, a < rowKey o.bank o.row ∨ rowKey o.bank o.row + 2048 ≤ a → tget 0 (u.core core).rows a = tget 0 k.rows a) ∧
        ∀ j, j < 512 → ∃ bs ∈ [o.snap, scratchBytes s core o.off 2048], ∀ n, n < 4 →
          tget 0 (u.core core).rows (rowKey o.bank o.row + 4 * j + n) = bs.getD (4 * j + n) 0) ∧
      (∀ n, o.latch = some n → (u.core core).rows = k.rows ∧ (u.core core).scratch = k.scratch ∧
        ∀ x q, s.team o.team = some x → x.seq = some q → ∃ y p, u.team o.team = some y ∧ y.seq = some p ∧
          ∀ j, j < 2048 → tget 0 p.latch (2048 * n + j) = tget 0 k.rows (rowKey o.bank o.row + j)))))

/-- R263 to R265, R287: `cobj.map` writes the status of its descriptor, waits for the rows of the object it replaces, and installs or removes
the object; a relocation moves every row of an object, bytes and place, under the same handle. Log entry 27 names what is the model's
choice here. -/
def Obligations.ColumnObjects : Prop := (∀ (f : Fields) (s : State) (c : Ctx), Issues s (.cobjMap f) f c →
    let d : DWord := BitVec.ofNat 64 (c.srcA c.low)
    let h := f.imm13.toNat % 64
    let st := mapStatus (s.core c.core) c.g.ctx d
    let waits : Prop := ∃ o, objectOf s c.core c.g.ctx h = some o ∧ objectRowsHeld s c.core o.desc = true
    (c.exec = 0 → exec (.cobjMap f) s = .next (ended c s)) ∧
    (c.exec ≠ 0 → st ≠ 0 → exec (.cobjMap f) s = .next (ended c (writeScalar c s st))) ∧
    (c.exec ≠ 0 → st = 0 → waits → ∃ u, exec (.cobjMap f) s = .next (parkGroup u c.gid (.stall (.rows c.core h))) ∧ u.mem = s.mem ∧
      ∀ k, (u.core k).objects = (s.core k).objects ∧ (u.core k).rows = (s.core k).rows) ∧
    (c.exec ≠ 0 → st = 0 → ¬ waits → ∃ (u : State), exec (.cobjMap f) s = .next (ended c (writeScalar c u 0)) ∧
      objectOf u c.core c.g.ctx h = (if d = 0 then none else some { desc := d }) ∧ u.mem = s.mem ∧ u.groups = s.groups ∧
      (∀ key, key ≠ 64 * c.g.ctx + h → tfind (u.core c.core).objects key = tfind (s.core c.core).objects key))) ∧
  (∀ (core ctx h : Nat) (desc : DWord) (s : State) (o : ColObject), objectOf s core ctx h = some o →
    relocationFits s core ctx h o.desc desc = true →
    (objectRowsHeld s core o.desc = true ∨ objectRowsHeld s core desc = true → ∃ (u : State) (p : ColObject),
      exec (.columnRelocate core ctx h desc) s = .next u ∧ objectOf u core ctx h = some p ∧ p.moving = true ∧ p.desc = o.desc ∧
      (u.core core).rows = (s.core core).rows) ∧
    (objectRowsHeld s core o.desc = false → objectRowsHeld s core desc = false → descBad o.desc = false →
      (∀ b ∈ objUnits o.desc, ((s.core core).bank b).owner = some ctx) → ∃ (u : State),
      exec (.columnRelocate core ctx h desc) s = .next u ∧ objectOf u core ctx h = some { desc := desc } ∧ u.mem = s.mem ∧
      ∀ r, r < objRows o.desc → ∀ b p b' p', objRow o.desc r = (b, p) → objRow desc r = (b', p') →
        rowBytes u core (rowKey b' p') 2048 = rowBytes s core (rowKey b p) 2048))

/-! ### Engines -/

/-- R234, R332 to R335, R340, R348, R350: the Reel takes the current chain of a channel through its record. A record that cannot be read or
that the engine does not own ends the chain; a breach of the record's own fields is ERR 0x02, of its alignment 0x04, with nothing moved;
the presence of the destination lines is cleared, a line at a time in any order; a piece of a linear record copies its bytes; a record
that is over gives its lines, writes DONE, FOFF and ERR and clears OWN, gives its credit, and the chain goes on or ends. R234, R338: one
chunk at a time, of the channel whose chain has the highest priority, ties going round from the channel after the last; lines whose bytes
have all landed are present again; the engine is then busy for a clock per 128 bytes. Log entry 28 names what is the model's choice here. -/
def Obligations.ReelTransfers : Prop :=
  (∀ (core ch : Nat) (s : State) (c0 : Chain), (s.core core).current ch = some c0 →
  let go := recordDue s core ch
  let c : Chain := { c0 with park := none }
  let gives (u : State) : Prop := exec (.reelRecord core ch) s = .next u
  (go = false → gives s) ∧
  (go = true → c.running = false → teamLeft s c.team = true → gives s) ∧
  (go = true → c.running = true ∨ teamLeft s c.team = false → c.clears = true →
    gives (setHead (clearPresence s c).1 core ch (clearPresence s c).2)) ∧
  (let r := clearPresence s c;
    r.1.mem = s.mem ∧ (∀ x ∈ c.clearing, x ∈ r.2.clearing ∨ x ∈ r.2.cleared) ∧ (∀ x ∈ r.2.clearing, x ∈ c.clearing) ∧
    (c.clearing ≠ [] → r.2.clearing.length < c.clearing.length)) ∧
  (go = true → c.clears = false → c.running = false → teamLeft s c.team = false →
    (∀ s1 p, engineRead c c.local' 8 s c.head 64 = .wait s1 p → gives (setHead s1 core ch { c with begun := true, park := some p })) ∧
    (∀ s1 e, engineRead c c.local' 8 s c.head 64 = .err s1 e → gives (endChain s1 core ch c)) ∧
    (∀ s1 bs, engineRead c c.local' 8 s c.head 64 = .ok s1 bs →
      let w := ofBytes bs
      let c1 : Chain := { (c.at' c.head c.local') with running := true, record := bs }
      (w.testBit 63 = false → gives (endChain s1 core ch c)) ∧
      (w.testBit 63 = true → recordBad c1 = true → ∃ x, gives (setHead s1 core ch x) ∧
        x.err = 2 ∧ x.early = true ∧ x.moved = true ∧ x.done = 0) ∧
      (w.testBit 63 = true → recordBad c1 = false → recordMisaligned c1 = true → ∃ x, gives (setHead s1 core ch x) ∧
        x.err = 4 ∧ x.early = true ∧ x.moved = true ∧ x.done = 0) ∧
      (w.testBit 63 = true → recordBad c1 = false → recordMisaligned c1 = false → recKind c1 ≠ 1 → recKind c1 ≠ 3 → recKind c1 ≠ 4 →
        let r := clearPresence s1 { c1 with clearing := dedupPairs (destLines c1) }
        gives (setHead r.1 core ch r.2)))) ∧
  (go = true → c.clears = false → c.running = true →
    let s1 := restorePresence s c c.cleared
    let c2 : Chain := { c with cleared := [], clearing := [] }
    let e := finalErr s c
    (c.told = true → gives (nextRecord s1 core ch c2 e)) ∧
    (c.told = false → ∀ s2,
      (∀ p, writeStatus s1 c2 e = .wait s2 p → gives (setHead s2 core ch { c2 with park := some p })) ∧
      (writeStatus s1 c2 e = .ok s2 () ∨ (∃ n, writeStatus s1 c2 e = .err s2 n) →
        gives (nextRecord (finishLinks (giveCredit s2 c2) core c2) core ch c2 e)))) ∧
  (∀ o e : Nat, ownOff c (c.head + 4) 4 = some (o + 4) → ownOff c (c.head + 56) 8 = some (o + 56) → c.local' = true →
    genAt s c.own.core c.own.base = c.own.gen → c.done < 2 ^ 32 → c.foff < 2 ^ 32 → ∃ (s1 : State), writeStatus s c e = .ok s1 () ∧
      let at' (k n : Nat) : Nat := ofBytes (scratchBytes s1 c.own.core (c.own.base + o + k) n)
      at' 56 4 = c.done ∧ at' 60 4 = c.foff ∧ (at' 4 4).testBit 31 = false ∧ at' 4 4 / 2 ^ 16 % 2 ^ 8 = e % 2 ^ 8) ∧
  (∀ src dst : Nat, recKind c = 0 → recSsp c = true → recDsp c = true → c.pos < recSize c →
    let n := min (recSize c - c.pos) (min (128 - (recSaddr c + c.pos) % 128) (128 - (recDaddr c + c.pos) % 128))
    ownOff c (recSaddr c + c.pos) n = some src → ownOff c (recDaddr c + c.pos) n = some dst →
    genAt s c.own.core c.own.base = c.own.gen → placeCause s n (.scratch c.own.core (c.own.base + src)) = none → ∃ t x,
      nextPiece s c = .go t x n ∧ x.pos = c.pos + n ∧ x.done = c.done + n ∧ x.err = c.err ∧ t.mem = s.mem ∧
      scratchBytes t c.own.core (c.own.base + dst) n = scratchBytes s c.own.core (c.own.base + src) n)) ∧
  (∀ (core : Nat) (s : State),
  let k := s.core core
  let prio (ch : Nat) : Nat := ((k.current ch).map Chain.prio).getD 0
  let due (ch : Nat) : Bool := chunkDue s core ch
  (s.clock < k.reelFree → exec (.reelChunk core) s = .next s) ∧
  (k.reelFree ≤ s.clock → (∀ ch, ch < 4 → due ch = false) → exec (.reelChunk core) s = .next s) ∧
  (∀ i, i < 4 → let at' (i : Nat) : Nat := (k.reelLast + 1 + i) % 4
    k.reelFree ≤ s.clock → due (at' i) = true →
    (∀ j, j < 4 → j ≠ i → due (at' j) = true → prio (at' j) < prio (at' i) ∨ (prio (at' j) = prio (at' i) ∧ i < j)) →
    ∀ c, k.current (at' i) = some c →
      let r := moveChunk 65536 s { c with park := none } 0
      let landed := landedLines r.2.1
      let u := setHead (restorePresence r.1 r.2.1 landed) core (at' i)
        { r.2.1 with cleared := r.2.1.cleared.filter fun x => !landed.contains x }
      exec (.reelChunk core) s = .next (u.modCore core fun k =>
        { k with reelLast := at' i, reelFree := u.clock + (r.2.2 + 127) / 128 })))

/-- R356, R357: `qpush` adds an entry of its 16 lanes; `qpop` and `qtry` take the oldest entry into their destination; `qpop` waits while the
job can still push and reads zeros when it cannot; `qtry` says in its predicate whether it took one; a poison entry raises 0x13. R351 to
R354, R358, R359: `sp.go` reads its descriptor and answers 1 for a busy queue, 3 for a descriptor out of range, 2 for a program that fails
its check, and 0 when the job has started; `sp.stop` unbinds the queue; a job issues in turn, its traps and a loop beyond its limit end
it; its queue is filled with poison entries and its report written. Log entry 30 names what is the model's choice here. -/
def Obligations.SpindleWork : Prop :=
  (∀ (f : Fields) (s : State) (c : Ctx),
  let n := f.imm13.toNat % 4
  let q := (s.core c.core).spq n
  let d := spendRestart s c.g
  let left (es : List QEntry) (u : State) : Prop := ((u.core c.core).spq n).entries = es ∧ u.mem = s.mem
  let pops (i : Instr) : Prop := Issues s i f c →
    (c.exec = 0 → exec i s = .next (ended c s)) ∧
    (c.exec ≠ 0 → q.ctx ≠ some c.g.ctx → exec i s = .next (finish c (.trap s { cause := .protection, aux := 6 }))) ∧
    (c.exec ≠ 0 → q.ctx = some c.g.ctx → ∀ e es, q.entries = e :: es →
      (e.poison = true → ∃ u, exec i s = .next (finish c (.trap u { cause := .poison })) ∧ left es u ∧ u.groups = s.groups) ∧
      (e.poison = false → ∃ u g, exec i s = .next (ended c u) ∧ left es u ∧ u.group c.gid = some g ∧
        (∀ r, f.dst = .v r → ∀ l ∈ c.lanes, vreg g.thread r.val l = e.words.getD (l % 16) 0) ∧
        (∀ m l, l < 64 → f.dst ≠ .v m ∨ l ∉ c.lanes → vreg g.thread m.val l = vreg c.t m.val l)))
  pops (.qpop f) ∧ ((∀ m, f.c ≠ .v m) → pops (.qtry f)) ∧
  (Issues s (.qpop f) f c → c.exec ≠ 0 → q.ctx = some c.g.ctx → q.entries = [] →
    (q.running = true ∨ q.ending ≠ none → exec (.qpop f) s = .next (parkGroup d c.gid (.room (.entry n)))) ∧
    (q.running = false → q.ending = none → ∃ r, exec (.qpop f) s = .next (ended c (setThreadOf d c.gid r)) ∧
      ∀ k, f.dst = .v k → ∀ l ∈ c.lanes, vreg r k.val l = 0)) ∧
  (Issues s (.qtry f) f c → c.exec ≠ 0 → q.ctx = some c.g.ctx → ∀ p, f.c = .p p →
    (q.entries = [] → ∃ r, exec (.qtry f) s = .next (ended c (setThreadOf d c.gid r)) ∧ r.vregs = c.t.vregs ∧
      ∀ l ∈ c.lanes, predBit r p.val l = false) ∧
    (∀ e es, q.entries = e :: es → e.poison = false → ∃ u g, exec (.qtry f) s = .next (ended c u) ∧ u.group c.gid = some g ∧
      ∀ l ∈ c.lanes, predBit g.thread p.val l = true)) ∧
  (Issues s (.qpush f) f c → let q := (s.core c.core).spq c.g.g
    (c.exec = 0 → exec (.qpush f) s = .next (ended c s)) ∧
    (c.exec ≠ 0 → 64 ≤ q.entries.length → exec (.qpush f) s = .next (parkGroup s c.gid (.room (.slot c.g.g)))) ∧
    (c.exec ≠ 0 → q.entries.length < 64 → q.limit ≤ q.done → exec (.qpush f) s = .next (endedMoved c (stopJob s c.gid 0x0E))) ∧
    (c.exec ≠ 0 → q.entries.length < 64 → q.done < q.limit → ∃ u, exec (.qpush f) s = .next (ended c u) ∧
      u.groups = (performLocalOf s c.gid).groups ∧ u.mem = (performLocalOf s c.gid).mem ∧ ∃ e, (u.core c.core).spq c.g.g = { q with entries := q.entries ++ [e], done := q.done + 1 } ∧ e.poison = false ∧
        e.words.length = 16 ∧ ∀ l, l < 16 → e.words.getD l 0 = if l ∈ c.lanes then BitVec.ofNat 32 (c.srcA l) else 0))) ∧
  ((∀ (f : Fields) (s s1 : State) (c : Ctx) (l : Nat) (a : DWord) (d : Nat), Issues s (.spGo f) f c → c.exec ≠ 0 →
    PlainReads c s false [{ lane := c.low, addr := BitVec.ofNat 64 (c.srcA c.low), n := 64 }] s1 [(l, a, d)] →
    let q := f.imm13.toNat % 4
    let s2 := spendRestart (performStoresOf s1 c.gid) c.g
    let answers (n : Nat) : Prop := exec (.spGo f) s = .next (ended c (writeScalar c s2 n))
    let x := (s2.core c.core).spq q
    (x.running = true ∨ x.entries ≠ [] ∨ x.ending ≠ none → answers 1) ∧
    (x.running = false → x.entries = [] → x.ending = none →
      (jobBad d = true → answers 3) ∧
      (jobBad d = false → readProgram s2 (jobGroup c q d) (bits d 72 64) (bits d 55 0) [] = .bad → answers 2) ∧
      (∀ p, jobBad d = false → readProgram s2 (jobGroup c q d) (bits d 72 64) (bits d 55 0) [] = .wait p →
        exec (.spGo f) s = .next (parkGroup s2 c.gid p)) ∧
      (∀ is e, jobBad d = false → readProgram s2 (jobGroup c q d) (bits d 72 64) (bits d 55 0) [] = .ok is e →
        (programOk is (jobLimits d) = false → answers 2) ∧
        (∀ s3 h, programOk is (jobLimits d) = true →
          reachGlobal s2 c.core c.g.ctx .write c.g.priv [{ lane := c.low, addr := BitVec.ofNat 64 (c.srcA c.low), n := 64 }] = .ok s3 [h] →
          exec (.spGo f) s = .next (ended c (writeScalar c (startJob c (touchHits s3 c.core c.g.ctx .write [h]) q d h is e) 0)))))) ∧
  (∀ (c : Ctx) (s : State) (q d : Nat) (h : Hit) (is : List (Nat × Instr)) (e : Nat), q < 4 →
    let t := startJob c s q d h is e
    let x := (t.core c.core).spq q
    x.ctx = some c.g.ctx ∧ x.running = true ∧ x.entries = [] ∧ x.limit = bits d 255 224 ∧ x.done = 0 ∧
    ∃ g, t.group x.gid = some g ∧ g.kind = .spindle ∧ g.width = 16 ∧ g.main.nv = 32 ∧ g.main.ns = 32 ∧
      swide g.main 0 2 = bits d 183 128 ∧ (sreg g.main 2).toNat = bits d 223 192 ∧ (sreg g.main 3).toNat = bits d 255 224 ∧
      swide g.main 4 2 = bits d 319 256) ∧
  (∀ (f : Fields) (s : State) (c : Ctx), Issues s (.spStop f) f c → let q := f.imm13.toNat % 4
    (c.exec = 0 → exec (.spStop f) s = .next (ended c s)) ∧
    (c.exec ≠ 0 → ((s.core c.core).spq q).ctx ≠ some c.g.ctx → exec (.spStop f) s = .next (ended c (spendRestart s c.g))) ∧
    (c.exec ≠ 0 → ((s.core c.core).spq q).ctx = some c.g.ctx → ∃ u, exec (.spStop f) s = .next (ended c u) ∧
      ((u.core c.core).spq q).ctx = none ∧ ((u.core c.core).spq q).running = false ∧ ((u.core c.core).spq q).entries = [])) ∧
  (∀ (s : State) (gid : Nat) (g : Group) (info : TrapInfo) (es : List Replay) (pc : DWord), (drainGroup s gid).group gid = some g →
    g.kind = .spindle → takeTrap s gid info es pc = stopJob (drainGroup s gid) gid (if info.cause = .software then 0x0E else causeCode info.cause)) ∧
  (∀ (s : State) (core : Nat),
    ((∀ q, q < 4 → jobReady s core q = false) → exec (.spindleIssue core) s = .next s) ∧
    (∀ i, i < 4 → let q := ((s.core core).spLast + 1 + i) % 4
      jobReady s core q = true → (∀ j, j < i → jobReady s core (((s.core core).spLast + 1 + j) % 4) = false) →
      let u := s.modCore core fun k => { k with spLast := q }
      let x := (s.core core).spq q
      exec (.spindleIssue core) s = .next
        (if passedEnd s x then stopJob u x.gid 0x0E else { u with agenda := .issue x.gid :: u.agenda }))) ∧
  (∀ (s : State) (core n : Nat), let s0 := runHalts s core n
    let q := (s0.core core).spq n
    (((s.core core).spq n).halts = [] → q = (s.core core).spq n ∧ s0.mem = s.mem ∧ s0.groups = s.groups) ∧
    (∀ h, ((s.core core).spq n).halts = [h] →
      s0 = haltEngines (s.modCore core fun k => k.setSpq n { (k.spq n) with halts := [] }) core h.ctx h.team h.desc h.foff.toNat) ∧
    (∀ e w, q.ending = some (e, w) → ∃ u, exec (.spindleJobEnd core n) s = .next u ∧ u.mem = s0.mem ∧
      let k := min (64 - q.entries.length) q.poison
      ((u.core core).spq n).entries = q.entries ++ List.replicate k { words := [], poison := true } ∧
      ((u.core core).spq n).poison = q.poison - k ∧
      (k = q.poison → ((u.core core).spq n).ending = none ∧ ((u.core core).spq n).reports =
        q.reports ++ [{ ctx := q.ctx.getD 0, grid := gridOfTeam s0 q.team, desc := q.desc, err := e, foff := w, done := q.done }])) ∧
    (∀ r rs u, q.ending = none → q.reports = r :: rs → (writeReport s0 core r).1 = some u →
      exec (.spindleJobEnd core n) s = .next (u.modCore core fun k => k.setSpq n { (k.spq n) with reports := rs })) ∧
    (q.ending = none → q.reports = [] → exec (.spindleJobEnd core n) s = .next s0)))

/-- R322, R324 to R330: `wcnt` passes when its counter is at most n; the barrier object instructions update the 16-byte object that lane's
address names in one step, an update after which nothing is awaited completing the phase; `bo.wait` and `bo.try` compare its phase. A
misaligned address raises 0x04 and one outside the scratchpads 0x0B; the object of a peer that is away is waited for. -/
def Obligations.BarrierObjects : Prop := ∀ (f : Fields) (s : State) (c : Ctx),
  let a := c.srcA c.low
  let b := c.srcB c.low
  let object (i : Instr) (own : Nat → Nat → Bool → Prop) : Prop := Issues s i f c →
    (c.exec = 0 → exec i s = .next (ended c s)) ∧
    (c.exec ≠ 0 → a % 16 ≠ 0 →
      exec i s = .next (finish c (.trap s { cause := .misaligned, addr := BitVec.ofNat 64 a, lane := some c.low }))) ∧
    (c.exec ≠ 0 → a % 16 = 0 → (∀ k off q, localAt s c.g a 16 ≠ some (.scratch k off, q)) →
      exec i s = .next (finish c (.trap s { cause := .localBounds, addr := BitVec.ofNat 64 a, lane := some c.low }))) ∧
    (c.exec ≠ 0 → a % 16 = 0 → ∀ k off (q : Option Nat), localAt s c.g a 16 = some (.scratch k off, q) →
      (∀ tid, peerAway s q = some tid → exec i s = .next (parkGroup s c.gid (.away tid))) ∧
      (peerAway s q = none → own k off q.isSome))
  -- an update, and the state in which a peer's object has been counted (R321)
  let settled (o o' : BarObj) : Prop := o' = if o.pend = 0 ∧ o.bytes = 0 then { o with phase := !o.phase, pend := o.init } else o
  let counted (i : Instr) (peer : Bool) (go : State → Prop) : Prop :=
    (peer = true → 63 ≤ counterOf c.g 3 → exec i s = .next (parkGroup s c.gid (.stall (.counter 3 1)))) ∧
    (peer = false ∨ counterOf c.g 3 < 63 → ∃ d, (peer = false → d = s) ∧ d.mem = s.mem ∧ d.cores = s.cores ∧ d.stores = s.stores ∧ go d)
  let only (u d : State) (k off : Nat) : Prop := u.mem = d.mem ∧
    ∀ j x, j ≠ k ∨ x < off ∨ off + 16 ≤ x → tget 0 (u.core j).scratch x = tget 0 (d.core j).scratch x
  object (.boInit f) (fun k off _ => ∃ u, exec (.boInit f) s = .next (ended c u) ∧ only u s k off ∧ u.groups = s.groups ∧
    let n := min (max (b % 2 ^ 32) 1) 65535
    readObject u k off = { init := n, pend := n, phase := false, bytes := 0, gcnt := 0 }) ∧
  object (.boExp f) (fun k off peer => counted (.boExp f) peer fun d => ∃ u, exec (.boExp f) s = .next (ended c u) ∧
    only u d k off ∧ let o := readObject d k off
    settled { o with bytes := (o.bytes + b) % 2 ^ 32 } (readObject u k off)) ∧
  object (.boArr f) (fun k off peer => counted (.boArr f) peer fun d => ∃ u, only u (performStoresOf d c.gid) k off ∧
    let o := readObject (performStoresOf d c.gid) k off
    exec (.boArr f) s = .next (ended c (writeScalar c u (if o.phase then 1 else 0))) ∧
    settled { o with pend := (o.pend + 65535) % 65536, bytes := if f.b = Operand.zero then o.bytes else (o.bytes + b) % 2 ^ 32 }
      (readObject u k off)) ∧
  object (.boWait f) (fun k off _ => exec (.boWait f) s = .next (if (readObject s k off).phase = b.testBit 0
    then parkGroup s c.gid (.object k off (b.testBit 0)) else ended c s)) ∧
  object (.boTry f) (fun k off _ => exec (.boTry f) s = .next (ended c (writeOnce c s
    (if (readObject s k off).phase = b.testBit 0 then 0 else 1)))) ∧
  (Issues s (.wcnt f) f c → exec (.wcnt f) s = .next (if c.exec ≠ 0 ∧ f.imm13.toNat < counterOf c.g f.lowFam
    then parkGroup s c.gid (.counter f.lowFam f.imm13.toNat) else ended c s))

/-- R318, R336, R337, R339: `reel.go` posts a chain for each lane at the tail of a channel, its record address the lane's; `reel.add`, in each
lane whatever its destination, links the lane's record behind one that has still to end and whose NEXT is 0, or posts a chain, and says
which; `reel.st` reads the channel. A full counter is waited for, and a full queue by what posts. Log entry 28 names what is the model's
choice here. -/
def Obligations.ReelInstructions : Prop := ∀ (f : Fields) (s : State) (c : Ctx) (t : Team), s.team c.g.team = some t →
  let ch := f.imm13.toNat % 4
  let d := spendRestart (performStoresOf s c.gid) c.g
  let n := c.runLanes.length
  let full : Option Park := if 63 < counterOf c.g 0 + n then some (.stall (.counter 0 n))
    else if 64 < ((s.core c.core).channel ch).length + n then some (.room (.reel ch n)) else none
  let posts (u d : State) (heads : List Nat) : Prop := ∃ cs, (u.core c.core).channel ch = (d.core c.core).channel ch ++ cs ∧
    cs.map Chain.head = heads ∧ (∀ x ∈ cs, x.team = c.g.team ∧ x.ctx = c.g.ctx ∧ x.gid = c.gid ∧ x.local' = (f.lowFam == 1) ∧
      x.running = false ∧ x.begun = false ∧ x.own = targetOf s t ∧ x.rank = t.rank)
  (Issues s (.reelGo f) f c →
    (c.exec = 0 → exec (.reelGo f) s = .next (ended c s)) ∧
    (∀ p, c.exec ≠ 0 → full = some p → exec (.reelGo f) s = .next (parkGroup s c.gid p)) ∧
    (c.exec ≠ 0 → full = none → ∃ (u : State), exec (.reelGo f) s = .next (ended c u) ∧ posts u d (c.runLanes.map c.srcA) ∧ u.mem = d.mem)) ∧
  (Issues s (.reelAdd f) f c →
    (c.exec = 0 → exec (.reelAdd f) s = .next (ended c s)) ∧
    (c.exec ≠ 0 → 63 < counterOf c.g 0 + c.lanes.length →
      exec (.reelAdd f) s = .next (parkGroup s c.gid (.stall (.counter 0 c.lanes.length)))) ∧
    (c.exec ≠ 0 → counterOf c.g 0 + c.lanes.length ≤ 63 →
      let rs : List Req := c.lanes.map fun l => { lane := l, addr := BitVec.ofNat 64 (c.srcA l), n := 16 }
      (∀ x, addrCauses s c.g (if f.lowFam = 1 then .l else .g) rs = some x → exec (.reelAdd f) s = .next (finish c (.trap s x))) ∧
      (addrCauses s c.g (if f.lowFam = 1 then .l else .g) rs = none → ∀ s1 hits,
        (if f.lowFam = 1 then reachLocal s c.g rs else reachGlobal s c.core c.g.ctx .write c.g.priv rs) = .ok s1 hits →
        (∀ h, hits.find? (fun h => h.peer.isSome || (bankOf h.place).isSome) = some h → exec (.reelAdd f) s =
          .next (finish c (.trap s1 { cause := .localBounds, addr := h.addr, lane := some h.lane }))) ∧
        (absentHit s1 hits = none → dataCause s1 hits = none → (∀ h ∈ hits, h.peer = none ∧ bankOf h.place = none) →
          let d := spendRestart (performStoresOf (touchHits s1 c.core c.g.ctx .write hits) c.gid) c.g
          let r := hits.foldl (fun (x : State × List (Nat × Nat)) h =>
            let y := addOne c x.1 ch h
            (y.1, x.2 ++ [(h.lane, y.2)])) (d, [])
          let n := (r.2.filter fun x => x.2 == 1).length
          exec (.reelAdd f) s = .next (if 64 < ((s1.core c.core).channel ch).length + n then parkGroup s1 c.gid (.room (.reel ch n))
            else ended c (r.1.modGroup c.gid fun g => g.setThread (r.2.foldl (fun t x => c.wr t x.1 x.2) g.thread))))))) ∧
  (∀ (h : Hit) (k off : Nat), h.place = .scratch k off → c.f = f →
    let w := ofBytes (scratchBytes s k off 8)
    let link : Prop := w / 2 ^ 63 % 2 = 1 ∧ ofBytes (scratchBytes s k (off + 8) 8) = 0
    let y := addOne c s ch h
    (link → y.2 = 0 ∧ scratchBytes y.1 k (off + 8) 8 = toBytes 8 (c.srcB h.lane) ∧
      (y.1.core c.core).channel ch = (s.core c.core).channel ch ∧
      ∃ x ∈ (y.1.core c.core).links, x.addr = c.srcB h.lane ∧ x.ctx = c.g.ctx ∧ x.team = c.g.team ∧ x.gid = c.gid) ∧
    (¬ link → y.2 = 1 ∧ posts y.1 s [c.srcB h.lane])) ∧
  (Issues s (.reelSt f) f c → ∃ x, exec (.reelSt f) s = .next (ended c (writeOnce c s x)) ∧
    let k := s.core c.core
    let cs := k.channel ch
    x % 2 ^ 8 = (cs.filter fun y => y.ctx == c.g.ctx).length % 2 ^ 8 ∧
    (x.testBit 8 = true ↔ ∃ y ∈ cs, y.ctx = c.g.ctx ∧ y.begun = true) ∧
    (x.testBit 9 = true ↔ (∃ y, k.current ch = some y ∧ y.ctx = c.g.ctx) ∧ ∃ r, k.residentOf c.g.ctx = some r ∧ r.2.spent = true) ∧
    x.testBit 10 = k.halted c.g.ctx ∧ x < 2 ^ 11)

/-- R360 to R363: `crd.put` hands the Carder an entry for each lane, its key, target and payload, and the lanes leave; a flush makes every bin
of the team ready; a bin launches as a continuation group with its keys in `v0` and its payload from `v1` up. No entry is lost. Log
entries 58 and 73 name what is the model's choice here. -/
def Obligations.CarderDeposits : Prop := (∀ (f : Fields) (s : State) (c : Ctx),
    let n := f.imm13.toNat % 16
    let entry (l : Nat) : Deposit :=
      { team := c.g.team, target := c.pc + 4#64 * sext32 f.imm32, key := BitVec.ofNat 32 (c.srcA l)
        words := (fromTo 0 n).map fun j => BitVec.ofNat 32 (c.srcB l / 2 ^ (32 * j)) }
    let d := performLocalOf s c.gid
    let waits := writesTo s c.gid c.g.priv c.exec
    (Issues s (.crdPut f) f c →
      (c.exec = 0 → exec (.crdPut f) s = .next (ended c s)) ∧
      (c.exec ≠ 0 → waits = true → exec (.crdPut f) s = .next (parkGroup s c.gid (.stall (.lanes c.exec)))) ∧
      (c.exec ≠ 0 → waits = false → 16384 < carderCount (s.core c.core) + c.lanes.length →
        exec (.crdPut f) s = .next (parkGroup s c.gid (.room (.carder c.lanes.length)))) ∧
      (c.exec ≠ 0 → waits = false → carderCount (s.core c.core) + c.lanes.length ≤ 16384 → ∃ u, exec (.crdPut f) s = .next (endedMoved c u) ∧
        u.mem = d.mem ∧ carderCount (u.core c.core) = carderCount (s.core c.core) + c.lanes.length ∧
        (∀ l ∈ c.lanes, entry l ∈ (u.core c.core).deposits ∨ ∃ r ∈ (u.core c.core).ready, entry l ∈ r.entries) ∧
        (∀ g, u.group c.gid = some g → ∀ e ∈ g.thread.frontier, e.mask &&& c.exec = 0))) ∧
    (Issues s (.crdFlush f) f c →
      (c.exec = 0 → exec (.crdFlush f) s = .next (ended c s)) ∧
      (c.exec ≠ 0 → ∃ u, exec (.crdFlush f) s = .next (ended c u) ∧ carderCount (u.core c.core) = carderCount (s.core c.core) ∧
        (∀ x ∈ (u.core c.core).deposits, x.team ≠ c.g.team) ∧ u.mem = s.mem ∧ u.groups = s.groups))) ∧
  (∀ (s : State) (tid : Nat) (t : Team), s.team tid = some t → liveGroups s tid = 0 →
    (∀ r ∈ (s.core t.core).ready, r.team ≠ tid) → ∃ u, exec (.carderAutoFlush tid) s = .next u ∧
      carderCount (u.core t.core) = carderCount (s.core t.core) ∧ ∀ x ∈ (u.core t.core).deposits, x.team ≠ tid) ∧
  (∀ (s : State) (core : Nat) (r : Ready) (u : State), firstReady (s.core core).ready = [r] → mayBind s core r = true →
    bindReady s core r = some u → r.entries.length ≤ 64 → exec (.carderLaunch core) s = .next u ∧ u.mem = (releaseBin s r).mem ∧
    ∃ gid g, u.group gid = some g ∧ g.kind = .continuation ∧ g.team = r.team ∧ g.bin = some (r.target, r.key) ∧
      (∀ e ∈ g.main.frontier, e.pc = r.target ∧ e.mask = lowLanes r.entries.length) ∧
      ∀ l e, r.entries[l]? = some e → vreg g.main 0 l = e.key ∧ ∀ j w, e.words[j]? = some w → vreg g.main (1 + j) l = w) ∧
  (∀ (s : State) (core : Nat), (∀ r ∈ (s.core core).ready, mayBind s core r = false) → exec (.carderLaunch core) s = .next s)

/-! ### The matrix stream -/

/-- R90, R91, R369, R373, R374, R375, R378, R379: `mma` and `mmb` accumulate each element of an m by n tile over chunks of 32 products, by one
rounding to FP40 per chunk or saturating in INT40; nothing but the tile, the status and the PC changes, and words read while it waited are
held no more. A cause, a line that has not arrived and poison in what they read stop them. Log entry 29 names what is the model's choice
here. -/
def Obligations.MatrixProducts : Prop := (∀ (f : Fields) (s : State) (c : MCtx), Streams s (.mma f) f c → shapeM f ≤ 64 → shapeN f ≤ 64 →
    let ea := mmaElem f
    let eb := if f.bit51 then otherFp8 ea else ea
    let k := mmaK f ea
    let m := shapeM f
    let n := shapeN f
    let us := productUses c m n k ea eb
    let line (u x : Nat) : Nat := ((us[u]?).map fun w => c.line s w x).getD 0
    let scales (x : Nat) : List FVal := if opNum f.c = none then [] else scalesOf k (line 2 x)
    (mmaShapeBad f ea = true → exec (.mma f) s = .next (streamTrap s c.tid c.q.pc (formBytes f.form) { cause := .matrixShape })) ∧
    (mmaShapeBad f ea = false → UsesStop c (.mma f) s us) ∧
    (mmaShapeBad f ea = false → UsesClean c s us →
      ((opNum f.c ≠ none ∨ ∃ t, ea = .fp t) → TileTakes c (.mma f) s (opNumD f.dst) m n fun x y =>
        fpElem k (c.elem (opNumD f.dst) x y) (fpLine ea k (line 0 x)) (fpLine eb k (line 1 y)) (scales x) (scales (m + y))) ∧
      (opNum f.c = none → (∀ t, ea ≠ .fp t) → TileTakes c (.mma f) s (opNumD f.dst) m n fun x y =>
        intElem k (c.elem (opNumD f.dst) x y) (· * ·) (intLine ea k (line 0 x)) (intLine ea k (line 1 y))))) ∧
  (∀ (f : Fields) (s : State) (c : MCtx), Streams s (.mmb f) f c → shapeM f ≤ 64 → shapeN f ≤ 64 →
    let k := mmaK f .bin
    let m := shapeM f
    let n := shapeN f
    let us := productUses c m n k .bin .bin
    let line (u x : Nat) : Nat := ((us[u]?).map fun w => c.line s w x).getD 0
    UsesStop c (.mmb f) s us ∧ (UsesClean c s us → TileTakes c (.mmb f) s (opNumD f.dst) m n fun x y =>
      intElem k (c.elem (opNumD f.dst) x y)
        (fun a b => if f.bit51 then (if a = 1 ∧ b = 1 then 1 else 0) else (if a = b then 0 else 1))
        (intLine .bin k (line 0 x)) (intLine .bin k (line 1 y)))) ∧
  (∀ (k acc : Nat) (as bs : List FVal), 0 < k → k ≤ 32 → as.length ≤ 32 → bs.length ≤ 32 →
    let dot := sumF .rne (List.zipWith mulF as bs)
    dot.isNan = false → fpElem k acc as bs [] [] = packF fmtF40 .rne (sumF .rne [unpackF fmtF40 acc, dot])) ∧
  (∀ (k acc : Nat) (as bs : List Int), 0 < k → k ≤ 32 → as.length ≤ 32 → bs.length ≤ 32 →
    let x : Int := toSigned 40 acc + (List.zipWith (· * ·) as bs).foldl (· + ·) 0
    let r := intElem k acc (· * ·) as bs
    toSigned 40 r.1 = max (-(2 ^ 39)) (min (2 ^ 39 - 1) x) ∧ r.2 = if -(2 ^ 39) ≤ x ∧ x ≤ 2 ^ 39 - 1 then 0 else fSAT)

/-- R367, R370, R380 to R384: descriptors and tiles. `tdef` sets a word of a descriptor, `tld` loads one, `azero` zeroes a tile, `ald` and
`ast` move one with conversion, `ast.stat` stores and clears the status, `ascl` scales rows. Log entry 29 names what is the model's choice
here. -/
def Obligations.MatrixData : Prop := ∀ (f : Fields) (s : State) (c : MCtx),
  let a := opNumD f.dst
  let z := elemBytes f.ty
  let m := shapeM f
  let n := shapeN f
  let base := c.t.scratchBase
  let byte (t : State) (x : Nat) : Byte := tget 0 (t.core c.t.core).scratch x
  let describes (i : Instr) (x : Nat) : Prop := ∃ td : Table (BitVec 128),
    exec i s = .next (streamed c (s.modSeq c.tid fun q => { q with tdesc := td })) ∧
    tget 0 td a = BitVec.ofNat 128 x ∧ ∀ k, k ≠ a → tget 0 td k = tget 0 c.q.tdesc k
  (Streams s (.tdef f) f c → ∃ x, describes (.tdef f) x ∧ ∀ k, k < 128 → x.testBit k =
    if 32 * (f.imm13.toNat % 4) ≤ k ∧ k < 32 * (f.imm13.toNat % 4) + 32 then f.imm32.getLsbD (k - 32 * (f.imm13.toNat % 4))
    else (c.desc a).testBit k) ∧
  (Streams s (.tld f) f c → let o := f.imm32.toNat
    let stop (t : TrapInfo) : Prop := exec (.tld f) s = .next (streamTrap s c.tid c.q.pc (formBytes f.form) t)
    (o % 16 ≠ 0 → stop { cause := .misaligned }) ∧
    (o % 16 = 0 → c.t.scratchSize < o + 16 → stop { cause := .localBounds }) ∧
    (o % 16 = 0 → o + 16 ≤ c.t.scratchSize → (∀ l ∈ touchedUnits (base + o) 16 128,
      tget 0 (s.core c.t.core).absent l = 0 ∧ l ∉ (s.core c.t.core).scratchBad) →
      describes (.tld f) (ofBytes (scratchBytes s c.t.core (base + o) 16)))) ∧
  (Streams s (.azero f) f c → ∃ acc : Table (BitVec 40),
    exec (.azero f) s = .next (streamed c (s.modSeq c.tid fun q => { q with acc := acc })) ∧
    ∀ k, tget 0 acc k = if k / 4096 = a then 0 else tget 0 c.q.acc k) ∧
  (Streams s (.ald f) f c → m ≤ 64 → n ≤ 64 → let u : MUse := { t := opNumD f.a, kinds := [1], lines := m, lineBytes := n * z }
    UsesStop c (.ald f) s [u] ∧ (UsesClean c s [u] → TileTakes c (.ald f) s a m n fun x y =>
      let w := ofBytes ((fromTo (c.lineAt u x + z * y) z).map fun x => (tfind c.q.held x).getD (byte s x))
      match f.ty with
      | .f32 => packF fmtF40 .rne (unpackF fmtF32 w)
      | .s32 => (ofInt 40 (toSigned 32 w), 0)
      | _ => (w % 2 ^ 40, 0))) ∧
  (Streams s (.ast f) f c → let u : MUse := { t := a, kinds := [1], lines := m, lineBytes := n * z }
    useCause c s [u] = none → ∃ t st, exec (.ast f) s = .next (streamed c (t.modSeq c.tid fun q => { q with status := st })) ∧
      t.mem = s.mem ∧ t.teams = s.teams ∧ t.groups = s.groups ∧
      (∀ x y, x < m → y < n → ∀ k, k < z → byte t (c.lineAt u x + z * y + k) =
        (toBytes z (storeElem f.opt f.ty f.rnd (c.elem (opNumD f.a) x y)).1).getD k 0) ∧
      (∀ x, (∀ i, i < m → x < c.lineAt u i ∨ c.lineAt u i + n * z ≤ x) → byte t x = byte s x)) ∧
  (Streams s (.astStat f) f c → let u : MUse := { t := a, kinds := [1], lines := 1, lineBytes := 8, pitched := false }
    useCause c s [u] = none →
    (anyLatchPending s c = true → exec (.astStat f) s = .next s) ∧
    (anyLatchPending s c = false → ∃ (t : State), exec (.astStat f) s = .next (streamed c (t.modSeq c.tid fun q => { q with status := 0 })) ∧
      t.mem = s.mem ∧ t.teams = s.teams ∧ t.groups = s.groups ∧
      scratchBytes t c.t.core (c.lineAt u 0) 8 = toBytes 8 c.q.status.toNat ∧
      (∀ x, x < c.lineAt u 0 ∨ c.lineAt u 0 + 8 ≤ x → byte t x = byte s x))) ∧
  (Streams s (.ascl f) f c → m ≤ 64 → n ≤ 64 →
    let u : MUse := { t := opNumD f.a, kinds := [1], lines := 1, lineBytes := 4 * m, pitched := false }
    UsesStop c (.ascl f) s [u] ∧
    (UsesClean c s [u] → TileTakes c (.ascl f) s a m n fun x y => packF fmtF40 f.rnd (mulF (unpackF fmtF40 (c.elem a x y))
      (unpackF fmtF32 (c.line s u 0 / 2 ^ (32 * x) % 2 ^ 32)))))

/-- R385 to R389: `msig` and `mwait` arrive for the sequencer, `mwait` then waiting for the phase to end; both wait for row deliveries and for
an arrival already standing. `mloop` counts and branches; `mend` ends the stream; `row.con` accepts a consume into a latch when its row is
open; of a row that is not, `row.con.chk` counts the loss and activates it anew, unless it has been opened since. Log entries 29 and 57
name what is the model's choice here. -/
def Obligations.MatrixControl : Prop := ∀ (f : Fields) (s : State) (c : MCtx),
  let n := opNumD f.dst
  let b := c.t.matBarrier n
  let done : Bool := (b.expected.any fun e => decide (e ≤ b.count)) || liveGroups s c.tid == 0
  let held := anyLatchPending s c || b.seqArrived
  let arrived (u : State) (st : SeqState) : Prop := ∃ t q, u.team c.tid = some t ∧ t.seq = some q ∧ { q with state := c.q.state } = c.q ∧
    q.state = st ∧ (∀ k, k ≠ n → t.matBarrier k = c.t.matBarrier k) ∧
    t.matBarrier n = (if done then { ({} : Barrier) with phase := !b.phase, lastCode := f.imm13.toNat % 256 } else { b with seqArrived := true, seqCode := f.imm13.toNat % 256 })
  (Streams s (.msig f) f c → c.q.state = .running →
    (held = true → exec (.msig f) s = .next s) ∧
    (held = false → ∃ u, exec (.msig f) s = .next (streamed c u) ∧ arrived u .running ∧ u.mem = s.mem ∧ u.cores = s.cores)) ∧
  (Streams s (.mwait f) f c → c.q.state = .running →
    (held = true → exec (.mwait f) s = .next s) ∧
    (held = false → ∃ u, exec (.mwait f) s = .next (streamed c u) ∧ arrived u (.waitPhase n b.phase) ∧ u.mem = s.mem ∧ u.cores = s.cores)) ∧
  (Streams s (.mloop f) f c → let k := f.imm13.toNat % 4
    let l : Loop := tget {} c.q.loops k
    let left := (if l.active then l.rem else f.imm13.toNat / 4 + 1) - 1
    let dest : DWord := if 0 < left then c.q.pc + sext32 f.imm32 * 4 else c.q.pc + 16
    ∃ ls : Table Loop, exec (.mloop f) s = .next (s.modSeq c.tid fun q => { q with loops := ls, pc := dest }) ∧
      tget {} ls k = (if 0 < left then { active := true, rem := left, it := (l.it + 1) % 2048 } else { active := false, rem := 0, it := 0 }) ∧
      ∀ j, j ≠ k → tget {} ls j = tget {} c.q.loops j) ∧
  (Streams s (.mend f) f c →
    (anyLatchPending s c = true → exec (.mend f) s = .next s) ∧
    (anyLatchPending s c = false → exec (.mend f) s = .next (streamed c
      (settleTeam (recountBarriers (s.modSeq c.tid fun q => { q with state := .ended }) c.tid) c.tid)))) ∧
  (Streams s (.rowCon f) f c → useCause c s [{ t := n, kinds := [3], lines := 1, lineBytes := 2048 }] = none →
    (conRow c s n = none → exec (.rowCon f) s = .next (streamTrap s c.tid c.q.pc (formBytes f.form) { cause := .localBounds })) ∧
    ∀ x, conRow c s n = some x →
      (latchPending s c n = true → exec (.rowCon f) s = .next s) ∧
      (latchPending s c n = false → c.q.conOpen = true →
        let opened (u : State) : State := u.modSeq c.tid fun q => { q with conOpen := false }
        let held := ((s.bank c.t.core x.bank).view).held
        (held = some x.row → exec (.rowCon f) s = .next (opened s)) ∧
        (∀ r, held = some r → r ≠ x.row → exec (.rowCon f) s = .next (wantClose s c.t.core x.bank)) ∧
        (held = none → exec (.rowCon f) s = .next (
          if x.obj.moving = false ∧ canActivate s s.fresh c.t.core x.bank = true
          then (opened (acceptActivate s c.t.core x.bank x.row)).modTeam c.tid fun t => { t with restartable := false } else s))) ∧
      (latchPending s c n = false → c.q.conOpen = false →
        (consumeAt s c.t.core x = .wait → exec (.rowCon f) s = .next s) ∧
        (consumeAt s c.t.core x = .ready → ∃ (u : State) (op : Nat), exec (.rowCon f) s = .next (streamed c u) ∧ u.mem = s.mem ∧
          ∃ st, tfind (u.core c.t.core).rowOps op = some ({ bank := x.bank, row := x.row, write := false, gid := 0, op, team := c.tid
                                                            latch := some n, started := st } : RowOp) ∧
            (st = none ∨ (st = some s.clock ∧ (s.core c.t.core).retrainEnd = none))) ∧
        (consumeAt s c.t.core x = .lost → f.opt = false → ∃ u, exec (.rowCon f) s = .next (streamTrap u c.tid c.q.pc (formBytes f.form)
          { cause := .rowLost, aux := BitVec.ofNat 64 (x.handle + 256 * x.r) }) ∧ u.mem = s.mem ∧ u.cores = s.cores) ∧
        (consumeAt s c.t.core x = .lost → f.opt = true → c.q.conMiss < 4 → ∃ st : DWord, exec (.rowCon f) s = .next (s.modSeq c.tid fun q =>
          { q with conMiss := q.conMiss + 1, conOpen := true, status := st }) ∧
          st.extractLsb' 32 16 = BitVec.ofNat 16 (min ((c.q.status.extractLsb' 32 16).toNat + 1) 0xFFFF) ∧
          st.extractLsb' 0 32 = c.q.status.extractLsb' 0 32)))

/-! ### Contexts, saving and the steps of groups -/

/-- R430, R431, R460, R461, R464, R465: `srw` writes the RW fields of a register and delivers the old value, `srw.rd` delivers the value and
changes nothing; `ctx.gate.yield` gates the context on its core from the next clock; `tlb.inv` performs what has been issued, then drops
the context's cached translations, on every core and die: those of one page, with its walk-cache entries, or all. Log entry 37 names what
is the model's choice here. -/
def Obligations.ContextRegisters : Prop := ∀ (f : Fields) (s : State) (c : Ctx) (x : Context) (slot : Nat) (r : Resident),
  s.ctx c.g.ctx = some x → (s.core c.core).residentOf c.g.ctx = some (slot, r) →
  let n := f.imm13.toNat % 64
  let a := c.srcA c.low
  let ctl := c.g.ctx % 2 ^ 12 + 2 ^ 24 * (x.state % 4) + (if x.forking then 2 ^ 27 else 0) + 2 ^ 28 * (x.part % 16)
  let words := [ctl, x.root, x.handler.toNat, x.saveBase.toNat, x.saveSz.toNat, x.callBase.toNat,
    x.callSlots + 2 ^ 32 * (x.callCount % 2 ^ 32), x.ctime % 2 ^ 64, x.timerCmp, x.budget, x.wsBase.toNat, x.wsLen, x.dropped,
    x.faultLog.toNat, x.forkSrc.toNat, x.keys.toNat]
  let old := if n < 16 then words.getD n 0 else if n = 32 then ofInt 64 r.balance else if n = 33 then (c.g.handler.map Handler.swreq).getD 0
    else if n = 34 then (c.g.handler.map fun h => h.saveAddr.toNat).getD 0 else if n = 35 then r.banks else 0
  let d := performStoresCtx (performStoresOf s c.gid) c.g.ctx
  let va := a % 2 ^ 56
  let drops (i : Instr) (p : Nat → CachedLeaf → Bool) (q : Nat → Bool) : Prop := Issues s i f c → c.exec ≠ 0 → ∃ (u : State),
    exec i s = .next (ended c u) ∧ { u with ctxs := d.ctxs, cores := d.cores } = d ∧ (∀ k, k ≠ c.g.ctx → u.ctx k = d.ctx k) ∧
    (∀ k, { u.core k with tlb := (d.core k).tlb } = d.core k ∧ ∀ e, e ∈ (u.core k).tlb ↔
      e ∈ (d.core k).tlb ∧ ¬ (e.1 / 2 ^ 39 = c.g.ctx ∧ p (e.1 % 2 ^ 39) e.2 = true)) ∧
    ∀ y, d.ctx c.g.ctx = some y → ∃ z, u.ctx c.g.ctx = some z ∧ { z with tlb := y.tlb, walks := y.walks } = y ∧
      (∀ e, e ∈ z.tlb ↔ e ∈ y.tlb ∧ p (e.1 % 2 ^ 39) e.2 = false) ∧ ∀ e, e ∈ z.walks ↔ e ∈ y.walks ∧ q (e.1 % 2 ^ 27) = false
  (Issues s (.srwRd f) f c → exec (.srwRd f) s = .next (ended c (if c.exec = 0 then s else writeScalar c s old))) ∧
  (Issues s (.srw f) f c → c.exec = 0 → exec (.srw f) s = .next (ended c s)) ∧
  (Issues s (.srw f) f c → c.exec ≠ 0 → ∃ (u : State), exec (.srw f) s = .next (ended c (writeScalar c u old)) ∧
    { u with ctxs := s.ctxs, cores := s.cores } = s ∧ (∀ k, k ≠ c.g.ctx → u.ctx k = s.ctx k) ∧
    u.ctx c.g.ctx = some { x with
      handler := if n = 2 ∧ a % 4 = 0 then BitVec.ofNat 64 a else x.handler
      saveBase := if n = 3 ∧ a % 131072 = 0 then BitVec.ofNat 64 a else x.saveBase
      saveSz := if n = 4 then BitVec.ofNat 64 (a % 2 ^ 48) else x.saveSz
      callBase := if n = 5 then BitVec.ofNat 64 a else x.callBase
      callSlots := if n = 6 then a % 65536 else x.callSlots
      timerCmp := if n = 8 then a % 2 ^ 64 else x.timerCmp
      wsBase := if n = 10 then BitVec.ofNat 64 a else x.wsBase } ∧
    (n ≠ 35 → u.cores = s.cores) ∧
    (n = 35 → (u.core c.core).residentOf c.g.ctx = some (slot, { r with banks := newBanks s c.core c.g.ctx a r.banks }))) ∧
  (Issues s (.ctxGateYield f) f c → ∃ (u : State), exec (.ctxGateYield f) s = .next (ended c u) ∧ { u with cores := s.cores } = s ∧
    (u.core c.core).residentOf c.g.ctx = some (slot, { r with yielded := true }) ∧ gatedOn u c.core c.g.ctx = gatedOn s c.core c.g.ctx ∧
    gatedOn { u with cores := tickCores u } c.core c.g.ctx = true ∧
    ∀ k, k ≠ c.core → u.core k = s.core k) ∧
  (Issues s (.tlbInvPage f) f c → c.exec = 0 → exec (.tlbInvPage f) s = .next (ended c s)) ∧
  (Issues s (.tlbInvAll f) f c → c.exec = 0 → exec (.tlbInvAll f) s = .next (ended c s)) ∧
  drops (.tlbInvPage f) (fun v x => v == va / 131072 || (x.giB && v / 8192 == va / 2 ^ 30))
    (fun k => k == walkKey 0 1 va || k == walkKey 0 2 va) ∧
  drops (.tlbInvAll f) (fun _ _ => true) (fun _ => true)

/-- R452, R453: `ctx.fork` reads its block, delivers the status, and with status 0 makes the new context: swapped out, forking with its
template, every level-1 index pending in both, words 2 to 6 and 10 to 11 the template's. A template whose earlier fork is not all built,
and a frame for the new table, are waited for. Log entry 40 names what is the model's choice here. -/
def Obligations.ContextForks : Prop := (∀ (f : Fields) (s s1 : State) (c : Ctx) (t : Context) (vals : List (Nat × DWord × Nat)), Issues s (.ctxFork f) f c →
    (c.exec = 0 → exec (.ctxFork f) s = .next (ended c s)) ∧
    (c.exec ≠ 0 → PlainReads c s false [{ lane := c.low, addr := BitVec.ofNat 64 (c.srcA c.low), n := 64 }] s1 vals →
      s1.ctx c.g.ctx = some t →
      let x := ((vals.head?).map fun v => v.2.2).getD 0
      let any := x.testBit 12
      let id := if any then freeCtx s1 else if s1.ctx (x % 4096) = none then some (x % 4096) else none
      let status := if bits x 511 128 ≠ 0 ∨ bits x 95 48 ≠ 0 ∨ bits x 43 13 ≠ 0 ∨ (any = true ∧ x % 4096 ≠ 0) then 5
        else if id = none ∨ freeDomain s1 = none then 1 else if t.keys.getLsbD 30 = false then 2
        else if (leavesOf s1 c.g.ctx).any (fun l => l.2.giB) = true then 3
        else if s1.forkPolicy.testBit (bits x 47 44) = false then 4 else 0
      let d := performStoresOf s1 c.gid
      (status ≠ 0 → exec (.ctxFork f) s = .next (ended c (writeScalar c s1 (65536 * status)))) ∧
      (status = 0 → t.forking = true → exec (.ctxFork f) s = .next (parkGroup d c.gid (.swap (t.pendingRegions.take 64)))) ∧
      (status = 0 → t.forking = false → ∀ n, id = some n → makeFork d c.g.ctx x t n = none →
        exec (.ctxFork f) s = .next (parkGroup d c.gid (.swap []))) ∧
      (status = 0 → t.forking = false → ∀ n u, id = some n → makeFork d c.g.ctx x t n = some u →
        exec (.ctxFork f) s = .next (ended c (writeScalar c u n))))) ∧
  (∀ (s u : State) (tmpl x id : Nat) (t t0 : Context), s.ctx tmpl = some t0 → s.ctx id = none → makeFork s tmpl x t id = some u →
    u.ctx tmpl = some { t0 with forking := true, forkPeer := some id, pendingRegions := fromTo 0 8192, isNew := false } ∧
    (∀ k, k ≠ tmpl → k ≠ id → u.ctx k = s.ctx k) ∧
    ∃ (y : Context), u.ctx id = some y ∧ y.state = 1 ∧ y.forking = true ∧ y.forkPeer = some tmpl ∧ y.pendingRegions = fromTo 0 8192 ∧
      y.isNew = true ∧ y.part = bits x 47 44 ∧ y.budget = bits x 127 96 ∧ y.forkSrc = BitVec.ofNat 64 (4096 + tmpl) ∧
      y.ctime = 0 ∧ y.timerCmp = 0 ∧ y.dropped = 0 ∧ y.callCount = 0 ∧ y.handler = t.handler ∧ y.saveBase = t.saveBase ∧
      y.saveSz = t.saveSz ∧ y.callBase = t.callBase ∧ y.callSlots = t.callSlots ∧ y.wsBase = t.wsBase ∧ y.wsLen = t.wsLen ∧
      ∃ dom, freeDomain s = some dom ∧ y.keys = BitVec.ofNat 64 (dom + 65536 * t.dedupDom + 2 ^ 30))

/-- R246, R448, R454, R462, R463: `tier.rec.add` appends the pages of its range that are not listed, with EXPL, as far as 4,096 entries go,
and `tier.rec.clr` empties the list; both deliver the new length. `tier.pin` and `tier.unpin` take the pages of their range in ascending
order, wait for each as its turn comes, set and clear PIN in their leaves as far as 8,192 go, and deliver how many changed. Log entries 38
and 39 name what is the model's choice here. -/
def Obligations.TierLists : Prop := (∀ (f : Fields) (s : State) (c : Ctx) (x : Context), s.ctx c.g.ctx = some x →
    let a := c.srcA c.low
    let stores (i : Instr) (from' : Nat) (es : List Nat) (len : Nat) : Prop :=
      let rs := (fromTo from' es.length).map fun k => ({ lane := c.low, addr := x.wsBase + BitVec.ofNat 64 (8 * k), n := 8 } : Req)
      (∀ t, addrCauses s c.g .g rs = some t → exec i s = .next (finish c (.trap s t))) ∧
      ∀ s1 hits, addrCauses s c.g .g rs = none → reachGlobal s c.core c.g.ctx .write true rs = .ok s1 hits →
        let u := (hits.zip es).foldl (fun (s : State) (h : Hit × Nat) => corePut s c.core h.1.place (toBytes 8 h.2))
          (touchHits s1 c.core c.g.ctx .write hits)
        exec i s = .next (ended c (writeScalar c (u.modCtx c.g.ctx fun k => { k with wsLen := len }) len))
    let idle (i : Instr) : Prop := Issues s i f c → c.exec = 0 → exec i s = .next (ended c s)
    let misaligned (i : Instr) : Prop := Issues s i f c → c.exec ≠ 0 → a % 131072 ≠ 0 →
      exec i s = .next (finish c (.trap s { cause := .misaligned, addr := BitVec.ofNat 64 a, lane := some c.low }))
    let page (k : Nat) : Nat := (a + 131072 * k) % 2 ^ 56
    let pins (i : Instr) (pin : Bool) : Prop := Issues s i f c → c.exec ≠ 0 → a % 131072 = 0 →
      let n := min (c.srcB c.low % 2 ^ 32) 65535
      let r := pinPages c.g.ctx pin (n - c.g.pinned.1) (a + 131072 * c.g.pinned.1) s
        { passed := c.g.pinned.1, count := c.g.pinned.2, wait := none }
      let keep (x : Nat × Nat) : State := r.1.modGroup c.gid fun g => { g with pinned := x }
      (∀ w, r.2.wait = some w → exec i s = .next (parkGroup (keep (r.2.passed, r.2.count)) c.gid w)) ∧
      (r.2.wait = none → exec i s = .next (ended c (writeScalar c (keep (0, 0)) r.2.count)))
    idle (.tierRecAdd f) ∧ idle (.tierRecClr f) ∧ idle (.tierPin f) ∧ idle (.tierUnpin f) ∧
    misaligned (.tierRecAdd f) ∧ misaligned (.tierPin f) ∧ misaligned (.tierUnpin f) ∧
    (Issues s (.tierRecAdd f) f c → c.exec ≠ 0 → a % 131072 = 0 → wsList s x = none → exec (.tierRecAdd f) s = .next (parkGroup s c.gid
      (if regionPending x .read x.wsBase.toNat then .swap [x.wsBase.toNat / 2 ^ 43 % 2 ^ 13] else .pages [x.wsBase.toNat / 131072]))) ∧
    (Issues s (.tierRecAdd f) f c → c.exec ≠ 0 → a % 131072 = 0 → ∀ es, wsList s x = some es → es.length ≤ 4096 →
      let fresh := ((fromTo 0 (c.srcB c.low % 2 ^ 32)).map page).filter fun p => !es.any fun e => wsPage e == p
      let new := (fresh.take (4096 - es.length)).map (· + 1)
      stores (.tierRecAdd f) x.wsLen new (x.wsLen + new.length)) ∧
    (Issues s (.tierRecClr f) f c → c.exec ≠ 0 → stores (.tierRecClr f) 0 (List.replicate x.wsLen 0) 0) ∧
    pins (.tierPin f) true ∧ pins (.tierUnpin f) false) ∧
  -- one page of the range, and those after it
  (∀ (ctx n va : Nat) (pin : Bool) (s : State) (p : Pinning) (x : Context), s.ctx ctx = some x →
    let va := va % 2 ^ 56
    let full : Prop := pin = true ∧ 8192 ≤ pinnedCount s ctx
    let rest (s : State) (k : Nat) : State × Pinning :=
      pinPages ctx pin n (va + 131072) s { p with passed := p.passed + 1, count := p.count + k }
    let r := pinPages ctx pin (n + 1) va s p
    let region : Prop := x.forking = true ∧ x.isNew = true ∧ va / 2 ^ 43 ∈ x.pendingRegions
    (region → ¬ full → r = (s, { p with wait := some (.swap [va / 2 ^ 43]) })) ∧
    (¬ region → leafAt s ctx va = none → r = rest s 0) ∧
    (∀ l, ¬ region → leafAt s ctx va = some l →
      (ptePIN l.pte = pin → r = rest s 0) ∧
      (ptePIN l.pte ≠ pin → full → r = (s, p)) ∧
      (ptePIN l.pte ≠ pin → ¬ full → pin = true → pteRES l.pte = false → r = (s, { p with wait := some (.pages [va / 131072]) })) ∧
      (ptePIN l.pte ≠ pin → ¬ full → pin = false ∨ pteRES l.pte = true →
        r = rest (deviceSetLeaf s ctx l (setBit1 l.pte 9 pin) l.comp) 1)))

/-- R443 to R447, R464: `ctx.gate.out` in a handler that was asked to leave writes the group's block into the save slot and takes the group
off its core; elsewhere it raises 0x06. Once its groups have left, a team is saved and holds nothing of its core; a cluster resumes when
what the device wrote reads back, and is ended with FAULTLOG kind 4 where it does not. Log entries 32 and 33 name what is the model's
choice here. -/
def Obligations.SavingAndResuming : Prop := ∀ (f : Fields) (s : State) (c : Ctx),
  (Issues s (.ctxGateOut f) f c → (∀ h, c.g.handler = some h → h.swreq = 0) →
    exec (.ctxGateOut f) s = .next (finish c (.trap s { cause := .protection, aux := 1 }))) ∧
  (∀ h g cid s1 hits, Issues s (.ctxGateOut f) f c → c.g.handler = some h → h.swreq ≠ 0 →
    let d := drainGroup s c.gid
    let ps := splitRuns [(h.saveAddr.toNat, groupRun d h)]
    d.group c.gid = some g → clusterOf d c.g = some cid →
    (flagsPending g.thread = true → exec (.ctxGateOut f) s = .next (parkGroup d c.gid (.stall .flags))) ∧
    (flagsPending g.thread = false →
    reachPieces d c.core c.g.ctx .write ps = .ok s1 hits → ∃ (u : State) (y : Group), exec (.ctxGateOut f) s = .next (endedMoved c u) ∧
      u.mem = (putPieces s1 c.core c.g.ctx hits ps).mem ∧ u.group c.gid = some y ∧ y.out = true ∧ y.handler = none ∧ y.restore.isSome = true ∧
      (∀ n, vreg y.main n 0 = 0 ∧ sreg y.main n = 0) ∧ y.main.frontier = g.main.frontier ∧
      (((u.core g.core).slice g.slice).stores.1 ≠ some c.gid ∧ ((u.core g.core).slice g.slice).stores.2 ≠ some c.gid))) ∧
  (∀ (h : Handler) (n : Nat), n < 32 → ((groupRun s h).drop (8 * n)).take 8 = toBytes 8 (frameWord h n)) ∧
  (∀ (tid : Nat) (t : Team), s.team tid = some t →
    (t.saved = true ∨ teamLeft s tid = false ∨ teamBusy s t tid = true → exec (.teamSave tid) s = .next s) ∧
    (t.saved = false → teamLeft s tid = true → teamBusy s t tid = false →
      let p := drainTeam s tid
      (takeSlot p t.cluster = none → exec (.teamSave tid) s = .next (endCluster p t.cluster t.core (ctxOfTeam p t) 3 .localBounds)) ∧
      ∀ q, takeSlot p t.cluster = some q →
        let ps := splitRuns (teamRun q t tid :: clusterRun q t)
        ∀ s1 hits, reachPieces q t.core (ctxOfTeam q t) .write ps = .ok s1 hits → ∃ (u : State), exec (.teamSave tid) s = .next u ∧
          u.mem = (putPieces s1 t.core (ctxOfTeam q t) hits ps).mem ∧ (∀ y, u.team tid = some y → y.saved = true) ∧
          (∀ ch, ch < 4 → ∀ k ∈ (u.core t.core).channel ch, k.team ≠ tid) ∧ (∀ k ∈ (u.core t.core).deposits, k.team ≠ tid) ∧
          ∀ b, t.scratchBase ≤ b → b < t.scratchBase + t.scratchSize → tget 0 (u.core t.core).scratch b = 0)) ∧
  (∀ (cid core : Nat) (k : Cluster) (x : SavedCluster) (rest : List Nat) (s1 : State) (hits : List Hit), s.cluster cid = some k →
    k.saved = some x → k.cores = core :: rest →
    let fits : Prop := ∀ st ∈ x.teams, enginesFit s (((s.team st.tid).map Team.core).getD 0) st = true
    (resumes s cid = false ∨ ¬ fits → exec (.clusterResume cid) s = .next s) ∧
    (resumes s cid = true → fits →
    let ps := splitRuns x.written
    let ctx := ((s.grid k.grid).map Grid.ctx).getD 0
    reachPieces s core ctx .read ps = .ok s1 hits →
    ((∀ h ∈ hits.zip ps, readPlace s1 h.2.2.length h.1.place = h.2.2) → ∃ (u : State) (y : Cluster),
      exec (.clusterResume cid) s = .next u ∧ u.cluster cid = some y ∧ y.saved = none ∧ y.cores = k.cores ∧ u.mem = (touchHits s1 core ctx .read hits).mem) ∧
    ((∃ h ∈ hits.zip ps, readPlace s1 h.2.2.length h.1.place ≠ h.2.2) →
      exec (.clusterResume cid) s = .next (endCluster s1 cid core ctx 4 .integrity))))

/-- R138, R354, R407 to R409, R420 to R423, R429, R441, R444, R447: the machine's own steps of a group. A group with nothing left retires; a
pending cause is taken where the group is parked or stands at its boundary, the highest rank first; a single step ends in 0x12 with SOURCE
4; a frame store that is free goes to a group that waits; a mismatch replaces the datapath and raises 0x0D; the second in a row on the
special-function lanes takes the slice out. Log entries 33 and 35 name what is the model's choice here. -/
def Obligations.GroupEvents : Prop := ∀ (s : State) (gid : Nat) (g : Group), s.group gid = some g →
  let idle : Prop := g.main.frontier = [] ∧ g.handler = none ∧ g.stalled = none ∧ g.restore = none ∧ g.out = false ∧
    flagsPending g.main = false ∧ g.ops = []
  let boundary : Prop := g.pending ≠ [] ∧ g.priv = false ∧ (g.park ≠ none ∨ (g.replays = [] ∧ g.cur = none)) ∧ g.stalled = none ∧
    g.restore = none ∧ g.out = false ∧ g.main.frontier ≠ [] ∧ gatedOn s g.core g.ctx = false ∧ g.step ≠ 2
  let pc := match g.replays with
    | r :: _ => r.iaddr
    | [] => ((g.main.frontier.head?).map Entry.pc).getD 0
  (¬ idle → exec (.groupRetire gid) s = .next s) ∧
  (idle → g.kind ≠ .spindle → exec (.groupRetire gid) s = .next (settleTeam (retireGroup s gid) g.team)) ∧
  (idle → g.kind = .spindle → exec (.groupRetire gid) s = .next (stopJob s gid 0)) ∧
  (¬ boundary → exec (.trapEntry gid) s = .next s) ∧
  (boundary → ∃ info rest, (info :: rest).Perm g.pending ∧ (∀ p ∈ rest, asyncRank info.cause ≤ asyncRank p.cause) ∧
    (info.cause ≠ .budget → exec (.trapEntry gid) s = .next (takeTrap (s.setGroup gid { g with pending := rest }) gid info [] pc)) ∧
    (info.cause = .budget → ∀ cid, clusterOf s g = some cid →
      (∀ u, takeSlot s cid = some u → exec (.trapEntry gid) s = .next (takeTrap (u.setGroup gid { g with pending := rest }) gid info [] pc)) ∧
      (takeSlot s cid = none → exec (.trapEntry gid) s = .next (endCluster s cid g.core g.ctx 3 .localBounds)))) ∧
  (g.step = 2 → g.priv = false → g.stalled = none → g.main.frontier ≠ [] →
    exec (.stepTrap gid) s = .next (takeTrap (s.setGroup gid { g with step := 0 }) gid { cause := .breakpoint, source := 4 } [] pc)) ∧
  (g.step ≠ 2 ∨ g.priv = true ∨ g.stalled ≠ none ∨ g.main.frontier = [] → exec (.stepTrap gid) s = .next s) ∧
  (freeStoreOf s g.core g.slice = none → exec (.frameStoreGrant gid) s = .next s) ∧
  (∀ n info es at', freeStoreOf s g.core g.slice = some n → g.stalled = some (info, es, at') → flagsPending g.main = false →
    ∃ (u : State) (y : Group), exec (.frameStoreGrant gid) s = .next u ∧ u.group gid = some y ∧ y.priv = true ∧ y.stalled = none ∧
      y.kept = g.kept ∧ ∃ h, y.handler = some h ∧ h.info = info ∧ h.entries = es ∧ h.pc = at' ∧ h.store = n) ∧
  (∀ n h, freeStoreOf s g.core g.slice = some n → g.stalled = none → g.restore = some h → g.out = false → teamRestored s g = true →
    ∃ (u : State) (y : Group), exec (.frameStoreGrant gid) s = .next u ∧ u.group gid = some y ∧ y.priv = true ∧ y.restore = none ∧
      ∃ k, y.handler = some k ∧ k.info = h.info ∧ k.entries = h.entries ∧ k.pc = h.pc ∧ k.restored = true ∧ k.swreq = 0) ∧
  (∀ (d : Nat) (c : Ctx), d < 33 → g.kind ≠ .spindle → ((s.core g.core).slice g.slice).failed.getLsbD d = false →
    lanesIssue s gid g (fun r => decide (r ≤ 1)) = some c →
    let x := (s.core g.core).slice g.slice
    let y := (remap x d).1
    let m := s.modCore g.core fun k => k.setSlice g.slice y
    (g.priv = true → exec (.laneFault gid d) s = .next (vacateSlice m g.core g.slice)) ∧
    (g.priv = false → ∃ info, exec (.laneFault gid d) s = .next (vacateSlice (trapAt c m info) g.core g.slice) ∧ info.cause = .laneFault ∧ info.aux.toNat % 2 ^ 8 = d) ∧
    y.failed.getLsbD d = true ∧ (16 ≤ (healthyPaths y).length → y.out = x.out ∧ (x.deg = true ∨ x.pos.Nodup → d ∉ y.pos)) ∧
    ((healthyPaths y).length < 16 → y.out = true)) ∧
  (∀ (c : Ctx), g.kind ≠ .spindle → lanesIssue s gid g (fun r => r == 2) = some c →
    let x := (s.core g.core).slice g.slice
    exec (.sfuMismatch gid) s = .next (vacateSlice (s.modCore g.core fun k =>
      k.setSlice g.slice { x with sfuMiss := x.sfuMiss + 1, out := x.out || decide (1 ≤ x.sfuMiss) }) g.core g.slice))

/-! ### Encoders, front ends and the tier engine -/

/-- R511 to R514: `venc` posts the 64 bytes at its address to an encoder, with status 2 for a stream slot that is not the context's, 1 for a
full queue and 0 otherwise. An encoder takes its oldest frame, writes its completion record and drops it: status 4 for an unbound slot, 2
for a bad descriptor, and for the rest what coding comes to. Log entry 51 names what is the model's choice here. -/
def Obligations.Encoders : Prop := (∀ (f : Fields) (s s1 : State) (c : Ctx) (vals : List (Nat × DWord × Nat)), Issues s (.venc f) f c →
    (c.exec = 0 → exec (.venc f) s = .next (ended c s)) ∧
    (c.exec ≠ 0 → PlainReads c s false [{ lane := c.low, addr := BitVec.ofNat 64 (c.srcA c.low), n := 64 }] s1 vals →
      let d := spendRestart (performStoresOf s1 c.gid) c.g
      let x := ((vals.head?).map fun v => v.2.2).getD 0
      let e := d.encoder (f.imm13.toNat % 8)
      let status := if 11 < bits x 231 224 ∨ (e.slot (bits x 231 224)).ctx ≠ some c.g.ctx then 2 else if 64 ≤ e.queue.length then 1 else 0
      ∃ (u : State), exec (.venc f) s = .next (ended c (writeScalar c u status)) ∧ { u with encoders := d.encoders } = d ∧
        (status ≠ 0 → u = d) ∧ (status = 0 → u.encoder (f.imm13.toNat % 8) = { e with queue := e.queue ++ [(c.g.ctx, toBytes 64 x)] }) ∧
        ∀ k, k ≠ f.imm13.toNat % 8 → u.encoder k = d.encoder k)) ∧
  (∀ (s : State) (enc : Nat), (s.encoder enc).queue = [] → exec (.encodeFrame enc) s = .next s) ∧
  (∀ (s s1 s2 : State) (enc ctx : Nat) (bs : List Byte) (rest : List (Nat × List Byte)) (xs ys : List (Place × Nat)),
    (s.encoder enc).queue = (ctx, bs) :: rest →
    let x := ofBytes bs
    let k := (s.encoder enc).slot (bits x 231 224)
    let at' := [(bits x 215 160 / 64 * 64, 64)]
    let record (st n : Nat) (key : Bool) : List Byte := toBytes 8 (st + 256 + 2 ^ 32 * n) ++ toBytes 8 (bits x 319 288) ++
      toBytes 8 (if key then 1 else 0) ++ List.replicate 40 0
    let done (t : State) (zs : List (Place × Nat)) (st n : Nat) (key : Bool) (slot : EncSlot) : Prop :=
      ∃ (u : State), exec (.encodeFrame enc) s = .next u ∧ (u.encoder enc).queue = rest ∧
        u.mem = (encPut (208 + enc) t zs (record st n key)).mem ∧ (bits x 231 224 ≤ 11 → (u.encoder enc).slot (bits x 231 224) = slot)
    encReach s ctx .write at' = .ok s1 xs →
    (k.ctx ≠ some ctx → done s1 xs 4 0 false k) ∧
    (k.ctx = some ctx → frameBad x = true → done s1 xs 2 0 false k) ∧
    (∀ r : Coded, k.ctx = some ctx → frameBad x = false → ∀ t, codeSource s (208 + enc) ctx x k = .ok t r →
      encReach t ctx .write at' = .ok s2 ys → done s2 ys r.status r.bytes r.key r.slot)) ∧
  (∀ (s t : State) (agent ctx x d : Nat) (k : EncSlot) (r : Coded), codeFrame s agent ctx x d k = .ok t r →
    (r.status = 0 → r.bytes ≤ bits x 159 128 ∧ r.slot.forceKey = false ∧
      r.slot.last = some (imWidth d, imHeight d, bits x 233 232) ∧
      (r.key = true ↔ x.testBit 234 = true ∨ k.forceKey = true ∨ k.last ≠ some (imWidth d, imHeight d, bits x 233 232))) ∧
    (r.status ≠ 0 → r.bytes = 0 ∧ r.key = false))

/-- R9, R216 to R219, R221, R223 to R225: the queues of a front end. A doorbell write moves the producer index, halts its queue with code
0x06, or is logged; the other words of a queue's window read as they do for its function only, and take no write; a packet is copied and
numbered, and becomes a grid or halts its queue with the code of R222; completion words go out in sequence; a grid begins when its
dependence holds, capturing its parameter block, and completes when every cluster has retired. -/
def Obligations.LaunchQueues : Prop := ∀ (s : State) (fe q : Nat),
  let x := s.queue fe q
  let halted (u : State) (code : Nat) : Prop := u.queue fe q = { x with halted := true, rejection := code } ∧ u.grids = s.grids ∧ u.mem = s.mem
  (∀ (fn : Nat) (p : Word),
    (fn ≠ x.fn ∨ 8 ≤ q ∨ 16 ≤ fe → exec (.doorbell fn fe q p) s =
      .next (s.setFunction fn { (s.function fn) with logged := (s.function fn).logged + 1 })) ∧
    (fn = x.fn → q < 8 → fe < 16 → x.setUp = false → exec (.doorbell fn fe q p) s = .next s) ∧
    (fn = x.fn → q < 8 → fe < 16 → x.setUp = true →
      let good : Prop := (p.toNat + 2 ^ 32 - x.consumed) % 2 ^ 32 ≤ 2 ^ x.log2n ∧ (p.toNat + 2 ^ 32 - x.producer) % 2 ^ 32 < 2 ^ 31
      (good → exec (.doorbell fn fe q p) s = .next (s.setQueue fe q { x with producer := p.toNat })) ∧
      (¬ good → ∃ u, exec (.doorbell fn fe q p) s = .next u ∧ halted u 6))) ∧
  (∀ (fn off : Nat) (p : Word), off < 0x2000 → fe < 16 → q < 8 → let a := 0x10000 * fe + 0x2000 * q + off
    barWord s fn a = (if fn ≠ x.fn then 0 else if off = 8 then x.consumed
      else if off = 16 then (if x.halted = true then 1 else 0) + 256 * x.rejection else 0) ∧
    (fn ≠ x.fn ∨ off = 0 → exec (.doorbell fn fe q p) s = .next (barPut s fn a p)) ∧
    (fn = x.fn → off ≠ 0 → barPut s fn a p = s)) ∧
  (∀ code, halted (haltQueue s fe q code) code) ∧
  (x.finished = [] → (8 ≤ q ∨ x.space = false ∨ ringPending x = false) → exec (.ringSlotRead fe q) s = .next s) ∧
  (x.finished = [] → q < 8 → x.space = true → ringPending x = true →
    let a := x.base + 64 * (x.consumed % 2 ^ x.log2n)
    (∀ u p, engineGlobal s (s.front fe).base x.ctx a .read = .ok u p →
      exec (.ringSlotRead fe q) s = .next (u.setQueue fe q { (u.queue fe q) with waiting := false })) ∧
    (∀ u p, engineGlobal s (s.front fe).base x.ctx a .read = .wait u p →
      exec (.ringSlotRead fe q) s = .next (u.setQueue fe q { (u.queue fe q) with waiting := true })) ∧
    (∀ u n, engineGlobal s (s.front fe).base x.ctx a .read = .err u n → exec (.ringSlotRead fe q) s = .next (haltQueue u fe q 7))) ∧
  (∀ seq st ctx, q < 8 → x.space = false → (s.function x.fn).tdi ≠ 3 → x.finished.find? (fun c => c.1 == x.written + 1) = some (seq, st, ctx) →
    ∀ i, i < 8 → tget 0 (writeCompletion s fe q).hostMem (x.fn * 2 ^ 64 + x.cpl + i) =
      BitVec.ofNat 8 ((seq % 2 ^ 48 + 2 ^ 48 * st) / 2 ^ (8 * i))) ∧
  (nextPacket s fe q = none → exec (.packetAccept fe q) s = .next s) ∧
  (∀ (s1 : State) (ctx w : Nat), nextPacket s fe q = some (s1, ctx, w) →
    let d := consumePacket s1 fe q
    (d.queue fe q).accepted = (s1.queue fe q).accepted + 1 ∧
    let g : Grid := { fe := fe, ctx := ctx, queue := q, seqNo := (d.queue fe q).accepted, pkt := Packet.ofNat w, order := d.fresh }
    (rejection d fe ctx w = 0 → exec (.packetAccept fe q) s = .next { d with fresh := d.fresh + 1, grids := tins d.grids d.fresh g }) ∧
    (rejection d fe ctx w ≠ 0 → ∃ (u : State), exec (.packetAccept fe q) s = .next u ∧ (∀ n, (u.grid n).isSome = (s1.grid n).isSome) ∧
      (u.queue fe q).halted = true)) ∧
  (∀ n, s.grid n = none → exec (.gridBegin n) s = .next s ∧ exec (.dependencePoll n) s = .next s ∧
    exec (.gridComplete n) s = .next s) ∧
  (∀ (n : Nat) (g : Grid), s.grid n = some g →
    (g.state ≠ .waiting ∨ depsHold s g = false → exec (.gridBegin n) s = .next s) ∧
    (g.state = .waiting → depsHold s g = true →
      exec (.gridBegin n) s = .next (s.modGrid n fun g => { g with state := .begun, param := paramNow s g })) ∧
    (g.depMet = true ∨ g.pkt.dep = 0 ∨ g.state = .begun → exec (.dependencePoll n) s = .next s) ∧
    (g.depMet = false → g.pkt.dep ≠ 0 → g.state = .waiting → ∀ u p,
      engineGlobal s (s.front g.fe).base g.ctx g.pkt.depaddr .read = .ok u p → placeCause u 8 p = none →
      let v := ofBytes (readPlace u 8 p)
      exec (.dependencePoll n) s = .next (if (if g.pkt.depcmp = 0 then v = g.pkt.depval else g.pkt.depval ≤ v)
        then u.modGrid n fun g => { g with depMet := true } else u)) ∧
    exec (.gridBlocking n) s = .next (s.modGrid n fun g => match g.failedAt with
      | some t => if t + 1048576 ≤ s.clock then { g with blocking := true } else g
      | none => g) ∧
    (gridDone s n g = false → exec (.gridComplete n) s = .next s) ∧
    (gridDone s n g = true → ∃ (u : State), exec (.gridComplete n) s = .next u ∧ u.grid n = none ∧
      ∀ k, k ≠ n → (u.grid k).isSome = (s.grid k).isSome))

/-- R15, R170, R174, R175, R225, R227: placement. The rectangle found is that of the lowest corner whose cells all serve; the first grid that
fits is placed, and the front end is then busy for 4 clocks per cluster, at the end of which the groups of a co-resident grid are ready; a
group starts at ENTRY with its launch registers. -/
def Obligations.Placement : Prop := (∀ (f : FrontEnd) (cw ch : Nat) (ok : Nat → Bool) (cells : List Nat), findRectangle f cw ch ok = some cells →
    ∃ c, f.base ≤ c ∧ c ≤ f.limit ∧ c % 8 + cw ≤ 8 ∧ c % 48 / 8 + ch ≤ 6 ∧
      cells = ((fromTo 0 ch).flatMap fun dy => (fromTo 0 cw).map fun dx => c + 8 * dy + dx) ∧
      (∀ k ∈ cells, f.base ≤ k ∧ k ≤ f.limit ∧ ok k = true) ∧
      ∀ b, f.base ≤ b → b < c → b % 8 + cw ≤ 8 → b % 48 / 8 + ch ≤ 6 →
        ∃ dx dy, dx < cw ∧ dy < ch ∧ (f.limit < b + 8 * dy + dx ∨ ok (b + 8 * dy + dx) = false)) ∧
  (∀ (s : State) (fe : Nat), s.clock < (s.front fe).freeAt → exec (.clusterPlace fe) s = .next s ∧ exec (.coresidentPlace fe) s = .next s) ∧
  (∀ (s : State) (fe : Nat), (s.front fe).freeAt ≤ s.clock → unblocked (readyGrids s fe) = [] →
    exec (.clusterPlace fe) s = .next s ∧ exec (.coresidentPlace fe) s = .next s) ∧
  (∀ (s : State) (fe n : Nat) (g : Grid) (rest : List (Nat × Grid)), (s.front fe).freeAt ≤ s.clock →
    unblocked (readyGrids s fe) = (n, g) :: rest →
    (g.pkt.cores = false → ∀ k cells, nextOf s n g = some k → fitFor s g k = some cells →
      exec (.coresidentPlace fe) s = .next s ∧
      exec (.clusterPlace fe) s = .next ((placeNext placeSaved s n k cells).modFront fe fun x => { x with freeAt := s.clock + 4 })) ∧
    (g.pkt.cores = true → ∀ (u : State) k, placeWhole placeSaved (g.pkt.clusters + 1) s n 0 = some (u, k) →
      exec (.clusterPlace fe) s = .next s ∧
      exec (.coresidentPlace fe) s = .next ((groupsReadyAt u n (s.clock + 4 * k)).modFront fe fun x => { x with freeAt := s.clock + 4 * k }))) ∧
  (∀ (s : State) (p : Packet) (ctx tid core C k g age : Nat) (at' : Nat × Nat),
    let x := newGroup s p ctx tid core C k g at' age
    sreg x.main 0 = BitVec.ofNat 32 p.params ∧ sreg x.main 1 = BitVec.ofNat 32 (p.params / 2 ^ 32) ∧ sreg x.main 2 = BitVec.ofNat 32 C ∧
    sreg x.main 3 = BitVec.ofNat 32 g ∧ (∀ n, 4 ≤ n → sreg x.main n = 0) ∧ (∀ n l, vreg x.main n l = 0) ∧
    x.main.nv = p.vregs ∧ x.main.ns = p.sregs ∧ x.handler = none ∧ x.pending = [] ∧ x.g = g ∧ x.core = core ∧ x.width = p.width)

/-- R246 to R248, R251, R252, R450, R454, R491: the tier engine. The oldest fault of the highest priority that can be served is; a page moves
to a free frame of the tier with its bytes, unless it is pinned, and to the host unless something waits for it; a fork region that is
built is pending no more; a pass takes its steps in order. Log entries 41, 42 and 43 name what is the model's choice here. -/
def Obligations.TierSteps : Prop := (∀ (s : State) (core : Nat), (∀ x ∈ (s.core core).faults, serveFault s x = none) → exec (.pageFaultService core) s = .next (recordFaults s core)) ∧
  (∀ (s : State) (core : Nat), (∀ x ∈ s.groups, ∀ vs, x.2.park ≠ some (.faultSlot core vs)) → recordFaults s core = s) ∧
  (∀ (s u : State) (core : Nat) (pre post : List (Nat × Nat)) (x : Nat × Nat), (s.core core).faults = pre ++ x :: post →
    serveFault s x = some u →
    (∀ y ∈ pre, serveFault s y = none ∨ faultPrio s core y < faultPrio s core x) →
    (∀ y ∈ post, serveFault s y = none ∨ faultPrio s core y ≤ faultPrio s core x) →
    exec (.pageFaultService core) s = .next
      (recordFaults (u.modCore core fun k => { k with faults := k.faults.filter fun y => y != x }) core)) ∧
  (∀ (s : State) (ctx va : Nat) (l : Leaf), s.ctx ctx ≠ none → leafAt s ctx va = some l → ∀ tier fr,
    (ptePIN l.pte = true ∨ l.giB = true → exec (.pageMove ctx va tier) s = .next s) ∧
    (ptePIN l.pte = false → l.giB = false → pteRES l.pte = true → pteSH l.pte = false → tier ≤ 1 → pteTier l.pte ≠ tier →
      pickFrame s ctx [tier] = some fr → exec (.pageMove ctx va tier) s = .next (moveTo s ctx l fr)) ∧
    (ptePIN l.pte = false → l.giB = false → pteRES l.pte = true → pteSH l.pte = false → tier = 2 →
      exec (.pageMove ctx va tier) s = .next (if wanted s ctx (va / 131072 * 131072) then s else demotePage s ctx l))) ∧
  (∀ (s : State) (old new dom : Nat), old ≠ new → Memory.wf (settleFrame s old).mem = true → ∀ i, i < 131072 →
    readByte (moveFrame s old new dom) (new * 131072 + i) = readByte (settleFrame s old) (old * 131072 + i) ∧
    readByte (moveFrame s old new dom) (old * 131072 + i) = 0) ∧
  (∀ (s : State) (ctx i : Nat), buildRegion s ctx i = none → exec (.forkRegionBuild ctx i) s = .next s) ∧
  (∀ (s u : State) (ctx i : Nat), buildRegion s ctx i = some u → exec (.forkRegionBuild ctx i) s = .next u ∧
    ∀ tmpl new t, forkPair s ctx = some (tmpl, new) → s.ctx tmpl = some t → i ∈ t.pendingRegions →
      (∀ y, u.ctx tmpl = some y → i ∉ y.pendingRegions) ∧ ∀ y, u.ctx new = some y → i ∉ y.pendingRegions) ∧
  (∀ (s : State) (ctx va : Nat), (∀ c l, s.ctx ctx = some c → leafAt s ctx va = some l →
      c.inDedup = false ∨ mergeable l = false ∨ pteD l.pte = true ∨ tget 0 c.clean (va / 131072) < s.mergeN) →
    exec (.contentMerge ctx va) s = .next s) ∧
  (∀ (s : State) (ctx va : Nat) (c : Context) (l : Leaf), s.ctx ctx = some c → leafAt s ctx va = some l → c.inDedup = true →
    mergeable l = true → pteD l.pte = false → s.mergeN ≤ tget 0 c.clean (va / 131072) → frameClean s (pteAddr l.pte / 131072) = true →
    exec (.contentMerge ctx va) s = .next (mergePage s ctx l c.dedupDom)) ∧
  (∀ (s : State) (ctx : Nat), s.ctx ctx = none → exec (.tierPass ctx) s = .next s ∧ exec (.incomingMove ctx) s = .next s) ∧
  (∀ (s : State) (ctx : Nat) (c : Context), s.ctx ctx = some c → c.wsFound = [] → appendFound s ctx = s) ∧
  (∀ (s : State) (ctx : Nat) (c : Context), s.ctx ctx = some c →
    (let s1 := if c.state = 2 then wsScan s ctx else s
     let s2 := if c.keys.getLsbD 30 = true then ((leavesOf s1 ctx).filter fun x => mergeable x.2).foldl (candidate ctx) s1 else s1
     exec (.tierPass ctx) s = .next (followHome ((c.pendingRegions.take 64).foldl (fun (s : State) i => (buildRegion s ctx i).getD s) s2) ctx)) ∧
    (∀ (u : State) (y : Context), appendFound s ctx = u → u.ctx ctx = some y →
      (y.state ≠ 2 ∨ waitsResid u ctx = false → exec (.incomingMove ctx) s = .next u) ∧
      (y.state = 2 → waitsResid u ctx = true → ∀ es, wsList u y = some es →
        exec (.incomingMove ctx) s = .next ((es.findSome? fun e => incomingOne u ctx (wsPage e)).getD u))))

/-- R436 to R439: a slice begins with a balance of the budget, or of the whole slice where that is 0, less any overrun; a balance that has run
out gates its context; the watchdog raises 0x0F after two slices without progress; the timer raises 0x11 once and disarms itself. Log
entry 65 names what is the model's choice here. -/
def Obligations.TimeSlices : Prop := ∀ (s : State),
  (∀ fe, s.clock < (s.front fe).nextSlice → exec (.sliceBoundary fe) s = .next s) ∧
  (∀ fe, (s.front fe).nextSlice ≤ s.clock → ∃ (u : State), exec (.sliceBoundary fe) s = .next u ∧
    let f := s.front fe
    u.front fe = { f with sl := f.slNext, nextSlice := f.nextSlice + f.slNext } ∧ u.groups = s.groups ∧ u.mem = s.mem ∧ u.ctxs = s.ctxs ∧
    (∀ core slot r, tfind (s.core core).residents slot = some r → ∃ y, tfind (u.core core).residents slot = some y ∧ ∀ c, s.ctx r.ctx = some c →
      y = if c.part = fe then { r with spent := false, yielded := false, yieldedNow := false, balance := (if c.budget = 0 then (f.slNext : Int) else c.budget) + min r.balance 0 } else r)) ∧
  (∀ core slot r, tfind (s.core core).residents slot = some r → ∃ (u : State), exec (.budgetExhausted core slot) s = .next u ∧
    { u with cores := s.cores } = s ∧ tfind (u.core core).residents slot =
      some (if r.balance ≤ 0 ∧ r.spent = false then { r with spent := true, spentAt := s.clock } else r)) ∧
  (∀ gid, s.group gid = none → exec (.watchdog gid) s = .next s) ∧
  (∀ gid g, s.group gid = some g → (g.kind = .spindle ∨ g.idle < 2 * sliceLen s g.ctx → exec (.watchdog gid) s = .next s) ∧
    (g.kind ≠ .spindle → 2 * sliceLen s g.ctx ≤ g.idle → g.priv = false → ∃ (u : State) (y : Group), exec (.watchdog gid) s = .next u ∧
      SameButGroup gid s u ∧ u.group gid = some y ∧ { y with idle := g.idle, pending := g.pending } = g ∧ y.idle = 0 ∧
      ({ cause := .watchdog, source := 3 } : TrapInfo) ∈ y.pending) ∧
    (g.kind ≠ .spindle → 2 * sliceLen s g.ctx ≤ g.idle → g.priv = true →
      exec (.watchdog gid) s = .next (endGroupCluster (s.modGroup gid fun g => { g with idle := 0 }) gid 5 .watchdog))) ∧
  (∀ ctx, s.ctx ctx = none → exec (.timer ctx) s = .next s) ∧
  (∀ ctx c, s.ctx ctx = some c → (c.timerCmp = 0 ∨ c.ctime < c.timerCmp → exec (.timer ctx) s = .next s) ∧
    (c.timerCmp ≠ 0 → c.timerCmp ≤ c.ctime → ∃ (u : State), exec (.timer ctx) s = .next u ∧
      u.ctx ctx = some { c with timerCmp := 0 } ∧ u.mem = s.mem ∧ ∀ gid, u.group gid = s.group gid ∨ ∃ g, s.group gid = some g ∧
        u.group gid = some (addPending g { cause := .timer, source := 3 })))

/-! ### The fabric and the monitor -/

/-- R304, R483, R485, R486, R494, R498, R500: switches, links and ports. A release held at a switch goes on when no crossing write of its
agent is outstanding; an acknowledgement lowers the counter by one; a link that goes down is reported once; a replay and a port's state
change nothing else. Log entries 46 and 55 name what is the model's choice here. -/
def Obligations.SwitchesLinksAndPorts : Prop := ∀ (s : State),
  (∀ die n, agentAt die n = none → exec (.releaseForward die n) s = .next s ∧ exec (.writeAck die n) s = .next s) ∧
  (∀ die n a, agentAt die n = some a →
    (a = 48 * die + n ∨ (die = 4 ∧ a = 192 + n)) ∧
    ((s.crossings.find? fun x => x.2.agent == a) = none → exec (.writeAck die n) s = .next s) ∧
    (∀ id x, (s.crossings.find? fun x => x.2.agent == a) = some (id, x) → ∃ (u : State), exec (.writeAck die n) s = .next u ∧
      tget 0 u.fences a = tget 0 s.fences a - 1 ∧ (∀ b, b ≠ a → tget 0 u.fences b = tget 0 s.fences b) ∧
      { u with fences := s.fences, crossings := s.crossings } = s) ∧
    (tget [] s.heldRel a = [] → exec (.releaseForward die n) s = .next s) ∧
    (∀ id rest p, tget [] s.heldRel a = id :: rest → tfind s.stores id = some p →
      let goes : Prop := if p.release then tget 0 s.fences a = 0 else tget 0 s.fences a < 1023
      (goes → exec (.releaseForward die n) s = .next (performNow { s with heldRel := tput [] s.heldRel a rest } id)) ∧
      (¬ goes → exec (.releaseForward die n) s = .next s))) ∧
  (∀ a b, a = b ∨ 4 < a ∨ 4 < b → exec (.linkDetour a b) s = .next s ∧ exec (.flitReplay a b) s = .next s) ∧
  (∀ a b, a ≠ b → a ≤ 4 → b ≤ 4 → let k := 5 * min a b + max a b
    exec (.flitReplay a b) s = .next { s with replayed := s.replayed + 1 } ∧
    (k ∈ s.linksDown → exec (.linkDetour a b) s = .next s) ∧
    (k ∉ s.linksDown → ∃ (u : State), exec (.linkDetour a b) s = .next u ∧ u.linksDown = s.linksDown ++ [k] ∧ u.fences = s.fences ∧
      u.crossings = s.crossings ∧ u.stores = s.stores ∧ u.mem = s.mem ∧ (s.ring.set = true → s.ring.write - ringRead s < s.ring.count →
      s.ring.lost = 0 → u.ring.write = s.ring.write + 1 ∧ u.ring.seq = s.ring.seq + 1))) ∧
  (∀ p, exec (.portAuthFail p) s = .next (if p < 4 ∧ (s.port p).trained = true then s.setPort p { (s.port p) with down := true } else s)) ∧
  (∀ p e, exec (.portTraining p e) s =
    .next (if p < 4 then s.setPort p { trained := true, down := false, encoded := e } else s))

/-- R149, R219, R496, R499 to R503, R505, R510: agents outside. A function reaches only the contexts bound to it; a request reads or writes
the bytes that translation gives, words of the window of a queue, or the mailbox; an atomic answers with the old value; an integrity
failure puts a function in ERROR and halts its queues; a key slot is loaded and freed only under a session. Log entries 45, 46 and 47 name
what is the model's choice here. -/
def Obligations.OutsideAgents : Prop := ∀ (s : State),
  (∀ fn ctx a n data, ctx < 4096 → fn > 64 ∨ ctx ∉ (s.function fn).ctxs → exec (.hostIngress false fn ctx a data n) s =
    .next (({ s with reply := [] } : State).setFunction fn { (s.function fn) with logged := (s.function fn).logged + 1 })) ∧
  (∀ fn ctx a n data (s1 : State) xs, ctx < 4096 → fn ≤ 64 → ctx ∈ (s.function fn).ctxs → data ≠ [] → data.length ≤ 512 →
    ingressPlaces s (functionCore s fn) ctx .write (subpages 3 a data) = .ok s1 xs → exec (.hostIngress false fn ctx a data n) s =
    .next { (xs.foldl (fun (s : State) x => agentPut s 216 x.1 x.2) s1) with reply := [] }) ∧
  (∀ fn ctx a n (s1 : State) xs, ctx < 4096 → fn ≤ 64 → ctx ∈ (s.function fn).ctxs → n ≤ 4096 →
    ingressPlaces s (functionCore s fn) ctx .read (subpages 3 a (List.replicate n 0)) = .ok s1 xs →
    (∀ x ∈ xs, placeCause s1 x.2.length x.1 = none) → exec (.hostIngress false fn ctx a [] n) s =
    .next { s1 with reply := xs.flatMap fun x => readPlace s1 x.2.length x.1 }) ∧
  (∀ fn ctx a n data (s1 : State) p, ctx < 4096 → fn ≤ 64 → ctx ∈ (s.function fn).ctxs → data ≠ [] → data.length ≤ 512 →
    ingressPlaces s (functionCore s fn) ctx .write (subpages 3 a data) = .wait s1 p →
    exec (.hostIngress false fn ctx a data n) s = .next { s1 with laters := s1.laters ++ [.request fn ctx a data n] }) ∧
  (∀ fn a n, n ≤ 4096 → exec (.hostIngress false fn 4096 a [] n) s = .next { s with
    reply := (fromTo a n).map fun b => BitVec.ofNat 8 (barWord s fn (b / 4 * 4) / 2 ^ (8 * (b % 4))) }) ∧
  (∀ fn a n data, data.length = 4 → a % 4 = 0 → exec (.hostIngress false fn 4096 a data n) s =
    .next { (barPut s fn a (BitVec.ofNat 32 (ofBytes data))) with reply := [] }) ∧
  (∀ a n data, a + (if data = [] then n else data.length) ≤ 4096 → exec (.hostIngress false 0 4097 a data n) s =
    .next (if data = [] then { s with reply := (fromTo a n).map (tget 0 s.mailbox) }
      else { s with mailbox := putBytes s.mailbox a data, reply := [] })) ∧
  (∀ fn a n data, fn ≠ 0 → exec (.hostIngress false fn 4097 a data n) s = .next { s with reply := [] }) ∧
  (∀ port ctx a n data, (s.port port).trained = false ∨ (s.port port).down = true →
    exec (.hostIngress true port ctx a data n) s = .next { s with reply := [] }) ∧
  (∀ fn ctx va op size x y, fn ≤ 64 → ctx ∈ (s.function fn).ctxs → (size = 4 ∨ size = 8) → va % size = 0 → op ≤ 2 → ∀ (s1 : State) p,
    engineGlobal s (functionCore s fn) ctx va .write = .ok s1 p → placeCause s1 size p = none → ∃ (u : State),
    exec (.pcieAtomic fn ctx va op size x y) s = .next u ∧ u.reply = readPlace s1 size p ∧
    let old := ofBytes (readPlace s1 size p)
    let new := if op = 0 then old + x.toNat else if op = 1 then x.toNat else if old = x.toNat % 2 ^ (8 * size) then y.toNat else old
    u.mem = (writePlace s1 (toBytes size new) p).mem) ∧
  (∀ fn, fn = 0 ∨ 64 < fn → exec (.ideFailure fn) s = .next s ∧ ∀ st, exec (.tdispRequest fn st) s = .next s) ∧
  (∀ fn, fn ≠ 0 → fn ≤ 64 → (∃ (u : State), exec (.ideFailure fn) s = .next u ∧ u.function fn = { (s.function fn) with tdi := 3 } ∧
      u.groups = s.groups ∧ u.mem = s.mem ∧ ∀ fe q, fe < 16 → q < 8 → (s.queue fe q).setUp = true → (s.queue fe q).fn = fn →
        (u.queue fe q).halted = true) ∧
    ∀ st, exec (.tdispRequest fn st) s = .next (if (st = 1 ∧ (s.function fn).tdi = 0) ∨ (st = 2 ∧ (s.function fn).tdi = 1) ∨ st = 0
      then s.setFunction fn { (s.function fn) with tdi := st } else s)) ∧
  (∀ fn nonce, exec (.spdmKeyExchange fn nonce) s = .next (if 64 < fn then s
    else s.setFunction fn { (s.function fn) with sessions := nonce :: (s.function fn).sessions })) ∧
  (∀ slot key ctx, exec (.keySlotLoad slot key ctx) s = .next (if slot < 256 ∧ sessionFor s ctx = true
    then { s with keySlots := tins s.keySlots slot { key := key, ctx := ctx } } else s)) ∧
  (∀ slot, (tfind s.keySlots slot = none → exec (.keySlotFree slot) s = .next s) ∧
    ∀ k, tfind s.keySlots slot = some k → exec (.keySlotFree slot) s = .next (if sessionFor s k.ctx = true
      then { s with keySlots := tdel s.keySlots slot } else s))

/-- R215, R218, R219, R221, R237, R251, R436, R453, R502, R503, R509 to R511, R516: monitor calls that set the machine up. An operand out of
range is status 2, a check of the cited rules that fails is 1, and both change nothing; 0 makes the setting and changes nothing else. Log
entries 48 and 50 name what is the model's choice here. -/
def Obligations.SetupCalls : Prop := ∀ (s : State),
  let answers (i : Instr) (st : Nat) (u : State) : Prop := exec i s = .next { u with callA0 := st }
  let locked (fe : Nat) : Prop := ∃ x ∈ s.functions, x.2.fe = some fe ∧ (x.2.tdi = 1 ∨ x.2.tdi = 2)
  let within (fe c : Nat) : Prop := (s.front fe).base ≤ c ∧ c ≤ (s.front fe).limit
  (∀ fe base limit,
    let bad : Prop := 15 < fe ∨ 191 < base ∨ 191 < limit
    let refused : Prop := (∃ f c, f < 16 ∧ f ≠ fe ∧ within f c ∧ base ≤ c ∧ c ≤ limit) ∨ locked fe ∨
      ∃ c, within fe c ∧ (c < base ∨ limit < c) ∧ coreVacated s c = false
    (bad → answers (.partSet fe base limit) 2 s) ∧ (¬ bad → refused → answers (.partSet fe base limit) 1 s) ∧
    (¬ bad → ¬ refused → answers (.partSet fe base limit) 0 (s.modFront fe fun f => { f with base := base, limit := limit }))) ∧
  (∀ fe m, (15 < fe ∨ 65536 ≤ m → answers (.colourSet fe m) 2 s) ∧ (fe ≤ 15 → m < 65536 → m = 0 ∨ locked fe → answers (.colourSet fe m) 1 s) ∧
    (fe ≤ 15 → m < 65536 → m ≠ 0 → ¬ locked fe → answers (.colourSet fe m) 0 (s.modFront fe fun f => { f with colours := m }))) ∧
  (∀ fe sl, let good : Prop := fe ≤ 15 ∧ ∃ k, 16 ≤ k ∧ k ≤ 24 ∧ sl = 2 ^ k
    (¬ good → answers (.sliceSet fe sl) 2 s) ∧ (good → answers (.sliceSet fe sl) 0 (s.modFront fe fun f => { f with slNext := sl }))) ∧
  (∀ n, (n = 0 ∨ 255 < n → answers (.mergeN n) 2 s) ∧ (n ≠ 0 → n ≤ 255 → answers (.mergeN n) 0 { s with mergeN := n })) ∧
  (∀ m, (65536 ≤ m → answers (.forkPolicy m) 2 s) ∧ (m < 65536 → answers (.forkPolicy m) 0 { s with forkPolicy := m })) ∧
  (∀ fe q block, let x := ofBytes ((fromTo block 32).map (tget 0 s.fwMem))
    let old := s.queue fe q
    let idle : Prop := old.setUp = false ∨ (old.halted = true ∧ old.consumed = old.producer ∧ old.posts = [])
    (15 < fe ∨ 11 < q ∨ blockBad q x = true → answers (.queueSet fe q block) 2 s) ∧
    (fe ≤ 15 → q ≤ 11 → blockBad q x = false → ¬ idle → answers (.queueSet fe q block) 1 s) ∧
    (fe ≤ 15 → q ≤ 11 → blockBad q x = false → idle → ∃ u, answers (.queueSet fe q block) 0 u ∧ { u with fronts := s.fronts } = s ∧
      let y := u.queue fe q
      y.setUp = true ∧ y.halted = false ∧ y.producer = 0 ∧ y.consumed = 0 ∧ y.rejection = 0 ∧ y.ctx = x % 2 ^ 12 ∧
      y.fn = x / 2 ^ 16 % 2 ^ 7 ∧ y.space = x.testBit 24 ∧ y.log2n = x / 2 ^ 32 % 2 ^ 4 ∧ y.base = x / 2 ^ 64 % 2 ^ 64 ∧
      y.cpl = x / 2 ^ 128 % 2 ^ 64)) ∧
  (∀ fe q, (15 < fe ∨ 11 < q → answers (.queueResume fe q) 2 s) ∧ (fe ≤ 15 → q ≤ 11 → (s.queue fe q).setUp = false → answers (.queueResume fe q) 1 s) ∧
    (fe ≤ 15 → q ≤ 11 → (s.queue fe q).setUp = true →
      answers (.queueResume fe q) 0 (s.setQueue fe q { (s.queue fe q) with halted := false }))) ∧
  (∀ fn fe qs ctxs, let bad : Prop := fn = 0 ∨ 64 < fn ∨ 15 < fe ∨ 255 < qs ∨ ∃ c ∈ ctxs, 4095 < c
    let held : Prop := (s.function fn).tdi = 1 ∨ (s.function fn).tdi = 2
    (bad → answers (.vfBind fn fe qs ctxs) 2 s) ∧ (¬ bad → held → answers (.vfBind fn fe qs ctxs) 1 s) ∧
    (¬ bad → ¬ held → answers (.vfBind fn fe qs ctxs) 0 (s.setFunction fn { (s.function fn) with fe := some fe, queues := qs, ctxs := ctxs }))) ∧
  (∀ enc slot id, let bad : Prop := 7 < enc ∨ 11 < slot ∨ (4095 < id ∧ id ≠ 0xFFFF)
    let none' : Prop := id ≠ 0xFFFF ∧ calledCtx s id = none
    (bad → answers (.encBind enc slot id) 2 s) ∧ (¬ bad → none' → answers (.encBind enc slot id) 1 s) ∧
    (¬ bad → ¬ none' → ∃ u, answers (.encBind enc slot id) 0 u ∧ { u with encoders := s.encoders } = s ∧
      (u.encoder enc).slot slot = { ctx := if id = 0xFFFF then none else some id } ∧ (u.encoder enc).queue = (s.encoder enc).queue)) ∧
  (∀ w, (w = 600 ∨ w = 800 ∨ w = 1000 → answers (.profile w) 0 { s with profile := w }) ∧
    (w ≠ 600 → w ≠ 800 → w ≠ 1000 → answers (.profile w) 2 s)) ∧
  (∀ ring n, let good : Prop := 8 ≤ ring ∧ ∃ k, 4 ≤ k ∧ k ≤ 16 ∧ n = 2 ^ k
    (¬ good → answers (.events ring n) 2 s) ∧
    (good → ∃ u, answers (.events ring n) 0 u ∧ { u with ring := s.ring, fwMem := s.fwMem } = s ∧ ringRead u = 0 ∧
      u.ring = { s.ring with set := true, base := ring, count := n, write := 0 })) ∧
  (∀ n, (1 ≤ n ∧ n ≤ 0x19 → exec (.unknownCall n) s = .next s) ∧ (n = 0 ∨ 0x19 < n → answers (.unknownCall n) 2 s))

/-- R239, R256, R259, R261, R348, R430 to R433, R436, R440, R451, R456, R482, R490, R504, R509: monitor calls on contexts, memory and cores,
their statuses and effects; status 3 leaves a request that completes later. Log entries 48 and 49 name what is the model's choice here. -/
def Obligations.ContextCalls : Prop := ∀ (s : State),
  let answers (i : Instr) (st : Nat) (u : State) : Prop := exec i s = .next { u with callA0 := st }
  let defers (i : Instr) (u : State) (l : Later) : Prop := exec i s = .next { u with laters := u.laters ++ [l], callA0 := 3 }
  let gone (id : Nat) : Prop := ∀ c, s.ctx id = some c → c.state = 3
  let range (va n : Nat) : Prop := va % 131072 = 0 ∧ n ≠ 0 ∧ va + n * 131072 ≤ 2 ^ 56
  let mapped (t : State) (id va n : Nat) : Prop := ∃ k, k < n ∧ leafAt t id (va + k * 131072) ≠ none
  (∀ id part b d, let bad : Prop := 4096 < id ∨ 15 < part ∨ 2 ^ 32 ≤ b ∨ (4095 < d ∧ d ≠ 0xFFFF)
    (bad → answers (.ctxCreate id part b d) 2 s) ∧
    (¬ bad → id < 4096 → s.ctx id ≠ none → answers (.ctxCreate id part b d) 1 s) ∧
    (∀ u, ¬ bad → id < 4096 → s.ctx id = none → makeContext s id part b d = some u →
      answers (.ctxCreate id part b d) 0 { u with callA1 := id } ∧ ∃ c, u.ctx id = some c ∧ c.state = 1 ∧ c.part = part ∧ c.budget = b ∧
        c.forking = false ∧ c.timerCmp = 0 ∧ ((∀ k ∈ s.keyDoms, k.1 < 16384) → (c.keys.getLsbD 30 = true ↔ d ≠ 0xFFFF))) ∧
    (¬ bad → id < 4096 → makeContext s id part b d = none → answers (.ctxCreate id part b d) 1 s)) ∧
  (∀ id, (4095 < id → answers (.ctxDestroy id) 2 s) ∧ (id ≤ 4095 → gone id → answers (.ctxDestroy id) 1 s) ∧
    (id ≤ 4095 → ¬ gone id → ∃ u, defers (.ctxDestroy id) u (.destroy id) ∧ (∀ c, u.ctx id = some c → c.state = 3) ∧
      (∀ g ∈ u.grids, g.2.ctx = id → g.2.state = .begun ∧ g.2.begun = g.2.pkt.clusters ∧ g.2.restart = []))) ∧
  (∀ id w v, (4095 < id → answers (.ctxWord id w v) 2 s) ∧ (id ≤ 4095 → gone id → answers (.ctxWord id w v) 1 s) ∧
    (id ≤ 4095 → ¬ gone id → (w ≠ 0 → w ≠ 9 → w ≠ 11 → answers (.ctxWord id w v) 1 s) ∧
      (w = 0 → if 15 < v then answers (.ctxWord id w v) 2 s else answers (.ctxWord id w v) 0 (s.modCtx id fun c => { c with part := v })) ∧
      (w = 9 → if 2 ^ 32 ≤ v then answers (.ctxWord id w v) 2 s else answers (.ctxWord id w v) 0 (s.modCtx id fun c => { c with budget := v })) ∧
      (w = 11 → if 4096 < v then answers (.ctxWord id w v) 2 s else answers (.ctxWord id w v) 0 (s.modCtx id fun c => { c with wsLen := v })))) ∧
  (∀ id va n attrs src, let bad : Prop := 4095 < id ∨ ¬ range va n ∨ attrsOk attrs = false ∨ 2 ^ 64 ≤ src
    let pages := (fromTo 0 n).map fun k => va + k * 131072
    (bad → answers (.map id va n attrs src) 2 s) ∧ (¬ bad → gone id → answers (.map id va n attrs src) 1 s) ∧
    (∀ t, ¬ bad → ¬ gone id → buildRange s id pages = some t → mapped t id va n → answers (.map id va n attrs src) 1 s) ∧
    (∀ c t u, ¬ bad → s.ctx id = some c → ¬ gone id → buildRange s id pages = some t → ¬ mapped t id va n →
      mapPages id c attrs n t va src = some u → answers (.map id va n attrs src) 0 u)) ∧
  (∀ id va n, let bad : Prop := 4095 < id ∨ ¬ range va n
    let pages := (fromTo 0 n).map fun k => va + k * 131072
    (bad → answers (.unmap id va n) 2 s) ∧ (¬ bad → gone id → answers (.unmap id va n) 1 s) ∧
    (∀ t, ¬ bad → ¬ gone id → buildRange s id pages = some t → answers (.unmap id va n) 0 (pages.foldl (unmapPage id) t))) ∧
  (∀ id core slot n, let bad : Prop := 4095 < id ∨ 191 < core ∨ 7 < slot ∨ 8 < n
    let k := s.core core
    let banks := (fromTo 0 8).filter fun b => k.residents.all fun r => !bit r.2.banks b
    (bad → answers (.resident id core slot n) 2 s) ∧ (¬ bad → gone id → answers (.resident id core slot n) 1 s) ∧
    (¬ bad → ¬ gone id → n = 0 → (∀ r, tfind k.residents slot = some r → r.ctx ≠ id) ∨ ctxOn s id core = true →
      answers (.resident id core slot n) 1 s) ∧
    (∀ r, ¬ bad → ¬ gone id → n = 0 → tfind k.residents slot = some r → r.ctx = id → ctxOn s id core = false →
      ∃ u, answers (.resident id core slot n) 0 u ∧ tfind (u.core core).residents slot = none) ∧
    (¬ bad → ¬ gone id → n ≠ 0 → tfind k.residents slot ≠ none ∨ k.residentOf id ≠ none ∨ banks.length < n →
      answers (.resident id core slot n) 1 s) ∧
    (¬ bad → ¬ gone id → n ≠ 0 → tfind k.residents slot = none → k.residentOf id = none → n ≤ banks.length →
      ∃ u r c, answers (.resident id core slot n) 0 u ∧ tfind (u.core core).residents slot = some r ∧ r.ctx = id ∧ r.spent = false ∧
        (∀ b, r.banks.testBit b = true ↔ b ∈ banks.take n) ∧ u.ctx id = some c ∧ c.state = 2)) ∧
  (∀ id addr on, let bad : Prop := coreSet s addr = none ∨ 4095 < id ∨ 1 < on
    (bad → answers (.gate id addr on) 2 s) ∧ (¬ bad → gone id → answers (.gate id addr on) 1 s) ∧
    (∀ cs, coreSet s addr = some cs → ¬ bad → ¬ gone id → ∃ u, answers (.gate id addr on) 0 u ∧ { u with cores := s.cores } = s ∧
      ∀ core slot r, (s.core core).residentOf id = some (slot, r) →
        (u.core core).residentOf id = some (slot, if core ∈ cs then { r with gated := on == 1 } else r))) ∧
  (∀ id addr reason, let bad : Prop := coreSet s addr = none ∨ 4095 < id ∨ (reason ≠ 1 ∧ reason ≠ 2)
    (bad → answers (.leave id addr reason) 2 s) ∧ (¬ bad → gone id → answers (.leave id addr reason) 1 s) ∧
    (∀ cs, coreSet s addr = some cs → ¬ bad → ¬ gone id →
      let cids := clustersOf s fun t => cs.contains t.core && !t.saved && ctxOfTeam s t == id
      defers (.leave id addr reason) (askClusters s reason cids) (.leave id (withGrids s cids)))) ∧
  (∀ fe addr, (coreSet s addr = none ∨ 15 < fe → answers (.vacate fe addr) 2 s) ∧
    (∀ cs, coreSet s addr = some cs → fe ≤ 15 → (∃ c ∈ cs, c < (s.front fe).base ∨ (s.front fe).limit < c) → answers (.vacate fe addr) 2 s) ∧
    (∀ cs, coreSet s addr = some cs → fe ≤ 15 → (∀ c ∈ cs, (s.front fe).base ≤ c ∧ c ≤ (s.front fe).limit) →
      let d := s.modFront fe fun f => { f with vacating := f.vacating ++ cs.filter fun c => !f.vacating.contains c }
      defers (.vacate fe addr) (askClusters d 3 (clustersOf d fun t => cs.contains t.core && !t.saved)) (.vacate fe cs))) ∧
  (∀ id die, (4095 < id ∨ 3 < die → answers (.migrate id die) 2 s) ∧ (id ≤ 4095 → die ≤ 3 → gone id → answers (.migrate id die) 1 s) ∧
    (∀ c, id ≤ 4095 → die ≤ 3 → s.ctx id = some c → c.state ≠ 3 →
      (placedOrSaving s id = true ∨ c.forking = true → answers (.migrate id die) 1 s) ∧
      (placedOrSaving s id = false → c.forking = false → defers (.migrate id die) s (.migrate id die)))) ∧
  (∀ id core, let live : Prop := ∃ g ∈ s.groups, g.2.core = core ∧ g.2.ctx = id ∧ g.2.kind ≠ .spindle ∧ g.2.out = false ∧ hasLane g.2 = true
    (4095 < id ∨ 191 < core → answers (.engineResume id core) 2 s) ∧
    (id ≤ 4095 → core ≤ 191 → (s.core core).residentOf id = none ∨ live → answers (.engineResume id core) 1 s) ∧
    (∀ x, id ≤ 4095 → core ≤ 191 → (s.core core).residentOf id = some x → ¬ live → ∃ u, answers (.engineResume id core) 0 u ∧
      (u.core core).residentOf id = some (x.1, { x.2 with halted := false, owed := none }) ∧ { u with cores := s.cores } = s)) ∧
  (∀ core v, let k := s.core core
    let rising : Prop := ∃ w, Later.colsplit core w ∈ s.laters
    (191 < core ∨ 8 < v → answers (.colsplitSet core v) 2 s) ∧ (core ≤ 191 → v ≤ 8 → rising → answers (.colsplitSet core v) 1 s) ∧
    (core ≤ 191 → v ≤ k.colsplit → v ≤ 8 → ¬ rising → (objectsLeave k v ≠ [] → answers (.colsplitSet core v) 1 s) ∧
      (objectsLeave k v = [] → ∃ u, answers (.colsplitSet core v) 0 u ∧ (u.core core).colsplit = v ∧ u.mem = s.mem)) ∧
    (core ≤ 191 → k.colsplit < v → v ≤ 8 → ¬ rising →
      (stepFrames s core k.colsplit v = [] → answers (.colsplitSet core v) 0 (s.modCore core fun k => { k with colsplit := v })) ∧
      ((∃ fr ∈ stepFrames s core k.colsplit v, framePinned s fr = true) → answers (.colsplitSet core v) 1 s) ∧
      (∀ fr rest, stepFrames s core k.colsplit v = fr :: rest → (∀ x ∈ fr :: rest, framePinned s x = false) →
        defers (.colsplitSet core v) (evictFrame s fr) (.colsplit core v)))) ∧
  (∀ core v, (191 < core ∨ 8 < v → answers (.compact core v) 2 s) ∧
    (core ≤ 191 → v ≤ 8 → compactPlan (s.core core) v (objectsLeave (s.core core) v) [] = none → answers (.compact core v) 1 s) ∧
    (∀ plan, core ≤ 191 → v ≤ 8 → compactPlan (s.core core) v (objectsLeave (s.core core) v) [] = some plan →
      ∃ u, defers (.compact core v) u (.compact core v) ∧ { u with inputs := s.inputs } = s ∧
        ∀ p ∈ plan, (s.clock + 1, Instr.columnRelocate core (p.1 / 64) (p.1 % 64) p.2) ∈ u.inputs))

/-- R506 to R508, R515 to R518: boot, measurement, power and temperature. An image that does not verify goes no further; a measurement
register is extended by a digest and read as the block after it; an island's duty stays from 1 to 16; a trip resets the module, host
memory apart. Log entries 52, 53 and 56 name what is the model's choice here. -/
def Obligations.BootPowerAndHeat : Prop := ∀ (s : State),
  (∀ m f a b l, s.boot ≠ .reset → exec (.boot m f a b l) s = .next s) ∧
  (∀ m f b l, s.boot = .reset → exec (.boot m f false b l) s = .next { s with boot := .halted }) ∧
  (∀ m f b l, s.boot = .reset → ∃ (u : State), exec (.boot m f true b l) s = .next u ∧ u.boot = (if b then .running else .monitor) ∧
    tget 0 u.mrs 0 = sha256 (digestBytes (tget 0 s.mrs 0) ++ digestBytes (sha256 m)) ∧
    tget 0 u.mrs 1 = (if b then sha256 (digestBytes (tget 0 s.mrs 1) ++ digestBytes (sha256 f)) else tget 0 s.mrs 1) ∧
    u.groups = s.groups ∧ u.mem = s.mem) ∧
  (exec .firmwareRestart s = .next (if s.boot = .running then { s with fwStarts := s.fwStarts + 1 } else s)) ∧
  (∀ n, (n = 0 ∨ 8 < n → exec (.getMeasurements n) s = .next { s with reply := [] }) ∧
    (1 ≤ n → n ≤ 8 → ∃ (u : State), exec (.getMeasurements n) s = .next u ∧ u.reply.take 32 = digestBytes (tget 0 s.mrs (n - 1)) ∧ u.mrs = s.mrs)) ∧
  (∀ ps, ∃ (u : State), exec (.powerControl ps) s = .next u ∧ u.groups = s.groups ∧ u.mem = s.mem ∧ u.cores = s.cores ∧
    ((∀ n, 1 ≤ (s.island n).duty ∧ (s.island n).duty ≤ 16) → ∀ n, 1 ≤ (u.island n).duty ∧ (u.island n).duty ≤ 16) ∧
    ((ps.map fun p => p.2).foldl (· + ·) 0 ≤ s.profile → (∀ n, (s.island n).duty ≤ 16) → ∀ n, (s.island n).duty ≤ (u.island n).duty) ∧
    (∀ n w, s.profile < (ps.map fun p => p.2).foldl (· + ·) 0 → (n, w) ∈ ps → (∀ p ∈ ps, p.1 ≠ n → p.2 < w) → (∀ p ∈ ps, p.1 = n → p.2 = w) →
      (u.island n).duty = max 1 ((s.island n).duty - 1))) ∧
  (∀ d i logic layer, let n := 12 * d + i
    (3 < d ∨ 11 < i → exec (.thermalThrottle d i logic layer) s = .next s) ∧
    (d ≤ 3 → i ≤ 11 → logic ≤ 100 → layer ≤ 95 → exec (.thermalThrottle d i logic layer) s = .next { s with hot := tdel s.hot (n + 1) }) ∧
    (d ≤ 3 → i ≤ 11 → 100 < logic ∨ 95 < layer → ∃ (u : State), exec (.thermalThrottle d i logic layer) s = .next u ∧
      (u.island n).duty = max 1 ((s.island n).duty - 1) ∧ (tfind u.hot (n + 1)).isSome = true ∧ u.groups = s.groups ∧ u.mem = s.mem)) ∧
  (∀ logic layer, (logic ≤ 110 → layer ≤ 105 → exec (.thermalTrip logic layer) s = .next { s with hot := tdel s.hot 0 }) ∧
    (110 < logic ∨ 105 < layer → (tfind s.hot 0 = none → exec (.thermalTrip logic layer) s = .next { s with hot := tins s.hot 0 s.clock }) ∧
      ∀ t, tfind s.hot 0 = some t → (s.clock < t + 750000 → exec (.thermalTrip logic layer) s = .next s) ∧
        (t + 750000 ≤ s.clock → ∃ (u : State), exec (.thermalTrip logic layer) s = .next u ∧ u.hostMem = s.hostMem ∧ u.ctxs = [] ∧
          u.groups = [] ∧ u.mem = [] ∧ u.boot = .reset ∧ u.clock = 0))) ∧
  (∀ d i on, let n := 12 * d + i
    let off : Prop := ∀ c, 48 * d + 4 * i ≤ c → c < 48 * d + 4 * i + 4 → coreVacated s c = true
    let answers (st : Nat) (u : State) : Prop := exec (.island d i on) s = .next { u with callA0 := st }
    (3 < d ∨ 11 < i ∨ 1 < on → answers 2 s) ∧
    (d ≤ 3 → i ≤ 11 → on = 0 → off → answers 0 (s.setIsland n { (s.island n) with on := false, upAt := none })) ∧
    (d ≤ 3 → i ≤ 11 → on = 0 → ¬ off → answers 1 s) ∧
    (d ≤ 3 → i ≤ 11 → on = 1 → (s.island n).upAt = none → (s.island n).on = true → answers 0 s) ∧
    (d ≤ 3 → i ≤ 11 → on = 1 → (s.island n).upAt ≠ none → answers 3 s) ∧
    (d ≤ 3 → i ≤ 11 → on = 1 → (s.island n).upAt = none → (s.island n).on = false →
      answers 3 (s.setIsland n { (s.island n) with on := true, upAt := some (s.clock + 1500000) }))) ∧
  (∀ d i, let n := 12 * d + i
    ((∀ t, (s.island n).upAt = some t → s.clock < t) → exec (.islandPowerUpDone d i) s = .next s) ∧
    (∀ t, (s.island n).upAt = some t → t ≤ s.clock → ∃ (u : State), exec (.islandPowerUpDone d i) s = .next u ∧
      (u.island n).upAt = none ∧ (∀ c, 48 * d + 4 * i ≤ c → c < 48 * d + 4 * i + 4 → (u.core c).scratch = [] ∧ (u.core c).l1 = [] ∧
        (u.core c).rows = (s.core c).rows) ∧ u.mem = s.mem))

/-! ### The machine -/

/-- A step runs the instruction that the bytes at the program counter decode to. A group whose turn it is, with nothing in its way, issues it:
the state it runs in differs from the one before in what issuing itself changes (the agenda, the group's turn, numbers, caches, the
resources of its slice, the A bit of the entry). The same for a matrix sequencer; a step of the machine's own, or an input that has
arrived, runs as it is; with nothing left to do the next clock begins. Log entries 1, 15 and 72 name what is the model's choice here. -/
def Obligations.StepRunsDecoded : Prop := ∀ (s : State),
  (∀ (gid n : Nat) (p : Place) (rest : List Turn) (g : Group) (e : Entry) (l : Leaf) (i : Instr),
    s.agenda = .issue gid :: rest → s.group gid = some g → g.stalled = none → g.restore = none → g.out = false →
    gatedOn s g.core g.ctx = false → owedTo s g = none → causeDue g = false → g.park = none → g.replays = [] → g.cur = none →
    g.thread.frontier.head? = some e → e.must = false → e.pc.toNat < 2 ^ 56 →
    translate s g.core g.ctx e.pc.toNat .fetch g.priv = .ok p l → (∀ u ∈ p.units 1 32, tfind (s.core g.core).icache u = none) →
    placeCause s 32 p.sector = none → p.offset % 32 + n ≤ 32 →
    decodeWord g.kind.stream (ofBytes (((readPlace s 32 p.sector).drop (p.offset % 32)).take n)) = .ok (i, n) →
    (∀ h, i = .clauseHeader h → e.passed = true) →
    ∃ (u : State) (y : Group), Machine.step s = exec i u ∧ u.issuer = some gid ∧ u.seqIssuer = none ∧ u.agenda = rest ∧
      u.group gid = some y ∧ { y with turn := g.turn } = g ∧ (∀ j, j ≠ gid → u.group j = s.group j) ∧
      u.clock = s.clock ∧ u.teams = s.teams ∧ u.clusters = s.clusters ∧ u.pends = s.pends ∧ u.stores = s.stores ∧ u.inputs = s.inputs ∧
      ∀ a, a < l.at' ∨ l.at' + 8 ≤ a → readByte u a = readByte s a) ∧
  (∀ (tid n : Nat) (p : Nat → Place) (rest : List Turn) (t : Team) (q : Sequencer) (i : Instr), s.agenda = .matrix tid :: rest →
    s.team tid = some t → t.seq = some q → q.state = .running → t.saved = false → teamRestoring s tid = false → teamLeft s tid = false →
    resumes s t.cluster = false → gatedOn s t.core (ctxOfTeam s t) = false → q.pc.toNat % 4 = 0 → q.pc.toNat + n ≤ 2 ^ 56 →
    (∀ k, 4 * k < n → (∃ l, translate s t.core (ctxOfTeam s t) (q.pc.toNat + 4 * k) .fetch false = .ok (p k) l) ∧
      placeCause s 4 (p k) = none) →
    decodeWord .matrix (ofBytes ((fromTo 0 (n / 4)).flatMap fun k => readPlace s 4 (p k))) = .ok (i, n) →
    ∃ (u : State), Machine.step s = exec i u ∧ u.issuer = none ∧ u.seqIssuer = some tid ∧ u.agenda = rest ∧ u.groups = s.groups ∧
      u.team tid = some { t with seq := some { q with park := none } } ∧ (∀ j, j ≠ tid → u.team j = s.team j) ∧
      u.clusters = s.clusters ∧ u.pends = s.pends ∧ u.stores = s.stores ∧ u.inputs = s.inputs ∧ u.clock = s.clock) ∧
  (∀ (i : Instr) (rest : List Turn), s.agenda = .event i :: rest → Machine.step s = exec i { s with agenda := rest, issuer := none, seqIssuer := none }) ∧
  (∀ (i : Instr) (at' : Nat) (rest : List (Nat × Instr)), s.agenda = [] → s.inputs = (at', i) :: rest → at' ≤ s.clock →
    Machine.step s = exec i { s with inputs := rest, issuer := none, seqIssuer := none }) ∧
  (s.agenda = [] → (∀ p ∈ s.inputs.head?, s.clock < p.1) → ∃ (u : State), Machine.step s = .next u ∧ u.clock = s.clock + 1)

/-- Words that the manual writes out decode to the instructions it gives them for, one or more of each family. -/
def Obligations.DecodeWords : Prop := let z : Fields := ⟨.medium, guardAlways, guardAlways, false, .zero, .zero, .zero, .zero, none, false, .un, 0, .dflt, 0, 0⟩
  let x : Fields := { z with form := .short }
  decodeWord .group 0x0000000003084027 = .ok (.clauseHeader ⟨9, some 1, some 2, 12, false, false⟩, 8) ∧
  decodeWord .group 0x0001FFFFFFFDFA80 = .ok (.nop x, 8) ∧
  decodeWord .group 0x3800208020101900 =
    .ok (.fadd { x with guardA := ⟨some 3, false⟩, dst := .v 4, a := .v 4, b := .v 8, flag := some 1, ty := .f32 }, 8) ∧
  decodeWord .group (0x8C005FF050281805 + 2 ^ 64 * 0xFFC88BFF) = .ok (.add { z with
    guardA := ⟨some 3, false⟩, guardB := ⟨some 5, true⟩, dst := .v 10, a := .v 10, bimm := true, flag := some 2, ty := .s32, imm13 := 0x1FF9 }, 12) ∧
  decodeWord .group (0x1C01E0401001F80D + 2 ^ 64 * 0x00007F81) = .ok (.addc { z with dst := .v 0, a := .v 2, b := .v 4, c := .p 1, ty := .n32 }, 12) ∧
  decodeWord .group (0x3801FFF01C20222D + 2 ^ 64 * 0x00307FFF) =
    .ok (.redux { z with guardA := ⟨some 4, false⟩, dst := .s 8, a := .v 3, ty := .f32, imm13 := 6 }, 12) ∧
  decodeWord .group (0x0011F0C85615FD05 + 2 ^ 64 * 0x00187FFF) =
    .ok (.rowRd { z with dst := .p 5, a := .s 10, b := .s 12, fam := 8, imm13 := 3 }, 12) ∧
  decodeWord .group 0x1C0BE0D077FC0B08 =
    .ok (.atom { x with guardA := ⟨some 1, false⟩, a := .v 14, b := .v 13, ty := .n32, fam := 5 }, 8) ∧
  decodeWord .group 0x0001F0682409FC98 = .ok (.boArr { x with dst := .s 2, a := .s 4, b := .s 6 }, 8) ∧
  decodeWord .group 0x0001FFFFFFFDFD80 = .ok (.tret x, 8) ∧
  decodeWord .matrix 0x4C41E0100001FF00 = .ok (.mma { x with dst := .v 0, a := .v 0, b := .v 1, ty := .e4m3, fam := 32 }, 8)

/-- Decoding gives back every encoded instruction whose fields its encoding admits, with its length, in the stream its opcode belongs to. -/
def Obligations.DecodeEncode : Prop := ∀ (i : Instr) (w n : Nat), WellFormed i → encodeWord i = some (w, n) →
  decodeWord (instrStream i) w = .ok (i, n) ∧ w < 2 ^ (8 * n) ∧ lenBytes w = n

/-- After reset: every partition is empty, every core has COLSPLIT 0 and no resident context, slices are 1,048,576 clocks long, no partition
may be forked into, no frame is in use, the measurement registers are zero; module memory is in canonical form. Log entry 2 names what is
the model's choice here. -/
def Obligations.ResetState : Prop := (∀ f c, f < 16 → c ∉ (State.reset.front f).cores) ∧ (∀ f, (State.reset.front f).sl = 1048576 ∧ (State.reset.front f).slNext = 1048576) ∧
  (∀ c, (State.reset.core c).colsplit = 0 ∧ (State.reset.core c).residents = []) ∧ State.reset.forkPolicy = 0 ∧
  (∀ i, tget 0 State.reset.mrs i = 0) ∧ (∀ f q, (State.reset.queue f q).setUp = false) ∧ (∀ c, State.reset.ctx c = none) ∧
  (∀ g, State.reset.group g = none) ∧ State.reset.frames = [] ∧ State.reset.boot = .reset ∧ State.reset.clock = 0 ∧
  Memory.wf State.reset.mem = true

/-- Every step keeps the canonical form of module memory: addresses rise and no entry equals what an unlisted byte reads as. The form is the
model's own (log entry 4). Log entry 4 names what is the model's choice here. -/
def Obligations.MemoryKept : Prop := ∀ (s t : State), Memory.wf s.mem = true → Machine.step s = .next t → Memory.wf t.mem = true
end

