-- ==== Sys2Proof/Laws/Bits.lean ====
section
/-!
SUPPORT. Packed fields and little-endian bytes: reading back what was put together.
-/
namespace Sys2Proof.Machine
open Sys2Proof

/-- Unpacking what was packed gives each value cut to its width. -/
theorem unpackNat_packNat (fs : List (Nat × Nat)) :
    unpackNat (fs.map Prod.fst) (packNat fs) = fs.map fun x => x.2 % 2 ^ x.1 := by
  induction fs with
  | nil => rfl
  | cons x fs ih =>
    obtain ⟨w, v⟩ := x
    have hw : 0 < 2 ^ w := Nat.two_pow_pos w
    simp only [List.map_cons, packNat, unpackNat, Nat.add_mul_mod_self_left, Nat.mod_mod]
    rw [Nat.add_mul_div_left _ _ hw, Nat.div_eq_of_lt (Nat.mod_lt _ hw), Nat.zero_add, ih]

/-- A packed number fits in the sum of its widths. -/
theorem packNat_lt (fs : List (Nat × Nat)) : packNat fs < 2 ^ (fs.map Prod.fst).sum := by
  induction fs with
  | nil => simp [packNat]
  | cons x fs ih =>
    obtain ⟨w, v⟩ := x
    have hw : 0 < 2 ^ w := Nat.two_pow_pos w
    have hv : v % 2 ^ w < 2 ^ w := Nat.mod_lt _ hw
    simp only [List.map_cons, List.sum_cons, packNat, Nat.pow_add]
    calc v % 2 ^ w + 2 ^ w * packNat fs < 2 ^ w + 2 ^ w * packNat fs := by omega
      _ = 2 ^ w * (packNat fs + 1) := by rw [Nat.mul_add, Nat.mul_one, Nat.add_comm]
      _ ≤ 2 ^ w * 2 ^ (fs.map Prod.fst).sum := Nat.mul_le_mul_left _ ih

/-- Packing what was unpacked gives the number cut to the sum of the widths. -/
theorem packNat_unpackNat (ws : List Nat) (x : Nat) : packNat (ws.zip (unpackNat ws x)) = x % 2 ^ ws.sum := by
  induction ws generalizing x with
  | nil => simp [packNat, Nat.mod_one]
  | cons w ws ih =>
    simp only [unpackNat, List.zip_cons_cons, packNat, Nat.mod_mod, ih, List.sum_cons]
    rw [Nat.pow_add, Nat.mod_mul]

/-- The number that the `n` low bytes of a number hold. -/
theorem ofBytes_toBytes (n x : Nat) : ofBytes (toBytes n x) = x % 2 ^ (8 * n) := by
  induction n generalizing x with
  | zero => simp [toBytes, ofBytes, Nat.mod_one]
  | succ n ih =>
    have h8 : (2 : Nat) ^ (8 * (n + 1)) = 256 * 2 ^ (8 * n) := by
      rw [Nat.mul_add, Nat.pow_add, Nat.mul_comm]
    simp only [toBytes, ofBytes, BitVec.toNat_ofNat, ih]
    rw [h8, Nat.mod_mul]

theorem toBytes_length (n x : Nat) : (toBytes n x).length = n := by
  induction n generalizing x with
  | zero => rfl
  | succ n ih => simp [toBytes, ih]

theorem fromTo_length (k n : Nat) : (fromTo k n).length = n := by
  induction n generalizing k with
  | zero => rfl
  | succ n ih => simp [fromTo, ih]

theorem mem_fromTo {k n i : Nat} : i ∈ fromTo k n ↔ k ≤ i ∧ i < k + n := by
  induction n generalizing k with
  | zero => simp [fromTo]
  | succ n ih => simp only [fromTo, List.mem_cons, ih]; omega

theorem b2n_beq_one (b : Bool) : (b2n b == 1) = b := by cases b <;> rfl
theorem b2n_mod_two (b : Bool) : b2n b % 2 = b2n b := by cases b <;> rfl

end Sys2Proof.Machine
end

