-- ==== Sys2Proof/Laws/Exec.lean ====
section
/-!
SUPPORT. What `exec` does with each instruction: its meaning. Proofs cite these and never unfold `exec`.
-/
namespace Sys2Proof.Machine
open Sys2Proof

@[simp] theorem exec_clauseHeader (h s) : exec (.clauseHeader h) s = execClauseHeader h s := rfl
@[simp] theorem exec_add (f s) : exec (.add f) s = execAdd f s := rfl
@[simp] theorem exec_sub (f s) : exec (.sub f) s = execSub f s := rfl
@[simp] theorem exec_addc (f s) : exec (.addc f) s = execAddc f s := rfl
@[simp] theorem exec_subb (f s) : exec (.subb f) s = execSubb f s := rfl
@[simp] theorem exec_mul (f s) : exec (.mul f) s = execMul f s := rfl
@[simp] theorem exec_mulhi (f s) : exec (.mulhi f) s = execMulhi f s := rfl
@[simp] theorem exec_mad (f s) : exec (.mad f) s = execMad f s := rfl
@[simp] theorem exec_madw (f s) : exec (.madw f) s = execMadw f s := rfl
@[simp] theorem exec_min (f s) : exec (.min f) s = execMin f s := rfl
@[simp] theorem exec_max (f s) : exec (.max f) s = execMax f s := rfl
@[simp] theorem exec_and (f s) : exec (.and f) s = execAnd f s := rfl
@[simp] theorem exec_or (f s) : exec (.or f) s = execOr f s := rfl
@[simp] theorem exec_xor (f s) : exec (.xor f) s = execXor f s := rfl
@[simp] theorem exec_not (f s) : exec (.not f) s = execNot f s := rfl
@[simp] theorem exec_shl (f s) : exec (.shl f) s = execShl f s := rfl
@[simp] theorem exec_shr (f s) : exec (.shr f) s = execShr f s := rfl
@[simp] theorem exec_sar (f s) : exec (.sar f) s = execSar f s := rfl
@[simp] theorem exec_shf (f s) : exec (.shf f) s = execShf f s := rfl
@[simp] theorem exec_bfx (f s) : exec (.bfx f) s = execBfx f s := rfl
@[simp] theorem exec_bfi (f s) : exec (.bfi f) s = execBfi f s := rfl
@[simp] theorem exec_popc (f s) : exec (.popc f) s = execPopc f s := rfl
@[simp] theorem exec_clz (f s) : exec (.clz f) s = execClz f s := rfl
@[simp] theorem exec_brev (f s) : exec (.brev f) s = execBrev f s := rfl
@[simp] theorem exec_lea (f s) : exec (.lea f) s = execLea f s := rfl
@[simp] theorem exec_sel (f s) : exec (.sel f) s = execSel f s := rfl
@[simp] theorem exec_cmp (f s) : exec (.cmp f) s = execCmp f s := rfl
@[simp] theorem exec_mov (f s) : exec (.mov f) s = execMov f s := rfl
@[simp] theorem exec_movi (f s) : exec (.movi f) s = execMovi f s := rfl
@[simp] theorem exec_dp4 (f s) : exec (.dp4 f) s = execDp4 f s := rfl
@[simp] theorem exec_fadd (f s) : exec (.fadd f) s = execFadd f s := rfl
@[simp] theorem exec_fsub (f s) : exec (.fsub f) s = execFsub f s := rfl
@[simp] theorem exec_fmul (f s) : exec (.fmul f) s = execFmul f s := rfl
@[simp] theorem exec_ffma (f s) : exec (.ffma f) s = execFfma f s := rfl
@[simp] theorem exec_fmin (f s) : exec (.fmin f) s = execFmin f s := rfl
@[simp] theorem exec_fmax (f s) : exec (.fmax f) s = execFmax f s := rfl
@[simp] theorem exec_fcmp (f s) : exec (.fcmp f) s = execFcmp f s := rfl
@[simp] theorem exec_frnd (f s) : exec (.frnd f) s = execFrnd f s := rfl
@[simp] theorem exec_ffrac (f s) : exec (.ffrac f) s = execFfrac f s := rfl
@[simp] theorem exec_fclass (f s) : exec (.fclass f) s = execFclass f s := rfl
@[simp] theorem exec_fldexp (f s) : exec (.fldexp f) s = execFldexp f s := rfl
@[simp] theorem exec_frcp (f s) : exec (.frcp f) s = execFrcp f s := rfl
@[simp] theorem exec_frsq (f s) : exec (.frsq f) s = execFrsq f s := rfl
@[simp] theorem exec_fsqrt (f s) : exec (.fsqrt f) s = execFsqrt f s := rfl
@[simp] theorem exec_fexp2 (f s) : exec (.fexp2 f) s = execFexp2 f s := rfl
@[simp] theorem exec_flog2 (f s) : exec (.flog2 f) s = execFlog2 f s := rfl
@[simp] theorem exec_fsin (f s) : exec (.fsin f) s = execFsin f s := rfl
@[simp] theorem exec_fcos (f s) : exec (.fcos f) s = execFcos f s := rfl
@[simp] theorem exec_ftanh (f s) : exec (.ftanh f) s = execFtanh f s := rfl
@[simp] theorem exec_fdp2 (f s) : exec (.fdp2 f) s = execFdp2 f s := rfl
@[simp] theorem exec_cvt (f s) : exec (.cvt f) s = execCvt f s := rfl
@[simp] theorem exec_cvts (f s) : exec (.cvts f) s = execCvts f s := rfl
@[simp] theorem exec_osmUpd (f s) : exec (.osmUpd f) s = execOsmUpd f s := rfl
@[simp] theorem exec_osmFin (f s) : exec (.osmFin f) s = execOsmFin f s := rfl
@[simp] theorem exec_osmFinNorm (f s) : exec (.osmFinNorm f) s = execOsmFinNorm f s := rfl
@[simp] theorem exec_rng (f s) : exec (.rng f) s = execRng f s := rfl
@[simp] theorem exec_xbox (f s) : exec (.xbox f) s = execXbox f s := rfl
@[simp] theorem exec_xtri (f s) : exec (.xtri f) s = execXtri f s := rfl
@[simp] theorem exec_plop (f s) : exec (.plop f) s = execPlop f s := rfl
@[simp] theorem exec_pmov (f s) : exec (.pmov f) s = execPmov f s := rfl
@[simp] theorem exec_pbitsGet (f s) : exec (.pbitsGet f) s = execPbitsGet f s := rfl
@[simp] theorem exec_pbitsSet (f s) : exec (.pbitsSet f) s = execPbitsSet f s := rfl
@[simp] theorem exec_pset (f s) : exec (.pset f) s = execPset f s := rfl
@[simp] theorem exec_vote (f s) : exec (.vote f) s = execVote f s := rfl
@[simp] theorem exec_matchLanes (f s) : exec (.matchLanes f) s = execMatchLanes f s := rfl
@[simp] theorem exec_shfl (f s) : exec (.shfl f) s = execShfl f s := rfl
@[simp] theorem exec_redux (f s) : exec (.redux f) s = execRedux f s := rfl
@[simp] theorem exec_scan (f s) : exec (.scan f) s = execScan f s := rfl
@[simp] theorem exec_lmask (f s) : exec (.lmask f) s = execLmask f s := rfl
@[simp] theorem exec_lmap (f s) : exec (.lmap f) s = execLmap f s := rfl
@[simp] theorem exec_nop (f s) : exec (.nop f) s = execNop f s := rfl
@[simp] theorem exec_bru (f s) : exec (.bru f) s = execBru f s := rfl
@[simp] theorem exec_br (f s) : exec (.br f) s = execBr f s := rfl
@[simp] theorem exec_brx (f s) : exec (.brx f) s = execBrx f s := rfl
@[simp] theorem exec_call (f s) : exec (.call f) s = execCall f s := rfl
@[simp] theorem exec_calx (f s) : exec (.calx f) s = execCalx f s := rfl
@[simp] theorem exec_ret (f s) : exec (.ret f) s = execRet f s := rfl
@[simp] theorem exec_exit (f s) : exec (.exit f) s = execExit f s := rfl
@[simp] theorem exec_yld (f s) : exec (.yld f) s = execYld f s := rfl
@[simp] theorem exec_trap (f s) : exec (.trap f) s = execTrap f s := rfl
@[simp] theorem exec_brk (f s) : exec (.brk f) s = execBrk f s := rfl
@[simp] theorem exec_vcall (f s) : exec (.vcall f) s = execVcall f s := rfl
@[simp] theorem exec_ld (f s) : exec (.ld f) s = execLd f s := rfl
@[simp] theorem exec_st (f s) : exec (.st f) s = execSt f s := rfl
@[simp] theorem exec_atom (f s) : exec (.atom f) s = execAtom f s := rfl
@[simp] theorem exec_cas (f s) : exec (.cas f) s = execCas f s := rfl
@[simp] theorem exec_red (f s) : exec (.red f) s = execRed f s := rfl
@[simp] theorem exec_fence (f s) : exec (.fence f) s = execFence f s := rfl
@[simp] theorem exec_cinvLine (f s) : exec (.cinvLine f) s = execCinvLine f s := rfl
@[simp] theorem exec_cinvAll (f s) : exec (.cinvAll f) s = execCinvAll f s := rfl
@[simp] theorem exec_pf (f s) : exec (.pf f) s = execPf f s := rfl
@[simp] theorem exec_ldk (f s) : exec (.ldk f) s = execLdk f s := rfl
@[simp] theorem exec_ldi (f s) : exec (.ldi f) s = execLdi f s := rfl
@[simp] theorem exec_sti (f s) : exec (.sti f) s = execSti f s := rfl
@[simp] theorem exec_smp (f s) : exec (.smp f) s = execSmp f s := rfl
@[simp] theorem exec_smpg (f s) : exec (.smpg f) s = execSmpg f s := rfl
@[simp] theorem exec_txq (f s) : exec (.txq f) s = execTxq f s := rfl
@[simp] theorem exec_vgrow (f s) : exec (.vgrow f) s = execVgrow f s := rfl
@[simp] theorem exec_vshrink (f s) : exec (.vshrink f) s = execVshrink f s := rfl
@[simp] theorem exec_sgrow (f s) : exec (.sgrow f) s = execSgrow f s := rfl
@[simp] theorem exec_rgn (f s) : exec (.rgn f) s = execRgn f s := rfl
@[simp] theorem exec_bta (f s) : exec (.bta f) s = execBta f s := rfl
@[simp] theorem exec_btw (f s) : exec (.btw f) s = execBtw f s := rfl
@[simp] theorem exec_bt (f s) : exec (.bt f) s = execBt f s := rfl
@[simp] theorem exec_bcl (f s) : exec (.bcl f) s = execBcl f s := rfl
@[simp] theorem exec_bclArr (f s) : exec (.bclArr f) s = execBclArr f s := rfl
@[simp] theorem exec_bclWait (f s) : exec (.bclWait f) s = execBclWait f s := rfl
@[simp] theorem exec_clusterBarrierResume (gid s) : exec (.clusterBarrierResume gid) s = execClusterBarrierResume gid s := rfl
@[simp] theorem exec_lnch (f s) : exec (.lnch f) s = execLnch f s := rfl
@[simp] theorem exec_srd (f s) : exec (.srd f) s = execSrd f s := rfl
@[simp] theorem exec_msync (f s) : exec (.msync f) s = execMsync f s := rfl
@[simp] theorem exec_msyncArr (f s) : exec (.msyncArr f) s = execMsyncArr f s := rfl
@[simp] theorem exec_msyncWait (f s) : exec (.msyncWait f) s = execMsyncWait f s := rfl
@[simp] theorem exec_reelGo (f s) : exec (.reelGo f) s = execReelGo f s := rfl
@[simp] theorem exec_reelAdd (f s) : exec (.reelAdd f) s = execReelAdd f s := rfl
@[simp] theorem exec_reelSt (f s) : exec (.reelSt f) s = execReelSt f s := rfl
@[simp] theorem exec_wcnt (f s) : exec (.wcnt f) s = execWcnt f s := rfl
@[simp] theorem exec_boInit (f s) : exec (.boInit f) s = execBoInit f s := rfl
@[simp] theorem exec_boExp (f s) : exec (.boExp f) s = execBoExp f s := rfl
@[simp] theorem exec_boArr (f s) : exec (.boArr f) s = execBoArr f s := rfl
@[simp] theorem exec_boWait (f s) : exec (.boWait f) s = execBoWait f s := rfl
@[simp] theorem exec_boTry (f s) : exec (.boTry f) s = execBoTry f s := rfl
@[simp] theorem exec_lpq (f s) : exec (.lpq f) s = execLpq f s := rfl
@[simp] theorem exec_crdPut (f s) : exec (.crdPut f) s = execCrdPut f s := rfl
@[simp] theorem exec_crdFlush (f s) : exec (.crdFlush f) s = execCrdFlush f s := rfl
@[simp] theorem exec_qpop (f s) : exec (.qpop f) s = execQpop f s := rfl
@[simp] theorem exec_qtry (f s) : exec (.qtry f) s = execQtry f s := rfl
@[simp] theorem exec_spGo (f s) : exec (.spGo f) s = execSpGo f s := rfl
@[simp] theorem exec_spStop (f s) : exec (.spStop f) s = execSpStop f s := rfl
@[simp] theorem exec_qpush (f s) : exec (.qpush f) s = execQpush f s := rfl
@[simp] theorem exec_rowAct (f s) : exec (.rowAct f) s = execRowAct f s := rfl
@[simp] theorem exec_rowRd (f s) : exec (.rowRd f) s = execRowRd f s := rfl
@[simp] theorem exec_rowWr (f s) : exec (.rowWr f) s = execRowWr f s := rfl
@[simp] theorem exec_rowCls (f s) : exec (.rowCls f) s = execRowCls f s := rfl
@[simp] theorem exec_rowSt (f s) : exec (.rowSt f) s = execRowSt f s := rfl
@[simp] theorem exec_tret (f s) : exec (.tret f) s = execTret f s := rfl
@[simp] theorem exec_tfr (f s) : exec (.tfr f) s = execTfr f s := rfl
@[simp] theorem exec_tinj (f s) : exec (.tinj f) s = execTinj f s := rfl
@[simp] theorem exec_ctxFork (f s) : exec (.ctxFork f) s = execCtxFork f s := rfl
@[simp] theorem exec_ctxGateYield (f s) : exec (.ctxGateYield f) s = execCtxGateYield f s := rfl
@[simp] theorem exec_ctxGateOut (f s) : exec (.ctxGateOut f) s = execCtxGateOut f s := rfl
@[simp] theorem exec_tierRecAdd (f s) : exec (.tierRecAdd f) s = execTierRecAdd f s := rfl
@[simp] theorem exec_tierRecClr (f s) : exec (.tierRecClr f) s = execTierRecClr f s := rfl
@[simp] theorem exec_tierPin (f s) : exec (.tierPin f) s = execTierPin f s := rfl
@[simp] theorem exec_tierUnpin (f s) : exec (.tierUnpin f) s = execTierUnpin f s := rfl
@[simp] theorem exec_srw (f s) : exec (.srw f) s = execSrw f s := rfl
@[simp] theorem exec_srwRd (f s) : exec (.srwRd f) s = execSrwRd f s := rfl
@[simp] theorem exec_cobjMap (f s) : exec (.cobjMap f) s = execCobjMap f s := rfl
@[simp] theorem exec_tlbInvPage (f s) : exec (.tlbInvPage f) s = execTlbInvPage f s := rfl
@[simp] theorem exec_tlbInvAll (f s) : exec (.tlbInvAll f) s = execTlbInvAll f s := rfl
@[simp] theorem exec_venc (f s) : exec (.venc f) s = execVenc f s := rfl
@[simp] theorem exec_mma (f s) : exec (.mma f) s = execMma f s := rfl
@[simp] theorem exec_mmb (f s) : exec (.mmb f) s = execMmb f s := rfl
@[simp] theorem exec_tdef (f s) : exec (.tdef f) s = execTdef f s := rfl
@[simp] theorem exec_tld (f s) : exec (.tld f) s = execTld f s := rfl
@[simp] theorem exec_azero (f s) : exec (.azero f) s = execAzero f s := rfl
@[simp] theorem exec_ald (f s) : exec (.ald f) s = execAld f s := rfl
@[simp] theorem exec_ast (f s) : exec (.ast f) s = execAst f s := rfl
@[simp] theorem exec_astStat (f s) : exec (.astStat f) s = execAstStat f s := rfl
@[simp] theorem exec_ascl (f s) : exec (.ascl f) s = execAscl f s := rfl
@[simp] theorem exec_msig (f s) : exec (.msig f) s = execMsig f s := rfl
@[simp] theorem exec_mwait (f s) : exec (.mwait f) s = execMwait f s := rfl
@[simp] theorem exec_mloop (f s) : exec (.mloop f) s = execMloop f s := rfl
@[simp] theorem exec_mend (f s) : exec (.mend f) s = execMend f s := rfl
@[simp] theorem exec_rowCon (f s) : exec (.rowCon f) s = execRowCon f s := rfl
@[simp] theorem exec_asyncWriteLand (id s) : exec (.asyncWriteLand id) s = execAsyncWriteLand id s := rfl
@[simp] theorem exec_storePerform (id s) : exec (.storePerform id) s = execStorePerform id s := rfl
@[simp] theorem exec_groupRetire (gid s) : exec (.groupRetire gid) s = execGroupRetire gid s := rfl
@[simp] theorem exec_trapEntry (gid s) : exec (.trapEntry gid) s = execTrapEntry gid s := rfl
@[simp] theorem exec_frameStoreGrant (gid s) : exec (.frameStoreGrant gid) s = execFrameStoreGrant gid s := rfl
@[simp] theorem exec_stepTrap (gid s) : exec (.stepTrap gid) s = execStepTrap gid s := rfl
@[simp] theorem exec_callReplyPoll (gid s) : exec (.callReplyPoll gid) s = execCallReplyPoll gid s := rfl
@[simp] theorem exec_laneFault (gid datapath s) : exec (.laneFault gid datapath) s = execLaneFault gid datapath s := rfl
@[simp] theorem exec_sfuMismatch (gid s) : exec (.sfuMismatch gid) s = execSfuMismatch gid s := rfl
@[simp] theorem exec_presenceUnpark (gid s) : exec (.presenceUnpark gid) s = execPresenceUnpark gid s := rfl
@[simp] theorem exec_registerGrowRetry (core slice ctx s) : exec (.registerGrowRetry core slice ctx) s = execRegisterGrowRetry core slice ctx s := rfl
@[simp] theorem exec_islandPowerUpDone (die island s) : exec (.islandPowerUpDone die island) s = execIslandPowerUpDone die island s := rfl
@[simp] theorem exec_encodeFrame (enc s) : exec (.encodeFrame enc) s = execEncodeFrame enc s := rfl
@[simp] theorem exec_activateAccept (core bank s) : exec (.activateAccept core bank) s = execActivateAccept core bank s := rfl
@[simp] theorem exec_closeStart (core bank s) : exec (.closeStart core bank) s = execCloseStart core bank s := rfl
@[simp] theorem exec_bankFree (core bank s) : exec (.bankFree core bank) s = execBankFree core bank s := rfl
@[simp] theorem exec_retrainingEnd (core s) : exec (.retrainingEnd core) s = execRetrainingEnd core s := rfl
@[simp] theorem exec_doorbell (fn fe q p s) : exec (.doorbell fn fe q p) s = execDoorbell fn fe q p s := rfl
@[simp] theorem exec_packetAccept (fe q s) : exec (.packetAccept fe q) s = execPacketAccept fe q s := rfl
@[simp] theorem exec_dependencePoll (grid s) : exec (.dependencePoll grid) s = execDependencePoll grid s := rfl
@[simp] theorem exec_gridBegin (grid s) : exec (.gridBegin grid) s = execGridBegin grid s := rfl
@[simp] theorem exec_clusterPlace (fe s) : exec (.clusterPlace fe) s = execClusterPlace fe s := rfl
@[simp] theorem exec_coresidentPlace (fe s) : exec (.coresidentPlace fe) s = execCoresidentPlace fe s := rfl
@[simp] theorem exec_gridBlocking (grid s) : exec (.gridBlocking grid) s = execGridBlocking grid s := rfl
@[simp] theorem exec_gridComplete (grid s) : exec (.gridComplete grid) s = execGridComplete grid s := rfl
@[simp] theorem exec_ringSlotRead (fe q s) : exec (.ringSlotRead fe q) s = execRingSlotRead fe q s := rfl
@[simp] theorem exec_pageFaultService (core s) : exec (.pageFaultService core) s = execPageFaultService core s := rfl
@[simp] theorem exec_pageMove (ctx va tier s) : exec (.pageMove ctx va tier) s = execPageMove ctx va tier s := rfl
@[simp] theorem exec_tierPass (ctx s) : exec (.tierPass ctx) s = execTierPass ctx s := rfl
@[simp] theorem exec_contentMerge (ctx va s) : exec (.contentMerge ctx va) s = execContentMerge ctx va s := rfl
@[simp] theorem exec_forkRegionBuild (ctx index s) : exec (.forkRegionBuild ctx index) s = execForkRegionBuild ctx index s := rfl
@[simp] theorem exec_incomingMove (ctx s) : exec (.incomingMove ctx) s = execIncomingMove ctx s := rfl
@[simp] theorem exec_sliceBoundary (fe s) : exec (.sliceBoundary fe) s = execSliceBoundary fe s := rfl
@[simp] theorem exec_budgetExhausted (core slot s) : exec (.budgetExhausted core slot) s = execBudgetExhausted core slot s := rfl
@[simp] theorem exec_watchdog (gid s) : exec (.watchdog gid) s = execWatchdog gid s := rfl
@[simp] theorem exec_timer (ctx s) : exec (.timer ctx) s = execTimer ctx s := rfl
@[simp] theorem exec_teamSave (tid s) : exec (.teamSave tid) s = execTeamSave tid s := rfl
@[simp] theorem exec_clusterResume (cid s) : exec (.clusterResume cid) s = execClusterResume cid s := rfl
@[simp] theorem exec_rowReady (core bank s) : exec (.rowReady core bank) s = execRowReady core bank s := rfl
@[simp] theorem exec_rowForcedClose (core bank s) : exec (.rowForcedClose core bank) s = execRowForcedClose core bank s := rfl
@[simp] theorem exec_rowDataLand (core id s) : exec (.rowDataLand core id) s = execRowDataLand core id s := rfl
@[simp] theorem exec_rowDelivery (core id s) : exec (.rowDelivery core id) s = execRowDelivery core id s := rfl
@[simp] theorem exec_refreshOperation (core bank s) : exec (.refreshOperation core bank) s = execRefreshOperation core bank s := rfl
@[simp] theorem exec_refreshIntervalStep (core layer celsius s) : exec (.refreshIntervalStep core layer celsius) s = execRefreshIntervalStep core layer celsius s := rfl
@[simp] theorem exec_patrolScrub (core bank row s) : exec (.patrolScrub core bank row) s = execPatrolScrub core bank row s := rfl
@[simp] theorem exec_retraining (core s) : exec (.retraining core) s = execRetraining core s := rfl
@[simp] theorem exec_columnRelocate (core ctx handle desc s) : exec (.columnRelocate core ctx handle desc) s = execColumnRelocate core ctx handle desc s := rfl
@[simp] theorem exec_reelRecord (core channel s) : exec (.reelRecord core channel) s = execReelRecord core channel s := rfl
@[simp] theorem exec_reelChunk (core s) : exec (.reelChunk core) s = execReelChunk core s := rfl
@[simp] theorem exec_generationDrop (id s) : exec (.generationDrop id) s = execGenerationDrop id s := rfl
@[simp] theorem exec_spindleIssue (core s) : exec (.spindleIssue core) s = execSpindleIssue core s := rfl
@[simp] theorem exec_spindleJobEnd (core queue s) : exec (.spindleJobEnd core queue) s = execSpindleJobEnd core queue s := rfl
@[simp] theorem exec_carderLaunch (core s) : exec (.carderLaunch core) s = execCarderLaunch core s := rfl
@[simp] theorem exec_carderAutoFlush (tid s) : exec (.carderAutoFlush tid) s = execCarderAutoFlush tid s := rfl
@[simp] theorem exec_releaseForward (die core s) : exec (.releaseForward die core) s = execReleaseForward die core s := rfl
@[simp] theorem exec_writeAck (die core s) : exec (.writeAck die core) s = execWriteAck die core s := rfl
@[simp] theorem exec_linkDetour (a b s) : exec (.linkDetour a b) s = execLinkDetour a b s := rfl
@[simp] theorem exec_flitReplay (a b s) : exec (.flitReplay a b) s = execFlitReplay a b s := rfl
@[simp] theorem exec_portAuthFail (port s) : exec (.portAuthFail port) s = execPortAuthFail port s := rfl
@[simp] theorem exec_pcieAtomic (fn ctx va op size x y s) : exec (.pcieAtomic fn ctx va op size x y) s = execPcieAtomic fn ctx va op size x y s := rfl
@[simp] theorem exec_ideFailure (fn s) : exec (.ideFailure fn) s = execIdeFailure fn s := rfl
@[simp] theorem exec_keySlotLoad (slot key ctx s) : exec (.keySlotLoad slot key ctx) s = execKeySlotLoad slot key ctx s := rfl
@[simp] theorem exec_keySlotFree (slot s) : exec (.keySlotFree slot) s = execKeySlotFree slot s := rfl
@[simp] theorem exec_getMeasurements (index s) : exec (.getMeasurements index) s = execGetMeasurements index s := rfl
@[simp] theorem exec_boot (monitor firmware monitorOk firmwareOk later s) : exec (.boot monitor firmware monitorOk firmwareOk later) s = execBoot monitor firmware monitorOk firmwareOk later s := rfl
@[simp] theorem exec_firmwareRestart (s : State) : exec .firmwareRestart s = execFirmwareRestart s := rfl
@[simp] theorem exec_partSet (fe base limit s) : exec (.partSet fe base limit) s = execPartSet fe base limit s := rfl
@[simp] theorem exec_colourSet (fe mask s) : exec (.colourSet fe mask) s = execColourSet fe mask s := rfl
@[simp] theorem exec_sliceSet (fe sl s) : exec (.sliceSet fe sl) s = execSliceSet fe sl s := rfl
@[simp] theorem exec_mergeN (n s) : exec (.mergeN n) s = execMergeN n s := rfl
@[simp] theorem exec_forkPolicy (mask s) : exec (.forkPolicy mask) s = execForkPolicy mask s := rfl
@[simp] theorem exec_colsplitSet (core value s) : exec (.colsplitSet core value) s = execColsplitSet core value s := rfl
@[simp] theorem exec_compact (core value s) : exec (.compact core value) s = execCompact core value s := rfl
@[simp] theorem exec_ctxCreate (id part budget domain s) : exec (.ctxCreate id part budget domain) s = execCtxCreate id part budget domain s := rfl
@[simp] theorem exec_ctxDestroy (id s) : exec (.ctxDestroy id) s = execCtxDestroy id s := rfl
@[simp] theorem exec_ctxWord (id word value s) : exec (.ctxWord id word value) s = execCtxWord id word value s := rfl
@[simp] theorem exec_map (id va n attrs source s) : exec (.map id va n attrs source) s = execMap id va n attrs source s := rfl
@[simp] theorem exec_unmap (id va n s) : exec (.unmap id va n) s = execUnmap id va n s := rfl
@[simp] theorem exec_resident (id core slot n s) : exec (.resident id core slot n) s = execResident id core slot n s := rfl
@[simp] theorem exec_gate (id cores on s) : exec (.gate id cores on) s = execGate id cores on s := rfl
@[simp] theorem exec_leave (id cores reason s) : exec (.leave id cores reason) s = execLeave id cores reason s := rfl
@[simp] theorem exec_vacate (fe cores s) : exec (.vacate fe cores) s = execVacate fe cores s := rfl
@[simp] theorem exec_migrate (id die s) : exec (.migrate id die) s = execMigrate id die s := rfl
@[simp] theorem exec_queueSet (fe q block s) : exec (.queueSet fe q block) s = execQueueSet fe q block s := rfl
@[simp] theorem exec_queueResume (fe q s) : exec (.queueResume fe q) s = execQueueResume fe q s := rfl
@[simp] theorem exec_vfBind (fn fe queues ctxs s) : exec (.vfBind fn fe queues ctxs) s = execVfBind fn fe queues ctxs s := rfl
@[simp] theorem exec_encBind (enc slot id s) : exec (.encBind enc slot id) s = execEncBind enc slot id s := rfl
@[simp] theorem exec_engineResume (id core s) : exec (.engineResume id core) s = execEngineResume id core s := rfl
@[simp] theorem exec_profile (watts s) : exec (.profile watts) s = execProfile watts s := rfl
@[simp] theorem exec_island (die island on s) : exec (.island die island on) s = execIsland die island on s := rfl
@[simp] theorem exec_events (ring count s) : exec (.events ring count) s = execEvents ring count s := rfl
@[simp] theorem exec_unknownCall (number s) : exec (.unknownCall number) s = execUnknownCall number s := rfl
@[simp] theorem exec_powerControl (power s) : exec (.powerControl power) s = execPowerControl power s := rfl
@[simp] theorem exec_thermalThrottle (die island logic layer s) : exec (.thermalThrottle die island logic layer) s = execThermalThrottle die island logic layer s := rfl
@[simp] theorem exec_thermalTrip (logic layer s) : exec (.thermalTrip logic layer) s = execThermalTrip logic layer s := rfl
@[simp] theorem exec_hostIngress (port agent ctx address data n s) : exec (.hostIngress port agent ctx address data n) s = execHostIngress port agent ctx address data n s := rfl
@[simp] theorem exec_portTraining (port encoded s) : exec (.portTraining port encoded) s = execPortTraining port encoded s := rfl
@[simp] theorem exec_tdispRequest (fn state s) : exec (.tdispRequest fn state) s = execTdispRequest fn state s := rfl
@[simp] theorem exec_spdmKeyExchange (fn nonce s) : exec (.spdmKeyExchange fn nonce) s = execSpdmKeyExchange fn nonce s := rfl

end Sys2Proof.Machine
end

