-- ==== Sys2Proof/Laws/State.lean ====
section
/-!
SUPPORT. Each update of the state, field by field: the field it replaces and the fields it leaves.
-/
namespace Sys2Proof.Machine
open Sys2Proof

variable (s : State)

/-! ### `setCore` -/

@[simp] theorem setCore_clock (c : Nat) (k : Core) :
    (s.setCore c k).clock = s.clock := rfl
@[simp] theorem setCore_free (c : Nat) (k : Core) :
    (s.setCore c k).free = s.free := rfl
@[simp] theorem setCore_agenda (c : Nat) (k : Core) :
    (s.setCore c k).agenda = s.agenda := rfl
@[simp] theorem setCore_inputs (c : Nat) (k : Core) :
    (s.setCore c k).inputs = s.inputs := rfl
@[simp] theorem setCore_upsets (c : Nat) (k : Core) :
    (s.setCore c k).upsets = s.upsets := rfl
@[simp] theorem setCore_issuer (c : Nat) (k : Core) :
    (s.setCore c k).issuer = s.issuer := rfl
@[simp] theorem setCore_seqIssuer (c : Nat) (k : Core) :
    (s.setCore c k).seqIssuer = s.seqIssuer := rfl
@[simp] theorem setCore_fresh (c : Nat) (k : Core) :
    (s.setCore c k).fresh = s.fresh := rfl
@[simp] theorem setCore_groups (c : Nat) (k : Core) :
    (s.setCore c k).groups = s.groups := rfl
@[simp] theorem setCore_teams (c : Nat) (k : Core) :
    (s.setCore c k).teams = s.teams := rfl
@[simp] theorem setCore_clusters (c : Nat) (k : Core) :
    (s.setCore c k).clusters = s.clusters := rfl
@[simp] theorem setCore_grids (c : Nat) (k : Core) :
    (s.setCore c k).grids = s.grids := rfl
@[simp] theorem setCore_fronts (c : Nat) (k : Core) :
    (s.setCore c k).fronts = s.fronts := rfl
@[simp] theorem setCore_cores (c : Nat) (k : Core) :
    (s.setCore c k).cores = tput {} s.cores c k := rfl
@[simp] theorem setCore_ctxs (c : Nat) (k : Core) :
    (s.setCore c k).ctxs = s.ctxs := rfl
@[simp] theorem setCore_pends (c : Nat) (k : Core) :
    (s.setCore c k).pends = s.pends := rfl
@[simp] theorem setCore_stores (c : Nat) (k : Core) :
    (s.setCore c k).stores = s.stores := rfl
@[simp] theorem setCore_mem (c : Nat) (k : Core) :
    (s.setCore c k).mem = s.mem := rfl
@[simp] theorem setCore_memBad (c : Nat) (k : Core) :
    (s.setCore c k).memBad = s.memBad := rfl
@[simp] theorem setCore_crcBad (c : Nat) (k : Core) :
    (s.setCore c k).crcBad = s.crcBad := rfl
@[simp] theorem setCore_hostMem (c : Nat) (k : Core) :
    (s.setCore c k).hostMem = s.hostMem := rfl
@[simp] theorem setCore_fwMem (c : Nat) (k : Core) :
    (s.setCore c k).fwMem = s.fwMem := rfl
@[simp] theorem setCore_callA0 (c : Nat) (k : Core) :
    (s.setCore c k).callA0 = s.callA0 := rfl
@[simp] theorem setCore_callA1 (c : Nat) (k : Core) :
    (s.setCore c k).callA1 = s.callA1 := rfl
@[simp] theorem setCore_mailbox (c : Nat) (k : Core) :
    (s.setCore c k).mailbox = s.mailbox := rfl
@[simp] theorem setCore_reply (c : Nat) (k : Core) :
    (s.setCore c k).reply = s.reply := rfl
@[simp] theorem setCore_backing (c : Nat) (k : Core) :
    (s.setCore c k).backing = s.backing := rfl
@[simp] theorem setCore_backingBad (c : Nat) (k : Core) :
    (s.setCore c k).backingBad = s.backingBad := rfl
@[simp] theorem setCore_portTable (c : Nat) (k : Core) :
    (s.setCore c k).portTable = s.portTable := rfl
@[simp] theorem setCore_foreign (c : Nat) (k : Core) :
    (s.setCore c k).foreign = s.foreign := rfl
@[simp] theorem setCore_tags (c : Nat) (k : Core) :
    (s.setCore c k).tags = s.tags := rfl
@[simp] theorem setCore_frames (c : Nat) (k : Core) :
    (s.setCore c k).frames = s.frames := rfl
@[simp] theorem setCore_shared (c : Nat) (k : Core) :
    (s.setCore c k).shared = s.shared := rfl
@[simp] theorem setCore_keyDoms (c : Nat) (k : Core) :
    (s.setCore c k).keyDoms = s.keyDoms := rfl
@[simp] theorem setCore_keySlots (c : Nat) (k : Core) :
    (s.setCore c k).keySlots = s.keySlots := rfl
@[simp] theorem setCore_fences (c : Nat) (k : Core) :
    (s.setCore c k).fences = s.fences := rfl
@[simp] theorem setCore_crossings (c : Nat) (k : Core) :
    (s.setCore c k).crossings = s.crossings := rfl
@[simp] theorem setCore_heldRel (c : Nat) (k : Core) :
    (s.setCore c k).heldRel = s.heldRel := rfl
@[simp] theorem setCore_linksDown (c : Nat) (k : Core) :
    (s.setCore c k).linksDown = s.linksDown := rfl
@[simp] theorem setCore_replayed (c : Nat) (k : Core) :
    (s.setCore c k).replayed = s.replayed := rfl
@[simp] theorem setCore_ports (c : Nat) (k : Core) :
    (s.setCore c k).ports = s.ports := rfl
@[simp] theorem setCore_functions (c : Nat) (k : Core) :
    (s.setCore c k).functions = s.functions := rfl
@[simp] theorem setCore_encoders (c : Nat) (k : Core) :
    (s.setCore c k).encoders = s.encoders := rfl
@[simp] theorem setCore_islands (c : Nat) (k : Core) :
    (s.setCore c k).islands = s.islands := rfl
@[simp] theorem setCore_profile (c : Nat) (k : Core) :
    (s.setCore c k).profile = s.profile := rfl
@[simp] theorem setCore_mergeN (c : Nat) (k : Core) :
    (s.setCore c k).mergeN = s.mergeN := rfl
@[simp] theorem setCore_forkPolicy (c : Nat) (k : Core) :
    (s.setCore c k).forkPolicy = s.forkPolicy := rfl
@[simp] theorem setCore_mrs (c : Nat) (k : Core) :
    (s.setCore c k).mrs = s.mrs := rfl
@[simp] theorem setCore_ring (c : Nat) (k : Core) :
    (s.setCore c k).ring = s.ring := rfl
@[simp] theorem setCore_boot (c : Nat) (k : Core) :
    (s.setCore c k).boot = s.boot := rfl
@[simp] theorem setCore_fwStarts (c : Nat) (k : Core) :
    (s.setCore c k).fwStarts = s.fwStarts := rfl
@[simp] theorem setCore_fuses (c : Nat) (k : Core) :
    (s.setCore c k).fuses = s.fuses := rfl
@[simp] theorem setCore_laters (c : Nat) (k : Core) :
    (s.setCore c k).laters = s.laters := rfl
@[simp] theorem setCore_hot (c : Nat) (k : Core) :
    (s.setCore c k).hot = s.hot := rfl

/-! ### `modCore` -/

@[simp] theorem modCore_clock (c : Nat) (f : Core → Core) :
    (s.modCore c f).clock = s.clock := rfl
@[simp] theorem modCore_free (c : Nat) (f : Core → Core) :
    (s.modCore c f).free = s.free := rfl
@[simp] theorem modCore_agenda (c : Nat) (f : Core → Core) :
    (s.modCore c f).agenda = s.agenda := rfl
@[simp] theorem modCore_inputs (c : Nat) (f : Core → Core) :
    (s.modCore c f).inputs = s.inputs := rfl
@[simp] theorem modCore_upsets (c : Nat) (f : Core → Core) :
    (s.modCore c f).upsets = s.upsets := rfl
@[simp] theorem modCore_issuer (c : Nat) (f : Core → Core) :
    (s.modCore c f).issuer = s.issuer := rfl
@[simp] theorem modCore_seqIssuer (c : Nat) (f : Core → Core) :
    (s.modCore c f).seqIssuer = s.seqIssuer := rfl
@[simp] theorem modCore_fresh (c : Nat) (f : Core → Core) :
    (s.modCore c f).fresh = s.fresh := rfl
@[simp] theorem modCore_groups (c : Nat) (f : Core → Core) :
    (s.modCore c f).groups = s.groups := rfl
@[simp] theorem modCore_teams (c : Nat) (f : Core → Core) :
    (s.modCore c f).teams = s.teams := rfl
@[simp] theorem modCore_clusters (c : Nat) (f : Core → Core) :
    (s.modCore c f).clusters = s.clusters := rfl
@[simp] theorem modCore_grids (c : Nat) (f : Core → Core) :
    (s.modCore c f).grids = s.grids := rfl
@[simp] theorem modCore_fronts (c : Nat) (f : Core → Core) :
    (s.modCore c f).fronts = s.fronts := rfl
@[simp] theorem modCore_cores (c : Nat) (f : Core → Core) :
    (s.modCore c f).cores = tput {} s.cores c (f (s.core c)) := rfl
@[simp] theorem modCore_ctxs (c : Nat) (f : Core → Core) :
    (s.modCore c f).ctxs = s.ctxs := rfl
@[simp] theorem modCore_pends (c : Nat) (f : Core → Core) :
    (s.modCore c f).pends = s.pends := rfl
@[simp] theorem modCore_stores (c : Nat) (f : Core → Core) :
    (s.modCore c f).stores = s.stores := rfl
@[simp] theorem modCore_mem (c : Nat) (f : Core → Core) :
    (s.modCore c f).mem = s.mem := rfl
@[simp] theorem modCore_memBad (c : Nat) (f : Core → Core) :
    (s.modCore c f).memBad = s.memBad := rfl
@[simp] theorem modCore_crcBad (c : Nat) (f : Core → Core) :
    (s.modCore c f).crcBad = s.crcBad := rfl
@[simp] theorem modCore_hostMem (c : Nat) (f : Core → Core) :
    (s.modCore c f).hostMem = s.hostMem := rfl
@[simp] theorem modCore_fwMem (c : Nat) (f : Core → Core) :
    (s.modCore c f).fwMem = s.fwMem := rfl
@[simp] theorem modCore_callA0 (c : Nat) (f : Core → Core) :
    (s.modCore c f).callA0 = s.callA0 := rfl
@[simp] theorem modCore_callA1 (c : Nat) (f : Core → Core) :
    (s.modCore c f).callA1 = s.callA1 := rfl
@[simp] theorem modCore_mailbox (c : Nat) (f : Core → Core) :
    (s.modCore c f).mailbox = s.mailbox := rfl
@[simp] theorem modCore_reply (c : Nat) (f : Core → Core) :
    (s.modCore c f).reply = s.reply := rfl
@[simp] theorem modCore_backing (c : Nat) (f : Core → Core) :
    (s.modCore c f).backing = s.backing := rfl
@[simp] theorem modCore_backingBad (c : Nat) (f : Core → Core) :
    (s.modCore c f).backingBad = s.backingBad := rfl
@[simp] theorem modCore_portTable (c : Nat) (f : Core → Core) :
    (s.modCore c f).portTable = s.portTable := rfl
@[simp] theorem modCore_foreign (c : Nat) (f : Core → Core) :
    (s.modCore c f).foreign = s.foreign := rfl
@[simp] theorem modCore_tags (c : Nat) (f : Core → Core) :
    (s.modCore c f).tags = s.tags := rfl
@[simp] theorem modCore_frames (c : Nat) (f : Core → Core) :
    (s.modCore c f).frames = s.frames := rfl
@[simp] theorem modCore_shared (c : Nat) (f : Core → Core) :
    (s.modCore c f).shared = s.shared := rfl
@[simp] theorem modCore_keyDoms (c : Nat) (f : Core → Core) :
    (s.modCore c f).keyDoms = s.keyDoms := rfl
@[simp] theorem modCore_keySlots (c : Nat) (f : Core → Core) :
    (s.modCore c f).keySlots = s.keySlots := rfl
@[simp] theorem modCore_fences (c : Nat) (f : Core → Core) :
    (s.modCore c f).fences = s.fences := rfl
@[simp] theorem modCore_crossings (c : Nat) (f : Core → Core) :
    (s.modCore c f).crossings = s.crossings := rfl
@[simp] theorem modCore_heldRel (c : Nat) (f : Core → Core) :
    (s.modCore c f).heldRel = s.heldRel := rfl
@[simp] theorem modCore_linksDown (c : Nat) (f : Core → Core) :
    (s.modCore c f).linksDown = s.linksDown := rfl
@[simp] theorem modCore_replayed (c : Nat) (f : Core → Core) :
    (s.modCore c f).replayed = s.replayed := rfl
@[simp] theorem modCore_ports (c : Nat) (f : Core → Core) :
    (s.modCore c f).ports = s.ports := rfl
@[simp] theorem modCore_functions (c : Nat) (f : Core → Core) :
    (s.modCore c f).functions = s.functions := rfl
@[simp] theorem modCore_encoders (c : Nat) (f : Core → Core) :
    (s.modCore c f).encoders = s.encoders := rfl
@[simp] theorem modCore_islands (c : Nat) (f : Core → Core) :
    (s.modCore c f).islands = s.islands := rfl
@[simp] theorem modCore_profile (c : Nat) (f : Core → Core) :
    (s.modCore c f).profile = s.profile := rfl
@[simp] theorem modCore_mergeN (c : Nat) (f : Core → Core) :
    (s.modCore c f).mergeN = s.mergeN := rfl
@[simp] theorem modCore_forkPolicy (c : Nat) (f : Core → Core) :
    (s.modCore c f).forkPolicy = s.forkPolicy := rfl
@[simp] theorem modCore_mrs (c : Nat) (f : Core → Core) :
    (s.modCore c f).mrs = s.mrs := rfl
@[simp] theorem modCore_ring (c : Nat) (f : Core → Core) :
    (s.modCore c f).ring = s.ring := rfl
@[simp] theorem modCore_boot (c : Nat) (f : Core → Core) :
    (s.modCore c f).boot = s.boot := rfl
@[simp] theorem modCore_fwStarts (c : Nat) (f : Core → Core) :
    (s.modCore c f).fwStarts = s.fwStarts := rfl
@[simp] theorem modCore_fuses (c : Nat) (f : Core → Core) :
    (s.modCore c f).fuses = s.fuses := rfl
@[simp] theorem modCore_laters (c : Nat) (f : Core → Core) :
    (s.modCore c f).laters = s.laters := rfl
@[simp] theorem modCore_hot (c : Nat) (f : Core → Core) :
    (s.modCore c f).hot = s.hot := rfl

/-! ### `setFront` -/

@[simp] theorem setFront_clock (n : Nat) (x : FrontEnd) :
    (s.setFront n x).clock = s.clock := rfl
@[simp] theorem setFront_free (n : Nat) (x : FrontEnd) :
    (s.setFront n x).free = s.free := rfl
@[simp] theorem setFront_agenda (n : Nat) (x : FrontEnd) :
    (s.setFront n x).agenda = s.agenda := rfl
@[simp] theorem setFront_inputs (n : Nat) (x : FrontEnd) :
    (s.setFront n x).inputs = s.inputs := rfl
@[simp] theorem setFront_upsets (n : Nat) (x : FrontEnd) :
    (s.setFront n x).upsets = s.upsets := rfl
@[simp] theorem setFront_issuer (n : Nat) (x : FrontEnd) :
    (s.setFront n x).issuer = s.issuer := rfl
@[simp] theorem setFront_seqIssuer (n : Nat) (x : FrontEnd) :
    (s.setFront n x).seqIssuer = s.seqIssuer := rfl
@[simp] theorem setFront_fresh (n : Nat) (x : FrontEnd) :
    (s.setFront n x).fresh = s.fresh := rfl
@[simp] theorem setFront_groups (n : Nat) (x : FrontEnd) :
    (s.setFront n x).groups = s.groups := rfl
@[simp] theorem setFront_teams (n : Nat) (x : FrontEnd) :
    (s.setFront n x).teams = s.teams := rfl
@[simp] theorem setFront_clusters (n : Nat) (x : FrontEnd) :
    (s.setFront n x).clusters = s.clusters := rfl
@[simp] theorem setFront_grids (n : Nat) (x : FrontEnd) :
    (s.setFront n x).grids = s.grids := rfl
@[simp] theorem setFront_fronts (n : Nat) (x : FrontEnd) :
    (s.setFront n x).fronts = tput {} s.fronts n x := rfl
@[simp] theorem setFront_cores (n : Nat) (x : FrontEnd) :
    (s.setFront n x).cores = s.cores := rfl
@[simp] theorem setFront_ctxs (n : Nat) (x : FrontEnd) :
    (s.setFront n x).ctxs = s.ctxs := rfl
@[simp] theorem setFront_pends (n : Nat) (x : FrontEnd) :
    (s.setFront n x).pends = s.pends := rfl
@[simp] theorem setFront_stores (n : Nat) (x : FrontEnd) :
    (s.setFront n x).stores = s.stores := rfl
@[simp] theorem setFront_mem (n : Nat) (x : FrontEnd) :
    (s.setFront n x).mem = s.mem := rfl
@[simp] theorem setFront_memBad (n : Nat) (x : FrontEnd) :
    (s.setFront n x).memBad = s.memBad := rfl
@[simp] theorem setFront_crcBad (n : Nat) (x : FrontEnd) :
    (s.setFront n x).crcBad = s.crcBad := rfl
@[simp] theorem setFront_hostMem (n : Nat) (x : FrontEnd) :
    (s.setFront n x).hostMem = s.hostMem := rfl
@[simp] theorem setFront_fwMem (n : Nat) (x : FrontEnd) :
    (s.setFront n x).fwMem = s.fwMem := rfl
@[simp] theorem setFront_callA0 (n : Nat) (x : FrontEnd) :
    (s.setFront n x).callA0 = s.callA0 := rfl
@[simp] theorem setFront_callA1 (n : Nat) (x : FrontEnd) :
    (s.setFront n x).callA1 = s.callA1 := rfl
@[simp] theorem setFront_mailbox (n : Nat) (x : FrontEnd) :
    (s.setFront n x).mailbox = s.mailbox := rfl
@[simp] theorem setFront_reply (n : Nat) (x : FrontEnd) :
    (s.setFront n x).reply = s.reply := rfl
@[simp] theorem setFront_backing (n : Nat) (x : FrontEnd) :
    (s.setFront n x).backing = s.backing := rfl
@[simp] theorem setFront_backingBad (n : Nat) (x : FrontEnd) :
    (s.setFront n x).backingBad = s.backingBad := rfl
@[simp] theorem setFront_portTable (n : Nat) (x : FrontEnd) :
    (s.setFront n x).portTable = s.portTable := rfl
@[simp] theorem setFront_foreign (n : Nat) (x : FrontEnd) :
    (s.setFront n x).foreign = s.foreign := rfl
@[simp] theorem setFront_tags (n : Nat) (x : FrontEnd) :
    (s.setFront n x).tags = s.tags := rfl
@[simp] theorem setFront_frames (n : Nat) (x : FrontEnd) :
    (s.setFront n x).frames = s.frames := rfl
@[simp] theorem setFront_shared (n : Nat) (x : FrontEnd) :
    (s.setFront n x).shared = s.shared := rfl
@[simp] theorem setFront_keyDoms (n : Nat) (x : FrontEnd) :
    (s.setFront n x).keyDoms = s.keyDoms := rfl
@[simp] theorem setFront_keySlots (n : Nat) (x : FrontEnd) :
    (s.setFront n x).keySlots = s.keySlots := rfl
@[simp] theorem setFront_fences (n : Nat) (x : FrontEnd) :
    (s.setFront n x).fences = s.fences := rfl
@[simp] theorem setFront_crossings (n : Nat) (x : FrontEnd) :
    (s.setFront n x).crossings = s.crossings := rfl
@[simp] theorem setFront_heldRel (n : Nat) (x : FrontEnd) :
    (s.setFront n x).heldRel = s.heldRel := rfl
@[simp] theorem setFront_linksDown (n : Nat) (x : FrontEnd) :
    (s.setFront n x).linksDown = s.linksDown := rfl
@[simp] theorem setFront_replayed (n : Nat) (x : FrontEnd) :
    (s.setFront n x).replayed = s.replayed := rfl
@[simp] theorem setFront_ports (n : Nat) (x : FrontEnd) :
    (s.setFront n x).ports = s.ports := rfl
@[simp] theorem setFront_functions (n : Nat) (x : FrontEnd) :
    (s.setFront n x).functions = s.functions := rfl
@[simp] theorem setFront_encoders (n : Nat) (x : FrontEnd) :
    (s.setFront n x).encoders = s.encoders := rfl
@[simp] theorem setFront_islands (n : Nat) (x : FrontEnd) :
    (s.setFront n x).islands = s.islands := rfl
@[simp] theorem setFront_profile (n : Nat) (x : FrontEnd) :
    (s.setFront n x).profile = s.profile := rfl
@[simp] theorem setFront_mergeN (n : Nat) (x : FrontEnd) :
    (s.setFront n x).mergeN = s.mergeN := rfl
@[simp] theorem setFront_forkPolicy (n : Nat) (x : FrontEnd) :
    (s.setFront n x).forkPolicy = s.forkPolicy := rfl
@[simp] theorem setFront_mrs (n : Nat) (x : FrontEnd) :
    (s.setFront n x).mrs = s.mrs := rfl
@[simp] theorem setFront_ring (n : Nat) (x : FrontEnd) :
    (s.setFront n x).ring = s.ring := rfl
@[simp] theorem setFront_boot (n : Nat) (x : FrontEnd) :
    (s.setFront n x).boot = s.boot := rfl
@[simp] theorem setFront_fwStarts (n : Nat) (x : FrontEnd) :
    (s.setFront n x).fwStarts = s.fwStarts := rfl
@[simp] theorem setFront_fuses (n : Nat) (x : FrontEnd) :
    (s.setFront n x).fuses = s.fuses := rfl
@[simp] theorem setFront_laters (n : Nat) (x : FrontEnd) :
    (s.setFront n x).laters = s.laters := rfl
@[simp] theorem setFront_hot (n : Nat) (x : FrontEnd) :
    (s.setFront n x).hot = s.hot := rfl

/-! ### `modFront` -/

@[simp] theorem modFront_clock (n : Nat) (f : FrontEnd → FrontEnd) :
    (s.modFront n f).clock = s.clock := rfl
@[simp] theorem modFront_free (n : Nat) (f : FrontEnd → FrontEnd) :
    (s.modFront n f).free = s.free := rfl
@[simp] theorem modFront_agenda (n : Nat) (f : FrontEnd → FrontEnd) :
    (s.modFront n f).agenda = s.agenda := rfl
@[simp] theorem modFront_inputs (n : Nat) (f : FrontEnd → FrontEnd) :
    (s.modFront n f).inputs = s.inputs := rfl
@[simp] theorem modFront_upsets (n : Nat) (f : FrontEnd → FrontEnd) :
    (s.modFront n f).upsets = s.upsets := rfl
@[simp] theorem modFront_issuer (n : Nat) (f : FrontEnd → FrontEnd) :
    (s.modFront n f).issuer = s.issuer := rfl
@[simp] theorem modFront_seqIssuer (n : Nat) (f : FrontEnd → FrontEnd) :
    (s.modFront n f).seqIssuer = s.seqIssuer := rfl
@[simp] theorem modFront_fresh (n : Nat) (f : FrontEnd → FrontEnd) :
    (s.modFront n f).fresh = s.fresh := rfl
@[simp] theorem modFront_groups (n : Nat) (f : FrontEnd → FrontEnd) :
    (s.modFront n f).groups = s.groups := rfl
@[simp] theorem modFront_teams (n : Nat) (f : FrontEnd → FrontEnd) :
    (s.modFront n f).teams = s.teams := rfl
@[simp] theorem modFront_clusters (n : Nat) (f : FrontEnd → FrontEnd) :
    (s.modFront n f).clusters = s.clusters := rfl
@[simp] theorem modFront_grids (n : Nat) (f : FrontEnd → FrontEnd) :
    (s.modFront n f).grids = s.grids := rfl
@[simp] theorem modFront_fronts (n : Nat) (f : FrontEnd → FrontEnd) :
    (s.modFront n f).fronts = tput {} s.fronts n (f (s.front n)) := rfl
@[simp] theorem modFront_cores (n : Nat) (f : FrontEnd → FrontEnd) :
    (s.modFront n f).cores = s.cores := rfl
@[simp] theorem modFront_ctxs (n : Nat) (f : FrontEnd → FrontEnd) :
    (s.modFront n f).ctxs = s.ctxs := rfl
@[simp] theorem modFront_pends (n : Nat) (f : FrontEnd → FrontEnd) :
    (s.modFront n f).pends = s.pends := rfl
@[simp] theorem modFront_stores (n : Nat) (f : FrontEnd → FrontEnd) :
    (s.modFront n f).stores = s.stores := rfl
@[simp] theorem modFront_mem (n : Nat) (f : FrontEnd → FrontEnd) :
    (s.modFront n f).mem = s.mem := rfl
@[simp] theorem modFront_memBad (n : Nat) (f : FrontEnd → FrontEnd) :
    (s.modFront n f).memBad = s.memBad := rfl
@[simp] theorem modFront_crcBad (n : Nat) (f : FrontEnd → FrontEnd) :
    (s.modFront n f).crcBad = s.crcBad := rfl
@[simp] theorem modFront_hostMem (n : Nat) (f : FrontEnd → FrontEnd) :
    (s.modFront n f).hostMem = s.hostMem := rfl
@[simp] theorem modFront_fwMem (n : Nat) (f : FrontEnd → FrontEnd) :
    (s.modFront n f).fwMem = s.fwMem := rfl
@[simp] theorem modFront_callA0 (n : Nat) (f : FrontEnd → FrontEnd) :
    (s.modFront n f).callA0 = s.callA0 := rfl
@[simp] theorem modFront_callA1 (n : Nat) (f : FrontEnd → FrontEnd) :
    (s.modFront n f).callA1 = s.callA1 := rfl
@[simp] theorem modFront_mailbox (n : Nat) (f : FrontEnd → FrontEnd) :
    (s.modFront n f).mailbox = s.mailbox := rfl
@[simp] theorem modFront_reply (n : Nat) (f : FrontEnd → FrontEnd) :
    (s.modFront n f).reply = s.reply := rfl
@[simp] theorem modFront_backing (n : Nat) (f : FrontEnd → FrontEnd) :
    (s.modFront n f).backing = s.backing := rfl
@[simp] theorem modFront_backingBad (n : Nat) (f : FrontEnd → FrontEnd) :
    (s.modFront n f).backingBad = s.backingBad := rfl
@[simp] theorem modFront_portTable (n : Nat) (f : FrontEnd → FrontEnd) :
    (s.modFront n f).portTable = s.portTable := rfl
@[simp] theorem modFront_foreign (n : Nat) (f : FrontEnd → FrontEnd) :
    (s.modFront n f).foreign = s.foreign := rfl
@[simp] theorem modFront_tags (n : Nat) (f : FrontEnd → FrontEnd) :
    (s.modFront n f).tags = s.tags := rfl
@[simp] theorem modFront_frames (n : Nat) (f : FrontEnd → FrontEnd) :
    (s.modFront n f).frames = s.frames := rfl
@[simp] theorem modFront_shared (n : Nat) (f : FrontEnd → FrontEnd) :
    (s.modFront n f).shared = s.shared := rfl
@[simp] theorem modFront_keyDoms (n : Nat) (f : FrontEnd → FrontEnd) :
    (s.modFront n f).keyDoms = s.keyDoms := rfl
@[simp] theorem modFront_keySlots (n : Nat) (f : FrontEnd → FrontEnd) :
    (s.modFront n f).keySlots = s.keySlots := rfl
@[simp] theorem modFront_fences (n : Nat) (f : FrontEnd → FrontEnd) :
    (s.modFront n f).fences = s.fences := rfl
@[simp] theorem modFront_crossings (n : Nat) (f : FrontEnd → FrontEnd) :
    (s.modFront n f).crossings = s.crossings := rfl
@[simp] theorem modFront_heldRel (n : Nat) (f : FrontEnd → FrontEnd) :
    (s.modFront n f).heldRel = s.heldRel := rfl
@[simp] theorem modFront_linksDown (n : Nat) (f : FrontEnd → FrontEnd) :
    (s.modFront n f).linksDown = s.linksDown := rfl
@[simp] theorem modFront_replayed (n : Nat) (f : FrontEnd → FrontEnd) :
    (s.modFront n f).replayed = s.replayed := rfl
@[simp] theorem modFront_ports (n : Nat) (f : FrontEnd → FrontEnd) :
    (s.modFront n f).ports = s.ports := rfl
@[simp] theorem modFront_functions (n : Nat) (f : FrontEnd → FrontEnd) :
    (s.modFront n f).functions = s.functions := rfl
@[simp] theorem modFront_encoders (n : Nat) (f : FrontEnd → FrontEnd) :
    (s.modFront n f).encoders = s.encoders := rfl
@[simp] theorem modFront_islands (n : Nat) (f : FrontEnd → FrontEnd) :
    (s.modFront n f).islands = s.islands := rfl
@[simp] theorem modFront_profile (n : Nat) (f : FrontEnd → FrontEnd) :
    (s.modFront n f).profile = s.profile := rfl
@[simp] theorem modFront_mergeN (n : Nat) (f : FrontEnd → FrontEnd) :
    (s.modFront n f).mergeN = s.mergeN := rfl
@[simp] theorem modFront_forkPolicy (n : Nat) (f : FrontEnd → FrontEnd) :
    (s.modFront n f).forkPolicy = s.forkPolicy := rfl
@[simp] theorem modFront_mrs (n : Nat) (f : FrontEnd → FrontEnd) :
    (s.modFront n f).mrs = s.mrs := rfl
@[simp] theorem modFront_ring (n : Nat) (f : FrontEnd → FrontEnd) :
    (s.modFront n f).ring = s.ring := rfl
@[simp] theorem modFront_boot (n : Nat) (f : FrontEnd → FrontEnd) :
    (s.modFront n f).boot = s.boot := rfl
@[simp] theorem modFront_fwStarts (n : Nat) (f : FrontEnd → FrontEnd) :
    (s.modFront n f).fwStarts = s.fwStarts := rfl
@[simp] theorem modFront_fuses (n : Nat) (f : FrontEnd → FrontEnd) :
    (s.modFront n f).fuses = s.fuses := rfl
@[simp] theorem modFront_laters (n : Nat) (f : FrontEnd → FrontEnd) :
    (s.modFront n f).laters = s.laters := rfl
@[simp] theorem modFront_hot (n : Nat) (f : FrontEnd → FrontEnd) :
    (s.modFront n f).hot = s.hot := rfl

/-! ### `setQueue` -/

@[simp] theorem setQueue_clock (n q : Nat) (y : Queue) :
    (s.setQueue n q y).clock = s.clock := rfl
@[simp] theorem setQueue_free (n q : Nat) (y : Queue) :
    (s.setQueue n q y).free = s.free := rfl
@[simp] theorem setQueue_agenda (n q : Nat) (y : Queue) :
    (s.setQueue n q y).agenda = s.agenda := rfl
@[simp] theorem setQueue_inputs (n q : Nat) (y : Queue) :
    (s.setQueue n q y).inputs = s.inputs := rfl
@[simp] theorem setQueue_upsets (n q : Nat) (y : Queue) :
    (s.setQueue n q y).upsets = s.upsets := rfl
@[simp] theorem setQueue_issuer (n q : Nat) (y : Queue) :
    (s.setQueue n q y).issuer = s.issuer := rfl
@[simp] theorem setQueue_seqIssuer (n q : Nat) (y : Queue) :
    (s.setQueue n q y).seqIssuer = s.seqIssuer := rfl
@[simp] theorem setQueue_fresh (n q : Nat) (y : Queue) :
    (s.setQueue n q y).fresh = s.fresh := rfl
@[simp] theorem setQueue_groups (n q : Nat) (y : Queue) :
    (s.setQueue n q y).groups = s.groups := rfl
@[simp] theorem setQueue_teams (n q : Nat) (y : Queue) :
    (s.setQueue n q y).teams = s.teams := rfl
@[simp] theorem setQueue_clusters (n q : Nat) (y : Queue) :
    (s.setQueue n q y).clusters = s.clusters := rfl
@[simp] theorem setQueue_grids (n q : Nat) (y : Queue) :
    (s.setQueue n q y).grids = s.grids := rfl
@[simp] theorem setQueue_fronts (n q : Nat) (y : Queue) :
    (s.setQueue n q y).fronts = tput {} s.fronts n ((s.front n).setQueue q y) := rfl
@[simp] theorem setQueue_cores (n q : Nat) (y : Queue) :
    (s.setQueue n q y).cores = s.cores := rfl
@[simp] theorem setQueue_ctxs (n q : Nat) (y : Queue) :
    (s.setQueue n q y).ctxs = s.ctxs := rfl
@[simp] theorem setQueue_pends (n q : Nat) (y : Queue) :
    (s.setQueue n q y).pends = s.pends := rfl
@[simp] theorem setQueue_stores (n q : Nat) (y : Queue) :
    (s.setQueue n q y).stores = s.stores := rfl
@[simp] theorem setQueue_mem (n q : Nat) (y : Queue) :
    (s.setQueue n q y).mem = s.mem := rfl
@[simp] theorem setQueue_memBad (n q : Nat) (y : Queue) :
    (s.setQueue n q y).memBad = s.memBad := rfl
@[simp] theorem setQueue_crcBad (n q : Nat) (y : Queue) :
    (s.setQueue n q y).crcBad = s.crcBad := rfl
@[simp] theorem setQueue_hostMem (n q : Nat) (y : Queue) :
    (s.setQueue n q y).hostMem = s.hostMem := rfl
@[simp] theorem setQueue_fwMem (n q : Nat) (y : Queue) :
    (s.setQueue n q y).fwMem = s.fwMem := rfl
@[simp] theorem setQueue_callA0 (n q : Nat) (y : Queue) :
    (s.setQueue n q y).callA0 = s.callA0 := rfl
@[simp] theorem setQueue_callA1 (n q : Nat) (y : Queue) :
    (s.setQueue n q y).callA1 = s.callA1 := rfl
@[simp] theorem setQueue_mailbox (n q : Nat) (y : Queue) :
    (s.setQueue n q y).mailbox = s.mailbox := rfl
@[simp] theorem setQueue_reply (n q : Nat) (y : Queue) :
    (s.setQueue n q y).reply = s.reply := rfl
@[simp] theorem setQueue_backing (n q : Nat) (y : Queue) :
    (s.setQueue n q y).backing = s.backing := rfl
@[simp] theorem setQueue_backingBad (n q : Nat) (y : Queue) :
    (s.setQueue n q y).backingBad = s.backingBad := rfl
@[simp] theorem setQueue_portTable (n q : Nat) (y : Queue) :
    (s.setQueue n q y).portTable = s.portTable := rfl
@[simp] theorem setQueue_foreign (n q : Nat) (y : Queue) :
    (s.setQueue n q y).foreign = s.foreign := rfl
@[simp] theorem setQueue_tags (n q : Nat) (y : Queue) :
    (s.setQueue n q y).tags = s.tags := rfl
@[simp] theorem setQueue_frames (n q : Nat) (y : Queue) :
    (s.setQueue n q y).frames = s.frames := rfl
@[simp] theorem setQueue_shared (n q : Nat) (y : Queue) :
    (s.setQueue n q y).shared = s.shared := rfl
@[simp] theorem setQueue_keyDoms (n q : Nat) (y : Queue) :
    (s.setQueue n q y).keyDoms = s.keyDoms := rfl
@[simp] theorem setQueue_keySlots (n q : Nat) (y : Queue) :
    (s.setQueue n q y).keySlots = s.keySlots := rfl
@[simp] theorem setQueue_fences (n q : Nat) (y : Queue) :
    (s.setQueue n q y).fences = s.fences := rfl
@[simp] theorem setQueue_crossings (n q : Nat) (y : Queue) :
    (s.setQueue n q y).crossings = s.crossings := rfl
@[simp] theorem setQueue_heldRel (n q : Nat) (y : Queue) :
    (s.setQueue n q y).heldRel = s.heldRel := rfl
@[simp] theorem setQueue_linksDown (n q : Nat) (y : Queue) :
    (s.setQueue n q y).linksDown = s.linksDown := rfl
@[simp] theorem setQueue_replayed (n q : Nat) (y : Queue) :
    (s.setQueue n q y).replayed = s.replayed := rfl
@[simp] theorem setQueue_ports (n q : Nat) (y : Queue) :
    (s.setQueue n q y).ports = s.ports := rfl
@[simp] theorem setQueue_functions (n q : Nat) (y : Queue) :
    (s.setQueue n q y).functions = s.functions := rfl
@[simp] theorem setQueue_encoders (n q : Nat) (y : Queue) :
    (s.setQueue n q y).encoders = s.encoders := rfl
@[simp] theorem setQueue_islands (n q : Nat) (y : Queue) :
    (s.setQueue n q y).islands = s.islands := rfl
@[simp] theorem setQueue_profile (n q : Nat) (y : Queue) :
    (s.setQueue n q y).profile = s.profile := rfl
@[simp] theorem setQueue_mergeN (n q : Nat) (y : Queue) :
    (s.setQueue n q y).mergeN = s.mergeN := rfl
@[simp] theorem setQueue_forkPolicy (n q : Nat) (y : Queue) :
    (s.setQueue n q y).forkPolicy = s.forkPolicy := rfl
@[simp] theorem setQueue_mrs (n q : Nat) (y : Queue) :
    (s.setQueue n q y).mrs = s.mrs := rfl
@[simp] theorem setQueue_ring (n q : Nat) (y : Queue) :
    (s.setQueue n q y).ring = s.ring := rfl
@[simp] theorem setQueue_boot (n q : Nat) (y : Queue) :
    (s.setQueue n q y).boot = s.boot := rfl
@[simp] theorem setQueue_fwStarts (n q : Nat) (y : Queue) :
    (s.setQueue n q y).fwStarts = s.fwStarts := rfl
@[simp] theorem setQueue_fuses (n q : Nat) (y : Queue) :
    (s.setQueue n q y).fuses = s.fuses := rfl
@[simp] theorem setQueue_laters (n q : Nat) (y : Queue) :
    (s.setQueue n q y).laters = s.laters := rfl
@[simp] theorem setQueue_hot (n q : Nat) (y : Queue) :
    (s.setQueue n q y).hot = s.hot := rfl

/-! ### `setGroup` -/

@[simp] theorem setGroup_clock (n : Nat) (x : Group) :
    (s.setGroup n x).clock = s.clock := rfl
@[simp] theorem setGroup_free (n : Nat) (x : Group) :
    (s.setGroup n x).free = s.free := rfl
@[simp] theorem setGroup_agenda (n : Nat) (x : Group) :
    (s.setGroup n x).agenda = s.agenda := rfl
@[simp] theorem setGroup_inputs (n : Nat) (x : Group) :
    (s.setGroup n x).inputs = s.inputs := rfl
@[simp] theorem setGroup_upsets (n : Nat) (x : Group) :
    (s.setGroup n x).upsets = s.upsets := rfl
@[simp] theorem setGroup_issuer (n : Nat) (x : Group) :
    (s.setGroup n x).issuer = s.issuer := rfl
@[simp] theorem setGroup_seqIssuer (n : Nat) (x : Group) :
    (s.setGroup n x).seqIssuer = s.seqIssuer := rfl
@[simp] theorem setGroup_fresh (n : Nat) (x : Group) :
    (s.setGroup n x).fresh = s.fresh := rfl
@[simp] theorem setGroup_groups (n : Nat) (x : Group) :
    (s.setGroup n x).groups = tins s.groups n x := rfl
@[simp] theorem setGroup_teams (n : Nat) (x : Group) :
    (s.setGroup n x).teams = s.teams := rfl
@[simp] theorem setGroup_clusters (n : Nat) (x : Group) :
    (s.setGroup n x).clusters = s.clusters := rfl
@[simp] theorem setGroup_grids (n : Nat) (x : Group) :
    (s.setGroup n x).grids = s.grids := rfl
@[simp] theorem setGroup_fronts (n : Nat) (x : Group) :
    (s.setGroup n x).fronts = s.fronts := rfl
@[simp] theorem setGroup_cores (n : Nat) (x : Group) :
    (s.setGroup n x).cores = s.cores := rfl
@[simp] theorem setGroup_ctxs (n : Nat) (x : Group) :
    (s.setGroup n x).ctxs = s.ctxs := rfl
@[simp] theorem setGroup_pends (n : Nat) (x : Group) :
    (s.setGroup n x).pends = s.pends := rfl
@[simp] theorem setGroup_stores (n : Nat) (x : Group) :
    (s.setGroup n x).stores = s.stores := rfl
@[simp] theorem setGroup_mem (n : Nat) (x : Group) :
    (s.setGroup n x).mem = s.mem := rfl
@[simp] theorem setGroup_memBad (n : Nat) (x : Group) :
    (s.setGroup n x).memBad = s.memBad := rfl
@[simp] theorem setGroup_crcBad (n : Nat) (x : Group) :
    (s.setGroup n x).crcBad = s.crcBad := rfl
@[simp] theorem setGroup_hostMem (n : Nat) (x : Group) :
    (s.setGroup n x).hostMem = s.hostMem := rfl
@[simp] theorem setGroup_fwMem (n : Nat) (x : Group) :
    (s.setGroup n x).fwMem = s.fwMem := rfl
@[simp] theorem setGroup_callA0 (n : Nat) (x : Group) :
    (s.setGroup n x).callA0 = s.callA0 := rfl
@[simp] theorem setGroup_callA1 (n : Nat) (x : Group) :
    (s.setGroup n x).callA1 = s.callA1 := rfl
@[simp] theorem setGroup_mailbox (n : Nat) (x : Group) :
    (s.setGroup n x).mailbox = s.mailbox := rfl
@[simp] theorem setGroup_reply (n : Nat) (x : Group) :
    (s.setGroup n x).reply = s.reply := rfl
@[simp] theorem setGroup_backing (n : Nat) (x : Group) :
    (s.setGroup n x).backing = s.backing := rfl
@[simp] theorem setGroup_backingBad (n : Nat) (x : Group) :
    (s.setGroup n x).backingBad = s.backingBad := rfl
@[simp] theorem setGroup_portTable (n : Nat) (x : Group) :
    (s.setGroup n x).portTable = s.portTable := rfl
@[simp] theorem setGroup_foreign (n : Nat) (x : Group) :
    (s.setGroup n x).foreign = s.foreign := rfl
@[simp] theorem setGroup_tags (n : Nat) (x : Group) :
    (s.setGroup n x).tags = s.tags := rfl
@[simp] theorem setGroup_frames (n : Nat) (x : Group) :
    (s.setGroup n x).frames = s.frames := rfl
@[simp] theorem setGroup_shared (n : Nat) (x : Group) :
    (s.setGroup n x).shared = s.shared := rfl
@[simp] theorem setGroup_keyDoms (n : Nat) (x : Group) :
    (s.setGroup n x).keyDoms = s.keyDoms := rfl
@[simp] theorem setGroup_keySlots (n : Nat) (x : Group) :
    (s.setGroup n x).keySlots = s.keySlots := rfl
@[simp] theorem setGroup_fences (n : Nat) (x : Group) :
    (s.setGroup n x).fences = s.fences := rfl
@[simp] theorem setGroup_crossings (n : Nat) (x : Group) :
    (s.setGroup n x).crossings = s.crossings := rfl
@[simp] theorem setGroup_heldRel (n : Nat) (x : Group) :
    (s.setGroup n x).heldRel = s.heldRel := rfl
@[simp] theorem setGroup_linksDown (n : Nat) (x : Group) :
    (s.setGroup n x).linksDown = s.linksDown := rfl
@[simp] theorem setGroup_replayed (n : Nat) (x : Group) :
    (s.setGroup n x).replayed = s.replayed := rfl
@[simp] theorem setGroup_ports (n : Nat) (x : Group) :
    (s.setGroup n x).ports = s.ports := rfl
@[simp] theorem setGroup_functions (n : Nat) (x : Group) :
    (s.setGroup n x).functions = s.functions := rfl
@[simp] theorem setGroup_encoders (n : Nat) (x : Group) :
    (s.setGroup n x).encoders = s.encoders := rfl
@[simp] theorem setGroup_islands (n : Nat) (x : Group) :
    (s.setGroup n x).islands = s.islands := rfl
@[simp] theorem setGroup_profile (n : Nat) (x : Group) :
    (s.setGroup n x).profile = s.profile := rfl
@[simp] theorem setGroup_mergeN (n : Nat) (x : Group) :
    (s.setGroup n x).mergeN = s.mergeN := rfl
@[simp] theorem setGroup_forkPolicy (n : Nat) (x : Group) :
    (s.setGroup n x).forkPolicy = s.forkPolicy := rfl
@[simp] theorem setGroup_mrs (n : Nat) (x : Group) :
    (s.setGroup n x).mrs = s.mrs := rfl
@[simp] theorem setGroup_ring (n : Nat) (x : Group) :
    (s.setGroup n x).ring = s.ring := rfl
@[simp] theorem setGroup_boot (n : Nat) (x : Group) :
    (s.setGroup n x).boot = s.boot := rfl
@[simp] theorem setGroup_fwStarts (n : Nat) (x : Group) :
    (s.setGroup n x).fwStarts = s.fwStarts := rfl
@[simp] theorem setGroup_fuses (n : Nat) (x : Group) :
    (s.setGroup n x).fuses = s.fuses := rfl
@[simp] theorem setGroup_laters (n : Nat) (x : Group) :
    (s.setGroup n x).laters = s.laters := rfl
@[simp] theorem setGroup_hot (n : Nat) (x : Group) :
    (s.setGroup n x).hot = s.hot := rfl

/-! ### `modGroup` -/

@[simp] theorem modGroup_clock (n : Nat) (f : Group → Group) :
    (s.modGroup n f).clock = s.clock := rfl
@[simp] theorem modGroup_free (n : Nat) (f : Group → Group) :
    (s.modGroup n f).free = s.free := rfl
@[simp] theorem modGroup_agenda (n : Nat) (f : Group → Group) :
    (s.modGroup n f).agenda = s.agenda := rfl
@[simp] theorem modGroup_inputs (n : Nat) (f : Group → Group) :
    (s.modGroup n f).inputs = s.inputs := rfl
@[simp] theorem modGroup_upsets (n : Nat) (f : Group → Group) :
    (s.modGroup n f).upsets = s.upsets := rfl
@[simp] theorem modGroup_issuer (n : Nat) (f : Group → Group) :
    (s.modGroup n f).issuer = s.issuer := rfl
@[simp] theorem modGroup_seqIssuer (n : Nat) (f : Group → Group) :
    (s.modGroup n f).seqIssuer = s.seqIssuer := rfl
@[simp] theorem modGroup_fresh (n : Nat) (f : Group → Group) :
    (s.modGroup n f).fresh = s.fresh := rfl
@[simp] theorem modGroup_groups (n : Nat) (f : Group → Group) :
    (s.modGroup n f).groups = tadj s.groups n f := rfl
@[simp] theorem modGroup_teams (n : Nat) (f : Group → Group) :
    (s.modGroup n f).teams = s.teams := rfl
@[simp] theorem modGroup_clusters (n : Nat) (f : Group → Group) :
    (s.modGroup n f).clusters = s.clusters := rfl
@[simp] theorem modGroup_grids (n : Nat) (f : Group → Group) :
    (s.modGroup n f).grids = s.grids := rfl
@[simp] theorem modGroup_fronts (n : Nat) (f : Group → Group) :
    (s.modGroup n f).fronts = s.fronts := rfl
@[simp] theorem modGroup_cores (n : Nat) (f : Group → Group) :
    (s.modGroup n f).cores = s.cores := rfl
@[simp] theorem modGroup_ctxs (n : Nat) (f : Group → Group) :
    (s.modGroup n f).ctxs = s.ctxs := rfl
@[simp] theorem modGroup_pends (n : Nat) (f : Group → Group) :
    (s.modGroup n f).pends = s.pends := rfl
@[simp] theorem modGroup_stores (n : Nat) (f : Group → Group) :
    (s.modGroup n f).stores = s.stores := rfl
@[simp] theorem modGroup_mem (n : Nat) (f : Group → Group) :
    (s.modGroup n f).mem = s.mem := rfl
@[simp] theorem modGroup_memBad (n : Nat) (f : Group → Group) :
    (s.modGroup n f).memBad = s.memBad := rfl
@[simp] theorem modGroup_crcBad (n : Nat) (f : Group → Group) :
    (s.modGroup n f).crcBad = s.crcBad := rfl
@[simp] theorem modGroup_hostMem (n : Nat) (f : Group → Group) :
    (s.modGroup n f).hostMem = s.hostMem := rfl
@[simp] theorem modGroup_fwMem (n : Nat) (f : Group → Group) :
    (s.modGroup n f).fwMem = s.fwMem := rfl
@[simp] theorem modGroup_callA0 (n : Nat) (f : Group → Group) :
    (s.modGroup n f).callA0 = s.callA0 := rfl
@[simp] theorem modGroup_callA1 (n : Nat) (f : Group → Group) :
    (s.modGroup n f).callA1 = s.callA1 := rfl
@[simp] theorem modGroup_mailbox (n : Nat) (f : Group → Group) :
    (s.modGroup n f).mailbox = s.mailbox := rfl
@[simp] theorem modGroup_reply (n : Nat) (f : Group → Group) :
    (s.modGroup n f).reply = s.reply := rfl
@[simp] theorem modGroup_backing (n : Nat) (f : Group → Group) :
    (s.modGroup n f).backing = s.backing := rfl
@[simp] theorem modGroup_backingBad (n : Nat) (f : Group → Group) :
    (s.modGroup n f).backingBad = s.backingBad := rfl
@[simp] theorem modGroup_portTable (n : Nat) (f : Group → Group) :
    (s.modGroup n f).portTable = s.portTable := rfl
@[simp] theorem modGroup_foreign (n : Nat) (f : Group → Group) :
    (s.modGroup n f).foreign = s.foreign := rfl
@[simp] theorem modGroup_tags (n : Nat) (f : Group → Group) :
    (s.modGroup n f).tags = s.tags := rfl
@[simp] theorem modGroup_frames (n : Nat) (f : Group → Group) :
    (s.modGroup n f).frames = s.frames := rfl
@[simp] theorem modGroup_shared (n : Nat) (f : Group → Group) :
    (s.modGroup n f).shared = s.shared := rfl
@[simp] theorem modGroup_keyDoms (n : Nat) (f : Group → Group) :
    (s.modGroup n f).keyDoms = s.keyDoms := rfl
@[simp] theorem modGroup_keySlots (n : Nat) (f : Group → Group) :
    (s.modGroup n f).keySlots = s.keySlots := rfl
@[simp] theorem modGroup_fences (n : Nat) (f : Group → Group) :
    (s.modGroup n f).fences = s.fences := rfl
@[simp] theorem modGroup_crossings (n : Nat) (f : Group → Group) :
    (s.modGroup n f).crossings = s.crossings := rfl
@[simp] theorem modGroup_heldRel (n : Nat) (f : Group → Group) :
    (s.modGroup n f).heldRel = s.heldRel := rfl
@[simp] theorem modGroup_linksDown (n : Nat) (f : Group → Group) :
    (s.modGroup n f).linksDown = s.linksDown := rfl
@[simp] theorem modGroup_replayed (n : Nat) (f : Group → Group) :
    (s.modGroup n f).replayed = s.replayed := rfl
@[simp] theorem modGroup_ports (n : Nat) (f : Group → Group) :
    (s.modGroup n f).ports = s.ports := rfl
@[simp] theorem modGroup_functions (n : Nat) (f : Group → Group) :
    (s.modGroup n f).functions = s.functions := rfl
@[simp] theorem modGroup_encoders (n : Nat) (f : Group → Group) :
    (s.modGroup n f).encoders = s.encoders := rfl
@[simp] theorem modGroup_islands (n : Nat) (f : Group → Group) :
    (s.modGroup n f).islands = s.islands := rfl
@[simp] theorem modGroup_profile (n : Nat) (f : Group → Group) :
    (s.modGroup n f).profile = s.profile := rfl
@[simp] theorem modGroup_mergeN (n : Nat) (f : Group → Group) :
    (s.modGroup n f).mergeN = s.mergeN := rfl
@[simp] theorem modGroup_forkPolicy (n : Nat) (f : Group → Group) :
    (s.modGroup n f).forkPolicy = s.forkPolicy := rfl
@[simp] theorem modGroup_mrs (n : Nat) (f : Group → Group) :
    (s.modGroup n f).mrs = s.mrs := rfl
@[simp] theorem modGroup_ring (n : Nat) (f : Group → Group) :
    (s.modGroup n f).ring = s.ring := rfl
@[simp] theorem modGroup_boot (n : Nat) (f : Group → Group) :
    (s.modGroup n f).boot = s.boot := rfl
@[simp] theorem modGroup_fwStarts (n : Nat) (f : Group → Group) :
    (s.modGroup n f).fwStarts = s.fwStarts := rfl
@[simp] theorem modGroup_fuses (n : Nat) (f : Group → Group) :
    (s.modGroup n f).fuses = s.fuses := rfl
@[simp] theorem modGroup_laters (n : Nat) (f : Group → Group) :
    (s.modGroup n f).laters = s.laters := rfl
@[simp] theorem modGroup_hot (n : Nat) (f : Group → Group) :
    (s.modGroup n f).hot = s.hot := rfl

/-! ### `setTeam` -/

@[simp] theorem setTeam_clock (n : Nat) (x : Team) :
    (s.setTeam n x).clock = s.clock := rfl
@[simp] theorem setTeam_free (n : Nat) (x : Team) :
    (s.setTeam n x).free = s.free := rfl
@[simp] theorem setTeam_agenda (n : Nat) (x : Team) :
    (s.setTeam n x).agenda = s.agenda := rfl
@[simp] theorem setTeam_inputs (n : Nat) (x : Team) :
    (s.setTeam n x).inputs = s.inputs := rfl
@[simp] theorem setTeam_upsets (n : Nat) (x : Team) :
    (s.setTeam n x).upsets = s.upsets := rfl
@[simp] theorem setTeam_issuer (n : Nat) (x : Team) :
    (s.setTeam n x).issuer = s.issuer := rfl
@[simp] theorem setTeam_seqIssuer (n : Nat) (x : Team) :
    (s.setTeam n x).seqIssuer = s.seqIssuer := rfl
@[simp] theorem setTeam_fresh (n : Nat) (x : Team) :
    (s.setTeam n x).fresh = s.fresh := rfl
@[simp] theorem setTeam_groups (n : Nat) (x : Team) :
    (s.setTeam n x).groups = s.groups := rfl
@[simp] theorem setTeam_teams (n : Nat) (x : Team) :
    (s.setTeam n x).teams = tins s.teams n x := rfl
@[simp] theorem setTeam_clusters (n : Nat) (x : Team) :
    (s.setTeam n x).clusters = s.clusters := rfl
@[simp] theorem setTeam_grids (n : Nat) (x : Team) :
    (s.setTeam n x).grids = s.grids := rfl
@[simp] theorem setTeam_fronts (n : Nat) (x : Team) :
    (s.setTeam n x).fronts = s.fronts := rfl
@[simp] theorem setTeam_cores (n : Nat) (x : Team) :
    (s.setTeam n x).cores = s.cores := rfl
@[simp] theorem setTeam_ctxs (n : Nat) (x : Team) :
    (s.setTeam n x).ctxs = s.ctxs := rfl
@[simp] theorem setTeam_pends (n : Nat) (x : Team) :
    (s.setTeam n x).pends = s.pends := rfl
@[simp] theorem setTeam_stores (n : Nat) (x : Team) :
    (s.setTeam n x).stores = s.stores := rfl
@[simp] theorem setTeam_mem (n : Nat) (x : Team) :
    (s.setTeam n x).mem = s.mem := rfl
@[simp] theorem setTeam_memBad (n : Nat) (x : Team) :
    (s.setTeam n x).memBad = s.memBad := rfl
@[simp] theorem setTeam_crcBad (n : Nat) (x : Team) :
    (s.setTeam n x).crcBad = s.crcBad := rfl
@[simp] theorem setTeam_hostMem (n : Nat) (x : Team) :
    (s.setTeam n x).hostMem = s.hostMem := rfl
@[simp] theorem setTeam_fwMem (n : Nat) (x : Team) :
    (s.setTeam n x).fwMem = s.fwMem := rfl
@[simp] theorem setTeam_callA0 (n : Nat) (x : Team) :
    (s.setTeam n x).callA0 = s.callA0 := rfl
@[simp] theorem setTeam_callA1 (n : Nat) (x : Team) :
    (s.setTeam n x).callA1 = s.callA1 := rfl
@[simp] theorem setTeam_mailbox (n : Nat) (x : Team) :
    (s.setTeam n x).mailbox = s.mailbox := rfl
@[simp] theorem setTeam_reply (n : Nat) (x : Team) :
    (s.setTeam n x).reply = s.reply := rfl
@[simp] theorem setTeam_backing (n : Nat) (x : Team) :
    (s.setTeam n x).backing = s.backing := rfl
@[simp] theorem setTeam_backingBad (n : Nat) (x : Team) :
    (s.setTeam n x).backingBad = s.backingBad := rfl
@[simp] theorem setTeam_portTable (n : Nat) (x : Team) :
    (s.setTeam n x).portTable = s.portTable := rfl
@[simp] theorem setTeam_foreign (n : Nat) (x : Team) :
    (s.setTeam n x).foreign = s.foreign := rfl
@[simp] theorem setTeam_tags (n : Nat) (x : Team) :
    (s.setTeam n x).tags = s.tags := rfl
@[simp] theorem setTeam_frames (n : Nat) (x : Team) :
    (s.setTeam n x).frames = s.frames := rfl
@[simp] theorem setTeam_shared (n : Nat) (x : Team) :
    (s.setTeam n x).shared = s.shared := rfl
@[simp] theorem setTeam_keyDoms (n : Nat) (x : Team) :
    (s.setTeam n x).keyDoms = s.keyDoms := rfl
@[simp] theorem setTeam_keySlots (n : Nat) (x : Team) :
    (s.setTeam n x).keySlots = s.keySlots := rfl
@[simp] theorem setTeam_fences (n : Nat) (x : Team) :
    (s.setTeam n x).fences = s.fences := rfl
@[simp] theorem setTeam_crossings (n : Nat) (x : Team) :
    (s.setTeam n x).crossings = s.crossings := rfl
@[simp] theorem setTeam_heldRel (n : Nat) (x : Team) :
    (s.setTeam n x).heldRel = s.heldRel := rfl
@[simp] theorem setTeam_linksDown (n : Nat) (x : Team) :
    (s.setTeam n x).linksDown = s.linksDown := rfl
@[simp] theorem setTeam_replayed (n : Nat) (x : Team) :
    (s.setTeam n x).replayed = s.replayed := rfl
@[simp] theorem setTeam_ports (n : Nat) (x : Team) :
    (s.setTeam n x).ports = s.ports := rfl
@[simp] theorem setTeam_functions (n : Nat) (x : Team) :
    (s.setTeam n x).functions = s.functions := rfl
@[simp] theorem setTeam_encoders (n : Nat) (x : Team) :
    (s.setTeam n x).encoders = s.encoders := rfl
@[simp] theorem setTeam_islands (n : Nat) (x : Team) :
    (s.setTeam n x).islands = s.islands := rfl
@[simp] theorem setTeam_profile (n : Nat) (x : Team) :
    (s.setTeam n x).profile = s.profile := rfl
@[simp] theorem setTeam_mergeN (n : Nat) (x : Team) :
    (s.setTeam n x).mergeN = s.mergeN := rfl
@[simp] theorem setTeam_forkPolicy (n : Nat) (x : Team) :
    (s.setTeam n x).forkPolicy = s.forkPolicy := rfl
@[simp] theorem setTeam_mrs (n : Nat) (x : Team) :
    (s.setTeam n x).mrs = s.mrs := rfl
@[simp] theorem setTeam_ring (n : Nat) (x : Team) :
    (s.setTeam n x).ring = s.ring := rfl
@[simp] theorem setTeam_boot (n : Nat) (x : Team) :
    (s.setTeam n x).boot = s.boot := rfl
@[simp] theorem setTeam_fwStarts (n : Nat) (x : Team) :
    (s.setTeam n x).fwStarts = s.fwStarts := rfl
@[simp] theorem setTeam_fuses (n : Nat) (x : Team) :
    (s.setTeam n x).fuses = s.fuses := rfl
@[simp] theorem setTeam_laters (n : Nat) (x : Team) :
    (s.setTeam n x).laters = s.laters := rfl
@[simp] theorem setTeam_hot (n : Nat) (x : Team) :
    (s.setTeam n x).hot = s.hot := rfl

/-! ### `modTeam` -/

@[simp] theorem modTeam_clock (n : Nat) (f : Team → Team) :
    (s.modTeam n f).clock = s.clock := rfl
@[simp] theorem modTeam_free (n : Nat) (f : Team → Team) :
    (s.modTeam n f).free = s.free := rfl
@[simp] theorem modTeam_agenda (n : Nat) (f : Team → Team) :
    (s.modTeam n f).agenda = s.agenda := rfl
@[simp] theorem modTeam_inputs (n : Nat) (f : Team → Team) :
    (s.modTeam n f).inputs = s.inputs := rfl
@[simp] theorem modTeam_upsets (n : Nat) (f : Team → Team) :
    (s.modTeam n f).upsets = s.upsets := rfl
@[simp] theorem modTeam_issuer (n : Nat) (f : Team → Team) :
    (s.modTeam n f).issuer = s.issuer := rfl
@[simp] theorem modTeam_seqIssuer (n : Nat) (f : Team → Team) :
    (s.modTeam n f).seqIssuer = s.seqIssuer := rfl
@[simp] theorem modTeam_fresh (n : Nat) (f : Team → Team) :
    (s.modTeam n f).fresh = s.fresh := rfl
@[simp] theorem modTeam_groups (n : Nat) (f : Team → Team) :
    (s.modTeam n f).groups = s.groups := rfl
@[simp] theorem modTeam_teams (n : Nat) (f : Team → Team) :
    (s.modTeam n f).teams = tadj s.teams n f := rfl
@[simp] theorem modTeam_clusters (n : Nat) (f : Team → Team) :
    (s.modTeam n f).clusters = s.clusters := rfl
@[simp] theorem modTeam_grids (n : Nat) (f : Team → Team) :
    (s.modTeam n f).grids = s.grids := rfl
@[simp] theorem modTeam_fronts (n : Nat) (f : Team → Team) :
    (s.modTeam n f).fronts = s.fronts := rfl
@[simp] theorem modTeam_cores (n : Nat) (f : Team → Team) :
    (s.modTeam n f).cores = s.cores := rfl
@[simp] theorem modTeam_ctxs (n : Nat) (f : Team → Team) :
    (s.modTeam n f).ctxs = s.ctxs := rfl
@[simp] theorem modTeam_pends (n : Nat) (f : Team → Team) :
    (s.modTeam n f).pends = s.pends := rfl
@[simp] theorem modTeam_stores (n : Nat) (f : Team → Team) :
    (s.modTeam n f).stores = s.stores := rfl
@[simp] theorem modTeam_mem (n : Nat) (f : Team → Team) :
    (s.modTeam n f).mem = s.mem := rfl
@[simp] theorem modTeam_memBad (n : Nat) (f : Team → Team) :
    (s.modTeam n f).memBad = s.memBad := rfl
@[simp] theorem modTeam_crcBad (n : Nat) (f : Team → Team) :
    (s.modTeam n f).crcBad = s.crcBad := rfl
@[simp] theorem modTeam_hostMem (n : Nat) (f : Team → Team) :
    (s.modTeam n f).hostMem = s.hostMem := rfl
@[simp] theorem modTeam_fwMem (n : Nat) (f : Team → Team) :
    (s.modTeam n f).fwMem = s.fwMem := rfl
@[simp] theorem modTeam_callA0 (n : Nat) (f : Team → Team) :
    (s.modTeam n f).callA0 = s.callA0 := rfl
@[simp] theorem modTeam_callA1 (n : Nat) (f : Team → Team) :
    (s.modTeam n f).callA1 = s.callA1 := rfl
@[simp] theorem modTeam_mailbox (n : Nat) (f : Team → Team) :
    (s.modTeam n f).mailbox = s.mailbox := rfl
@[simp] theorem modTeam_reply (n : Nat) (f : Team → Team) :
    (s.modTeam n f).reply = s.reply := rfl
@[simp] theorem modTeam_backing (n : Nat) (f : Team → Team) :
    (s.modTeam n f).backing = s.backing := rfl
@[simp] theorem modTeam_backingBad (n : Nat) (f : Team → Team) :
    (s.modTeam n f).backingBad = s.backingBad := rfl
@[simp] theorem modTeam_portTable (n : Nat) (f : Team → Team) :
    (s.modTeam n f).portTable = s.portTable := rfl
@[simp] theorem modTeam_foreign (n : Nat) (f : Team → Team) :
    (s.modTeam n f).foreign = s.foreign := rfl
@[simp] theorem modTeam_tags (n : Nat) (f : Team → Team) :
    (s.modTeam n f).tags = s.tags := rfl
@[simp] theorem modTeam_frames (n : Nat) (f : Team → Team) :
    (s.modTeam n f).frames = s.frames := rfl
@[simp] theorem modTeam_shared (n : Nat) (f : Team → Team) :
    (s.modTeam n f).shared = s.shared := rfl
@[simp] theorem modTeam_keyDoms (n : Nat) (f : Team → Team) :
    (s.modTeam n f).keyDoms = s.keyDoms := rfl
@[simp] theorem modTeam_keySlots (n : Nat) (f : Team → Team) :
    (s.modTeam n f).keySlots = s.keySlots := rfl
@[simp] theorem modTeam_fences (n : Nat) (f : Team → Team) :
    (s.modTeam n f).fences = s.fences := rfl
@[simp] theorem modTeam_crossings (n : Nat) (f : Team → Team) :
    (s.modTeam n f).crossings = s.crossings := rfl
@[simp] theorem modTeam_heldRel (n : Nat) (f : Team → Team) :
    (s.modTeam n f).heldRel = s.heldRel := rfl
@[simp] theorem modTeam_linksDown (n : Nat) (f : Team → Team) :
    (s.modTeam n f).linksDown = s.linksDown := rfl
@[simp] theorem modTeam_replayed (n : Nat) (f : Team → Team) :
    (s.modTeam n f).replayed = s.replayed := rfl
@[simp] theorem modTeam_ports (n : Nat) (f : Team → Team) :
    (s.modTeam n f).ports = s.ports := rfl
@[simp] theorem modTeam_functions (n : Nat) (f : Team → Team) :
    (s.modTeam n f).functions = s.functions := rfl
@[simp] theorem modTeam_encoders (n : Nat) (f : Team → Team) :
    (s.modTeam n f).encoders = s.encoders := rfl
@[simp] theorem modTeam_islands (n : Nat) (f : Team → Team) :
    (s.modTeam n f).islands = s.islands := rfl
@[simp] theorem modTeam_profile (n : Nat) (f : Team → Team) :
    (s.modTeam n f).profile = s.profile := rfl
@[simp] theorem modTeam_mergeN (n : Nat) (f : Team → Team) :
    (s.modTeam n f).mergeN = s.mergeN := rfl
@[simp] theorem modTeam_forkPolicy (n : Nat) (f : Team → Team) :
    (s.modTeam n f).forkPolicy = s.forkPolicy := rfl
@[simp] theorem modTeam_mrs (n : Nat) (f : Team → Team) :
    (s.modTeam n f).mrs = s.mrs := rfl
@[simp] theorem modTeam_ring (n : Nat) (f : Team → Team) :
    (s.modTeam n f).ring = s.ring := rfl
@[simp] theorem modTeam_boot (n : Nat) (f : Team → Team) :
    (s.modTeam n f).boot = s.boot := rfl
@[simp] theorem modTeam_fwStarts (n : Nat) (f : Team → Team) :
    (s.modTeam n f).fwStarts = s.fwStarts := rfl
@[simp] theorem modTeam_fuses (n : Nat) (f : Team → Team) :
    (s.modTeam n f).fuses = s.fuses := rfl
@[simp] theorem modTeam_laters (n : Nat) (f : Team → Team) :
    (s.modTeam n f).laters = s.laters := rfl
@[simp] theorem modTeam_hot (n : Nat) (f : Team → Team) :
    (s.modTeam n f).hot = s.hot := rfl

/-! ### `modCluster` -/

@[simp] theorem modCluster_clock (n : Nat) (f : Cluster → Cluster) :
    (s.modCluster n f).clock = s.clock := rfl
@[simp] theorem modCluster_free (n : Nat) (f : Cluster → Cluster) :
    (s.modCluster n f).free = s.free := rfl
@[simp] theorem modCluster_agenda (n : Nat) (f : Cluster → Cluster) :
    (s.modCluster n f).agenda = s.agenda := rfl
@[simp] theorem modCluster_inputs (n : Nat) (f : Cluster → Cluster) :
    (s.modCluster n f).inputs = s.inputs := rfl
@[simp] theorem modCluster_upsets (n : Nat) (f : Cluster → Cluster) :
    (s.modCluster n f).upsets = s.upsets := rfl
@[simp] theorem modCluster_issuer (n : Nat) (f : Cluster → Cluster) :
    (s.modCluster n f).issuer = s.issuer := rfl
@[simp] theorem modCluster_seqIssuer (n : Nat) (f : Cluster → Cluster) :
    (s.modCluster n f).seqIssuer = s.seqIssuer := rfl
@[simp] theorem modCluster_fresh (n : Nat) (f : Cluster → Cluster) :
    (s.modCluster n f).fresh = s.fresh := rfl
@[simp] theorem modCluster_groups (n : Nat) (f : Cluster → Cluster) :
    (s.modCluster n f).groups = s.groups := rfl
@[simp] theorem modCluster_teams (n : Nat) (f : Cluster → Cluster) :
    (s.modCluster n f).teams = s.teams := rfl
@[simp] theorem modCluster_clusters (n : Nat) (f : Cluster → Cluster) :
    (s.modCluster n f).clusters = tadj s.clusters n f := rfl
@[simp] theorem modCluster_grids (n : Nat) (f : Cluster → Cluster) :
    (s.modCluster n f).grids = s.grids := rfl
@[simp] theorem modCluster_fronts (n : Nat) (f : Cluster → Cluster) :
    (s.modCluster n f).fronts = s.fronts := rfl
@[simp] theorem modCluster_cores (n : Nat) (f : Cluster → Cluster) :
    (s.modCluster n f).cores = s.cores := rfl
@[simp] theorem modCluster_ctxs (n : Nat) (f : Cluster → Cluster) :
    (s.modCluster n f).ctxs = s.ctxs := rfl
@[simp] theorem modCluster_pends (n : Nat) (f : Cluster → Cluster) :
    (s.modCluster n f).pends = s.pends := rfl
@[simp] theorem modCluster_stores (n : Nat) (f : Cluster → Cluster) :
    (s.modCluster n f).stores = s.stores := rfl
@[simp] theorem modCluster_mem (n : Nat) (f : Cluster → Cluster) :
    (s.modCluster n f).mem = s.mem := rfl
@[simp] theorem modCluster_memBad (n : Nat) (f : Cluster → Cluster) :
    (s.modCluster n f).memBad = s.memBad := rfl
@[simp] theorem modCluster_crcBad (n : Nat) (f : Cluster → Cluster) :
    (s.modCluster n f).crcBad = s.crcBad := rfl
@[simp] theorem modCluster_hostMem (n : Nat) (f : Cluster → Cluster) :
    (s.modCluster n f).hostMem = s.hostMem := rfl
@[simp] theorem modCluster_fwMem (n : Nat) (f : Cluster → Cluster) :
    (s.modCluster n f).fwMem = s.fwMem := rfl
@[simp] theorem modCluster_callA0 (n : Nat) (f : Cluster → Cluster) :
    (s.modCluster n f).callA0 = s.callA0 := rfl
@[simp] theorem modCluster_callA1 (n : Nat) (f : Cluster → Cluster) :
    (s.modCluster n f).callA1 = s.callA1 := rfl
@[simp] theorem modCluster_mailbox (n : Nat) (f : Cluster → Cluster) :
    (s.modCluster n f).mailbox = s.mailbox := rfl
@[simp] theorem modCluster_reply (n : Nat) (f : Cluster → Cluster) :
    (s.modCluster n f).reply = s.reply := rfl
@[simp] theorem modCluster_backing (n : Nat) (f : Cluster → Cluster) :
    (s.modCluster n f).backing = s.backing := rfl
@[simp] theorem modCluster_backingBad (n : Nat) (f : Cluster → Cluster) :
    (s.modCluster n f).backingBad = s.backingBad := rfl
@[simp] theorem modCluster_portTable (n : Nat) (f : Cluster → Cluster) :
    (s.modCluster n f).portTable = s.portTable := rfl
@[simp] theorem modCluster_foreign (n : Nat) (f : Cluster → Cluster) :
    (s.modCluster n f).foreign = s.foreign := rfl
@[simp] theorem modCluster_tags (n : Nat) (f : Cluster → Cluster) :
    (s.modCluster n f).tags = s.tags := rfl
@[simp] theorem modCluster_frames (n : Nat) (f : Cluster → Cluster) :
    (s.modCluster n f).frames = s.frames := rfl
@[simp] theorem modCluster_shared (n : Nat) (f : Cluster → Cluster) :
    (s.modCluster n f).shared = s.shared := rfl
@[simp] theorem modCluster_keyDoms (n : Nat) (f : Cluster → Cluster) :
    (s.modCluster n f).keyDoms = s.keyDoms := rfl
@[simp] theorem modCluster_keySlots (n : Nat) (f : Cluster → Cluster) :
    (s.modCluster n f).keySlots = s.keySlots := rfl
@[simp] theorem modCluster_fences (n : Nat) (f : Cluster → Cluster) :
    (s.modCluster n f).fences = s.fences := rfl
@[simp] theorem modCluster_crossings (n : Nat) (f : Cluster → Cluster) :
    (s.modCluster n f).crossings = s.crossings := rfl
@[simp] theorem modCluster_heldRel (n : Nat) (f : Cluster → Cluster) :
    (s.modCluster n f).heldRel = s.heldRel := rfl
@[simp] theorem modCluster_linksDown (n : Nat) (f : Cluster → Cluster) :
    (s.modCluster n f).linksDown = s.linksDown := rfl
@[simp] theorem modCluster_replayed (n : Nat) (f : Cluster → Cluster) :
    (s.modCluster n f).replayed = s.replayed := rfl
@[simp] theorem modCluster_ports (n : Nat) (f : Cluster → Cluster) :
    (s.modCluster n f).ports = s.ports := rfl
@[simp] theorem modCluster_functions (n : Nat) (f : Cluster → Cluster) :
    (s.modCluster n f).functions = s.functions := rfl
@[simp] theorem modCluster_encoders (n : Nat) (f : Cluster → Cluster) :
    (s.modCluster n f).encoders = s.encoders := rfl
@[simp] theorem modCluster_islands (n : Nat) (f : Cluster → Cluster) :
    (s.modCluster n f).islands = s.islands := rfl
@[simp] theorem modCluster_profile (n : Nat) (f : Cluster → Cluster) :
    (s.modCluster n f).profile = s.profile := rfl
@[simp] theorem modCluster_mergeN (n : Nat) (f : Cluster → Cluster) :
    (s.modCluster n f).mergeN = s.mergeN := rfl
@[simp] theorem modCluster_forkPolicy (n : Nat) (f : Cluster → Cluster) :
    (s.modCluster n f).forkPolicy = s.forkPolicy := rfl
@[simp] theorem modCluster_mrs (n : Nat) (f : Cluster → Cluster) :
    (s.modCluster n f).mrs = s.mrs := rfl
@[simp] theorem modCluster_ring (n : Nat) (f : Cluster → Cluster) :
    (s.modCluster n f).ring = s.ring := rfl
@[simp] theorem modCluster_boot (n : Nat) (f : Cluster → Cluster) :
    (s.modCluster n f).boot = s.boot := rfl
@[simp] theorem modCluster_fwStarts (n : Nat) (f : Cluster → Cluster) :
    (s.modCluster n f).fwStarts = s.fwStarts := rfl
@[simp] theorem modCluster_fuses (n : Nat) (f : Cluster → Cluster) :
    (s.modCluster n f).fuses = s.fuses := rfl
@[simp] theorem modCluster_laters (n : Nat) (f : Cluster → Cluster) :
    (s.modCluster n f).laters = s.laters := rfl
@[simp] theorem modCluster_hot (n : Nat) (f : Cluster → Cluster) :
    (s.modCluster n f).hot = s.hot := rfl

/-! ### `modGrid` -/

@[simp] theorem modGrid_clock (n : Nat) (f : Grid → Grid) :
    (s.modGrid n f).clock = s.clock := rfl
@[simp] theorem modGrid_free (n : Nat) (f : Grid → Grid) :
    (s.modGrid n f).free = s.free := rfl
@[simp] theorem modGrid_agenda (n : Nat) (f : Grid → Grid) :
    (s.modGrid n f).agenda = s.agenda := rfl
@[simp] theorem modGrid_inputs (n : Nat) (f : Grid → Grid) :
    (s.modGrid n f).inputs = s.inputs := rfl
@[simp] theorem modGrid_upsets (n : Nat) (f : Grid → Grid) :
    (s.modGrid n f).upsets = s.upsets := rfl
@[simp] theorem modGrid_issuer (n : Nat) (f : Grid → Grid) :
    (s.modGrid n f).issuer = s.issuer := rfl
@[simp] theorem modGrid_seqIssuer (n : Nat) (f : Grid → Grid) :
    (s.modGrid n f).seqIssuer = s.seqIssuer := rfl
@[simp] theorem modGrid_fresh (n : Nat) (f : Grid → Grid) :
    (s.modGrid n f).fresh = s.fresh := rfl
@[simp] theorem modGrid_groups (n : Nat) (f : Grid → Grid) :
    (s.modGrid n f).groups = s.groups := rfl
@[simp] theorem modGrid_teams (n : Nat) (f : Grid → Grid) :
    (s.modGrid n f).teams = s.teams := rfl
@[simp] theorem modGrid_clusters (n : Nat) (f : Grid → Grid) :
    (s.modGrid n f).clusters = s.clusters := rfl
@[simp] theorem modGrid_grids (n : Nat) (f : Grid → Grid) :
    (s.modGrid n f).grids = tadj s.grids n f := rfl
@[simp] theorem modGrid_fronts (n : Nat) (f : Grid → Grid) :
    (s.modGrid n f).fronts = s.fronts := rfl
@[simp] theorem modGrid_cores (n : Nat) (f : Grid → Grid) :
    (s.modGrid n f).cores = s.cores := rfl
@[simp] theorem modGrid_ctxs (n : Nat) (f : Grid → Grid) :
    (s.modGrid n f).ctxs = s.ctxs := rfl
@[simp] theorem modGrid_pends (n : Nat) (f : Grid → Grid) :
    (s.modGrid n f).pends = s.pends := rfl
@[simp] theorem modGrid_stores (n : Nat) (f : Grid → Grid) :
    (s.modGrid n f).stores = s.stores := rfl
@[simp] theorem modGrid_mem (n : Nat) (f : Grid → Grid) :
    (s.modGrid n f).mem = s.mem := rfl
@[simp] theorem modGrid_memBad (n : Nat) (f : Grid → Grid) :
    (s.modGrid n f).memBad = s.memBad := rfl
@[simp] theorem modGrid_crcBad (n : Nat) (f : Grid → Grid) :
    (s.modGrid n f).crcBad = s.crcBad := rfl
@[simp] theorem modGrid_hostMem (n : Nat) (f : Grid → Grid) :
    (s.modGrid n f).hostMem = s.hostMem := rfl
@[simp] theorem modGrid_fwMem (n : Nat) (f : Grid → Grid) :
    (s.modGrid n f).fwMem = s.fwMem := rfl
@[simp] theorem modGrid_callA0 (n : Nat) (f : Grid → Grid) :
    (s.modGrid n f).callA0 = s.callA0 := rfl
@[simp] theorem modGrid_callA1 (n : Nat) (f : Grid → Grid) :
    (s.modGrid n f).callA1 = s.callA1 := rfl
@[simp] theorem modGrid_mailbox (n : Nat) (f : Grid → Grid) :
    (s.modGrid n f).mailbox = s.mailbox := rfl
@[simp] theorem modGrid_reply (n : Nat) (f : Grid → Grid) :
    (s.modGrid n f).reply = s.reply := rfl
@[simp] theorem modGrid_backing (n : Nat) (f : Grid → Grid) :
    (s.modGrid n f).backing = s.backing := rfl
@[simp] theorem modGrid_backingBad (n : Nat) (f : Grid → Grid) :
    (s.modGrid n f).backingBad = s.backingBad := rfl
@[simp] theorem modGrid_portTable (n : Nat) (f : Grid → Grid) :
    (s.modGrid n f).portTable = s.portTable := rfl
@[simp] theorem modGrid_foreign (n : Nat) (f : Grid → Grid) :
    (s.modGrid n f).foreign = s.foreign := rfl
@[simp] theorem modGrid_tags (n : Nat) (f : Grid → Grid) :
    (s.modGrid n f).tags = s.tags := rfl
@[simp] theorem modGrid_frames (n : Nat) (f : Grid → Grid) :
    (s.modGrid n f).frames = s.frames := rfl
@[simp] theorem modGrid_shared (n : Nat) (f : Grid → Grid) :
    (s.modGrid n f).shared = s.shared := rfl
@[simp] theorem modGrid_keyDoms (n : Nat) (f : Grid → Grid) :
    (s.modGrid n f).keyDoms = s.keyDoms := rfl
@[simp] theorem modGrid_keySlots (n : Nat) (f : Grid → Grid) :
    (s.modGrid n f).keySlots = s.keySlots := rfl
@[simp] theorem modGrid_fences (n : Nat) (f : Grid → Grid) :
    (s.modGrid n f).fences = s.fences := rfl
@[simp] theorem modGrid_crossings (n : Nat) (f : Grid → Grid) :
    (s.modGrid n f).crossings = s.crossings := rfl
@[simp] theorem modGrid_heldRel (n : Nat) (f : Grid → Grid) :
    (s.modGrid n f).heldRel = s.heldRel := rfl
@[simp] theorem modGrid_linksDown (n : Nat) (f : Grid → Grid) :
    (s.modGrid n f).linksDown = s.linksDown := rfl
@[simp] theorem modGrid_replayed (n : Nat) (f : Grid → Grid) :
    (s.modGrid n f).replayed = s.replayed := rfl
@[simp] theorem modGrid_ports (n : Nat) (f : Grid → Grid) :
    (s.modGrid n f).ports = s.ports := rfl
@[simp] theorem modGrid_functions (n : Nat) (f : Grid → Grid) :
    (s.modGrid n f).functions = s.functions := rfl
@[simp] theorem modGrid_encoders (n : Nat) (f : Grid → Grid) :
    (s.modGrid n f).encoders = s.encoders := rfl
@[simp] theorem modGrid_islands (n : Nat) (f : Grid → Grid) :
    (s.modGrid n f).islands = s.islands := rfl
@[simp] theorem modGrid_profile (n : Nat) (f : Grid → Grid) :
    (s.modGrid n f).profile = s.profile := rfl
@[simp] theorem modGrid_mergeN (n : Nat) (f : Grid → Grid) :
    (s.modGrid n f).mergeN = s.mergeN := rfl
@[simp] theorem modGrid_forkPolicy (n : Nat) (f : Grid → Grid) :
    (s.modGrid n f).forkPolicy = s.forkPolicy := rfl
@[simp] theorem modGrid_mrs (n : Nat) (f : Grid → Grid) :
    (s.modGrid n f).mrs = s.mrs := rfl
@[simp] theorem modGrid_ring (n : Nat) (f : Grid → Grid) :
    (s.modGrid n f).ring = s.ring := rfl
@[simp] theorem modGrid_boot (n : Nat) (f : Grid → Grid) :
    (s.modGrid n f).boot = s.boot := rfl
@[simp] theorem modGrid_fwStarts (n : Nat) (f : Grid → Grid) :
    (s.modGrid n f).fwStarts = s.fwStarts := rfl
@[simp] theorem modGrid_fuses (n : Nat) (f : Grid → Grid) :
    (s.modGrid n f).fuses = s.fuses := rfl
@[simp] theorem modGrid_laters (n : Nat) (f : Grid → Grid) :
    (s.modGrid n f).laters = s.laters := rfl
@[simp] theorem modGrid_hot (n : Nat) (f : Grid → Grid) :
    (s.modGrid n f).hot = s.hot := rfl

/-! ### `modCtx` -/

@[simp] theorem modCtx_clock (n : Nat) (f : Context → Context) :
    (s.modCtx n f).clock = s.clock := rfl
@[simp] theorem modCtx_free (n : Nat) (f : Context → Context) :
    (s.modCtx n f).free = s.free := rfl
@[simp] theorem modCtx_agenda (n : Nat) (f : Context → Context) :
    (s.modCtx n f).agenda = s.agenda := rfl
@[simp] theorem modCtx_inputs (n : Nat) (f : Context → Context) :
    (s.modCtx n f).inputs = s.inputs := rfl
@[simp] theorem modCtx_upsets (n : Nat) (f : Context → Context) :
    (s.modCtx n f).upsets = s.upsets := rfl
@[simp] theorem modCtx_issuer (n : Nat) (f : Context → Context) :
    (s.modCtx n f).issuer = s.issuer := rfl
@[simp] theorem modCtx_seqIssuer (n : Nat) (f : Context → Context) :
    (s.modCtx n f).seqIssuer = s.seqIssuer := rfl
@[simp] theorem modCtx_fresh (n : Nat) (f : Context → Context) :
    (s.modCtx n f).fresh = s.fresh := rfl
@[simp] theorem modCtx_groups (n : Nat) (f : Context → Context) :
    (s.modCtx n f).groups = s.groups := rfl
@[simp] theorem modCtx_teams (n : Nat) (f : Context → Context) :
    (s.modCtx n f).teams = s.teams := rfl
@[simp] theorem modCtx_clusters (n : Nat) (f : Context → Context) :
    (s.modCtx n f).clusters = s.clusters := rfl
@[simp] theorem modCtx_grids (n : Nat) (f : Context → Context) :
    (s.modCtx n f).grids = s.grids := rfl
@[simp] theorem modCtx_fronts (n : Nat) (f : Context → Context) :
    (s.modCtx n f).fronts = s.fronts := rfl
@[simp] theorem modCtx_cores (n : Nat) (f : Context → Context) :
    (s.modCtx n f).cores = s.cores := rfl
@[simp] theorem modCtx_ctxs (n : Nat) (f : Context → Context) :
    (s.modCtx n f).ctxs = tadj s.ctxs n f := rfl
@[simp] theorem modCtx_pends (n : Nat) (f : Context → Context) :
    (s.modCtx n f).pends = s.pends := rfl
@[simp] theorem modCtx_stores (n : Nat) (f : Context → Context) :
    (s.modCtx n f).stores = s.stores := rfl
@[simp] theorem modCtx_mem (n : Nat) (f : Context → Context) :
    (s.modCtx n f).mem = s.mem := rfl
@[simp] theorem modCtx_memBad (n : Nat) (f : Context → Context) :
    (s.modCtx n f).memBad = s.memBad := rfl
@[simp] theorem modCtx_crcBad (n : Nat) (f : Context → Context) :
    (s.modCtx n f).crcBad = s.crcBad := rfl
@[simp] theorem modCtx_hostMem (n : Nat) (f : Context → Context) :
    (s.modCtx n f).hostMem = s.hostMem := rfl
@[simp] theorem modCtx_fwMem (n : Nat) (f : Context → Context) :
    (s.modCtx n f).fwMem = s.fwMem := rfl
@[simp] theorem modCtx_callA0 (n : Nat) (f : Context → Context) :
    (s.modCtx n f).callA0 = s.callA0 := rfl
@[simp] theorem modCtx_callA1 (n : Nat) (f : Context → Context) :
    (s.modCtx n f).callA1 = s.callA1 := rfl
@[simp] theorem modCtx_mailbox (n : Nat) (f : Context → Context) :
    (s.modCtx n f).mailbox = s.mailbox := rfl
@[simp] theorem modCtx_reply (n : Nat) (f : Context → Context) :
    (s.modCtx n f).reply = s.reply := rfl
@[simp] theorem modCtx_backing (n : Nat) (f : Context → Context) :
    (s.modCtx n f).backing = s.backing := rfl
@[simp] theorem modCtx_backingBad (n : Nat) (f : Context → Context) :
    (s.modCtx n f).backingBad = s.backingBad := rfl
@[simp] theorem modCtx_portTable (n : Nat) (f : Context → Context) :
    (s.modCtx n f).portTable = s.portTable := rfl
@[simp] theorem modCtx_foreign (n : Nat) (f : Context → Context) :
    (s.modCtx n f).foreign = s.foreign := rfl
@[simp] theorem modCtx_tags (n : Nat) (f : Context → Context) :
    (s.modCtx n f).tags = s.tags := rfl
@[simp] theorem modCtx_frames (n : Nat) (f : Context → Context) :
    (s.modCtx n f).frames = s.frames := rfl
@[simp] theorem modCtx_shared (n : Nat) (f : Context → Context) :
    (s.modCtx n f).shared = s.shared := rfl
@[simp] theorem modCtx_keyDoms (n : Nat) (f : Context → Context) :
    (s.modCtx n f).keyDoms = s.keyDoms := rfl
@[simp] theorem modCtx_keySlots (n : Nat) (f : Context → Context) :
    (s.modCtx n f).keySlots = s.keySlots := rfl
@[simp] theorem modCtx_fences (n : Nat) (f : Context → Context) :
    (s.modCtx n f).fences = s.fences := rfl
@[simp] theorem modCtx_crossings (n : Nat) (f : Context → Context) :
    (s.modCtx n f).crossings = s.crossings := rfl
@[simp] theorem modCtx_heldRel (n : Nat) (f : Context → Context) :
    (s.modCtx n f).heldRel = s.heldRel := rfl
@[simp] theorem modCtx_linksDown (n : Nat) (f : Context → Context) :
    (s.modCtx n f).linksDown = s.linksDown := rfl
@[simp] theorem modCtx_replayed (n : Nat) (f : Context → Context) :
    (s.modCtx n f).replayed = s.replayed := rfl
@[simp] theorem modCtx_ports (n : Nat) (f : Context → Context) :
    (s.modCtx n f).ports = s.ports := rfl
@[simp] theorem modCtx_functions (n : Nat) (f : Context → Context) :
    (s.modCtx n f).functions = s.functions := rfl
@[simp] theorem modCtx_encoders (n : Nat) (f : Context → Context) :
    (s.modCtx n f).encoders = s.encoders := rfl
@[simp] theorem modCtx_islands (n : Nat) (f : Context → Context) :
    (s.modCtx n f).islands = s.islands := rfl
@[simp] theorem modCtx_profile (n : Nat) (f : Context → Context) :
    (s.modCtx n f).profile = s.profile := rfl
@[simp] theorem modCtx_mergeN (n : Nat) (f : Context → Context) :
    (s.modCtx n f).mergeN = s.mergeN := rfl
@[simp] theorem modCtx_forkPolicy (n : Nat) (f : Context → Context) :
    (s.modCtx n f).forkPolicy = s.forkPolicy := rfl
@[simp] theorem modCtx_mrs (n : Nat) (f : Context → Context) :
    (s.modCtx n f).mrs = s.mrs := rfl
@[simp] theorem modCtx_ring (n : Nat) (f : Context → Context) :
    (s.modCtx n f).ring = s.ring := rfl
@[simp] theorem modCtx_boot (n : Nat) (f : Context → Context) :
    (s.modCtx n f).boot = s.boot := rfl
@[simp] theorem modCtx_fwStarts (n : Nat) (f : Context → Context) :
    (s.modCtx n f).fwStarts = s.fwStarts := rfl
@[simp] theorem modCtx_fuses (n : Nat) (f : Context → Context) :
    (s.modCtx n f).fuses = s.fuses := rfl
@[simp] theorem modCtx_laters (n : Nat) (f : Context → Context) :
    (s.modCtx n f).laters = s.laters := rfl
@[simp] theorem modCtx_hot (n : Nat) (f : Context → Context) :
    (s.modCtx n f).hot = s.hot := rfl

/-! ### `setFunction` -/

@[simp] theorem setFunction_clock (n : Nat) (x : Function) :
    (s.setFunction n x).clock = s.clock := rfl
@[simp] theorem setFunction_free (n : Nat) (x : Function) :
    (s.setFunction n x).free = s.free := rfl
@[simp] theorem setFunction_agenda (n : Nat) (x : Function) :
    (s.setFunction n x).agenda = s.agenda := rfl
@[simp] theorem setFunction_inputs (n : Nat) (x : Function) :
    (s.setFunction n x).inputs = s.inputs := rfl
@[simp] theorem setFunction_upsets (n : Nat) (x : Function) :
    (s.setFunction n x).upsets = s.upsets := rfl
@[simp] theorem setFunction_issuer (n : Nat) (x : Function) :
    (s.setFunction n x).issuer = s.issuer := rfl
@[simp] theorem setFunction_seqIssuer (n : Nat) (x : Function) :
    (s.setFunction n x).seqIssuer = s.seqIssuer := rfl
@[simp] theorem setFunction_fresh (n : Nat) (x : Function) :
    (s.setFunction n x).fresh = s.fresh := rfl
@[simp] theorem setFunction_groups (n : Nat) (x : Function) :
    (s.setFunction n x).groups = s.groups := rfl
@[simp] theorem setFunction_teams (n : Nat) (x : Function) :
    (s.setFunction n x).teams = s.teams := rfl
@[simp] theorem setFunction_clusters (n : Nat) (x : Function) :
    (s.setFunction n x).clusters = s.clusters := rfl
@[simp] theorem setFunction_grids (n : Nat) (x : Function) :
    (s.setFunction n x).grids = s.grids := rfl
@[simp] theorem setFunction_fronts (n : Nat) (x : Function) :
    (s.setFunction n x).fronts = s.fronts := rfl
@[simp] theorem setFunction_cores (n : Nat) (x : Function) :
    (s.setFunction n x).cores = s.cores := rfl
@[simp] theorem setFunction_ctxs (n : Nat) (x : Function) :
    (s.setFunction n x).ctxs = s.ctxs := rfl
@[simp] theorem setFunction_pends (n : Nat) (x : Function) :
    (s.setFunction n x).pends = s.pends := rfl
@[simp] theorem setFunction_stores (n : Nat) (x : Function) :
    (s.setFunction n x).stores = s.stores := rfl
@[simp] theorem setFunction_mem (n : Nat) (x : Function) :
    (s.setFunction n x).mem = s.mem := rfl
@[simp] theorem setFunction_memBad (n : Nat) (x : Function) :
    (s.setFunction n x).memBad = s.memBad := rfl
@[simp] theorem setFunction_crcBad (n : Nat) (x : Function) :
    (s.setFunction n x).crcBad = s.crcBad := rfl
@[simp] theorem setFunction_hostMem (n : Nat) (x : Function) :
    (s.setFunction n x).hostMem = s.hostMem := rfl
@[simp] theorem setFunction_fwMem (n : Nat) (x : Function) :
    (s.setFunction n x).fwMem = s.fwMem := rfl
@[simp] theorem setFunction_callA0 (n : Nat) (x : Function) :
    (s.setFunction n x).callA0 = s.callA0 := rfl
@[simp] theorem setFunction_callA1 (n : Nat) (x : Function) :
    (s.setFunction n x).callA1 = s.callA1 := rfl
@[simp] theorem setFunction_mailbox (n : Nat) (x : Function) :
    (s.setFunction n x).mailbox = s.mailbox := rfl
@[simp] theorem setFunction_reply (n : Nat) (x : Function) :
    (s.setFunction n x).reply = s.reply := rfl
@[simp] theorem setFunction_backing (n : Nat) (x : Function) :
    (s.setFunction n x).backing = s.backing := rfl
@[simp] theorem setFunction_backingBad (n : Nat) (x : Function) :
    (s.setFunction n x).backingBad = s.backingBad := rfl
@[simp] theorem setFunction_portTable (n : Nat) (x : Function) :
    (s.setFunction n x).portTable = s.portTable := rfl
@[simp] theorem setFunction_foreign (n : Nat) (x : Function) :
    (s.setFunction n x).foreign = s.foreign := rfl
@[simp] theorem setFunction_tags (n : Nat) (x : Function) :
    (s.setFunction n x).tags = s.tags := rfl
@[simp] theorem setFunction_frames (n : Nat) (x : Function) :
    (s.setFunction n x).frames = s.frames := rfl
@[simp] theorem setFunction_shared (n : Nat) (x : Function) :
    (s.setFunction n x).shared = s.shared := rfl
@[simp] theorem setFunction_keyDoms (n : Nat) (x : Function) :
    (s.setFunction n x).keyDoms = s.keyDoms := rfl
@[simp] theorem setFunction_keySlots (n : Nat) (x : Function) :
    (s.setFunction n x).keySlots = s.keySlots := rfl
@[simp] theorem setFunction_fences (n : Nat) (x : Function) :
    (s.setFunction n x).fences = s.fences := rfl
@[simp] theorem setFunction_crossings (n : Nat) (x : Function) :
    (s.setFunction n x).crossings = s.crossings := rfl
@[simp] theorem setFunction_heldRel (n : Nat) (x : Function) :
    (s.setFunction n x).heldRel = s.heldRel := rfl
@[simp] theorem setFunction_linksDown (n : Nat) (x : Function) :
    (s.setFunction n x).linksDown = s.linksDown := rfl
@[simp] theorem setFunction_replayed (n : Nat) (x : Function) :
    (s.setFunction n x).replayed = s.replayed := rfl
@[simp] theorem setFunction_ports (n : Nat) (x : Function) :
    (s.setFunction n x).ports = s.ports := rfl
@[simp] theorem setFunction_functions (n : Nat) (x : Function) :
    (s.setFunction n x).functions = tput {} s.functions n x := rfl
@[simp] theorem setFunction_encoders (n : Nat) (x : Function) :
    (s.setFunction n x).encoders = s.encoders := rfl
@[simp] theorem setFunction_islands (n : Nat) (x : Function) :
    (s.setFunction n x).islands = s.islands := rfl
@[simp] theorem setFunction_profile (n : Nat) (x : Function) :
    (s.setFunction n x).profile = s.profile := rfl
@[simp] theorem setFunction_mergeN (n : Nat) (x : Function) :
    (s.setFunction n x).mergeN = s.mergeN := rfl
@[simp] theorem setFunction_forkPolicy (n : Nat) (x : Function) :
    (s.setFunction n x).forkPolicy = s.forkPolicy := rfl
@[simp] theorem setFunction_mrs (n : Nat) (x : Function) :
    (s.setFunction n x).mrs = s.mrs := rfl
@[simp] theorem setFunction_ring (n : Nat) (x : Function) :
    (s.setFunction n x).ring = s.ring := rfl
@[simp] theorem setFunction_boot (n : Nat) (x : Function) :
    (s.setFunction n x).boot = s.boot := rfl
@[simp] theorem setFunction_fwStarts (n : Nat) (x : Function) :
    (s.setFunction n x).fwStarts = s.fwStarts := rfl
@[simp] theorem setFunction_fuses (n : Nat) (x : Function) :
    (s.setFunction n x).fuses = s.fuses := rfl
@[simp] theorem setFunction_laters (n : Nat) (x : Function) :
    (s.setFunction n x).laters = s.laters := rfl
@[simp] theorem setFunction_hot (n : Nat) (x : Function) :
    (s.setFunction n x).hot = s.hot := rfl

/-! ### `setEncoder` -/

@[simp] theorem setEncoder_clock (n : Nat) (x : Encoder) :
    (s.setEncoder n x).clock = s.clock := rfl
@[simp] theorem setEncoder_free (n : Nat) (x : Encoder) :
    (s.setEncoder n x).free = s.free := rfl
@[simp] theorem setEncoder_agenda (n : Nat) (x : Encoder) :
    (s.setEncoder n x).agenda = s.agenda := rfl
@[simp] theorem setEncoder_inputs (n : Nat) (x : Encoder) :
    (s.setEncoder n x).inputs = s.inputs := rfl
@[simp] theorem setEncoder_upsets (n : Nat) (x : Encoder) :
    (s.setEncoder n x).upsets = s.upsets := rfl
@[simp] theorem setEncoder_issuer (n : Nat) (x : Encoder) :
    (s.setEncoder n x).issuer = s.issuer := rfl
@[simp] theorem setEncoder_seqIssuer (n : Nat) (x : Encoder) :
    (s.setEncoder n x).seqIssuer = s.seqIssuer := rfl
@[simp] theorem setEncoder_fresh (n : Nat) (x : Encoder) :
    (s.setEncoder n x).fresh = s.fresh := rfl
@[simp] theorem setEncoder_groups (n : Nat) (x : Encoder) :
    (s.setEncoder n x).groups = s.groups := rfl
@[simp] theorem setEncoder_teams (n : Nat) (x : Encoder) :
    (s.setEncoder n x).teams = s.teams := rfl
@[simp] theorem setEncoder_clusters (n : Nat) (x : Encoder) :
    (s.setEncoder n x).clusters = s.clusters := rfl
@[simp] theorem setEncoder_grids (n : Nat) (x : Encoder) :
    (s.setEncoder n x).grids = s.grids := rfl
@[simp] theorem setEncoder_fronts (n : Nat) (x : Encoder) :
    (s.setEncoder n x).fronts = s.fronts := rfl
@[simp] theorem setEncoder_cores (n : Nat) (x : Encoder) :
    (s.setEncoder n x).cores = s.cores := rfl
@[simp] theorem setEncoder_ctxs (n : Nat) (x : Encoder) :
    (s.setEncoder n x).ctxs = s.ctxs := rfl
@[simp] theorem setEncoder_pends (n : Nat) (x : Encoder) :
    (s.setEncoder n x).pends = s.pends := rfl
@[simp] theorem setEncoder_stores (n : Nat) (x : Encoder) :
    (s.setEncoder n x).stores = s.stores := rfl
@[simp] theorem setEncoder_mem (n : Nat) (x : Encoder) :
    (s.setEncoder n x).mem = s.mem := rfl
@[simp] theorem setEncoder_memBad (n : Nat) (x : Encoder) :
    (s.setEncoder n x).memBad = s.memBad := rfl
@[simp] theorem setEncoder_crcBad (n : Nat) (x : Encoder) :
    (s.setEncoder n x).crcBad = s.crcBad := rfl
@[simp] theorem setEncoder_hostMem (n : Nat) (x : Encoder) :
    (s.setEncoder n x).hostMem = s.hostMem := rfl
@[simp] theorem setEncoder_fwMem (n : Nat) (x : Encoder) :
    (s.setEncoder n x).fwMem = s.fwMem := rfl
@[simp] theorem setEncoder_callA0 (n : Nat) (x : Encoder) :
    (s.setEncoder n x).callA0 = s.callA0 := rfl
@[simp] theorem setEncoder_callA1 (n : Nat) (x : Encoder) :
    (s.setEncoder n x).callA1 = s.callA1 := rfl
@[simp] theorem setEncoder_mailbox (n : Nat) (x : Encoder) :
    (s.setEncoder n x).mailbox = s.mailbox := rfl
@[simp] theorem setEncoder_reply (n : Nat) (x : Encoder) :
    (s.setEncoder n x).reply = s.reply := rfl
@[simp] theorem setEncoder_backing (n : Nat) (x : Encoder) :
    (s.setEncoder n x).backing = s.backing := rfl
@[simp] theorem setEncoder_backingBad (n : Nat) (x : Encoder) :
    (s.setEncoder n x).backingBad = s.backingBad := rfl
@[simp] theorem setEncoder_portTable (n : Nat) (x : Encoder) :
    (s.setEncoder n x).portTable = s.portTable := rfl
@[simp] theorem setEncoder_foreign (n : Nat) (x : Encoder) :
    (s.setEncoder n x).foreign = s.foreign := rfl
@[simp] theorem setEncoder_tags (n : Nat) (x : Encoder) :
    (s.setEncoder n x).tags = s.tags := rfl
@[simp] theorem setEncoder_frames (n : Nat) (x : Encoder) :
    (s.setEncoder n x).frames = s.frames := rfl
@[simp] theorem setEncoder_shared (n : Nat) (x : Encoder) :
    (s.setEncoder n x).shared = s.shared := rfl
@[simp] theorem setEncoder_keyDoms (n : Nat) (x : Encoder) :
    (s.setEncoder n x).keyDoms = s.keyDoms := rfl
@[simp] theorem setEncoder_keySlots (n : Nat) (x : Encoder) :
    (s.setEncoder n x).keySlots = s.keySlots := rfl
@[simp] theorem setEncoder_fences (n : Nat) (x : Encoder) :
    (s.setEncoder n x).fences = s.fences := rfl
@[simp] theorem setEncoder_crossings (n : Nat) (x : Encoder) :
    (s.setEncoder n x).crossings = s.crossings := rfl
@[simp] theorem setEncoder_heldRel (n : Nat) (x : Encoder) :
    (s.setEncoder n x).heldRel = s.heldRel := rfl
@[simp] theorem setEncoder_linksDown (n : Nat) (x : Encoder) :
    (s.setEncoder n x).linksDown = s.linksDown := rfl
@[simp] theorem setEncoder_replayed (n : Nat) (x : Encoder) :
    (s.setEncoder n x).replayed = s.replayed := rfl
@[simp] theorem setEncoder_ports (n : Nat) (x : Encoder) :
    (s.setEncoder n x).ports = s.ports := rfl
@[simp] theorem setEncoder_functions (n : Nat) (x : Encoder) :
    (s.setEncoder n x).functions = s.functions := rfl
@[simp] theorem setEncoder_encoders (n : Nat) (x : Encoder) :
    (s.setEncoder n x).encoders = tput {} s.encoders n x := rfl
@[simp] theorem setEncoder_islands (n : Nat) (x : Encoder) :
    (s.setEncoder n x).islands = s.islands := rfl
@[simp] theorem setEncoder_profile (n : Nat) (x : Encoder) :
    (s.setEncoder n x).profile = s.profile := rfl
@[simp] theorem setEncoder_mergeN (n : Nat) (x : Encoder) :
    (s.setEncoder n x).mergeN = s.mergeN := rfl
@[simp] theorem setEncoder_forkPolicy (n : Nat) (x : Encoder) :
    (s.setEncoder n x).forkPolicy = s.forkPolicy := rfl
@[simp] theorem setEncoder_mrs (n : Nat) (x : Encoder) :
    (s.setEncoder n x).mrs = s.mrs := rfl
@[simp] theorem setEncoder_ring (n : Nat) (x : Encoder) :
    (s.setEncoder n x).ring = s.ring := rfl
@[simp] theorem setEncoder_boot (n : Nat) (x : Encoder) :
    (s.setEncoder n x).boot = s.boot := rfl
@[simp] theorem setEncoder_fwStarts (n : Nat) (x : Encoder) :
    (s.setEncoder n x).fwStarts = s.fwStarts := rfl
@[simp] theorem setEncoder_fuses (n : Nat) (x : Encoder) :
    (s.setEncoder n x).fuses = s.fuses := rfl
@[simp] theorem setEncoder_laters (n : Nat) (x : Encoder) :
    (s.setEncoder n x).laters = s.laters := rfl
@[simp] theorem setEncoder_hot (n : Nat) (x : Encoder) :
    (s.setEncoder n x).hot = s.hot := rfl

/-! ### `setIsland` -/

@[simp] theorem setIsland_clock (n : Nat) (x : Island) :
    (s.setIsland n x).clock = s.clock := rfl
@[simp] theorem setIsland_free (n : Nat) (x : Island) :
    (s.setIsland n x).free = s.free := rfl
@[simp] theorem setIsland_agenda (n : Nat) (x : Island) :
    (s.setIsland n x).agenda = s.agenda := rfl
@[simp] theorem setIsland_inputs (n : Nat) (x : Island) :
    (s.setIsland n x).inputs = s.inputs := rfl
@[simp] theorem setIsland_upsets (n : Nat) (x : Island) :
    (s.setIsland n x).upsets = s.upsets := rfl
@[simp] theorem setIsland_issuer (n : Nat) (x : Island) :
    (s.setIsland n x).issuer = s.issuer := rfl
@[simp] theorem setIsland_seqIssuer (n : Nat) (x : Island) :
    (s.setIsland n x).seqIssuer = s.seqIssuer := rfl
@[simp] theorem setIsland_fresh (n : Nat) (x : Island) :
    (s.setIsland n x).fresh = s.fresh := rfl
@[simp] theorem setIsland_groups (n : Nat) (x : Island) :
    (s.setIsland n x).groups = s.groups := rfl
@[simp] theorem setIsland_teams (n : Nat) (x : Island) :
    (s.setIsland n x).teams = s.teams := rfl
@[simp] theorem setIsland_clusters (n : Nat) (x : Island) :
    (s.setIsland n x).clusters = s.clusters := rfl
@[simp] theorem setIsland_grids (n : Nat) (x : Island) :
    (s.setIsland n x).grids = s.grids := rfl
@[simp] theorem setIsland_fronts (n : Nat) (x : Island) :
    (s.setIsland n x).fronts = s.fronts := rfl
@[simp] theorem setIsland_cores (n : Nat) (x : Island) :
    (s.setIsland n x).cores = s.cores := rfl
@[simp] theorem setIsland_ctxs (n : Nat) (x : Island) :
    (s.setIsland n x).ctxs = s.ctxs := rfl
@[simp] theorem setIsland_pends (n : Nat) (x : Island) :
    (s.setIsland n x).pends = s.pends := rfl
@[simp] theorem setIsland_stores (n : Nat) (x : Island) :
    (s.setIsland n x).stores = s.stores := rfl
@[simp] theorem setIsland_mem (n : Nat) (x : Island) :
    (s.setIsland n x).mem = s.mem := rfl
@[simp] theorem setIsland_memBad (n : Nat) (x : Island) :
    (s.setIsland n x).memBad = s.memBad := rfl
@[simp] theorem setIsland_crcBad (n : Nat) (x : Island) :
    (s.setIsland n x).crcBad = s.crcBad := rfl
@[simp] theorem setIsland_hostMem (n : Nat) (x : Island) :
    (s.setIsland n x).hostMem = s.hostMem := rfl
@[simp] theorem setIsland_fwMem (n : Nat) (x : Island) :
    (s.setIsland n x).fwMem = s.fwMem := rfl
@[simp] theorem setIsland_callA0 (n : Nat) (x : Island) :
    (s.setIsland n x).callA0 = s.callA0 := rfl
@[simp] theorem setIsland_callA1 (n : Nat) (x : Island) :
    (s.setIsland n x).callA1 = s.callA1 := rfl
@[simp] theorem setIsland_mailbox (n : Nat) (x : Island) :
    (s.setIsland n x).mailbox = s.mailbox := rfl
@[simp] theorem setIsland_reply (n : Nat) (x : Island) :
    (s.setIsland n x).reply = s.reply := rfl
@[simp] theorem setIsland_backing (n : Nat) (x : Island) :
    (s.setIsland n x).backing = s.backing := rfl
@[simp] theorem setIsland_backingBad (n : Nat) (x : Island) :
    (s.setIsland n x).backingBad = s.backingBad := rfl
@[simp] theorem setIsland_portTable (n : Nat) (x : Island) :
    (s.setIsland n x).portTable = s.portTable := rfl
@[simp] theorem setIsland_foreign (n : Nat) (x : Island) :
    (s.setIsland n x).foreign = s.foreign := rfl
@[simp] theorem setIsland_tags (n : Nat) (x : Island) :
    (s.setIsland n x).tags = s.tags := rfl
@[simp] theorem setIsland_frames (n : Nat) (x : Island) :
    (s.setIsland n x).frames = s.frames := rfl
@[simp] theorem setIsland_shared (n : Nat) (x : Island) :
    (s.setIsland n x).shared = s.shared := rfl
@[simp] theorem setIsland_keyDoms (n : Nat) (x : Island) :
    (s.setIsland n x).keyDoms = s.keyDoms := rfl
@[simp] theorem setIsland_keySlots (n : Nat) (x : Island) :
    (s.setIsland n x).keySlots = s.keySlots := rfl
@[simp] theorem setIsland_fences (n : Nat) (x : Island) :
    (s.setIsland n x).fences = s.fences := rfl
@[simp] theorem setIsland_crossings (n : Nat) (x : Island) :
    (s.setIsland n x).crossings = s.crossings := rfl
@[simp] theorem setIsland_heldRel (n : Nat) (x : Island) :
    (s.setIsland n x).heldRel = s.heldRel := rfl
@[simp] theorem setIsland_linksDown (n : Nat) (x : Island) :
    (s.setIsland n x).linksDown = s.linksDown := rfl
@[simp] theorem setIsland_replayed (n : Nat) (x : Island) :
    (s.setIsland n x).replayed = s.replayed := rfl
@[simp] theorem setIsland_ports (n : Nat) (x : Island) :
    (s.setIsland n x).ports = s.ports := rfl
@[simp] theorem setIsland_functions (n : Nat) (x : Island) :
    (s.setIsland n x).functions = s.functions := rfl
@[simp] theorem setIsland_encoders (n : Nat) (x : Island) :
    (s.setIsland n x).encoders = s.encoders := rfl
@[simp] theorem setIsland_islands (n : Nat) (x : Island) :
    (s.setIsland n x).islands = tput {} s.islands n x := rfl
@[simp] theorem setIsland_profile (n : Nat) (x : Island) :
    (s.setIsland n x).profile = s.profile := rfl
@[simp] theorem setIsland_mergeN (n : Nat) (x : Island) :
    (s.setIsland n x).mergeN = s.mergeN := rfl
@[simp] theorem setIsland_forkPolicy (n : Nat) (x : Island) :
    (s.setIsland n x).forkPolicy = s.forkPolicy := rfl
@[simp] theorem setIsland_mrs (n : Nat) (x : Island) :
    (s.setIsland n x).mrs = s.mrs := rfl
@[simp] theorem setIsland_ring (n : Nat) (x : Island) :
    (s.setIsland n x).ring = s.ring := rfl
@[simp] theorem setIsland_boot (n : Nat) (x : Island) :
    (s.setIsland n x).boot = s.boot := rfl
@[simp] theorem setIsland_fwStarts (n : Nat) (x : Island) :
    (s.setIsland n x).fwStarts = s.fwStarts := rfl
@[simp] theorem setIsland_fuses (n : Nat) (x : Island) :
    (s.setIsland n x).fuses = s.fuses := rfl
@[simp] theorem setIsland_laters (n : Nat) (x : Island) :
    (s.setIsland n x).laters = s.laters := rfl
@[simp] theorem setIsland_hot (n : Nat) (x : Island) :
    (s.setIsland n x).hot = s.hot := rfl

/-! ### `setPort` -/

@[simp] theorem setPort_clock (n : Nat) (x : Port) :
    (s.setPort n x).clock = s.clock := rfl
@[simp] theorem setPort_free (n : Nat) (x : Port) :
    (s.setPort n x).free = s.free := rfl
@[simp] theorem setPort_agenda (n : Nat) (x : Port) :
    (s.setPort n x).agenda = s.agenda := rfl
@[simp] theorem setPort_inputs (n : Nat) (x : Port) :
    (s.setPort n x).inputs = s.inputs := rfl
@[simp] theorem setPort_upsets (n : Nat) (x : Port) :
    (s.setPort n x).upsets = s.upsets := rfl
@[simp] theorem setPort_issuer (n : Nat) (x : Port) :
    (s.setPort n x).issuer = s.issuer := rfl
@[simp] theorem setPort_seqIssuer (n : Nat) (x : Port) :
    (s.setPort n x).seqIssuer = s.seqIssuer := rfl
@[simp] theorem setPort_fresh (n : Nat) (x : Port) :
    (s.setPort n x).fresh = s.fresh := rfl
@[simp] theorem setPort_groups (n : Nat) (x : Port) :
    (s.setPort n x).groups = s.groups := rfl
@[simp] theorem setPort_teams (n : Nat) (x : Port) :
    (s.setPort n x).teams = s.teams := rfl
@[simp] theorem setPort_clusters (n : Nat) (x : Port) :
    (s.setPort n x).clusters = s.clusters := rfl
@[simp] theorem setPort_grids (n : Nat) (x : Port) :
    (s.setPort n x).grids = s.grids := rfl
@[simp] theorem setPort_fronts (n : Nat) (x : Port) :
    (s.setPort n x).fronts = s.fronts := rfl
@[simp] theorem setPort_cores (n : Nat) (x : Port) :
    (s.setPort n x).cores = s.cores := rfl
@[simp] theorem setPort_ctxs (n : Nat) (x : Port) :
    (s.setPort n x).ctxs = s.ctxs := rfl
@[simp] theorem setPort_pends (n : Nat) (x : Port) :
    (s.setPort n x).pends = s.pends := rfl
@[simp] theorem setPort_stores (n : Nat) (x : Port) :
    (s.setPort n x).stores = s.stores := rfl
@[simp] theorem setPort_mem (n : Nat) (x : Port) :
    (s.setPort n x).mem = s.mem := rfl
@[simp] theorem setPort_memBad (n : Nat) (x : Port) :
    (s.setPort n x).memBad = s.memBad := rfl
@[simp] theorem setPort_crcBad (n : Nat) (x : Port) :
    (s.setPort n x).crcBad = s.crcBad := rfl
@[simp] theorem setPort_hostMem (n : Nat) (x : Port) :
    (s.setPort n x).hostMem = s.hostMem := rfl
@[simp] theorem setPort_fwMem (n : Nat) (x : Port) :
    (s.setPort n x).fwMem = s.fwMem := rfl
@[simp] theorem setPort_callA0 (n : Nat) (x : Port) :
    (s.setPort n x).callA0 = s.callA0 := rfl
@[simp] theorem setPort_callA1 (n : Nat) (x : Port) :
    (s.setPort n x).callA1 = s.callA1 := rfl
@[simp] theorem setPort_mailbox (n : Nat) (x : Port) :
    (s.setPort n x).mailbox = s.mailbox := rfl
@[simp] theorem setPort_reply (n : Nat) (x : Port) :
    (s.setPort n x).reply = s.reply := rfl
@[simp] theorem setPort_backing (n : Nat) (x : Port) :
    (s.setPort n x).backing = s.backing := rfl
@[simp] theorem setPort_backingBad (n : Nat) (x : Port) :
    (s.setPort n x).backingBad = s.backingBad := rfl
@[simp] theorem setPort_portTable (n : Nat) (x : Port) :
    (s.setPort n x).portTable = s.portTable := rfl
@[simp] theorem setPort_foreign (n : Nat) (x : Port) :
    (s.setPort n x).foreign = s.foreign := rfl
@[simp] theorem setPort_tags (n : Nat) (x : Port) :
    (s.setPort n x).tags = s.tags := rfl
@[simp] theorem setPort_frames (n : Nat) (x : Port) :
    (s.setPort n x).frames = s.frames := rfl
@[simp] theorem setPort_shared (n : Nat) (x : Port) :
    (s.setPort n x).shared = s.shared := rfl
@[simp] theorem setPort_keyDoms (n : Nat) (x : Port) :
    (s.setPort n x).keyDoms = s.keyDoms := rfl
@[simp] theorem setPort_keySlots (n : Nat) (x : Port) :
    (s.setPort n x).keySlots = s.keySlots := rfl
@[simp] theorem setPort_fences (n : Nat) (x : Port) :
    (s.setPort n x).fences = s.fences := rfl
@[simp] theorem setPort_crossings (n : Nat) (x : Port) :
    (s.setPort n x).crossings = s.crossings := rfl
@[simp] theorem setPort_heldRel (n : Nat) (x : Port) :
    (s.setPort n x).heldRel = s.heldRel := rfl
@[simp] theorem setPort_linksDown (n : Nat) (x : Port) :
    (s.setPort n x).linksDown = s.linksDown := rfl
@[simp] theorem setPort_replayed (n : Nat) (x : Port) :
    (s.setPort n x).replayed = s.replayed := rfl
@[simp] theorem setPort_ports (n : Nat) (x : Port) :
    (s.setPort n x).ports = tput {} s.ports n x := rfl
@[simp] theorem setPort_functions (n : Nat) (x : Port) :
    (s.setPort n x).functions = s.functions := rfl
@[simp] theorem setPort_encoders (n : Nat) (x : Port) :
    (s.setPort n x).encoders = s.encoders := rfl
@[simp] theorem setPort_islands (n : Nat) (x : Port) :
    (s.setPort n x).islands = s.islands := rfl
@[simp] theorem setPort_profile (n : Nat) (x : Port) :
    (s.setPort n x).profile = s.profile := rfl
@[simp] theorem setPort_mergeN (n : Nat) (x : Port) :
    (s.setPort n x).mergeN = s.mergeN := rfl
@[simp] theorem setPort_forkPolicy (n : Nat) (x : Port) :
    (s.setPort n x).forkPolicy = s.forkPolicy := rfl
@[simp] theorem setPort_mrs (n : Nat) (x : Port) :
    (s.setPort n x).mrs = s.mrs := rfl
@[simp] theorem setPort_ring (n : Nat) (x : Port) :
    (s.setPort n x).ring = s.ring := rfl
@[simp] theorem setPort_boot (n : Nat) (x : Port) :
    (s.setPort n x).boot = s.boot := rfl
@[simp] theorem setPort_fwStarts (n : Nat) (x : Port) :
    (s.setPort n x).fwStarts = s.fwStarts := rfl
@[simp] theorem setPort_fuses (n : Nat) (x : Port) :
    (s.setPort n x).fuses = s.fuses := rfl
@[simp] theorem setPort_laters (n : Nat) (x : Port) :
    (s.setPort n x).laters = s.laters := rfl
@[simp] theorem setPort_hot (n : Nat) (x : Port) :
    (s.setPort n x).hot = s.hot := rfl

/-! ### `addInput` -/

@[simp] theorem addInput_clock (n : Nat) (i : Instr) :
    (s.addInput n i).clock = s.clock := rfl
@[simp] theorem addInput_free (n : Nat) (i : Instr) :
    (s.addInput n i).free = s.free := rfl
@[simp] theorem addInput_agenda (n : Nat) (i : Instr) :
    (s.addInput n i).agenda = s.agenda := rfl
@[simp] theorem addInput_inputs (n : Nat) (i : Instr) :
    (s.addInput n i).inputs = insertBy (fun a b => decide (a.1 < b.1)) (n, i) s.inputs := rfl
@[simp] theorem addInput_upsets (n : Nat) (i : Instr) :
    (s.addInput n i).upsets = s.upsets := rfl
@[simp] theorem addInput_issuer (n : Nat) (i : Instr) :
    (s.addInput n i).issuer = s.issuer := rfl
@[simp] theorem addInput_seqIssuer (n : Nat) (i : Instr) :
    (s.addInput n i).seqIssuer = s.seqIssuer := rfl
@[simp] theorem addInput_fresh (n : Nat) (i : Instr) :
    (s.addInput n i).fresh = s.fresh := rfl
@[simp] theorem addInput_groups (n : Nat) (i : Instr) :
    (s.addInput n i).groups = s.groups := rfl
@[simp] theorem addInput_teams (n : Nat) (i : Instr) :
    (s.addInput n i).teams = s.teams := rfl
@[simp] theorem addInput_clusters (n : Nat) (i : Instr) :
    (s.addInput n i).clusters = s.clusters := rfl
@[simp] theorem addInput_grids (n : Nat) (i : Instr) :
    (s.addInput n i).grids = s.grids := rfl
@[simp] theorem addInput_fronts (n : Nat) (i : Instr) :
    (s.addInput n i).fronts = s.fronts := rfl
@[simp] theorem addInput_cores (n : Nat) (i : Instr) :
    (s.addInput n i).cores = s.cores := rfl
@[simp] theorem addInput_ctxs (n : Nat) (i : Instr) :
    (s.addInput n i).ctxs = s.ctxs := rfl
@[simp] theorem addInput_pends (n : Nat) (i : Instr) :
    (s.addInput n i).pends = s.pends := rfl
@[simp] theorem addInput_stores (n : Nat) (i : Instr) :
    (s.addInput n i).stores = s.stores := rfl
@[simp] theorem addInput_mem (n : Nat) (i : Instr) :
    (s.addInput n i).mem = s.mem := rfl
@[simp] theorem addInput_memBad (n : Nat) (i : Instr) :
    (s.addInput n i).memBad = s.memBad := rfl
@[simp] theorem addInput_crcBad (n : Nat) (i : Instr) :
    (s.addInput n i).crcBad = s.crcBad := rfl
@[simp] theorem addInput_hostMem (n : Nat) (i : Instr) :
    (s.addInput n i).hostMem = s.hostMem := rfl
@[simp] theorem addInput_fwMem (n : Nat) (i : Instr) :
    (s.addInput n i).fwMem = s.fwMem := rfl
@[simp] theorem addInput_callA0 (n : Nat) (i : Instr) :
    (s.addInput n i).callA0 = s.callA0 := rfl
@[simp] theorem addInput_callA1 (n : Nat) (i : Instr) :
    (s.addInput n i).callA1 = s.callA1 := rfl
@[simp] theorem addInput_mailbox (n : Nat) (i : Instr) :
    (s.addInput n i).mailbox = s.mailbox := rfl
@[simp] theorem addInput_reply (n : Nat) (i : Instr) :
    (s.addInput n i).reply = s.reply := rfl
@[simp] theorem addInput_backing (n : Nat) (i : Instr) :
    (s.addInput n i).backing = s.backing := rfl
@[simp] theorem addInput_backingBad (n : Nat) (i : Instr) :
    (s.addInput n i).backingBad = s.backingBad := rfl
@[simp] theorem addInput_portTable (n : Nat) (i : Instr) :
    (s.addInput n i).portTable = s.portTable := rfl
@[simp] theorem addInput_foreign (n : Nat) (i : Instr) :
    (s.addInput n i).foreign = s.foreign := rfl
@[simp] theorem addInput_tags (n : Nat) (i : Instr) :
    (s.addInput n i).tags = s.tags := rfl
@[simp] theorem addInput_frames (n : Nat) (i : Instr) :
    (s.addInput n i).frames = s.frames := rfl
@[simp] theorem addInput_shared (n : Nat) (i : Instr) :
    (s.addInput n i).shared = s.shared := rfl
@[simp] theorem addInput_keyDoms (n : Nat) (i : Instr) :
    (s.addInput n i).keyDoms = s.keyDoms := rfl
@[simp] theorem addInput_keySlots (n : Nat) (i : Instr) :
    (s.addInput n i).keySlots = s.keySlots := rfl
@[simp] theorem addInput_fences (n : Nat) (i : Instr) :
    (s.addInput n i).fences = s.fences := rfl
@[simp] theorem addInput_crossings (n : Nat) (i : Instr) :
    (s.addInput n i).crossings = s.crossings := rfl
@[simp] theorem addInput_heldRel (n : Nat) (i : Instr) :
    (s.addInput n i).heldRel = s.heldRel := rfl
@[simp] theorem addInput_linksDown (n : Nat) (i : Instr) :
    (s.addInput n i).linksDown = s.linksDown := rfl
@[simp] theorem addInput_replayed (n : Nat) (i : Instr) :
    (s.addInput n i).replayed = s.replayed := rfl
@[simp] theorem addInput_ports (n : Nat) (i : Instr) :
    (s.addInput n i).ports = s.ports := rfl
@[simp] theorem addInput_functions (n : Nat) (i : Instr) :
    (s.addInput n i).functions = s.functions := rfl
@[simp] theorem addInput_encoders (n : Nat) (i : Instr) :
    (s.addInput n i).encoders = s.encoders := rfl
@[simp] theorem addInput_islands (n : Nat) (i : Instr) :
    (s.addInput n i).islands = s.islands := rfl
@[simp] theorem addInput_profile (n : Nat) (i : Instr) :
    (s.addInput n i).profile = s.profile := rfl
@[simp] theorem addInput_mergeN (n : Nat) (i : Instr) :
    (s.addInput n i).mergeN = s.mergeN := rfl
@[simp] theorem addInput_forkPolicy (n : Nat) (i : Instr) :
    (s.addInput n i).forkPolicy = s.forkPolicy := rfl
@[simp] theorem addInput_mrs (n : Nat) (i : Instr) :
    (s.addInput n i).mrs = s.mrs := rfl
@[simp] theorem addInput_ring (n : Nat) (i : Instr) :
    (s.addInput n i).ring = s.ring := rfl
@[simp] theorem addInput_boot (n : Nat) (i : Instr) :
    (s.addInput n i).boot = s.boot := rfl
@[simp] theorem addInput_fwStarts (n : Nat) (i : Instr) :
    (s.addInput n i).fwStarts = s.fwStarts := rfl
@[simp] theorem addInput_fuses (n : Nat) (i : Instr) :
    (s.addInput n i).fuses = s.fuses := rfl
@[simp] theorem addInput_laters (n : Nat) (i : Instr) :
    (s.addInput n i).laters = s.laters := rfl
@[simp] theorem addInput_hot (n : Nat) (i : Instr) :
    (s.addInput n i).hot = s.hot := rfl

/-! ### Numbers and free values -/

@[simp] theorem newId_clock : s.newId.2.clock = s.clock := rfl
@[simp] theorem newId_free : s.newId.2.free = s.free := rfl
@[simp] theorem newId_agenda : s.newId.2.agenda = s.agenda := rfl
@[simp] theorem newId_inputs : s.newId.2.inputs = s.inputs := rfl
@[simp] theorem newId_upsets : s.newId.2.upsets = s.upsets := rfl
@[simp] theorem newId_issuer : s.newId.2.issuer = s.issuer := rfl
@[simp] theorem newId_seqIssuer : s.newId.2.seqIssuer = s.seqIssuer := rfl
@[simp] theorem newId_fresh : s.newId.2.fresh = s.fresh + 1 := rfl
@[simp] theorem newId_groups : s.newId.2.groups = s.groups := rfl
@[simp] theorem newId_teams : s.newId.2.teams = s.teams := rfl
@[simp] theorem newId_clusters : s.newId.2.clusters = s.clusters := rfl
@[simp] theorem newId_grids : s.newId.2.grids = s.grids := rfl
@[simp] theorem newId_fronts : s.newId.2.fronts = s.fronts := rfl
@[simp] theorem newId_cores : s.newId.2.cores = s.cores := rfl
@[simp] theorem newId_ctxs : s.newId.2.ctxs = s.ctxs := rfl
@[simp] theorem newId_pends : s.newId.2.pends = s.pends := rfl
@[simp] theorem newId_stores : s.newId.2.stores = s.stores := rfl
@[simp] theorem newId_mem : s.newId.2.mem = s.mem := rfl
@[simp] theorem newId_memBad : s.newId.2.memBad = s.memBad := rfl
@[simp] theorem newId_crcBad : s.newId.2.crcBad = s.crcBad := rfl
@[simp] theorem newId_hostMem : s.newId.2.hostMem = s.hostMem := rfl
@[simp] theorem newId_fwMem : s.newId.2.fwMem = s.fwMem := rfl
@[simp] theorem newId_callA0 : s.newId.2.callA0 = s.callA0 := rfl
@[simp] theorem newId_callA1 : s.newId.2.callA1 = s.callA1 := rfl
@[simp] theorem newId_mailbox : s.newId.2.mailbox = s.mailbox := rfl
@[simp] theorem newId_reply : s.newId.2.reply = s.reply := rfl
@[simp] theorem newId_backing : s.newId.2.backing = s.backing := rfl
@[simp] theorem newId_backingBad : s.newId.2.backingBad = s.backingBad := rfl
@[simp] theorem newId_portTable : s.newId.2.portTable = s.portTable := rfl
@[simp] theorem newId_foreign : s.newId.2.foreign = s.foreign := rfl
@[simp] theorem newId_tags : s.newId.2.tags = s.tags := rfl
@[simp] theorem newId_frames : s.newId.2.frames = s.frames := rfl
@[simp] theorem newId_shared : s.newId.2.shared = s.shared := rfl
@[simp] theorem newId_keyDoms : s.newId.2.keyDoms = s.keyDoms := rfl
@[simp] theorem newId_keySlots : s.newId.2.keySlots = s.keySlots := rfl
@[simp] theorem newId_fences : s.newId.2.fences = s.fences := rfl
@[simp] theorem newId_crossings : s.newId.2.crossings = s.crossings := rfl
@[simp] theorem newId_heldRel : s.newId.2.heldRel = s.heldRel := rfl
@[simp] theorem newId_linksDown : s.newId.2.linksDown = s.linksDown := rfl
@[simp] theorem newId_replayed : s.newId.2.replayed = s.replayed := rfl
@[simp] theorem newId_ports : s.newId.2.ports = s.ports := rfl
@[simp] theorem newId_functions : s.newId.2.functions = s.functions := rfl
@[simp] theorem newId_encoders : s.newId.2.encoders = s.encoders := rfl
@[simp] theorem newId_islands : s.newId.2.islands = s.islands := rfl
@[simp] theorem newId_profile : s.newId.2.profile = s.profile := rfl
@[simp] theorem newId_mergeN : s.newId.2.mergeN = s.mergeN := rfl
@[simp] theorem newId_forkPolicy : s.newId.2.forkPolicy = s.forkPolicy := rfl
@[simp] theorem newId_mrs : s.newId.2.mrs = s.mrs := rfl
@[simp] theorem newId_ring : s.newId.2.ring = s.ring := rfl
@[simp] theorem newId_boot : s.newId.2.boot = s.boot := rfl
@[simp] theorem newId_fwStarts : s.newId.2.fwStarts = s.fwStarts := rfl
@[simp] theorem newId_fuses : s.newId.2.fuses = s.fuses := rfl
@[simp] theorem newId_laters : s.newId.2.laters = s.laters := rfl
@[simp] theorem newId_hot : s.newId.2.hot = s.hot := rfl
@[simp] theorem newId_fst : s.newId.1 = s.fresh := rfl
@[simp] theorem draw_clock (n : Nat) : (s.draw n).2.clock = s.clock := rfl
@[simp] theorem draw_free (n : Nat) : (s.draw n).2.free = s.free + 1 := rfl
@[simp] theorem draw_agenda (n : Nat) : (s.draw n).2.agenda = s.agenda := rfl
@[simp] theorem draw_inputs (n : Nat) : (s.draw n).2.inputs = s.inputs := rfl
@[simp] theorem draw_upsets (n : Nat) : (s.draw n).2.upsets = s.upsets := rfl
@[simp] theorem draw_issuer (n : Nat) : (s.draw n).2.issuer = s.issuer := rfl
@[simp] theorem draw_seqIssuer (n : Nat) : (s.draw n).2.seqIssuer = s.seqIssuer := rfl
@[simp] theorem draw_fresh (n : Nat) : (s.draw n).2.fresh = s.fresh := rfl
@[simp] theorem draw_groups (n : Nat) : (s.draw n).2.groups = s.groups := rfl
@[simp] theorem draw_teams (n : Nat) : (s.draw n).2.teams = s.teams := rfl
@[simp] theorem draw_clusters (n : Nat) : (s.draw n).2.clusters = s.clusters := rfl
@[simp] theorem draw_grids (n : Nat) : (s.draw n).2.grids = s.grids := rfl
@[simp] theorem draw_fronts (n : Nat) : (s.draw n).2.fronts = s.fronts := rfl
@[simp] theorem draw_cores (n : Nat) : (s.draw n).2.cores = s.cores := rfl
@[simp] theorem draw_ctxs (n : Nat) : (s.draw n).2.ctxs = s.ctxs := rfl
@[simp] theorem draw_pends (n : Nat) : (s.draw n).2.pends = s.pends := rfl
@[simp] theorem draw_stores (n : Nat) : (s.draw n).2.stores = s.stores := rfl
@[simp] theorem draw_mem (n : Nat) : (s.draw n).2.mem = s.mem := rfl
@[simp] theorem draw_memBad (n : Nat) : (s.draw n).2.memBad = s.memBad := rfl
@[simp] theorem draw_crcBad (n : Nat) : (s.draw n).2.crcBad = s.crcBad := rfl
@[simp] theorem draw_hostMem (n : Nat) : (s.draw n).2.hostMem = s.hostMem := rfl
@[simp] theorem draw_fwMem (n : Nat) : (s.draw n).2.fwMem = s.fwMem := rfl
@[simp] theorem draw_callA0 (n : Nat) : (s.draw n).2.callA0 = s.callA0 := rfl
@[simp] theorem draw_callA1 (n : Nat) : (s.draw n).2.callA1 = s.callA1 := rfl
@[simp] theorem draw_mailbox (n : Nat) : (s.draw n).2.mailbox = s.mailbox := rfl
@[simp] theorem draw_reply (n : Nat) : (s.draw n).2.reply = s.reply := rfl
@[simp] theorem draw_backing (n : Nat) : (s.draw n).2.backing = s.backing := rfl
@[simp] theorem draw_backingBad (n : Nat) : (s.draw n).2.backingBad = s.backingBad := rfl
@[simp] theorem draw_portTable (n : Nat) : (s.draw n).2.portTable = s.portTable := rfl
@[simp] theorem draw_foreign (n : Nat) : (s.draw n).2.foreign = s.foreign := rfl
@[simp] theorem draw_tags (n : Nat) : (s.draw n).2.tags = s.tags := rfl
@[simp] theorem draw_frames (n : Nat) : (s.draw n).2.frames = s.frames := rfl
@[simp] theorem draw_shared (n : Nat) : (s.draw n).2.shared = s.shared := rfl
@[simp] theorem draw_keyDoms (n : Nat) : (s.draw n).2.keyDoms = s.keyDoms := rfl
@[simp] theorem draw_keySlots (n : Nat) : (s.draw n).2.keySlots = s.keySlots := rfl
@[simp] theorem draw_fences (n : Nat) : (s.draw n).2.fences = s.fences := rfl
@[simp] theorem draw_crossings (n : Nat) : (s.draw n).2.crossings = s.crossings := rfl
@[simp] theorem draw_heldRel (n : Nat) : (s.draw n).2.heldRel = s.heldRel := rfl
@[simp] theorem draw_linksDown (n : Nat) : (s.draw n).2.linksDown = s.linksDown := rfl
@[simp] theorem draw_replayed (n : Nat) : (s.draw n).2.replayed = s.replayed := rfl
@[simp] theorem draw_ports (n : Nat) : (s.draw n).2.ports = s.ports := rfl
@[simp] theorem draw_functions (n : Nat) : (s.draw n).2.functions = s.functions := rfl
@[simp] theorem draw_encoders (n : Nat) : (s.draw n).2.encoders = s.encoders := rfl
@[simp] theorem draw_islands (n : Nat) : (s.draw n).2.islands = s.islands := rfl
@[simp] theorem draw_profile (n : Nat) : (s.draw n).2.profile = s.profile := rfl
@[simp] theorem draw_mergeN (n : Nat) : (s.draw n).2.mergeN = s.mergeN := rfl
@[simp] theorem draw_forkPolicy (n : Nat) : (s.draw n).2.forkPolicy = s.forkPolicy := rfl
@[simp] theorem draw_mrs (n : Nat) : (s.draw n).2.mrs = s.mrs := rfl
@[simp] theorem draw_ring (n : Nat) : (s.draw n).2.ring = s.ring := rfl
@[simp] theorem draw_boot (n : Nat) : (s.draw n).2.boot = s.boot := rfl
@[simp] theorem draw_fwStarts (n : Nat) : (s.draw n).2.fwStarts = s.fwStarts := rfl
@[simp] theorem draw_fuses (n : Nat) : (s.draw n).2.fuses = s.fuses := rfl
@[simp] theorem draw_laters (n : Nat) : (s.draw n).2.laters = s.laters := rfl
@[simp] theorem draw_hot (n : Nat) : (s.draw n).2.hot = s.hot := rfl

end Sys2Proof.Machine
end

