-- ==== Sys2Proof/Laws/Tables.lean ====
section
/-!
SUPPORT. Tables: a read after a write, and the canonical form (keys strictly rising, no entry at the default), which every
table operation keeps.
-/
namespace Sys2Proof.Machine
open Sys2Proof

variable {α : Type}

/-- Every key of the table lies above `n`. -/
def above (n : Nat) (t : Table α) : Prop := ∀ x ∈ t, n < x.1

theorem rising_cons (j : Nat) (w : α) (t : Table α) :
    rising ((j, w) :: t) = true ↔ above j t ∧ rising t = true := by
  induction t generalizing j w with
  | nil => simp [rising, above]
  | cons x t ih =>
    obtain ⟨k, v⟩ := x
    have hk := (ih k v)
    simp only [rising, Bool.and_eq_true, decide_eq_true_eq]
    constructor
    · rintro ⟨h1, h2⟩
      refine ⟨?_, h2⟩
      intro y hy
      rcases List.mem_cons.mp hy with rfl | hy
      · exact h1
      · exact Nat.lt_trans h1 ((hk.mp h2).1 y hy)
    · rintro ⟨h1, h2⟩
      exact ⟨h1 (k, v) (List.mem_cons_self ..), h2⟩

theorem above_mono {n m : Nat} {t : Table α} (h : above m t) (hn : n ≤ m) : above n t :=
  fun x hx => Nat.lt_of_le_of_lt hn (h x hx)

theorem tfind_above {n : Nat} {t : Table α} (h : above n t) : tfind t n = none := by
  induction t with
  | nil => rfl
  | cons x t ih =>
    obtain ⟨j, v⟩ := x
    have hj : n < j := h (j, v) (List.mem_cons_self ..)
    rw [tfind, if_neg (by omega)]
    exact ih fun y hy => h y (List.mem_cons_of_mem _ hy)

/-! ### Insertion -/

theorem tfind_tins_same (t : Table α) (k : Nat) (v : α) : tfind (tins t k v) k = some v := by
  induction t with
  | nil => simp [tins, tfind]
  | cons x t ih =>
    obtain ⟨j, w⟩ := x
    simp only [tins]
    split
    · simp [tfind]
    · split
      · simp [tfind]
      · rename_i h1 h2
        rw [tfind, if_neg (by omega)]
        exact ih

theorem tfind_tins_other (t : Table α) {k i : Nat} (v : α) (h : i ≠ k) : tfind (tins t k v) i = tfind t i := by
  induction t with
  | nil => simp [tins, tfind, Ne.symm h]
  | cons x t ih =>
    obtain ⟨j, w⟩ := x
    simp only [tins]
    split
    · rw [tfind, if_neg (by omega)]
    · split
      · rename_i h2
        subst h2
        rw [tfind, if_neg (by omega), tfind, if_neg (by omega)]
      · simp only [tfind, ih]

theorem above_tins {n k : Nat} {t : Table α} (v : α) (h : above n t) (hk : n < k) : above n (tins t k v) := by
  induction t with
  | nil => intro x hx; simp only [tins, List.mem_singleton] at hx; subst hx; exact hk
  | cons x t ih =>
    obtain ⟨j, w⟩ := x
    have hj : n < j := h (j, w) (List.mem_cons_self ..)
    have ht : above n t := fun y hy => h y (List.mem_cons_of_mem _ hy)
    simp only [tins]
    split
    · intro y hy
      rcases List.mem_cons.mp hy with rfl | hy
      · exact hk
      · exact h y hy
    · split
      · intro y hy
        rcases List.mem_cons.mp hy with rfl | hy
        · exact hk
        · exact ht y hy
      · intro y hy
        rcases List.mem_cons.mp hy with rfl | hy
        · exact hj
        · exact ih ht y hy

theorem rising_tins {t : Table α} (k : Nat) (v : α) (h : rising t = true) : rising (tins t k v) = true := by
  induction t with
  | nil => rfl
  | cons x t ih =>
    obtain ⟨j, w⟩ := x
    obtain ⟨ha, hr⟩ := (rising_cons j w t).mp h
    simp only [tins]
    split
    · rename_i h1
      refine (rising_cons k v _).mpr ⟨?_, h⟩
      intro y hy
      rcases List.mem_cons.mp hy with rfl | hy
      · exact h1
      · exact Nat.lt_trans h1 (ha y hy)
    · split
      · rename_i h1 h2
        subst h2
        exact (rising_cons k v t).mpr ⟨ha, hr⟩
      · exact (rising_cons j w _).mpr ⟨above_tins v ha (by omega), ih hr⟩

theorem mem_tins {t : Table α} {k : Nat} {v : α} {x : Nat × α} (h : x ∈ tins t k v) : x = (k, v) ∨ x ∈ t := by
  induction t with
  | nil => simp only [tins, List.mem_singleton] at h; exact .inl h
  | cons y t ih =>
    obtain ⟨j, w⟩ := y
    simp only [tins] at h
    split at h
    · rcases List.mem_cons.mp h with h | h
      · exact .inl h
      · exact .inr h
    · split at h
      · rcases List.mem_cons.mp h with h | h
        · exact .inl h
        · exact .inr (List.mem_cons_of_mem _ h)
      · rcases List.mem_cons.mp h with h | h
        · exact .inr (h ▸ List.mem_cons_self ..)
        · rcases ih h with h | h
          · exact .inl h
          · exact .inr (List.mem_cons_of_mem _ h)

/-! ### Deletion -/

theorem mem_tdel {t : Table α} {k : Nat} {x : Nat × α} (h : x ∈ tdel t k) : x ∈ t := by
  induction t with
  | nil => exact h
  | cons y t ih =>
    obtain ⟨j, w⟩ := y
    simp only [tdel] at h
    split at h
    · exact List.mem_cons_of_mem _ (ih h)
    · rcases List.mem_cons.mp h with h | h
      · exact h ▸ List.mem_cons_self ..
      · exact List.mem_cons_of_mem _ (ih h)

theorem rising_tdel {t : Table α} (k : Nat) (h : rising t = true) : rising (tdel t k) = true := by
  induction t with
  | nil => rfl
  | cons x t ih =>
    obtain ⟨j, w⟩ := x
    obtain ⟨ha, hr⟩ := (rising_cons j w t).mp h
    simp only [tdel]
    split
    · exact ih hr
    · exact (rising_cons j w _).mpr ⟨fun y hy => ha y (mem_tdel hy), ih hr⟩

theorem tfind_tdel_same (t : Table α) (k : Nat) : tfind (tdel t k) k = none := by
  induction t with
  | nil => rfl
  | cons x t ih =>
    obtain ⟨j, w⟩ := x
    simp only [tdel]
    split
    · exact ih
    · rename_i h1
      rw [tfind, if_neg h1]
      exact ih

theorem tfind_tdel_other (t : Table α) {k i : Nat} (h : i ≠ k) : tfind (tdel t k) i = tfind t i := by
  induction t with
  | nil => rfl
  | cons x t ih =>
    obtain ⟨j, w⟩ := x
    simp only [tdel]
    split
    · rename_i h1
      subst h1
      rw [tfind, if_neg (by omega)]
      exact ih
    · simp only [tfind, ih]

/-! ### Adjustment -/

theorem tfind_tadj_same (t : Table α) (k : Nat) (f : α → α) : tfind (tadj t k f) k = (tfind t k).map f := by
  induction t with
  | nil => rfl
  | cons x t ih =>
    obtain ⟨j, w⟩ := x
    simp only [tadj]
    split
    · rename_i h; subst h; simp [tfind]
    · rename_i h; simp only [tfind, if_neg h, ih]

theorem tfind_tadj_other (t : Table α) {k i : Nat} (f : α → α) (h : i ≠ k) : tfind (tadj t k f) i = tfind t i := by
  induction t with
  | nil => rfl
  | cons x t ih =>
    obtain ⟨j, w⟩ := x
    simp only [tadj]
    split
    · rename_i h1; subst h1; simp only [tfind, if_neg (Ne.symm h)]
    · simp only [tfind, ih]

/-! ### Tables with a default -/

variable [DecidableEq α] {d : α}

/-- The canonical form: keys strictly rising, no entry at the default. -/
def canonical (d : α) (t : Table α) : Prop := rising t = true ∧ ∀ x ∈ t, x.2 ≠ d

omit [DecidableEq α] in
theorem canonical_nil : canonical d ([] : Table α) := ⟨rfl, fun _ h => absurd h (List.not_mem_nil)⟩

theorem canonical_tput {t : Table α} (k : Nat) (v : α) (h : canonical d t) : canonical d (tput d t k v) := by
  unfold tput
  split
  · exact ⟨rising_tdel k h.1, fun x hx => h.2 x (mem_tdel hx)⟩
  · rename_i hv
    refine ⟨rising_tins k v h.1, fun x hx => ?_⟩
    rcases mem_tins hx with rfl | hx
    · exact hv
    · exact h.2 x hx

theorem tget_tput_same (t : Table α) (k : Nat) (v : α) : tget d (tput d t k v) k = v := by
  unfold tput tget
  split
  · rename_i hv
    rw [tfind_tdel_same t k, hv]; rfl
  · rw [tfind_tins_same]; rfl

theorem tget_tput_other (t : Table α) {k i : Nat} (v : α) (h : i ≠ k) : tget d (tput d t k v) i = tget d t i := by
  unfold tput tget
  split
  · rw [tfind_tdel_other t h]
  · rw [tfind_tins_other t v h]

omit [DecidableEq α] in
theorem rising_filter (p : Nat × α → Bool) {t : Table α} (h : rising t = true) : rising (t.filter p) = true := by
  induction t with
  | nil => rfl
  | cons x t ih =>
    obtain ⟨j, w⟩ := x
    obtain ⟨ha, hr⟩ := (rising_cons j w t).mp h
    simp only [List.filter]
    split
    · exact (rising_cons j w _).mpr ⟨fun y hy => ha y ((List.mem_filter.mp hy).1), ih hr⟩
    · exact ih hr

omit [DecidableEq α] in
theorem canonical_filter (p : Nat × α → Bool) {t : Table α} (h : canonical d t) : canonical d (t.filter p) :=
  ⟨rising_filter p h.1, fun x hx => h.2 x (List.mem_filter.mp hx).1⟩

theorem canonical_foldl_tput {β : Type} (key : β → Nat) (val : β → α) (l : List β) {t : Table α} (h : canonical d t) :
    canonical d (l.foldl (fun t x => tput d t (key x) (val x)) t) := by
  induction l generalizing t with
  | nil => exact h
  | cons x l ih => exact ih (canonical_tput _ _ h)

end Sys2Proof.Machine
end

