-- ==== Sys2Proof/Laws/Ops.lean ====
section
/-!
SUPPORT. The shared operations of the instruction meanings: what issuing answers in each case, and what the end of an
instruction's issue leaves unchanged.
-/
namespace Sys2Proof.Machine
open Sys2Proof

/-! ### Groups in the table -/

@[simp] theorem group_modGroup_same (s : State) (n : Nat) (f : Group → Group) :
    (s.modGroup n f).group n = (s.group n).map f := tfind_tadj_same _ _ _

theorem group_modGroup_other (s : State) {n m : Nat} (f : Group → Group) (h : m ≠ n) :
    (s.modGroup n f).group m = s.group m := tfind_tadj_other _ _ h

@[simp] theorem group_setGroup_same (s : State) (n : Nat) (g : Group) : (s.setGroup n g).group n = some g :=
  tfind_tins_same _ _ _

theorem group_setGroup_other (s : State) {n m : Nat} (g : Group) (h : m ≠ n) :
    (s.setGroup n g).group m = s.group m := tfind_tins_other _ _ h

/-! ### What differs only in one group -/

theorem SameButGroup.refl (gid : Nat) (s : State) : SameButGroup gid s s := ⟨rfl, fun _ _ => rfl⟩

theorem SameButGroup.trans {gid : Nat} {s t u : State} (h : SameButGroup gid s t) (k : SameButGroup gid t u) :
    SameButGroup gid s u := by
  refine ⟨?_, fun j hj => (k.others j hj).trans (h.others j hj)⟩
  have e : u = { t with groups := u.groups } := congrArg (fun x : State => { x with groups := u.groups }) k.rest
  have e2 : t = { s with groups := t.groups } := congrArg (fun x : State => { x with groups := t.groups }) h.rest
  rw [e, e2]

theorem sameButGroup_modGroup (s : State) (gid : Nat) (f : Group → Group) : SameButGroup gid s (s.modGroup gid f) :=
  ⟨rfl, fun _ h => group_modGroup_other s f h⟩

theorem sameButGroup_setGroup (s : State) (gid : Nat) (g : Group) : SameButGroup gid s (s.setGroup gid g) :=
  ⟨rfl, fun _ h => group_setGroup_other s g h⟩

theorem sameButGroup_afterReplay (s : State) (gid : Nat) : SameButGroup gid s (afterReplay s gid) := by
  unfold afterReplay
  split
  · exact .refl _ _
  · split
    · exact .refl _ _
    · dsimp only
      split <;> exact sameButGroup_setGroup ..

theorem sameButGroup_advance (c : Ctx) (s : State) : SameButGroup c.gid s (advance c s) := sameButGroup_modGroup ..

theorem sameButGroup_setThreadOf (s : State) (gid : Nat) (t : Thread) : SameButGroup gid s (setThreadOf s gid t) :=
  sameButGroup_modGroup ..

theorem sameButGroup_afterIssue (c : Ctx) (s : State) : SameButGroup c.gid s (afterIssue c s) := by
  unfold afterIssue
  refine .trans (.trans ?_ (sameButGroup_afterReplay _ _)) (sameButGroup_modGroup ..)
  split
  · exact .refl _ _
  · exact sameButGroup_modGroup ..

/-! ### The registers of a group -/

@[simp] theorem thread_setThread (g : Group) (t : Thread) : (g.setThread t).thread = t := by
  unfold Group.setThread Group.thread
  cases g.handler <;> rfl

theorem regsNow_modGroup (s : State) (gid : Nat) (f : Group → Group) (h : ∀ g, (f g).thread.regs = g.thread.regs) :
    regsNow (s.modGroup gid f) gid = regsNow s gid := by
  unfold regsNow
  rw [group_modGroup_same]
  cases s.group gid <;> simp [h]

theorem regsNow_advance (c : Ctx) (s : State) : regsNow (advance c s) c.gid = regsNow s c.gid :=
  regsNow_modGroup _ _ _ fun g => by simp [Thread.regs, Thread.withFrontier]

theorem regsNow_afterReplay (s : State) (gid : Nat) : regsNow (afterReplay s gid) gid = regsNow s gid := by
  unfold afterReplay
  split
  · rfl
  · rename_i g hg
    split
    · rfl
    · dsimp only
      split
      · unfold regsNow
        rw [group_setGroup_same, hg]
        simp only [Option.map_some, Group.thread]
        cases g.handler <;> rfl
      · unfold regsNow
        rw [group_setGroup_same, hg]
        rfl

theorem regsNow_afterIssue (c : Ctx) (s : State) : regsNow (afterIssue c s) c.gid = regsNow s c.gid := by
  unfold afterIssue
  dsimp only
  rw [regsNow_modGroup _ _ _ (by intro g; split <;> rfl), regsNow_afterReplay]
  split
  · rfl
  · exact regsNow_modGroup _ _ _ fun _ => rfl

theorem regsNow_setThreadOf (s : State) (gid : Nat) (t : Thread) (h : s.group gid ≠ none) :
    regsNow (setThreadOf s gid t) gid = some t.regs := by
  unfold regsNow setThreadOf
  rw [group_modGroup_same]
  cases hg : s.group gid with
  | none => exact absurd hg h
  | some g => simp

/-! ### Issuing -/

theorem sameButGroup_ended (c : Ctx) (s : State) : SameButGroup c.gid s (ended c s) :=
  .trans (sameButGroup_advance ..) (sameButGroup_afterIssue ..)

theorem regsNow_ended (c : Ctx) (s : State) : regsNow (ended c s) c.gid = regsNow s c.gid :=
  (regsNow_afterIssue _ _).trans (regsNow_advance _ _)

theorem runGroup_none (i : Instr) (f : Fields) (s : State) (body : Ctx → State → Res) (h : issuerOf s = none) :
    runGroup i f s body = .fault .noGroup := by simp [runGroup, h]

theorem runGroup_some {i : Instr} {f : Fields} {s : State} {body : Ctx → State → Res} {gid : Nat} {g : Group} {e : Entry}
    (h : issuerOf s = some (gid, g, e)) :
    runGroup i f s body = .next (finish (ctxOf i f gid g e) ((preCheck s (ctxOf i f gid g e)).getD
      (body (ctxOf i f gid g e) s))) := by
  simp only [runGroup, h]
  cases preCheck s (ctxOf i f gid g e) <;> rfl

/-- The checks of R33 that precede an instruction's own find nothing, and nothing holds its issue. -/
theorem preCheck_none_iff (s : State) (c : Ctx) :
    preCheck s c = none ↔ flagForbidden c.e c.f = false ∧ (supervisorOnly c.i = true → c.g.priv = true) ∧
      boundsBad c.t c.i c.f c.sp = false ∧ interlocked s c.gid c.g.priv (regsOf c.i c.f c.sp) = false ∧
      ∀ k, c.f.flag = some k → c.exec = 0 ∨ flagCount c.t k.val < 63 := by
  unfold preCheck
  cases flagForbidden c.e c.f <;> cases supervisorOnly c.i <;> cases c.g.priv <;> cases boundsBad c.t c.i c.f c.sp <;>
    cases interlocked s c.gid _ (regsOf c.i c.f c.sp) <;> cases c.f.flag <;>
    simp [Classical.or_iff_not_imp_left]

theorem issuerOf_group {s : State} {gid : Nat} {g : Group} {e : Entry} (h : issuerOf s = some (gid, g, e)) :
    s.issuer = some gid ∧ s.group gid = some g ∧ headOf g.thread = some e := by
  unfold issuerOf at h
  split at h
  · cases h
  · rename_i n hn
    split at h
    · cases h
    · rename_i g' hg
      split at h
      · cases h
      · rename_i e' he
        cases h
        exact ⟨hn, hg, he⟩

/-- An instruction that issues with nothing in its way has its own effect: its entry goes on, or it has moved its entries, or a
cause is taken, or its group parks. -/
theorem Issues.run {s : State} {i : Instr} {f : Fields} {c : Ctx} (h : Issues s i f c) (body : Ctx → State → Res) :
    runGroup i f s body = .next (finish c (body c s)) := by
  obtain ⟨gid, g, e, hi, rfl⟩ := h.group
  rw [runGroup_some hi, (preCheck_none_iff s _).mpr ⟨h.flag, h.priv, h.regs, h.free, h.room⟩]
  rfl

theorem Issues.done {s s' : State} {i : Instr} {f : Fields} {c : Ctx} (h : Issues s i f c) {body : Ctx → State → Res}
    (hb : body c s = .done s') : runGroup i f s body = .next (ended c s') := by
  rw [h.run, hb]; rfl

theorem Issues.moved {s s' : State} {i : Instr} {f : Fields} {c : Ctx} (h : Issues s i f c) {body : Ctx → State → Res}
    (hb : body c s = .moved s') : runGroup i f s body = .next (endedMoved c s') := by
  rw [h.run, hb]; rfl

theorem Issues.trap {s s' : State} {i : Instr} {f : Fields} {c : Ctx} {t : TrapInfo} (h : Issues s i f c)
    {body : Ctx → State → Res} (hb : body c s = .trap s' t) : runGroup i f s body = .next (finish c (.trap s' t)) := by
  rw [h.run, hb]

theorem Issues.park {s s' : State} {i : Instr} {f : Fields} {c : Ctx} {p : Park} (h : Issues s i f c)
    {body : Ctx → State → Res} (hb : body c s = .park s' p) :
    runGroup i f s body = .next (parkGroup s' c.gid p) := by
  rw [h.run, hb]; rfl

/-- Its group is in the state. -/
theorem Issues.hasGroup {s : State} {i : Instr} {f : Fields} {c : Ctx} (h : Issues s i f c) :
    s.group c.gid = some c.g := by
  obtain ⟨gid, g, e, hi, rfl⟩ := h.group
  exact (issuerOf_group hi).2.1

/-- An instruction without memory leaves everything but its group's registers and frontier as it was. -/
theorem sameButGroup_alu (c : Ctx) (s : State) (t : Thread) : SameButGroup c.gid s (ended c (setThreadOf s c.gid t)) :=
  .trans (sameButGroup_setThreadOf ..) (sameButGroup_ended ..)

theorem regsNow_alu (c : Ctx) (s : State) (t : Thread) (h : s.group c.gid ≠ none) :
    regsNow (ended c (setThreadOf s c.gid t)) c.gid = some t.regs := by
  rw [regsNow_ended, regsNow_setThreadOf s c.gid t h]

end Sys2Proof.Machine
end

