-- ==== Sys2Proof/Laws/Registers.lean ====
section
/-!
SUPPORT. Registers of a thread: a read after a write, for each operand form and for the results of instructions without memory
(R16, R43, R44, R94, R95).
-/
namespace Sys2Proof.Machine
open Sys2Proof

/-! ### One register -/

theorem vreg_setVreg_same (t : Thread) (r l : Nat) (x : Word) : vreg (setVreg t r l x) r l = x := tget_tput_same ..

theorem vreg_setVreg_other (t : Thread) {r l r' l' : Nat} (x : Word) (hl : l < 64) (hl' : l' < 64)
    (h : r' ≠ r ∨ l' ≠ l) : vreg (setVreg t r l x) r' l' = vreg t r' l' := tget_tput_other _ _ (by omega)

theorem sreg_setSreg_same (t : Thread) (r : Nat) (x : Word) : sreg (setSreg t r x) r = x := tget_tput_same ..
theorem sreg_setSreg_other (t : Thread) {r r' : Nat} (x : Word) (h : r' ≠ r) : sreg (setSreg t r x) r' = sreg t r' :=
  tget_tput_other _ _ h

theorem laneBit_getLsbD (l j : Nat) (hj : j < 64) : (laneBit l).getLsbD j = decide (j = l) := by
  simp only [laneBit, BitVec.getLsbD_shiftLeft, BitVec.getLsbD_one, hj]
  by_cases h : j < l <;> simp [h] <;> omega

theorem predBit_setPred_same (t : Thread) (p : Nat) {l : Nat} (x : Bool) (hl : l < 64) :
    predBit (setPred t p l x) p l = x := by
  have h := laneBit_getLsbD l l hl
  cases x <;>
    simp only [predBit, pmask, setPred, tget_tput_same, reduceIte, Bool.false_eq_true, BitVec.getLsbD_or, BitVec.getLsbD_and, BitVec.getLsbD_not, h, hl] <;>
    simp

theorem predBit_setPred_other (t : Thread) {p l q j : Nat} (x : Bool) (hj : j < 64) (h : q ≠ p ∨ j ≠ l) :
    predBit (setPred t p l x) q j = predBit t q j := by
  by_cases hq : q = p
  · subst hq
    have hb := laneBit_getLsbD l j hj
    rw [decide_eq_false (by omega : ¬ j = l)] at hb
    cases x <;>
      simp only [predBit, pmask, setPred, tget_tput_same, reduceIte, Bool.false_eq_true, BitVec.getLsbD_or, BitVec.getLsbD_and, BitVec.getLsbD_not, hb, hj] <;>
      simp
  · simp only [predBit, pmask, setPred, tget_tput_other _ _ hq]

/-! ### Blocks of registers -/

theorem setVwide_parts (t : Thread) (r l w x : Nat) :
    { setVwide t r l w x with vregs := t.vregs } = t := by
  induction w generalizing t r x with
  | zero => rfl
  | succ w ih =>
    have h := congrArg (fun u : Thread => { u with vregs := t.vregs }) (ih (setVreg t r l (BitVec.ofNat 32 x)) (r + 1) (x / 2 ^ 32))
    exact h

theorem setSwide_parts (t : Thread) (r w x : Nat) : { setSwide t r w x with sregs := t.sregs } = t := by
  induction w generalizing t r x with
  | zero => rfl
  | succ w ih =>
    have h := congrArg (fun u : Thread => { u with sregs := t.sregs }) (ih (setSreg t r (BitVec.ofNat 32 x)) (r + 1) (x / 2 ^ 32))
    exact h

theorem vreg_setVwide_other (t : Thread) {r l w x r' l' : Nat} (hl : l < 64) (hl' : l' < 64)
    (h : r' < r ∨ r + w ≤ r' ∨ l' ≠ l) : vreg (setVwide t r l w x) r' l' = vreg t r' l' := by
  induction w generalizing t r x with
  | zero => rfl
  | succ w ih =>
    rw [setVwide, ih _ (by omega), vreg_setVreg_other _ _ hl hl' (by omega)]

theorem sreg_setSwide_other (t : Thread) {r w x r' : Nat} (h : r' < r ∨ r + w ≤ r') :
    sreg (setSwide t r w x) r' = sreg t r' := by
  induction w generalizing t r x with
  | zero => rfl
  | succ w ih => rw [setSwide, ih _ (by omega), sreg_setSreg_other _ _ (by omega)]

theorem pow_succ_block (w : Nat) : (2 : Nat) ^ (32 * (w + 1)) = 2 ^ 32 * 2 ^ (32 * w) := by
  rw [Nat.mul_add, Nat.pow_add, Nat.mul_comm]

theorem vwide_setVwide_same (t : Thread) (r : Nat) {l : Nat} (w x : Nat) (hl : l < 64) :
    vwide (setVwide t r l w x) r l w = x % 2 ^ (32 * w) := by
  induction w generalizing t r x with
  | zero => simp [vwide, Nat.mod_one]
  | succ w ih =>
    rw [setVwide, vwide, vreg_setVwide_other _ hl hl (by omega), vreg_setVreg_same, ih, BitVec.toNat_ofNat, pow_succ_block,
      Nat.mod_mul]

theorem swide_setSwide_same (t : Thread) (r w x : Nat) :
    swide (setSwide t r w x) r w = x % 2 ^ (32 * w) := by
  induction w generalizing t r x with
  | zero => simp [swide, Nat.mod_one]
  | succ w ih =>
    rw [setSwide, swide, sreg_setSwide_other _ (by omega), sreg_setSreg_same, ih, BitVec.toNat_ofNat, pow_succ_block,
      Nat.mod_mul]

theorem vwide_congr {t u : Thread} {r l w : Nat} (h : ∀ k, r ≤ k → k < r + w → vreg t k l = vreg u k l) :
    vwide t r l w = vwide u r l w := by
  induction w generalizing r with
  | zero => rfl
  | succ w ih => rw [vwide, vwide, h r (by omega) (by omega), ih fun k h1 h2 => h k (by omega) (by omega)]

/-! ### Lanes -/

theorem mem_lanesOf {m : LaneMask} {l : Nat} : l ∈ lanesOf m ↔ l < 64 ∧ m.getLsbD l = true := by
  simp [lanesOf, List.mem_filter, mem_fromTo]

theorem lt_of_mem_lanes {c : Ctx} {l : Nat} (h : l ∈ c.lanes) : l < 64 := (mem_lanesOf.mp h).1

theorem nodup_fromTo (k n : Nat) : (fromTo k n).Nodup := by
  induction n generalizing k with
  | zero => exact List.nodup_nil
  | succ n ih => exact List.nodup_cons.mpr ⟨fun h => by have := (mem_fromTo.mp h).1; omega, ih (k + 1)⟩

theorem nodup_lanes (c : Ctx) : c.lanes.Nodup := (nodup_fromTo 0 64).filter _

/-! ### A destination in a list of lanes -/

/-- `writeOperand` over a list of lanes: the destination's words, and nothing else. -/
theorem writeOperand_fold_vec (t : Thread) (w : Nat) (d : Fin 256) (v : Nat → Nat) (ls : List Nat) (hn : ls.Nodup)
    (hls : ∀ l ∈ ls, l < 64) :
    let u := ls.foldl (fun t l => writeOperand t l w (v l) (.v d)) t
    (∀ l ∈ ls, vwide u d.val l w = v l % 2 ^ (32 * w)) ∧
    (∀ r l, l < 64 → (l ∈ ls → r < d.val ∨ d.val + w ≤ r) → vreg u r l = vreg t r l) ∧
    { u with vregs := t.vregs } = t := by
  induction ls generalizing t with
  | nil => exact ⟨fun l h => absurd h List.not_mem_nil, fun _ _ _ _ => rfl, rfl⟩
  | cons a ls ih =>
    obtain ⟨ha, hn⟩ := List.nodup_cons.mp hn
    have hla : a < 64 := hls a (List.mem_cons_self ..)
    have hls' : ∀ l ∈ ls, l < 64 := fun l h => hls l (List.mem_cons_of_mem _ h)
    obtain ⟨h1, h2, h3⟩ := ih (writeOperand t a w (v a) (.v d)) hn hls'
    refine ⟨?_, ?_, ?_⟩
    · intro l hl
      rcases List.mem_cons.mp hl with rfl | hl
      · rw [List.foldl_cons, vwide_congr (fun k _ _ => h2 k l hla fun h => absurd h ha), writeOperand,
          vwide_setVwide_same _ _ _ _ hla]
      · exact h1 l hl
    · intro r l hl hr
      rw [List.foldl_cons, h2 r l hl fun h => hr (List.mem_cons_of_mem _ h), writeOperand]
      apply vreg_setVwide_other _ hla hl
      by_cases e : l = a
      · have := hr (e ▸ List.mem_cons_self ..); omega
      · omega
    · have e := congrArg (fun u : Thread => { u with vregs := t.vregs }) h3
      exact e.trans (setVwide_parts ..)

theorem writeOperand_fold_pred (t : Thread) (w : Nat) (p : Fin 48) (v : Nat → Nat) (ls : List Nat) (hn : ls.Nodup)
    (hls : ∀ l ∈ ls, l < 64) :
    let u := ls.foldl (fun t l => writeOperand t l w (v l) (.p p)) t
    (∀ l ∈ ls, predBit u p.val l = (v l % 2 == 1)) ∧
    (∀ q l, l < 64 → (l ∈ ls → q ≠ p.val) → predBit u q l = predBit t q l) ∧
    { u with preds := t.preds } = t := by
  induction ls generalizing t with
  | nil => exact ⟨fun l h => absurd h List.not_mem_nil, fun _ _ _ _ => rfl, rfl⟩
  | cons a ls ih =>
    obtain ⟨ha, hn⟩ := List.nodup_cons.mp hn
    have hla : a < 64 := hls a (List.mem_cons_self ..)
    have hls' : ∀ l ∈ ls, l < 64 := fun l h => hls l (List.mem_cons_of_mem _ h)
    obtain ⟨h1, h2, h3⟩ := ih (writeOperand t a w (v a) (.p p)) hn hls'
    refine ⟨?_, ?_, ?_⟩
    · intro l hl
      rcases List.mem_cons.mp hl with rfl | hl
      · rw [List.foldl_cons, h2 _ l hla fun h => absurd h ha, writeOperand, predBit_setPred_same _ _ _ hla]
      · exact h1 l hl
    · intro q l hl hq
      rw [List.foldl_cons, h2 q l hl fun h => hq (List.mem_cons_of_mem _ h), writeOperand]
      apply predBit_setPred_other _ _ hl
      by_cases e : l = a
      · exact .inl (hq (e ▸ List.mem_cons_self ..))
      · exact .inr e
    · exact (congrArg (fun u : Thread => { u with preds := t.preds }) h3).trans rfl

theorem writeOperand_fold_none (t : Thread) (w : Nat) (v : Nat → Nat) (ls : List Nat) (op : Operand)
    (h : (∃ k, op = .c k) ∨ op = .zero) : ls.foldl (fun t l => writeOperand t l w (v l) op) t = t := by
  induction ls with
  | nil => rfl
  | cons a ls ih => rcases h with ⟨k, rfl⟩ | rfl <;> exact ih

/-! ### FSTAT -/

theorem fstat_raise1_same (t : Thread) (l fl : Nat) : fstatOf (raise1 t l fl) l = fstatOf t l ||| BitVec.ofNat 32 fl :=
  tget_tput_same ..

theorem fstat_raise1_other (t : Thread) {l j : Nat} (fl : Nat) (h : j ≠ l) : fstatOf (raise1 t l fl) j = fstatOf t j :=
  tget_tput_other _ _ h

theorem raise_fold (t : Thread) (fl : Nat → Nat) (ls : List Nat) (hn : ls.Nodup) :
    let u := ls.foldl (fun t l => raise1 t l (fl l)) t
    (∀ l, fstatOf u l = if l ∈ ls then fstatOf t l ||| BitVec.ofNat 32 (fl l) else fstatOf t l) ∧
    { u with fstat := t.fstat } = t := by
  induction ls generalizing t with
  | nil => exact ⟨fun l => by simp, rfl⟩
  | cons a ls ih =>
    obtain ⟨ha, hn⟩ := List.nodup_cons.mp hn
    obtain ⟨h1, h2⟩ := ih (raise1 t a (fl a)) hn
    refine ⟨fun l => ?_, (congrArg (fun u : Thread => { u with fstat := t.fstat }) h2).trans rfl⟩
    rw [List.foldl_cons, h1 l]
    by_cases e : l = a
    · subst e; simp [ha, fstat_raise1_same]
    · simp [e, fstat_raise1_other _ _ e]

theorem fstat_raiseAll (t : Thread) (ls : List Nat) (fl : Nat) (hn : ls.Nodup) :
    (∀ l, fstatOf (raiseAll t ls fl) l = if l ∈ ls then fstatOf t l ||| BitVec.ofNat 32 fl else fstatOf t l) ∧
    { raiseAll t ls fl with fstat := t.fstat } = t := by
  unfold raiseAll
  split
  · rename_i h; subst h; exact ⟨fun l => by simp, rfl⟩
  · exact raise_fold t (fun _ => fl) ls hn

/-! ### The registers after an instruction without memory -/

theorem swide_congr {t u : Thread} {r w : Nat} (h : t.sregs = u.sregs) : swide t r w = swide u r w := by
  induction w generalizing r with
  | zero => rfl
  | succ w ih => rw [swide, swide, ih, sreg, sreg, h]

/-- A destination written in some lanes and FSTAT raised in others, put together. -/
theorem wrote_of (c : Ctx) (v fl : Nat → Nat) (u x : Thread)
    (vec : ∀ d, c.f.dst = .v d → ∀ l ∈ c.lanes, vwide u d.val l c.sp.d = v l % 2 ^ (32 * c.sp.d))
    (scl : ∀ d, c.f.dst = .s d → ∀ l, c.lanes.head? = some l → swide u d.val c.sp.d = v l % 2 ^ (32 * c.sp.d))
    (prd : ∀ p, c.f.dst = .p p → ∀ l ∈ c.lanes, predBit u p.val l = (v l % 2 == 1))
    (vecs : ∀ r l, l < 64 → (∀ d, c.f.dst = .v d → l ∈ c.lanes → r < d.val ∨ d.val + c.sp.d ≤ r) → vreg u r l = vreg c.t r l)
    (scls : ∀ r, (∀ d, c.f.dst = .s d → c.lanes ≠ [] → r < d.val ∨ d.val + c.sp.d ≤ r) → sreg u r = sreg c.t r)
    (prds : ∀ p l, l < 64 → (∀ q, c.f.dst = .p q → l ∈ c.lanes → p ≠ q.val) → predBit u p l = predBit c.t p l)
    (rest : { u with vregs := c.t.vregs, sregs := c.t.sregs, preds := c.t.preds } = c.t)
    (f1 : ∀ l, fstatOf x l = if l ∈ c.lanes
      then fstatOf u l ||| BitVec.ofNat 32 (if isScalar c.f.dst then fl c.low else fl l) else fstatOf u l)
    (f2 : { x with fstat := u.fstat } = u) : Wrote c v fl x := by
  have e1 : x = { u with fstat := x.fstat } := by rw [← f2]
  have hf : u.fstat = c.t.fstat := (congrArg Thread.fstat rest :)
  have hv : x.vregs = u.vregs := (congrArg Thread.vregs e1 :)
  have hs : x.sregs = u.sregs := (congrArg Thread.sregs e1 :)
  have hp : x.preds = u.preds := (congrArg Thread.preds e1 :)
  exact {
    vec := fun d hd l hm => (vwide_congr fun k _ _ => by rw [vreg, vreg, hv]).trans (vec d hd l hm)
    scl := fun d hd l hm => (swide_congr hs).trans (scl d hd l hm)
    prd := fun p hd l hm => by rw [predBit, pmask, hp]; exact prd p hd l hm
    fst := fun l _ => by rw [f1 l, fstatOf, fstatOf, hf]
    vecs := fun r l h1 h2 => by rw [vreg, hv]; exact vecs r l h1 h2
    scls := fun r h => by rw [sreg, hs]; exact scls r h
    prds := fun p l h1 h2 => by rw [predBit, pmask, hp]; exact prds p l h1 h2
    rest := by
      have e2 := congrArg (fun y : Thread => { y with fstat := c.t.fstat, vregs := c.t.vregs, sregs := c.t.sregs,
                                                       preds := c.t.preds }) e1
      have e3 := congrArg (fun y : Thread => { y with fstat := c.t.fstat }) rest
      exact e2.trans e3 }

/-- What `aluThread` does (R94, R95). -/
theorem aluThread_wrote (c : Ctx) (fn : Nat → Nat × Nat) :
    Wrote c (fun l => (fn l).1) (fun l => (fn l).2) (aluThread c fn) := by
  have hl : ∀ l ∈ c.lanes, l < 64 := fun l h => lt_of_mem_lanes h
  have hn := nodup_lanes c
  unfold aluThread Ctx.wr
  cases hd : c.f.dst with
  | v d =>
    have hr : c.runLanes = c.lanes := by simp [Ctx.runLanes, hd, isScalar]
    obtain ⟨h1, h2, h3⟩ := writeOperand_fold_vec c.t c.sp.d d (fun l => (fn l).1) c.lanes hn hl
    obtain ⟨f1, f2⟩ := raise_fold (c.lanes.foldl (fun t l => writeOperand t l c.sp.d (fn l).1 (.v d)) c.t)
      (fun l => (fn l).2) c.lanes hn
    simp only [isScalar, hr, Bool.false_eq_true, if_false]
    refine wrote_of c _ _ (c.lanes.foldl (fun t l => writeOperand t l c.sp.d (fn l).1 (.v d)) c.t) _ ?_ ?_ ?_ ?_ ?_ ?_ ?_ ?_ f2
    · intro d' hd'; cases hd.symm.trans hd'; exact h1
    · intro d' hd'; cases hd.symm.trans hd'
    · intro p hp; cases hd.symm.trans hp
    · intro r l h4 h5; exact h2 r l h4 (h5 d hd)
    · intro r _; exact (congrArg (fun y : Thread => tget 0 y.sregs r) h3 :)
    · intro p l _ _; exact (congrArg (fun y : Thread => (pmask y p).getLsbD l) h3 :)
    · exact (congrArg (fun y : Thread => { y with sregs := c.t.sregs, preds := c.t.preds }) h3 :)
    · intro l; rw [f1 l, hd]; simp [isScalar]
  | s d =>
    obtain ⟨f1, f2⟩ := fstat_raiseAll (c.runLanes.foldl (fun t l => writeOperand t l c.sp.d (fn l).1 (.s d)) c.t)
      c.lanes (fn c.low).2 hn
    simp only [isScalar, if_true]
    refine wrote_of c _ _ (c.runLanes.foldl (fun t l => writeOperand t l c.sp.d (fn l).1 (.s d)) c.t) _ ?_ ?_ ?_ ?_ ?_ ?_ ?_ ?_ f2
    all_goals rw [show c.runLanes = c.lanes.take 1 by simp [Ctx.runLanes, hd, isScalar]] at *
    · intro d' hd'; cases hd.symm.trans hd'
    · intro d' hd' l hm
      cases hd.symm.trans hd'
      cases hc : c.lanes with
      | nil => simp [hc] at hm
      | cons a ls => simp only [hc, List.head?_cons, Option.some.injEq] at hm; subst hm; exact swide_setSwide_same ..
    · intro p hp; cases hd.symm.trans hp
    · intro r l _ _
      cases hc : c.lanes with
      | nil => rfl
      | cons a ls => exact (congrArg (fun y : Thread => vreg y r l) (setSwide_parts c.t d.val c.sp.d (fn a).1) :)
    · intro r h
      cases hc : c.lanes with
      | nil => rfl
      | cons a ls => exact sreg_setSwide_other _ (h d hd (by simp [hc]))
    · intro p l _ _
      cases hc : c.lanes with
      | nil => rfl
      | cons a ls => exact (congrArg (fun y : Thread => predBit y p l) (setSwide_parts c.t d.val c.sp.d (fn a).1) :)
    · cases hc : c.lanes with
      | nil => rfl
      | cons a ls => exact (congrArg (fun y : Thread => { y with vregs := c.t.vregs, preds := c.t.preds }) (setSwide_parts c.t d.val c.sp.d (fn a).1) :)
    · intro l; rw [f1 l, hd]; simp [isScalar]
  | p p =>
    have hr : c.runLanes = c.lanes := by simp [Ctx.runLanes, hd, isScalar]
    obtain ⟨h1, h2, h3⟩ := writeOperand_fold_pred c.t c.sp.d p (fun l => (fn l).1) c.lanes hn hl
    obtain ⟨f1, f2⟩ := raise_fold (c.lanes.foldl (fun t l => writeOperand t l c.sp.d (fn l).1 (.p p)) c.t)
      (fun l => (fn l).2) c.lanes hn
    simp only [isScalar, hr, Bool.false_eq_true, if_false]
    refine wrote_of c _ _ (c.lanes.foldl (fun t l => writeOperand t l c.sp.d (fn l).1 (.p p)) c.t) _ ?_ ?_ ?_ ?_ ?_ ?_ ?_ ?_ f2
    · intro d' hd'; cases hd.symm.trans hd'
    · intro d' hd'; cases hd.symm.trans hd'
    · intro q hq; cases hd.symm.trans hq; exact h1
    · intro r l _ _; exact (congrArg (fun y : Thread => vreg y r l) h3 :)
    · intro r _; exact (congrArg (fun y : Thread => sreg y r) h3 :)
    · intro q l h4 h5; exact h2 q l h4 (h5 p hd)
    · exact (congrArg (fun y : Thread => { y with vregs := c.t.vregs, sregs := c.t.sregs }) h3 :)
    · intro l; rw [f1 l, hd]; simp [isScalar]
  | c k =>
    have hr : c.runLanes = c.lanes := by simp [Ctx.runLanes, hd, isScalar]
    obtain ⟨f1, f2⟩ := raise_fold c.t (fun l => (fn l).2) c.lanes hn
    simp only [isScalar, hr, Bool.false_eq_true, if_false,
      writeOperand_fold_none c.t c.sp.d (fun l => (fn l).1) c.lanes (.c k) (.inl ⟨k, rfl⟩)]
    refine wrote_of c _ _ c.t _ ?_ ?_ ?_ (fun _ _ _ _ => rfl) (fun _ _ => rfl) (fun _ _ _ _ => rfl) rfl ?_ f2
    · intro d' hd'; cases hd.symm.trans hd'
    · intro d' hd'; cases hd.symm.trans hd'
    · intro q hq; cases hd.symm.trans hq
    · intro l; rw [f1 l, hd]; simp [isScalar]
  | zero =>
    have hr : c.runLanes = c.lanes := by simp [Ctx.runLanes, hd, isScalar]
    obtain ⟨f1, f2⟩ := raise_fold c.t (fun l => (fn l).2) c.lanes hn
    simp only [isScalar, hr, Bool.false_eq_true, if_false,
      writeOperand_fold_none c.t c.sp.d (fun l => (fn l).1) c.lanes .zero (.inr rfl)]
    refine wrote_of c _ _ c.t _ ?_ ?_ ?_ (fun _ _ _ _ => rfl) (fun _ _ => rfl) (fun _ _ _ _ => rfl) rfl ?_ f2
    · intro d' hd'; cases hd.symm.trans hd'
    · intro d' hd'; cases hd.symm.trans hd'
    · intro q hq; cases hd.symm.trans hq
    · intro l; rw [f1 l, hd]; simp [isScalar]

end Sys2Proof.Machine
end

