-- ==== Sys2Proof/Laws/Completes.lean ====
section
/-!
SUPPORT. How an instruction's statement follows from its lane function.
-/
namespace Sys2Proof.Machine
open Sys2Proof

/-- The context of an instruction that issues holds its fields. -/
theorem Issues.fields {s : State} {i : Instr} {f : Fields} {c : Ctx} (h : Issues s i f c) : c.f = f := by
  obtain ⟨_, _, _, _, rfl⟩ := h.group; rfl

/-- It holds the instruction. -/
theorem Issues.instr {s : State} {i : Instr} {f : Fields} {c : Ctx} (h : Issues s i f c) : c.i = i := by
  obtain ⟨_, _, _, _, rfl⟩ := h.group; rfl

/-- An instruction without memory gives what its lane function gives (R94, R95). -/
theorem gives_alu {i : Instr} {f : Fields} {P : Ctx → Nat → Nat → Nat → Prop} {fn : Ctx → Nat → Nat × Nat}
    {m : Fields → State → Host.Outcome State Fault Refusal} (he : ∀ s, exec i s = m f s)
    (hm : ∀ s, m f s = runGroup i f s fun c s => aluOp c s (fn c))
    (hp : ∀ c l, c.f = f → c.i = i → P c l (fn c l).1 (fn c l).2) : Gives i f P := fun s c h =>
  ⟨_, _, _, fun l _ => hp c l h.fields h.instr, ((he s).trans (hm s)).trans (h.done rfl), aluThread_wrote c (fn c)⟩

end Sys2Proof.Machine
end

