-- ==== Sys2Proof/Laws/Frames.lean ====
section
/-!
SUPPORT. Whichever the free choices are: a frame can be had where none is in use and every colour is given (R237), a key domain and a context ID
where some number is free (R430, R504), and so a new context can be made.
-/
namespace Sys2Proof.Machine
open Sys2Proof

theorem colourOf_lt (fr : Nat) : colourOf fr < 16 := by
  unfold colourOf
  have h : ∀ (l : List Nat) (c : Nat), c < 16 → l.foldl (fun c k => c ^^^ (fr / 16 ^ k % 16)) c < 16 := by
    intro l
    induction l with
    | nil => exact fun c hc => hc
    | cons k l ih => exact fun c hc => ih _ (Nat.xor_lt_two_pow (n := 4) hc (Nat.mod_lt _ (by omega)))
  exact h _ _ (by omega)

theorem all_colours (c : Nat) (h : c < 16) : bit 65535 c = true := by
  have : ∀ c : Fin 16, bit 65535 c.val = true := by decide
  exact this ⟨c, h⟩

theorem populated_far (s : State) (pa : Nat) (h1 : 1099511627776 ≤ pa) (h2 : pa < 1099511627776 + 4 * 103079215104) : populated s pa = true := by
  have hh : homeOf pa = some ((pa - 1099511627776) / 103079215104, false) := by
    unfold homeOf
    rw [if_neg (by omega), if_pos ⟨h1, h2⟩]
  unfold populated
  rw [hh]

theorem tfind_of_ne {α : Type} {t : Table α} {k : Nat} (h : ∀ x ∈ t, x.1 ≠ k) : tfind t k = none := by
  induction t with
  | nil => rfl
  | cons x t ih =>
    obtain ⟨i, v⟩ := x
    rw [tfind, if_neg (h (i, v) (List.mem_cons_self ..))]
    exact ih fun y hy => h y (List.mem_cons_of_mem _ hy)

/-- A far frame of a die is free where every frame in use is near. -/
theorem far_free {s : State} (die k : Nat) (hd : die < 4) (hk : k < 786432) (hf : ∀ x ∈ s.frames, x.1 < 8388608) (hl : s.laters = []) :
    frameFree s 65535 (8388608 + 786432 * die + k) = true := by
  have hp : populated s ((8388608 + 786432 * die + k) * frameBytes) = true :=
    populated_far s _ (by unfold frameBytes; omega) (by unfold frameBytes; omega)
  have hn : tfind s.frames (8388608 + 786432 * die + k) = none := tfind_of_ne fun x hx => by have := hf x hx; omega
  unfold frameFree stepLeaving
  rw [hn, hl, hp, all_colours _ (colourOf_lt _)]
  simp

theorem frameOn_far_near {s : State} (die : Nat) (hd : die < 4) (hf : ∀ x ∈ s.frames, x.1 < 8388608) (hl : s.laters = []) :
    (frameOn s 65535 die 1).isSome = true := by
  unfold frameOn tierFrames
  obtain ⟨n, hn⟩ : ∃ n, Nat.min 786432 (16 * (s.frames.length + 1) + 4096) = Nat.succ n :=
    ⟨Nat.min 786432 (16 * (s.frames.length + 1) + 4096) - 1, by simp only [Nat.min_def]; split <;> omega⟩
  simp only [show (1 : Nat) ≠ 0 from by decide, if_false]
  rw [hn, searchFrame]
  simp only [Nat.mod_mod]
  rw [far_free die _ hd (Nat.mod_lt _ (by omega)) hf hl, if_pos rfl, Option.isSome_some]

theorem frameOn_far {s : State} (die : Nat) (hd : die < 4) (hf : s.frames = []) (hl : s.laters = []) :
    (frameOn s 65535 die 1).isSome = true := frameOn_far_near die hd (by simp [hf]) hl

theorem roomiestDie_lt (s : State) (colours : Nat) (ts : List Nat) : roomiestDie s colours ts < 4 := by
  unfold roomiestDie
  have h : ∀ (l : List Nat) (d : Nat), d < 4 → (∀ e ∈ l, e < 4) →
      l.foldl (fun d e => if freeFrames s colours d ts < freeFrames s colours e ts then e else d) d < 4 := by
    intro l
    induction l with
    | nil => exact fun d hd _ => hd
    | cons e l ih =>
      intro d hd he
      refine ih _ ?_ fun x hx => he x (List.mem_cons_of_mem _ hx)
      dsimp only
      split
      · exact he e (List.mem_cons_self ..)
      · exact hd
  exact h _ _ (by omega) fun e he => by have := mem_fromTo.mp he; omega

theorem findSome_anyTier {s : State} {α : Type} (f : Nat → Option α) (h : (f 1).isSome = true) : ((anyTier s).findSome? f).isSome = true := by
  unfold anyTier
  obtain ⟨x, hx⟩ := Option.isSome_iff_exists.mp h
  split <;> cases h0 : f 0 <;> simp [List.findSome?, h0, hx]

theorem rootFrame_isSome {s : State} (part dom : Nat) (hc : (s.front part).colours = 65535) (hf : s.frames = []) (hl : s.laters = []) :
    (rootFrame s part dom).isSome = true := by
  unfold rootFrame
  rw [Option.isSome_map, hc]
  exact findSome_anyTier _ (frameOn_far _ (roomiestDie_lt ..) hf hl)

/-- Some number below n passes, whichever the number that the search starts at. -/
theorem find_from {p : Nat → Bool} (k n i : Nat) (hi : i < n) (h : p i = true) :
    ((fromTo (k % n) (n - k % n) ++ fromTo 0 (k % n)).find? p).isSome = true := by
  rw [List.find?_isSome]
  refine ⟨i, List.mem_append.mpr ?_, h⟩
  have hk : k % n < n := Nat.mod_lt _ (by omega)
  rcases Nat.lt_or_ge i (k % n) with h' | h'
  · exact .inr (mem_fromTo.mpr ⟨by omega, by omega⟩)
  · exact .inl (mem_fromTo.mpr ⟨h', by omega⟩)

theorem freeDomain_isSome {s : State} (i : Nat) (hi : i < 16384) (h : tfind s.keyDoms i = none) : (freeDomain s).isSome = true :=
  find_from _ _ i hi (by rw [h]; rfl)

theorem freeCtx_isSome {s : State} (i : Nat) (hi : i < 4096) (h : s.ctx i = none) : (freeCtx s).isSome = true :=
  find_from _ _ i hi (by rw [h]; rfl)

theorem newContext_isSome {s : State} (id : Nat) (dedup : Option Nat) (c : Context) (i : Nat) (hi : i < 16384) (h : tfind s.keyDoms i = none)
    (hc : (s.front c.part).colours = 65535) (hf : s.frames = []) (hl : s.laters = []) : (newContext s id dedup c).isSome = true := by
  unfold newContext newDomain
  obtain ⟨n, hn⟩ := Option.isSome_iff_exists.mp (freeDomain_isSome i hi h)
  rw [hn]
  dsimp only [Option.map_some]
  rw [Option.isSome_map]
  exact rootFrame_isSome _ _ hc hf hl

theorem makeFork_isSome {s : State} (tmpl x : Nat) (t : Context) (id i : Nat) (hi : i < 16384) (h : tfind s.keyDoms i = none)
    (hc : (s.front (bits x 47 44)).colours = 65535) (hf : s.frames = []) (hl : s.laters = []) : (makeFork s tmpl x t id).isSome = true := by
  unfold makeFork
  rw [Option.isSome_map]
  exact newContext_isSome _ _ _ i hi h hc hf hl

theorem pickFrame_far {s : State} {ctx : Nat} {c : Context} (h : s.ctx ctx = some c) (hd : homeDie c.root < 4)
    (hc : (s.front c.part).colours = 65535) (hf : s.frames = []) (hl : s.laters = []) : (pickFrame s ctx [1]).isSome = true := by
  obtain ⟨fr, hfr⟩ := Option.isSome_iff_exists.mp (frameOn_far _ hd hf hl)
  simp [pickFrame, pickMasked, h, hc, List.findSome?, hfr]

/-! ### The frame that a search gives is free -/

theorem searchFrame_free {s : State} {colours base count fuel k fr : Nat} (h : searchFrame s colours base count fuel k = some fr) :
    frameFree s colours fr = true := by
  induction fuel generalizing k with
  | zero => exact absurd h (by simp [searchFrame])
  | succ n ih =>
    rw [searchFrame] at h
    split at h
    · rename_i hfree
      exact (Option.some.inj h) ▸ hfree
    · exact ih h

theorem pickFrame_unused {s : State} {ctx fr : Nat} {tiers : List Nat} (h : pickFrame s ctx tiers = some fr) : tfind s.frames fr = none := by
  have hx {colours die : Nat} (h : tiers.findSome? (frameOn s colours die) = some fr) : tfind s.frames fr = none := by
    obtain ⟨t, -, ht⟩ := List.exists_of_findSome?_eq_some h
    have hfree := searchFrame_free ht
    unfold frameFree at hfree
    simp only [Bool.and_eq_true, Option.isNone_iff_eq_none] at hfree
    exact hfree.1.1.1
  unfold pickFrame at h
  split at h
  · exact absurd h (by simp)
  · unfold pickMasked at h
    split at h
    · rename_i h1
      exact hx (h1.trans h)
    · exact hx h

theorem pickFrame_any {s : State} {ctx : Nat} {c : Context} (h : s.ctx ctx = some c) (hd : homeDie c.root < 4)
    (hc : (s.front c.part).colours = 65535) (hf : ∀ x ∈ s.frames, x.1 < 8388608) (hl : s.laters = []) : (pickFrame s ctx (anyTier s)).isSome = true := by
  obtain ⟨fr, hfr⟩ := Option.isSome_iff_exists.mp (findSome_anyTier (s := s) (frameOn s 65535 (homeDie c.root)) (frameOn_far_near _ hd hf hl))
  simp [pickFrame, pickMasked, h, hc, hfr]

/-- Zeroing a frame that no listed byte is in changes no byte. -/
theorem zeroMem_mem {s : State} (fr : Nat) (h : ∀ c ∈ s.mem, c.1 / frameBytes ≠ fr) : (zeroMem s (fr * frameBytes) frameBytes).mem = s.mem := by
  refine List.filter_eq_self.mpr fun c hc => decide_eq_true ?_
  have := h c hc
  unfold frameBytes at *
  omega

/-! ### No frame: a partition without colours -/

theorem searchFrame_none {s : State} (base count fuel k : Nat) : searchFrame s 0 base count fuel k = none := by
  induction fuel generalizing k with
  | zero => rfl
  | succ n ih => simp [searchFrame, ih, frameFree, bit]

theorem pickFrame_none {s : State} {ctx : Nat} (tiers : List Nat) (h : ∀ c, s.ctx ctx = some c → (s.front c.part).colours = 0) :
    pickFrame s ctx tiers = none := by
  unfold pickFrame
  cases hc : s.ctx ctx with
  | none => rfl
  | some c =>
    have hf (die : Nat) : tiers.findSome? (frameOn s 0 die) = none :=
      List.findSome?_eq_none_iff.mpr fun t _ => searchFrame_none _ _ _ _
    simp [pickMasked, h c hc, hf]

theorem rootFrame_none {s : State} (part dom : Nat) (h : (s.front part).colours = 0) : rootFrame s part dom = none := by
  have hf (die : Nat) : (anyTier s).findSome? (frameOn s 0 die) = none :=
    List.findSome?_eq_none_iff.mpr fun t _ => searchFrame_none _ _ _ _
  unfold rootFrame
  dsimp only
  rw [h, hf]
  rfl

theorem newContext_none {s : State} (id : Nat) (dedup : Option Nat) (c : Context) (h : (s.front c.part).colours = 0) : newContext s id dedup c = none := by
  unfold newContext newDomain
  cases freeDomain s with
  | none => rfl
  | some n =>
    dsimp only [Option.map_some]
    rw [Option.map_eq_none_iff]
    exact rootFrame_none _ _ h

theorem makeFork_none {s : State} (tmpl x : Nat) (t : Context) (id : Nat) (h : (s.front (bits x 47 44)).colours = 0) : makeFork s tmpl x t id = none := by
  unfold makeFork
  rw [newContext_none _ _ _ h]
  rfl

theorem bringOrRoom_none {s : State} {ctx va : Nat} {l : Leaf} (tiers : List Nat) (hr : pteRES l.pte = false) (ht : pteTier l.pte = 2)
    (hv : victims s = []) (h : ∀ c, s.ctx ctx = some c → (s.front c.part).colours = 0) : bringOrRoom s ctx va l tiers = none := by
  have hb : bringPage s ctx va l tiers = none := by simp [bringPage, hr, ht, newFrame, pickFrame_none tiers h]
  have hm : makeRoom s = none := by simp [makeRoom, hv]
  simp [bringOrRoom, hb, hm]

end Sys2Proof.Machine
end

