-- ==== Sys2Proof/Laws/Memory.lean ====
section
/-!
SUPPORT. Module memory: a byte read after a write, and the canonical form, which every operation that changes memory keeps
(R480; log entry 4).
-/
namespace Sys2Proof.Machine
open Sys2Proof

theorem wf_iff (m : List Host.Cell) : Memory.wf m = true ↔ canonical memDefault m := by
  simp [Memory.wf, canonical]

theorem wf_reset : Memory.wf State.reset.mem = true := rfl

/-! ### Reading after writing -/

theorem writeCells_wf (m : List Host.Cell) (pa : Nat) (bs : List Byte) (h : Memory.wf m = true) :
    Memory.wf (writeCells m pa bs) = true := by
  induction bs generalizing m pa with
  | nil => exact h
  | cons b bs ih => exact ih _ _ ((wf_iff _).mpr (canonical_tput _ _ ((wf_iff _).mp h)))

theorem tget_writeCells_outside (m : List Host.Cell) (pa : Nat) (bs : List Byte) {a : Nat}
    (h : a < pa ∨ pa + bs.length ≤ a) : tget memDefault (writeCells m pa bs) a = tget memDefault m a := by
  induction bs generalizing m pa with
  | nil => rfl
  | cons b bs ih =>
    simp only [List.length_cons] at h
    rw [writeCells, ih _ _ (by omega), tget_tput_other _ _ (by omega)]

theorem tget_writeCells_inside (m : List Host.Cell) (pa : Nat) (bs : List Byte) {i : Nat} (h : i < bs.length) :
    tget memDefault (writeCells m pa bs) (pa + i) = bs[i] := by
  induction bs generalizing m pa i with
  | nil => exact absurd h (Nat.not_lt_zero _)
  | cons b bs ih =>
    cases i with
    | zero => rw [Nat.add_zero, writeCells, tget_writeCells_outside _ _ _ (by omega), tget_tput_same]; rfl
    | succ i =>
      have := ih (tput memDefault m pa b) (pa + 1) (i := i) (by simpa using h)
      have e : pa + (i + 1) = pa + 1 + i := by omega
      simpa [writeCells, e] using this

/-- A byte outside the bytes written reads as before. -/
theorem readByte_writeMem_outside (s : State) (pa : Nat) (bs : List Byte) {a : Nat}
    (h : a < pa ∨ pa + bs.length ≤ a) : readByte (writeMem s pa bs) a = readByte s a :=
  tget_writeCells_outside _ _ _ h

/-- A byte written reads as written. -/
theorem readByte_writeMem_inside (s : State) (pa : Nat) (bs : List Byte) {i : Nat} (h : i < bs.length) : readByte (writeMem s pa bs) (pa + i) = bs[i] :=
  tget_writeCells_inside _ _ _ h

/-! ### The operations that change memory keep its form -/

theorem wf_writeMem (s : State) (pa : Nat) (bs : List Byte) (h : Memory.wf s.mem = true) :
    Memory.wf (writeMem s pa bs).mem = true := writeCells_wf _ _ _ h

theorem wf_writeNat (s : State) (pa n x : Nat) (h : Memory.wf s.mem = true) :
    Memory.wf (writeNat s pa n x).mem = true := wf_writeMem _ _ _ h

theorem wf_zeroMem (s : State) (pa n : Nat) (h : Memory.wf s.mem = true) : Memory.wf (zeroMem s pa n).mem = true :=
  (wf_iff _).mpr (canonical_filter _ ((wf_iff _).mp h))

theorem wf_copyMem (s : State) (src dst n : Nat) (h : Memory.wf s.mem = true) :
    Memory.wf (copyMem s src dst n).mem = true :=
  (wf_iff _).mpr (canonical_foldl_tput _ _ _ ((wf_iff _).mp (wf_zeroMem s dst n h)))

theorem wf_poisonFailed (s : State) (pa n : Nat) (h : Memory.wf s.mem = true) :
    Memory.wf (poisonFailed s pa n).mem = true := h

theorem wf_writePlace (s : State) (bs : List Byte) (p : Place) (h : Memory.wf s.mem = true) :
    Memory.wf (writePlace s bs p).mem = true := by
  cases p with
  | mem pa => exact wf_writeMem _ _ _ h
  | scratch c o => exact h
  | column c u b => exact h
  | foreign d pa => exact h

/-- A line that leaves L2 keeps the form, whatever was written under another key. -/
theorem wf_evictForeign (s : State) (key : Nat) (h : Memory.wf s.mem = true) : Memory.wf (evictForeign s key).mem = true := by
  unfold evictForeign
  split
  · exact h
  · dsimp only
    split
    · exact wf_writeMem _ _ _ h
    · exact h

theorem wf_readBacking (s : State) (loc fr : Nat) (h : Memory.wf s.mem = true) :
    Memory.wf (readBacking s loc fr).mem = true :=
  (wf_iff _).mpr (canonical_foldl_tput _ _ _ ((wf_iff _).mp h))

theorem wf_copyIn (s : State) (src fr : Nat) (h : Memory.wf s.mem = true) : Memory.wf (copyIn s src fr).mem = true :=
  (wf_iff _).mpr (canonical_foldl_tput _ _ _ ((wf_iff _).mp h))

end Sys2Proof.Machine
end

