-- ==== Sys2Proof/Laws/Saving.lean ====
section
/-!
SUPPORT. How long the runs are that the device writes to a save slot (R445, R446), and that where their pieces stand depends on the
addresses and lengths alone (R443).
-/
namespace Sys2Proof.Machine
open Sys2Proof

theorem flatMap_length_const {α β : Type} (l : List α) (f : α → List β) (n : Nat) (h : ∀ x ∈ l, (f x).length = n) :
    (l.flatMap f).length = l.length * n := by
  induction l with
  | nil => simp
  | cons x xs ih =>
    rw [List.flatMap_cons, List.length_append, h x (by simp), ih fun y hy => h y (by simp [hy]), List.length_cons, Nat.add_mul, Nat.one_mul, Nat.add_comm]

theorem deviceBytes_length (s : State) (k n : Nat) : (deviceBytes s k n).length = n := by
  simp only [deviceBytes, List.length_map, fromTo_length]

theorem groupRun_length (s : State) (h : Handler) : (groupRun s h).length = 25088 := by
  unfold groupRun capturedBytes
  rw [List.length_append, List.length_append, deviceBytes_length,
    flatMap_length_const _ _ 8 fun _ _ => toBytes_length _ _,
    flatMap_length_const (fromTo 0 96) _ 256 fun _ _ => by
      rw [flatMap_length_const _ _ 4 fun _ _ => toBytes_length _ _, fromTo_length],
    fromTo_length, fromTo_length]

theorem headerBytes_length (s : State) (t : Team) (h : t.tiles ≤ 4080) : (headerBytes s t).length = 65536 := by
  unfold headerBytes
  rw [List.length_append, List.length_append, deviceBytes_length, deviceBytes_length,
    flatMap_length_const _ _ 16 fun _ _ => toBytes_length _ _, fromTo_length]
  omega

theorem teamRun_length (s : State) (t : Team) (tid : Nat) (h : t.tiles ≤ 4080) :
    (teamRun s t tid).2.length = 65536 + t.tiles * 2048 + t.accum * 32768 + t.scratchSize + 64 * carderEntries s t tid := by
  simp only [teamRun, List.length_append, headerBytes_length s t h, deviceBytes_length, latchBytes, tilesBytes, scratchBytes, List.length_map,
    fromTo_length]
  rw [flatMap_length_const _ _ 8 fun _ _ => by unfold pairBytes; exact toBytes_length _ _, fromTo_length]
  omega

/-- The addresses and lengths of the pieces of a run of `n` bytes. -/
def pieceShape : Nat → Nat → Nat → List (Nat × Nat)
  | 0, _, _ => []
  | fuel + 1, va, n =>
    let m := 4096 - va % 4096
    if n = 0 then [] else (va, Nat.min m n) :: pieceShape fuel (va + m) (n - m)

theorem splitRun_shape (fuel va : Nat) (bs : List Byte) :
    (splitRun fuel va bs).map (fun p => (p.1, p.2.length)) = pieceShape fuel va bs.length := by
  induction fuel generalizing va bs with
  | zero => rfl
  | succ fuel ih =>
    simp only [splitRun, pieceShape]
    by_cases h : bs = []
    · subst h; simp
    · have h0 : bs.length ≠ 0 := fun e => h (List.length_eq_zero_iff.mp e)
      have h1 : bs.isEmpty = false := by cases bs <;> simp_all
      simp only [h1, h0, if_false, Bool.false_eq_true, List.map_cons, ih, List.length_take, List.length_drop]

/-- The addresses and lengths of the pieces of runs whose addresses and lengths are given. -/
def runsShape (rs : List (Nat × Nat)) : List (Nat × Nat) := rs.flatMap fun r => pieceShape (r.2 / 4096 + 2) r.1 r.2

theorem splitRuns_shape (runs : List (Nat × List Byte)) :
    (splitRuns runs).map (fun p => (p.1, p.2.length)) = runsShape (runs.map fun r => (r.1, r.2.length)) := by
  simp only [splitRuns, runsShape, List.map_flatMap, splitRun_shape, List.flatMap_map]

/-- Pieces are reached as accesses of their addresses and lengths are. -/
theorem reachPieces_of_shape {s s1 : State} {core ctx : Nat} {w : Access} {ps : List (Nat × List Byte)} {hits : List Hit} {sh : List (Nat × Nat)}
    (hs : ps.map (fun p => (p.1, p.2.length)) = sh) (hb : sh.all (fun p => decide (p.1 + p.2 ≤ 2 ^ 56)) = true)
    (hr : reachGlobal s core ctx w true (sh.map fun p => { lane := 0, addr := BitVec.ofNat 64 p.1, n := p.2 }) = .ok s1 hits) :
    reachPieces s core ctx w ps = .ok s1 hits := by
  subst hs
  unfold reachPieces
  have hn : ps.find? (fun p => decide (p.1 + p.2.length > 2 ^ 56)) = none := by
    rw [List.find?_eq_none]
    intro p hp
    have := List.all_eq_true.mp hb (p.1, p.2.length) (List.mem_map.mpr ⟨p, hp, rfl⟩)
    simp only [decide_eq_true_eq] at this ⊢
    omega
  rw [hn]
  simpa only [List.map_map, Function.comp_def] using hr

end Sys2Proof.Machine
end

