-- ==== Sys2Proof/Machine/Cheys.lean ====
section
/-!
DEFINITION. What the assembler decides about words: which operand or immediate holds a literal (R61), how expressions evaluate (R63), the limits
of a kernel's directives (R64), and how code and data of a kernel section are laid out in fetch blocks (R62, R65). Its source
notation is read in Machine/Source.lean.
-/
namespace Sys2Proof.Machine
open Sys2Proof

/-! ### Literals (R61) -/

/-- What a literal in the source-B position becomes. -/
inductive Literal where
  | zero
  | const (k : Nat)
  /-- BIMM with IMM13 in the medium form, or with IMM32 in the long form (R50). -/
  | imm13 (x : BitVec 13)
  | imm32 (x : Word)
  deriving DecidableEq, Repr

/-- A rational ± p / q rounded to nearest even into the element format of a type; twice for a packed one (R61). -/
def literalBits (f : Fmt) (packed neg : Bool) (p q : Nat) : Nat :=
  let e := (roundRat f .rne neg p q).1
  if packed then e + 2 ^ 16 * e else e

/-- The immediate of the medium form that stands for a value of 32 or 64 bits, where there is one (R50). -/
def medium13 (float wide : Bool) (x : Nat) : Option (BitVec 13) :=
  if float then (if x % 2 ^ 19 = 0 then some (BitVec.ofNat 13 (x / 2 ^ 19)) else none)
  else
    let y : BitVec 13 := BitVec.ofNat 13 x
    if (if wide then (y.signExtend 64).toNat else (y.signExtend 32).toNat) = x then some y else none

/-- The immediate of the long form. -/
def long32 (wide : Bool) (x : Nat) : Option Word :=
  let y : Word := BitVec.ofNat 32 x
  if (if wide then (y.signExtend 64).toNat else y.toNat) = x then some y else none

/-- A literal of a type in the source-B position (R61): `zero`, an entry of the constant table, the medium form, the long form; `none` is an
assembly error. `bimm` says that the instruction accepts BIMM, `float` that its type is `.f32` in the floating-point family, and `half` that
its type has no medium immediate (R50). DEDUCED, log entry 62. -/
def placeLiteral (ty : Ty) (bimm float half : Bool) (x : Nat) : Option Literal :=
  let wide := tyBits ty = 64
  if x = 0 then some .zero
  else match (fromTo 0 48).find? fun k => constWide ty k (if wide then 2 else 1) == x with
    | some k => some (.const k)
    | none =>
      if !bimm then none
      else match (if half then none else medium13 float wide x) with
        | some y => some (.imm13 y)
        | none => (long32 wide x).map .imm32

/-! ### Expressions (R63) -/

inductive UnaryOp where | neg | not | lnot
  deriving DecidableEq, Repr
inductive BinaryOp where | mul | div | rem | add | sub | shl | shr | and | xor | or
  deriving DecidableEq, Repr

/-- Source text. -/
abbrev Text := List Char

/-- An expression over literals and names, whose values are given. -/
inductive Expr where
  | lit (x : DWord)
  | name (t : Text)
  | un (o : UnaryOp) (a : Expr)
  | bin (o : BinaryOp) (a b : Expr)
  deriving DecidableEq, Repr

def UnaryOp.apply (o : UnaryOp) (a : DWord) : DWord :=
  match o with
  | .neg => -a
  | .not => ~~~a
  | .lnot => if a = 0 then 1 else 0

/-- 64-bit two's complement; a division by zero and a negative count are errors. -/
def BinaryOp.apply (o : BinaryOp) (a b : DWord) : Option DWord :=
  match o with
  | .mul => some (a * b)
  | .div => if b = 0 then none else some (BitVec.ofInt 64 (a.toInt.tdiv b.toInt))
  | .rem => if b = 0 then none else some (BitVec.ofInt 64 (a.toInt.tmod b.toInt))
  | .add => some (a + b)
  | .sub => some (a - b)
  | .shl => if b.toInt < 0 then none else some (a <<< b.toNat)
  | .shr => if b.toInt < 0 then none else some (a.sshiftRight b.toNat)
  | .and => some (a &&& b)
  | .xor => some (a ^^^ b)
  | .or => some (a ||| b)

def Expr.eval (names : Text → Option DWord) : Expr → Option DWord
  | .lit x => some x
  | .name n => names n
  | .un o a => (a.eval names).map o.apply
  | .bin o a b => match a.eval names, b.eval names with
    | some x, some y => o.apply x y
    | _, _ => none

/-! ### Kernels (R64) -/

/-- The directives of a kernel section, at their defaults. -/
structure Kernel where
  width   : Nat := 32
  vregs   : Nat := 64
  sregs   : Nat := 16
  team    : Nat := 1
  clw     : Nat := 1
  clh     : Nat := 1
  scratch : Nat := 262144
  /-- Requested column objects: handle and bytes. -/
  columns : List (Nat × Nat) := []
  accum   : Nat := 0
  tiles   : Nat := 0
  idemp   : Bool := false
  cores   : Bool := false
  deriving DecidableEq, Repr

/-- The limits of R64; a value outside them is an assembly error. -/
def Kernel.ok (k : Kernel) : Bool :=
  [16, 32, 64].contains k.width && k.vregs % 8 == 0 && decide (8 ≤ k.vregs ∧ k.vregs ≤ 256) &&
  k.sregs % 16 == 0 && decide (16 ≤ k.sregs ∧ k.sregs ≤ 128) && decide (1 ≤ k.team ∧ k.team ≤ 64 ∧ k.team * k.width ≤ 4096) &&
  decide (1 ≤ k.clw ∧ k.clw ≤ 8 ∧ 1 ≤ k.clh ∧ k.clh ≤ 6 ∧ k.clw * k.clh ≤ 12) &&
  k.scratch % 262144 == 0 && decide (1 ≤ k.scratch / 262144 ∧ k.scratch / 262144 ≤ 5) &&
  k.columns.all (fun c => decide (c.1 ≤ 63 ∧ 0 < c.2) && c.2 % 2048 == 0) && decide ((k.columns.map fun c => c.1).Nodup) &&
  decide ((k.columns.map fun c => c.2).foldl (· + ·) 0 ≤ 536870912) && decide (k.accum ≤ 32 ∧ k.tiles ≤ 16)

/-! ### Layout (R62, R65) -/

/-- A statement of a kernel section: an instruction as its word and length, bytes of data directives, or `.align`. -/
inductive Stmt where
  | code (w n : Nat)
  | data (bs : List Byte)
  | align (n : Nat)
  deriving DecidableEq, Repr

def Stmt.size : Stmt → Nat
  | .code _ n => n
  | .data bs => bs.length
  | .align _ => 0

/-- A medium form as the long form of the same effect (R39). -/
def widen (w : Nat) : Nat :=
  let x : BitVec 13 := BitVec.ofNat 13 (w / 2 ^ 83)
  let imm := if !w.testBit 63 then 0 else if bits w 62 58 = 14 ∧ ¬ bits w 10 2 < 0x40 then x.toNat * 2 ^ 19 else (x.signExtend 32).toNat
  let w := w - w % 4 + 2
  (if w.testBit 63 then w - x.toNat * 2 ^ 83 else w) + imm * 2 ^ 96

/-- What stands in a section, the last first, rewritten so that the block that ends at its end has one medium form less: the last one after
the block's last data. `room` is how many bytes of the block stand there. -/
def widenLast : Nat → List Stmt → List Stmt
  | _, [] => []
  | room, .code w n :: rest =>
    if room < n then .code w n :: rest
    else if n = 12 then .code (widen w) 16 :: rest
    else .code w n :: widenLast (room - n) rest
  | _, .data bs :: rest => .data bs :: rest
  | room, .align n :: rest => .align n :: widenLast room rest

/-- The word of `nop` (R57). -/
def nopWord : Nat := 0x0001FFFFFFFDFA80

/-- Bytes a section holds so far. -/
def sectionSize (xs : List Stmt) : Nat := (xs.map Stmt.size).foldl (· + ·) 0

/-- A section is filled up to a multiple of `m`, itself one of 8: first the odd four bytes of its last block, then `nop`. -/
def fillTo (m : Nat) (xs : List Stmt) : List Stmt :=
  let off := sectionSize xs
  let xs := if off % 8 = 4 then widenLast (off % 32) xs else xs
  let off := sectionSize xs % m
  if off = 0 then xs else List.replicate ((m - off) / 8) (.code nopWord 8) ++ xs

/-- A run of data ends at a multiple of 8. -/
def endData (xs : List Stmt) : List Stmt :=
  match xs with
  | .data bs :: rest => .data (bs ++ List.replicate ((8 - sectionSize xs % 8) % 8) 0) :: rest
  | _ => xs

/-- The statements of a section laid out, the last first: an instruction that would cross a fetch block begins the next one (R62); data stand
at multiples of 4, and a run of data is one statement here (R65). -/
def layOutFrom : List Stmt → List Stmt → List Stmt
  | xs, [] => endData xs
  | xs, .code w n :: rest =>
    let xs := endData xs
    let xs := if sectionSize xs % 32 + n > 32 then fillTo 32 xs else xs
    layOutFrom (.code w n :: xs) rest
  | xs, .data bs :: rest => layOutFrom (.data bs :: xs) rest
  | xs, .align n :: rest => layOutFrom (fillTo n (endData xs)) rest

def Stmt.bytes : Stmt → List Byte
  | .code w n => toBytes n w
  | .data bs => bs
  | .align _ => []

/-- A kernel section as bytes. DEDUCED, log entry 62. -/
def layOut (xs : List Stmt) : List Byte := ((layOutFrom [] xs).reverse).flatMap Stmt.bytes

/-- A matrix section has no padding but what brings data directives to multiples of 4. -/
def layOutMatrix (xs : List Stmt) : List Byte :=
  xs.foldl (fun bs x => match x with
    | .data ds => bs ++ List.replicate ((4 - bs.length % 4) % 4) 0 ++ ds
    | x => bs ++ x.bytes) []

end Sys2Proof.Machine
end

