-- ==== Sys2Proof/Machine/Lines.lean ====
section
/-!
DEFINITION. A line on its way: its encoded form (R492, R493), where that is decoded (R494), and its check value (R496). No access reads
another value for any of it: State holds decoded bytes, and the lines whose check does not match them.
-/
namespace Sys2Proof.Machine
open Sys2Proof

/-! ### The encoded form (R492, R493) -/

/-- The 32 words of a line. -/
def lineWords (bs : List Byte) : List Nat := (fromTo 0 32).map fun i => ofBytes ((bs.drop (4 * i)).take 4)

/-- Every word lies within a signed delta of `w` bits of a base. -/
def nearBase (w b : Nat) (ws : List Nat) : Bool := ws.all fun x => decide ((x + 2 ^ 32 - b + 2 ^ (w - 1)) % 2 ^ 32 < 2 ^ w)

/-- A base for deltas of `w` bits, where there is one: the line's lowest word then has the lowest delta. R492 does not say which
base is taken. DESIGN CHOICE, log entry 74. -/
def baseFor (w : Nat) (ws : List Nat) : Option Nat := (ws.map fun x => (x + 2 ^ (w - 1)) % 2 ^ 32).find? fun b => nearBase w b ws

/-- Base and deltas. -/
def deltaBody (w b : Nat) (ws : List Nat) : List Byte :=
  toBytes 4 b ++ toBytes (4 * w) (packNat (ws.map fun x => (w, (x + 2 ^ 32 - b) % 2 ^ w)))

/-- The CODE of a line with the fewest stored sectors, the lowest among equals, with its body; a poisoned line is stored raw (R493).
DESIGN CHOICE, log entry 74. -/
def codeLine (poisoned : Bool) (bs : List Byte) : Nat × List Byte :=
  let ws := lineWords bs
  let first := ws.headD 0
  let delta (w : Nat) : Option (List Byte) := (baseFor w ws).map fun b => deltaBody w b ws
  if poisoned then (15, bs)
  else if ws.all fun x => x == 0 then (0, [])
  else if ws.all fun x => x == first then (1, toBytes 4 first)
  else match delta 4, delta 8, delta 16 with
    | some d, _, _ => (4, d)
    | none, some d, _ => (2, d)
    | none, none, some d => (3, d)
    | none, none, none => (15, bs)

/-- A line as it is stored: header and body, or its 128 bytes alone. -/
def storedLine (poisoned : Bool) (bs : List Byte) : List Byte :=
  let x := codeLine poisoned bs
  if x.1 = 15 then x.2 else toBytes 4 x.1 ++ x.2

/-- The 32-byte sectors that it takes. -/
def storedSectors (poisoned : Bool) (bs : List Byte) : Nat := ((storedLine poisoned bs).length + 31) / 32

/-! ### Where a line is decoded (R494) -/

/-- An agent on a line's path. -/
inductive Hop where
  | controller | slice | switch | link | l1 | register | scratchpad | engine | pcie
  | external (port : Nat)
  deriving DecidableEq, Repr

/-- It holds the encoded form; of an external port, as its peer advertised. -/
def holdsEncoded (s : State) : Hop → Bool
  | .controller => true
  | .slice => true
  | .switch => true
  | .link => true
  | .external p => (s.port p).encoded
  | .l1 => false
  | .register => false
  | .scratchpad => false
  | .engine => false
  | .pcie => false

/-- The first hop whose downstream neighbour does not hold the encoded form decodes the line. DESIGN CHOICE, log entry 74. -/
def decodingHop (s : State) : List Hop → Option Hop
  | a :: b :: rest => if holdsEncoded s b then decodingHop s (b :: rest) else some a
  | _ => none

/-! ### The check (R496) -/

/-- One bit of CRC-32C: the reflected form of polynomial 0x1EDC_6F41. -/
def crcBit (c : Nat) : Nat := if c % 2 = 1 then Nat.xor (c / 2) 0x82F63B78 else c / 2

/-- One byte. -/
def crcByte (c : Nat) (b : Byte) : Nat := (fromTo 0 8).foldl (fun c _ => crcBit c) (Nat.xor c b.toNat)

/-- CRC-32C of some bytes in address order. -/
def crc32c (bs : List Byte) : Nat := Nat.xor (bs.foldl crcByte 0xFFFFFFFF) 0xFFFFFFFF

/-- The check value that travels with a line of module memory: that of its decoded bytes, unless the line's check fails, when it is
another (R425, R497). DESIGN CHOICE, log entry 74. -/
def lineCheck (s : State) (line : Nat) : Option Nat :=
  if s.crcBad.contains line then none else some (crc32c (readMem s (128 * line) 128))

end Sys2Proof.Machine
end

