-- ==== Sys2Proof/Machine/Loader.lean ====
section
/-!
DEFINITION. Images (R67 to R70): the header and its tables, the loader's checks, the sections it maps with their attributes, the relocations it
makes, and what a kernel record puts into a launch packet.
-/
namespace Sys2Proof.Machine
open Sys2Proof

/-- `n` bytes of an image at an offset, as a number; bytes past its end read 0. -/
def imageNat (img : List Byte) (off n : Nat) : Nat := ofBytes ((img.drop off).take n)

/-- The header of an image (R68). -/
structure ImageHeader where
  size     : Nat
  relocs   : Nat
  reltab   : Nat
  kerntab  : Nat
  sectab   : Nat
  kernels  : Nat
  sections : Nat
  deriving DecidableEq, Repr

/-- The header as 64 bytes give it; `none` where its magic, its version, a reserved field or a count is not as R68 says. -/
def readHeader (img : List Byte) : Option ImageHeader :=
  let h := imageNat img 0 64
  if bits h 31 0 ≠ 0x34564553 ∨ bits h 47 32 ≠ 1 ∨ bits h 63 48 ≠ 0 ∨ bits h 383 352 ≠ 0 ∨ bits h 511 448 ≠ 0 ∨
      bits h 95 64 = 0 ∨ bits h 95 64 > 4 then none
  else some
    { size := bits h 447 384, relocs := bits h 351 320, reltab := bits h 319 256, kerntab := bits h 255 192, sectab := bits h 191 128
      kernels := bits h 127 96, sections := bits h 95 64 }

/-- A section of an image (R69). -/
inductive SectionKind where | code | matrix | readOnly | writable
  deriving DecidableEq, Repr

structure Section where
  kind   : SectionKind
  size   : Nat
  offset : Nat
  deriving DecidableEq, Repr

def sectionKind : Nat → Option SectionKind
  | 1 => some .code
  | 2 => some .matrix
  | 3 => some .readOnly
  | 4 => some .writable
  | _ => none

/-- The record at an offset; a reserved field, an unknown KIND or an offset that is no multiple of 131,072 is refused. -/
def readSection (img : List Byte) (at' : Nat) : Option Section :=
  let r := imageNat img at' 32
  if bits r 255 160 ≠ 0 ∨ bits r 63 0 % 131072 ≠ 0 then none
  else (sectionKind (bits r 159 128)).map fun k => { kind := k, size := bits r 127 64, offset := bits r 63 0 }

/-- The offset of the word that a relocation record names; KIND 1 is the only one. -/
def readReloc (img : List Byte) (at' : Nat) : Option Nat :=
  let r := imageNat img at' 16
  if bits r 127 72 ≠ 0 ∨ bits r 71 64 ≠ 1 ∨ bits r 63 0 % 8 ≠ 0 then none else some (bits r 63 0)

/-- A kernel record (R70). -/
structure KernelRecord where
  kernel  : Kernel
  name    : Nat
  matrix  : Nat
  entry   : Nat
  deriving DecidableEq, Repr

/-- The column requests of a list, in source order. -/
def readColumns (img : List Byte) (at' : Nat) : Nat → Option (List (Nat × Nat))
  | 0 => some []
  | n + 1 =>
    let r := imageNat img at' 16
    if bits r 63 6 ≠ 0 then none else (readColumns img (at' + 16) n).map fun xs => (bits r 5 0, bits r 127 64) :: xs

def readKernel (img : List Byte) (at' : Nat) : Option KernelRecord :=
  let r := imageNat img at' 64
  if bits r 511 464 ≠ 0 ∨ bits r 383 322 ≠ 0 ∨ bits r 463 448 > 64 then none
  else (readColumns img (bits r 447 384) (bits r 463 448)).map fun cs =>
    { kernel :=
        { width := bits r 207 192, vregs := bits r 223 208, sregs := bits r 239 224, team := bits r 255 240, clw := bits r 263 256
          clh := bits r 271 264, scratch := bits r 319 288, columns := cs, accum := bits r 279 272, tiles := bits r 287 280
          idemp := r.testBit 320, cores := r.testBit 321 }
      name := bits r 191 128, matrix := bits r 127 64, entry := bits r 63 0 }

/-- Records of a table, each of `len` bytes. -/
def readTable {α : Type} (f : Nat → Option α) (len : Nat) : Nat → Nat → Option (List α)
  | _, 0 => some []
  | at', n + 1 => match f at', readTable f len (at' + len) n with
    | some x, some xs => some (x :: xs)
    | _, _ => none

/-- An image as the loader takes it. -/
structure Image where
  header   : ImageHeader
  sections : List Section
  kernels  : List KernelRecord
  relocs   : List Nat
  deriving DecidableEq, Repr

/-- The loader's checks (R68). -/
def readImage (img : List Byte) : Option Image :=
  match readHeader img with
  | none => none
  | some h => match readTable (readSection img) 32 h.sectab h.sections, readTable (readKernel img) 64 h.kerntab h.kernels,
      readTable (readReloc img) 16 h.reltab h.relocs with
    | some ss, some ks, some rs => some { header := h, sections := ss, kernels := ks, relocs := rs }
    | _, _, _ => none

/-- The attributes that MAP takes for a section (R68, R509): code and matrix execute-only, read-only data read-only and read-mostly, writable
data writable. -/
def SectionKind.attrs : SectionKind → Nat
  | .code => 2 ^ 4
  | .matrix => 2 ^ 4
  | .readOnly => 2 ^ 2 + 2 ^ 15
  | .writable => 2 ^ 2 + 2 ^ 3

/-- Each relocation adds the base to its 64-bit word. -/
def relocate (base : Nat) (img : List Byte) (rs : List Nat) : List Byte :=
  rs.foldl (fun img o =>
    if img.length < o + 8 then img else img.take o ++ toBytes 8 (imageNat img o 8 + base) ++ img.drop (o + 8)) img

/-- Pages that the loader maps: the address of the first, how many, their attributes, and their bytes, zeroed beyond SIZE (R68). -/
structure Mapped where
  va    : Nat
  pages : Nat
  attrs : Nat
  bytes : List Byte
  deriving DecidableEq, Repr

/-- An image loaded at a base: none where the base is not a multiple of 131,072 or a check fails. DEDUCED, log entry 62. -/
def loadImage (base : Nat) (img : List Byte) : Option (List Mapped) :=
  if base % 131072 ≠ 0 then none
  else (readImage img).map fun x =>
    let img := relocate base img x.relocs
    x.sections.map fun s =>
      { va := base + s.offset, pages := ceilDiv s.size 131072, attrs := s.kind.attrs, bytes := (img.drop s.offset).take s.size }

/-- What the host runtime copies from a kernel record into a launch packet, the image standing at `base` (R70, R220). -/
def KernelRecord.packet (k : KernelRecord) (base : Nat) (p : Packet) : Packet :=
  { p with
    entry := base + k.entry, matoff := if k.matrix = 0 then 0 else ((k.matrix : Int) - k.entry) / 32, width := k.kernel.width
    vregs := k.kernel.vregs, sregs := k.kernel.sregs, team := k.kernel.team, clw := k.kernel.clw, clh := k.kernel.clh
    colmask := (k.kernel.columns.map fun c => c.1).foldl (fun m h => setBit1 m h true) 0
    scratch := k.kernel.scratch / 262144, accum := k.kernel.accum, tiles := k.kernel.tiles, cores := k.kernel.cores, idemp := k.kernel.idemp }

end Sys2Proof.Machine
end

