-- ==== Sys2Proof/Machine/Source.lean ====
section
/-!
DEFINITION. The source notation of the assembler: lines, labels and names (R58), statements with their guard, suffixes, operands and flag (R47,
R48, R52, R59, R60), expressions (R63), and what the directives say and emit (R64, R65).
-/
namespace Sys2Proof.Machine
open Sys2Proof

/-! ### Lines and names (R58) -/

def identStart (c : Char) : Bool := c.isAlpha || c == '_' || c == '$'
def identPart (c : Char) : Bool := identStart c || c.isDigit || c == '.'

def isIdent : Text → Bool
  | c :: cs => identStart c && cs.all identPart
  | [] => false

def skipBlanks (t : Text) : Text := t.dropWhile Char.isWhitespace
def trim (t : Text) : Text := (skipBlanks (skipBlanks t).reverse).reverse

/-- The labels in front of a line and what follows them. -/
def takeLabels : Nat → Text → List Text × Text
  | 0, t => ([], t)
  | n + 1, t =>
    let t := skipBlanks t
    let w := t.takeWhile identPart
    match t.dropWhile identPart with
    | ':' :: rest =>
      if isIdent w then
        let r := takeLabels n rest
        (w :: r.1, r.2)
      else ([], t)
    | _ => ([], t)

/-- A line: its labels, and its statement without the comment. DEDUCED, log entry 62. -/
def readLine (t : Text) : List Text × Text :=
  let t := t.takeWhile (· != ';')
  let r := takeLabels t.length t
  (r.1, trim r.2)

/-- What stands between occurrences of a character. -/
def splitAt' (c : Char) : Text → List Text
  | [] => [[]]
  | x :: xs =>
    if x == c then [] :: splitAt' c xs
    else match splitAt' c xs with
      | w :: ws => (x :: w) :: ws
      | [] => [[x]]

/-- A decimal number without a leading zero. -/
def indexNat (t : Text) : Option Nat :=
  if t = [] ∨ ¬ t.all Char.isDigit ∨ (t.length ≠ 1 ∧ t.head? = some '0') then none
  else some (t.foldl (fun n c => 10 * n + (c.toNat - 48)) 0)

/-- A name that is a letter and a number below a bound. -/
def numbered (c : Char) (bound : Nat) : Text → Option Nat
  | x :: xs => if x == c then (indexNat xs).bind fun n => if n < bound then some n else none else none
  | [] => none

/-- The special registers by name (R213). -/
def specialNames : List Text :=
  ["sr.lane", "sr.width", "sr.group", "sr.team", "sr.teamsize", "sr.cluster", "sr.clupos", "sr.clushape", "sr.gridx", "sr.gridy",
   "sr.gridz", "sr.core", "sr.die", "sr.slice", "sr.ctx", "sr.fstat", "sr.clk", "sr.ctime", "sr.lmap", "sr.prio"].map String.toList

/-- The mnemonics of R56 with their opcode slots: each list fills the slots from its first on. -/
def mnemonicRows : List (Nat × List String) :=
  [(0x001, ["add", "sub", "addc", "subb", "mul", "mulhi", "mad"]),
   (0x008, ["madw", "min", "max", "and", "or", "xor", "not", "shl"]),
   (0x010, ["shr", "sar", "shf", "bfx", "bfi", "popc", "clz", "brev"]),
   (0x018, ["lea", "sel", "cmp", "mov", "movi", "dp4"]),
   (0x040, ["fadd", "fsub", "fmul", "ffma", "fmin", "fmax", "fcmp", "frnd"]),
   (0x048, ["ffrac", "fclass", "fldexp", "frcp", "frsq", "fsqrt", "fexp2", "flog2"]),
   (0x050, ["fsin", "fcos", "ftanh", "fdp2", "cvt", "cvts", "osm.upd", "osm.fin"]),
   (0x058, ["rng", "xbox", "xtri"]),
   (0x080, ["plop", "pmov", "pbits", "pset"]),
   (0x088, ["vote", "match", "shfl", "redux", "scan", "lmask", "lmap"]),
   (0x0A0, ["nop", "bru", "br", "brx", "call", "calx", "ret", "exit"]),
   (0x0A8, ["yld", "trap", "brk", "vcall"]),
   (0x0C0, ["ld", "st", "atom", "cas", "red", "fence", "cinv", "pf"]),
   (0x0C8, ["ldk"]),
   (0x0D0, ["ldi", "sti", "smp", "smpg", "txq"]),
   (0x100, ["vgrow", "vshrink", "sgrow", "rgn", "bta", "btw", "bt", "bcl"]),
   (0x108, ["lnch", "srd", "msync"]),
   (0x120, ["reel.go", "reel.add", "reel.st", "wcnt", "bo.init", "bo.exp", "bo.arr", "bo.wait"]),
   (0x128, ["bo.try", "lpq", "crd.put", "crd.flush", "qpop", "qtry", "sp.go", "sp.stop"]),
   (0x140, ["row.act", "row.rd", "row.wr", "row.cls", "row.st"]),
   (0x160, ["tret", "tfr", "tinj", "ctx.fork", "ctx.gate", "tier.rec", "tier.pin", "tier.unpin"]),
   (0x168, ["srw", "cobj.map", "tlb.inv", "venc"]),
   (0x180, ["qpush"]),
   (0x1C0, ["mma", "mmb", "tdef", "tld", "azero", "ast", "ald", "ascl"]),
   (0x1C8, ["msig", "mwait", "mloop", "mend", "row.con"])]

/-- The opcode slots from one on, with the mnemonics that fill them. -/
def slotsFrom : Nat → List String → List (Nat × Text)
  | _, [] => []
  | n, m :: ms => (n, m.toList) :: slotsFrom (n + 1) ms

def mnemonics : List (Nat × Text) := mnemonicRows.flatMap fun r => slotsFrom r.1 r.2

/-- The opcode slot of a word's longest prefix of dotted parts that is a mnemonic, its mnemonic and the suffixes after it. -/
def splitMnemonic (t : Text) : Option (Nat × Text × List Text) :=
  match splitAt' '.' t with
  | a :: b :: rest =>
    match mnemonics.find? fun m => m.2 == a ++ '.' :: b with
    | some m => some (m.1, m.2, rest)
    | none => (mnemonics.find? fun m => m.2 == a).map fun m => (m.1, m.2, b :: rest)
  | [a] => (mnemonics.find? fun m => m.2 == a).map fun m => (m.1, m.2, [])
  | [] => none

/-- The words of a clause header. -/
def headerWords : List Text := ["ch", "wait", "set", "prio", "yield", "nodual"].map String.toList

/-- A name that no label and no `.equ` may have (R58). Which suffixes a mnemonic accepts, its own description says. -/
def reservedName (accepts : Text → List Text → Bool) (t : Text) : Bool :=
  t == "zero".toList || headerWords.contains t || specialNames.contains t ||
  (numbered 'v' 256 t).isSome || (numbered 's' 128 t).isSome || (numbered 'p' 48 t).isSome || (numbered 't' 16 t).isSome ||
  (numbered 'a' 32 t).isSome || (numbered 'f' 12 t).isSome || (numbered 'c' 48 t).isSome ||
  match splitMnemonic t with
  | some (_, m, sx) => sx.isEmpty || accepts m sx
  | none => false

/-! ### Operands and guards (R43, R47, R48, R59) -/

/-- The operand field that a register name, a constant or `zero` stands for. -/
def operandField (t : Text) : Option Operand :=
  if t == "zero".toList then some .zero
  else match numbered 'v' 256 t, numbered 's' 128 t, numbered 'p' 48 t, numbered 'c' 48 t with
    | some n, _, _, _ => some (.v (Fin.ofNat 256 n))
    | _, some n, _, _ => some (.s (Fin.ofNat 128 n))
    | _, _, some n, _ => some (.p (Fin.ofNat 48 n))
    | _, _, _, some n => some (.c (Fin.ofNat 48 n))
    | _, _, _, _ => none

def flagName (t : Text) : Option (Fin 12) := (numbered 'f' 12 t).map (Fin.ofNat 12)

/-- `pa` or `!pa`. -/
def guardTerm (t : Text) : Option Guard :=
  match trim t with
  | '!' :: r => (numbered 'p' 48 (trim r)).map fun n => { pred := some (Fin.ofNat 48 n), neg := true }
  | r => (numbered 'p' 48 r).map fun n => { pred := some (Fin.ofNat 48 n), neg := false }

def noGuard : Guard := { pred := none, neg := false }

/-- What stands in the parentheses of a guard: GUARD_A, GUARD_B and GCOMB; a guard of two terms needs more than the short form. -/
def guardText (t : Text) : Option (Guard × Guard × Bool) :=
  match splitAt' '&' t, splitAt' '|' t with
  | [x, y], [_] => match guardTerm x, guardTerm y with
    | some a, some b => some (a, b, false)
    | _, _ => none
  | [_], [x, y] => match guardTerm x, guardTerm y with
    | some a, some b => some (a, b, true)
    | _, _ => none
  | [x], [_] => (guardTerm x).map fun a => (a, noGuard, false)
  | _, _ => none

/-! ### Suffixes (R41, R42, R49, R60) -/

/-- A suffix, by the class that R60 gives it. `own` is one that the instruction's description defines. -/
inductive Suffix where
  | own (t : Text)
  | space (x : Space)
  | order (x : Order)
  | scope (x : Scope)
  | rmt
  | fr
  | ty (t : Ty)
  | rnd (x : Rnd)
  | hint (h : Hint)
  | length (f : Form)
  deriving DecidableEq, Repr

def suffixTable : List (String × Suffix) :=
  [("g", .space .g), ("l", .space .l), ("k", .space .k), ("rlx", .order .rlx), ("acq", .order .acq), ("rel", .order .rel), ("ar", .order .ar),
   ("grp", .scope .grp), ("team", .scope .team), ("clu", .scope .clu), ("die", .scope .die), ("mod", .scope .mod), ("sys", .scope .sys),
   ("rmt", .rmt), ("fr", .fr)] ++
  [("s8", .ty .s8), ("s16", .ty .s16), ("s32", .ty .s32), ("s64", .ty .s64), ("n8", .ty .n8), ("n16", .ty .n16), ("n32", .ty .n32),
   ("n64", .ty .n64), ("b8", .ty .b8), ("b16", .ty .b16), ("b32", .ty .b32), ("b64", .ty .b64), ("b128", .ty .b128), ("f32", .ty .f32),
   ("f16", .ty .f16), ("bf16", .ty .bf16), ("f16x2", .ty .f16x2), ("bf16x2", .ty .bf16x2), ("e4m3", .ty .e4m3), ("e5m2", .ty .e5m2),
   ("e2m1", .ty .e2m1), ("f40", .ty .f40), ("i40", .ty .i40)] ++
  [("rne", .rnd .rne), ("rz", .rnd .rz), ("ru", .rnd .ru), ("rd", .rnd .rd), ("w96", .length .medium), ("w128", .length .long)]

/-- The suffixes of a statement; those of the cache hint have two parts. `own` says which ones the instruction's description defines. -/
def readSuffixes (own : Text → Bool) : List Text → Option (List Suffix)
  | [] => some []
  | ['h'] :: h :: rest =>
    (readSuffixes own rest).bind fun r =>
      if h == "st".toList then some (.hint .stream :: r)
      else if h == "kp".toList then some (.hint .keep :: r)
      else if h == "na".toList then some (.hint .noAlloc :: r)
      else none
  | t :: rest =>
    (readSuffixes own rest).bind fun r =>
      if own t then some (.own t :: r)
      else (suffixTable.find? fun x => x.1.toList == t).map fun x => x.2 :: r

/-- The place of a class in the order of R60; the first and the second type share theirs. -/
def Suffix.rank : Suffix → Nat
  | .own _ => 1
  | .space _ => 2
  | .order _ => 3
  | .scope _ => 4
  | .rmt => 5
  | .fr => 6
  | .ty _ => 7
  | .rnd _ => 9
  | .hint _ => 10
  | .length _ => 11

/-- In the order of R60: one of each class, but for the instruction's own and two types. -/
def suffixesOk : List Suffix → Bool
  | a :: b :: c :: rest =>
    (decide (a.rank < b.rank) || (a.rank == b.rank && (a.rank == 1 || (a.rank == 7 && c.rank != 7)))) && suffixesOk (b :: c :: rest)
  | [a, b] => decide (a.rank < b.rank) || (a.rank == b.rank && (a.rank == 1 || a.rank == 7))
  | _ => true

def orderCode : Order → Nat
  | .rlx => 0 | .acq => 1 | .rel => 2 | .ar => 3
def scopeCode : Scope → Nat
  | .grp => 0 | .team => 1 | .clu => 2 | .die => 3 | .mod => 4 | .sys => 5
def spaceCode : Space → Nat
  | .g => 0 | .l => 1 | .k => 2
def rndCode : Rnd → Nat
  | .rne => 0 | .rz => 1 | .ru => 2 | .rd => 3

/-- The bits of the word that the shared suffixes set (R38, R40, R42); the second type stands in FAM [57:53]. -/
def suffixBits : Bool → List Suffix → Nat
  | _, [] => 0
  | second, x :: rest => match x with
    | .ty t => tyCode t <<< (if second then 53 else 58) ||| suffixBits true rest
    | .space p => spaceCode p <<< 49 ||| suffixBits second rest
    | .scope p => scopeCode p <<< 51 ||| suffixBits second rest
    | .order o => orderCode o <<< 54 ||| suffixBits second rest
    | .rmt => 1 <<< 56 ||| suffixBits second rest
    | .fr => 1 <<< 57 ||| suffixBits second rest
    | .rnd r => rndCode r <<< 49 ||| suffixBits second rest
    | .hint h => hintCode h <<< 81 ||| suffixBits second rest
    | .own _ => suffixBits second rest
    | .length _ => suffixBits second rest

/-! ### Statements (R59) -/

structure Statement where
  guard    : Guard × Guard × Bool
  slot     : Nat
  mnemonic : Text
  suffixes : List Suffix
  operands : List Text
  flag     : Option (Fin 12)
  deriving DecidableEq, Repr

/-- The operand list, and the flag that a trailing `, set fn` names; an ill-written flag is refused. -/
def splitFlag : List Text → Option (List Text × Option (Fin 12))
  | [] => some ([], none)
  | x :: rest =>
    match trim x, rest with
    | 's' :: 'e' :: 't' :: ' ' :: f, [] => (flagName (trim f)).map fun n => ([], some n)
    | t, _ => (splitFlag rest).map fun r => (t :: r.1, r.2)

/-- An instruction statement: `[(guard)] mnemonic[.suffix…] [operand, …] [, set fn]`. A suffix out of order, or one that is no suffix, is
refused. DEDUCED, log entry 62. -/
def readStatement (own : Text → Text → Bool) (t : Text) : Option Statement :=
  let t := trim t
  let g := match t with
    | '(' :: r => guardText (r.takeWhile (· != ')'))
    | _ => some (noGuard, noGuard, false)
  let t := match t with
    | '(' :: r => trim ((r.dropWhile (· != ')')).drop 1)
    | _ => t
  let ops := trim (t.dropWhile fun c => !c.isWhitespace)
  match g, splitMnemonic (t.takeWhile fun c => !c.isWhitespace), splitFlag (if ops = [] then [] else splitAt' ',' ops) with
  | some g, some (n, m, sx), some (os, fl) =>
    (readSuffixes (own m) sx).bind fun s =>
      if suffixesOk s then some { guard := g, slot := n, mnemonic := m, suffixes := s, operands := os, flag := fl } else none
  | _, _, _ => none

/-- The words of a line, cut at blanks. -/
def words (t : Text) : List Text := ((t.map fun c => if c.isWhitespace then ' ' else c) |> splitAt' ' ').filter (· ≠ [])

/-- A list of different flags. -/
def flagList (t : Text) : Option (List (Fin 12)) := (splitAt' ',' t).mapM flagName

/-- A keyword of a clause header, on the header read so far (R52). A flag listed twice in `set=` is encoded once. -/
def headerKey (h : Header) (t : Text) : Option Header :=
  match splitAt' '=' t with
  | [k] =>
    if k == "yield".toList then some { h with yield := true }
    else if k == "nodual".toList then some { h with nodual := true }
    else none
  | [k, x] =>
    if k == "wait".toList then (flagList x).bind fun fs =>
      if decide fs.Nodup then some { h with wait := fs.foldl (fun m f => m ||| BitVec.ofNat 12 (2 ^ f.val)) 0 } else none
    else if k == "set".toList then match flagList x with
      | some [a] => some { h with flagX := some a }
      | some [a, b] => some { h with flagX := some a, flagY := if a = b then none else some b }
      | _ => none
    else if k == "prio".toList then (indexNat x).bind fun n => if n < 65536 then some { h with prio := BitVec.ofNat 16 n } else none
    else none
  | _ => none

/-- `ch [wait=list] [set=list] [prio=n] [yield] [nodual]`, the keywords in any order. -/
def readHeaderLine (t : Text) : Option Header :=
  match words t with
  | c :: ks => if c == "ch".toList then ks.foldlM headerKey { wait := 0, flagX := none, flagY := none, prio := 0, yield := false, nodual := false } else none
  | [] => none

/-! ### Expressions as text (R63) -/

inductive Token where
  | num (n : Nat)
  | name (t : Text)
  | sym (t : Text)
  deriving DecidableEq, Repr

def hexDigit (c : Char) : Option Nat :=
  if c.isDigit then some (c.toNat - 48)
  else if 'a' ≤ c ∧ c ≤ 'f' then some (c.toNat - 87)
  else if 'A' ≤ c ∧ c ≤ 'F' then some (c.toNat - 55)
  else none

/-- An integer literal: decimal, or hexadecimal after `0x`; underscores may stand between its digits. DEDUCED, log entry 62. -/
def integerLiteral (t : Text) : Option Nat :=
  let read (base : Nat) (t : Text) : Option Nat :=
    let t := t.filter (· != '_')
    if t = [] then none
    else t.foldlM (fun n c => (hexDigit c).bind fun d => if d < base then some (base * n + d) else none) 0
  match t with
  | '0' :: 'x' :: r => read 16 r
  | _ => read 10 t

/-- The tokens of an expression. -/
def tokens : Nat → Text → Option (List Token)
  | 0, _ => some []
  | n + 1, t =>
    match skipBlanks t with
    | [] => some []
    | c :: cs =>
      if c.isDigit then
        match integerLiteral (c :: cs.takeWhile identPart), tokens n (cs.dropWhile identPart) with
        | some x, some r => some (.num x :: r)
        | _, _ => none
      else if identStart c then (tokens n (cs.dropWhile identPart)).map (.name (c :: cs.takeWhile identPart) :: ·)
      else match c, cs with
        | '<', '<' :: r => (tokens n r).map (.sym ['<', '<'] :: ·)
        | '>', '>' :: r => (tokens n r).map (.sym ['>', '>'] :: ·)
        | _, _ => if ['-', '~', '!', '*', '/', '%', '+', '&', '^', '|', '(', ')'].contains c then (tokens n cs).map (.sym [c] :: ·) else none

/-- The operators with their levels, the loosest 0. -/
def binaryLevel : List (String × Nat × BinaryOp) :=
  [("|", 0, .or), ("^", 1, .xor), ("&", 2, .and), ("<<", 3, .shl), (">>", 3, .shr), ("+", 4, .add), ("-", 4, .sub), ("*", 5, .mul),
   ("/", 5, .div), ("%", 5, .rem)]

mutual
/-- An expression whose operators are of a level or bind tighter, and the tokens after it; level 6 is that of the unary operators. -/
def parseExpr : Nat → Nat → List Token → Option (Expr × List Token)
  | 0, _, _ => none
  | n + 1, level, ts =>
    if level < 6 then (parseExpr n (level + 1) ts).bind fun r => parseMore n level r.1 r.2
    else match ts with
      | .num x :: r => some (.lit (BitVec.ofNat 64 x), r)
      | .name t :: r => some (.name t, r)
      | .sym s :: r =>
        if s == ['-'] then (parseExpr n 6 r).map fun e => (.un .neg e.1, e.2)
        else if s == ['~'] then (parseExpr n 6 r).map fun e => (.un .not e.1, e.2)
        else if s == ['!'] then (parseExpr n 6 r).map fun e => (.un .lnot e.1, e.2)
        else if s == ['('] then (parseExpr n 0 r).bind fun e => match e.2 with
          | .sym c :: r => if c == [')'] then some (e.1, r) else none
          | _ => none
        else none
      | [] => none
/-- What follows an operand at a level: operators of that level, taken from the left. -/
def parseMore : Nat → Nat → Expr → List Token → Option (Expr × List Token)
  | 0, _, _, _ => none
  | n + 1, level, a, ts =>
    match ts with
    | .sym s :: r =>
      match binaryLevel.find? fun o => o.1.toList == s && o.2.1 == level with
      | some o => (parseExpr n (level + 1) r).bind fun b => parseMore n level (.bin o.2.2 a b.1) b.2
      | none => some (a, ts)
    | _ => some (a, ts)
end

/-- A whole text as an expression. DEDUCED, log entry 62. -/
def readExpr (t : Text) : Option Expr :=
  (tokens t.length t).bind fun ts => match parseExpr (8 * (ts.length + 2)) 0 ts with
    | some (e, []) => some e
    | _ => none

/-! ### Floating-point literals (R61) -/

/-- Decimal digits as a number, underscores aside, with how many there are. -/
def digits (t : Text) : Option (Nat × Nat) :=
  let t := t.filter (· != '_')
  if t.all Char.isDigit then some (t.foldl (fun n c => 10 * n + (c.toNat - 48)) 0, t.length) else none

/-- A power of ten that an exponent names, as numerator and denominator. -/
def tenTo (t : Text) : Option (Nat × Nat) :=
  match t with
  | '-' :: r => (indexNat r).map fun n => (1, 10 ^ n)
  | '+' :: r => (indexNat r).map fun n => (10 ^ n, 1)
  | r => (indexNat r).map fun n => (10 ^ n, 1)

/-- A decimal literal with a point or an exponent, as its sign and a fraction. -/
def decimalLiteral (t : Text) : Option (Bool × Nat × Nat) :=
  let neg := t.head? == some '-'
  let t := if neg then t.drop 1 else t
  let m := t.takeWhile (· != 'e')
  let x := t.dropWhile (· != 'e')
  if m = [] ∨ (x = [] ∧ ¬ m.contains '.') then none
  else match digits (m.takeWhile (· != '.')), digits ((m.dropWhile (· != '.')).drop 1), (if x = [] then some (1, 1) else tenTo (x.drop 1)) with
    | some (i, a), some (f, k), some (p, q) => if a + k = 0 then none else some (neg, (i * 10 ^ k + f) * p, q * 10 ^ k)
    | _, _, _ => none

/-- A floating-point literal as one element of a format, or as both of a packed one; `nan` is the canonical quiet NaN. -/
def floatLiteral (f : Fmt) (packed : Bool) (t : Text) : Option Nat :=
  let twice (e : Nat) : Nat := if packed then e + 2 ^ 16 * e else e
  if t == "inf".toList then some (twice (f.infBits))
  else if t == "-inf".toList then some (twice (f.infBits + f.signBit true))
  else if t == "nan".toList then some (twice (f.nanBits))
  else (decimalLiteral t).map fun (neg, p, q) => literalBits f packed neg p q

/-! ### Directives (R64, R65) -/

/-- An attribute of a kernel with its numbers; `none` where its limits or its form are not met. -/
def kernelAttr (k : Kernel) (name : Text) (xs : List Nat) : Option Kernel :=
  let k' : Option Kernel :=
    match xs with
    | [] =>
      if name == ".idempotent".toList then some { k with idemp := true }
      else if name == ".coresident".toList then some { k with cores := true }
      else none
    | [n] =>
      if name == ".width".toList then some { k with width := n }
      else if name == ".vregs".toList then some { k with vregs := n }
      else if name == ".sregs".toList then some { k with sregs := n }
      else if name == ".team".toList then some { k with team := n }
      else if name == ".scratch".toList then some { k with scratch := n }
      else if name == ".accum".toList then some { k with accum := n }
      else if name == ".tiles".toList then some { k with tiles := n }
      else none
    | [a, b] =>
      if name == ".cluster".toList then some { k with clw := a, clh := b }
      else if name == ".column".toList then some { k with columns := k.columns ++ [(a, b)] }
      else none
    | _ => none
  k'

/-- The attributes of a kernel in source order: none but `.column` twice, and the limits are checked on all of them. DEDUCED, log entry 62. -/
def kernelAttrs (as : List (Text × List Nat)) : Option Kernel :=
  let once := (as.map fun a => a.1).filter fun n => n ≠ ".column".toList
  (as.foldlM (fun k a => kernelAttr k a.1 a.2) { }).bind fun k => if once.Nodup && k.ok then some k else none

/-- A value of a data directive of n bits, little-endian; `none` where it lies outside the directive's range. -/
def emitInt (n : Nat) (x : DWord) : Option (List Byte) :=
  if n = 64 ∨ (-(2 ^ (n - 1) : Int) ≤ x.toInt ∧ x.toInt < 2 ^ n) then some (toBytes (n / 8) (x.toNat % 2 ^ n)) else none

/-- A directive that emits bytes, with its operands as text. -/
def emitData (names : Text → Option DWord) (d : Text) (xs : List Text) : Option (List Byte) :=
  let ints (n : Nat) : Option (List Byte) := (xs.mapM fun t => ((readExpr t).bind fun e => e.eval names).bind (emitInt n)).map List.flatten
  let floats (f : Fmt) (n : Nat) : Option (List Byte) := (xs.mapM fun t => (floatLiteral f false (trim t)).map (toBytes n)).map List.flatten
  if d == ".b8".toList then ints 8
  else if d == ".b16".toList then ints 16
  else if d == ".b32".toList then ints 32
  else if d == ".b64".toList then ints 64
  else if d == ".f16".toList then floats fmtF16 2
  else if d == ".f32".toList then floats fmtF32 4
  else if d == ".zero".toList then match xs with
    | [t] => ((readExpr t).bind fun e => e.eval names).bind fun x => if x.toNat ≤ 2 ^ 32 then some (List.replicate x.toNat 0) else none
    | _ => none
  else none

/-- The limit of `.align`: a power of two from 1 to 131,072, at least 8 in a kernel section, none in a matrix stream. -/
def alignOk (kernel matrix : Bool) (n : Nat) : Bool :=
  !matrix && (List.range 18).any (fun k => n == 2 ^ k) && (!kernel || decide (8 ≤ n))

/-- The lines of a section as labels and what stands there: a branch goes to a label that a clause header follows (R65). -/
def targetsOk (ls : List (List Text × Text)) : Bool :=
  let isCh (t : Text) : Bool := ((words t).head? == some "ch".toList)
  let after (l : Text) : Option Text := (((ls.dropWhile fun x => !x.1.contains l).map fun x => x.2).filter (· ≠ [])).head?
  ls.all fun x => match readStatement (fun _ _ => true) x.2 with
    | some st =>
      if st.mnemonic == "br".toList || st.mnemonic == "call".toList || st.mnemonic == "calx".toList then
        st.operands.all fun o => !(ls.any fun y => y.1.contains o) || (match after o with | some t => isCh t | none => false)
      else true
    | none => true

/-- The sections that directives open and close: each `.end` closes the innermost, a matrix stream stands inside a kernel and once in it, and
kernels and data stand outside each other. The state is what is open, and whether the kernel has had its stream. -/
inductive Opened where | kernel | matrix | data | rodata
  deriving DecidableEq, Repr

def openClose (s : List Opened × Bool) (d : Text) : Option (List Opened × Bool) :=
  if d == ".kernel".toList then (if s.1 = [] then some ([.kernel], false) else none)
  else if d == ".matrix".toList then (if s.1 = [.kernel] ∧ !s.2 then some ([.matrix, .kernel], true) else none)
  else if d == ".data".toList then (if s.1 = [] then some ([.data], s.2) else none)
  else if d == ".rodata".toList then (if s.1 = [] then some ([.rodata], s.2) else none)
  else if d == ".end".toList then (match s.1 with | _ :: r => some (r, s.2) | [] => none)
  else some s

/-- What directives open is closed again at the end. -/
def sectionsOk (ds : List Text) : Bool :=
  match ds.foldlM openClose ([], false) with
  | some ([], _) => true
  | _ => false

end Sys2Proof.Machine
end

