-- ==== Sys2Proof/Tests/Slice0.lean ====
section
/-!
SUPPORT. Tests, each of one step or one word on a small state. The smoke test has an ill-formed term for each check of R53; words are written
out from R37 to R43 and R55 to R62; the expected values are the manual's examples and tables, or are worked out by hand from the rules that the
comments name. A theorem `witness_<Obligation>` shows states and operands that meet that statement's hypotheses, clause by clause.
-/
namespace Sys2Proof.Tests
open Sys2Proof Sys2Proof.Machine
set_option Elab.async false

/-! ### Helpers -/

/-- A short form, a medium form and a long form that name nothing. -/
def sf : Fields := ⟨.short, guardAlways, guardAlways, false, .zero, .zero, .zero, .zero, none, false, .un, 0, .dflt, 0, 0⟩
def mf : Fields := { sf with form := .medium }
def lf : Fields := { sf with form := .long }

/-! ### Smoke: each check of R53 refuses an ill-formed term -/

def rejects (i : Instr) (r : Reject) : Prop := check i = some r

theorem smoke_type : rejects (.add { sf with dst := .v 0, ty := .f32 }) .badType ∧ rejects (.nop { sf with ty := .n32 }) .badType ∧
    rejects (.atom { mf with a := .v 2, ty := .f32, imm13 := 3 }) .badType ∧ rejects (.redux { mf with dst := .s 0, ty := .b32 }) .badType ∧
    rejects (.dp4 { mf with ty := .s32, fam := 0x20 }) .badType ∧ rejects (.cvt { mf with ty := .f32, fam := 0x90 }) .badType := by
  unfold rejects; decide +kernel

theorem smoke_form : rejects (.add { sf with ty := .n32, imm13 := 1 }) .reserved ∧ rejects (.add { sf with ty := .n32, c := .v 1 }) .reserved ∧
    rejects (.add { mf with ty := .n32, bimm := true, imm32 := 1 }) .reserved := by unfold rejects; decide +kernel

theorem smoke_guard : rejects (.add { sf with ty := .n32, guardA := ⟨none, true⟩ }) .reserved ∧
    rejects (.add { mf with ty := .n32, guardB := ⟨none, true⟩ }) .reserved ∧
    rejects (.tret { sf with guardA := ⟨some 0, false⟩ }) .reserved := by unfold rejects; decide +kernel

theorem smoke_operands : rejects (.add { sf with ty := .n32, dst := .c 0 }) .reserved ∧
    rejects (.nop { sf with dst := .v 0 }) .reserved ∧ rejects (.ld { sf with dst := .v 0, a := .zero, b := .v 1, ty := .b32 }) .reserved := by
  unfold rejects; decide +kernel

theorem smoke_fam : rejects (.and { sf with ty := .b32, fam := 1 }) .reserved ∧ rejects (.nop { sf with fam := 0x100 }) .reserved := by
  unfold rejects; decide +kernel

theorem smoke_hint : rejects (.add { mf with ty := .n32, hint := .keep }) .reserved := by unfold rejects; decide +kernel

theorem smoke_immediate : rejects (.add { mf with ty := .n32, imm13 := 1 }) .reserved ∧ rejects (.plop { mf with imm13 := 0x100 }) .reserved ∧
    rejects (.add { mf with ty := .n32, bimm := true, b := .v 1 }) .reserved ∧ rejects (.add { sf with ty := .n32, bimm := true }) .reserved ∧
    rejects (.fadd { mf with ty := .f16, bimm := true }) .reserved ∧
    rejects (.add { lf with ty := .n32, bimm := true, imm13 := 1 }) .reserved := by unfold rejects; decide +kernel

theorem smoke_alignment : rejects (.add { sf with ty := .n64, dst := .v 1, a := .v 2, b := .v 4 }) .reserved ∧
    rejects (.add { sf with ty := .n64, dst := .v 0, a := .s 3, b := .v 4 }) .reserved ∧
    rejects (.xbox { sf with ty := .f32, dst := .v 0, a := .v 4, b := .v 8 }) .reserved ∧
    rejects (.xbox { sf with ty := .f32, dst := .v 0, a := .v 0, b := .v 240 }) .reserved ∧
    rejects (.mov { sf with ty := .b64, dst := .p 2, a := .v 2 }) .reserved := by unfold rejects; decide +kernel

theorem smoke_matrix : rejects (.azero { sf with dst := .v 32 }) .reserved ∧
    rejects (.mma { sf with ty := .e4m3, dst := .v 0, a := .v 16, b := .v 0 }) .reserved ∧
    rejects (.mma { sf with ty := .e4m3, dst := .v 0, a := .v 0, b := .v 0, fam := 0x30 }) .reserved := by unfold rejects; decide +kernel

theorem smoke_memory : rejects (.ld { sf with dst := .v 0, a := .v 2, ty := .b32, fam := 3 }) .reserved ∧
    rejects (.ld { sf with dst := .v 0, a := .v 2, ty := .b32, fam := 4 }) .reserved ∧
    rejects (.ld { sf with dst := .v 0, a := .v 2, ty := .b32, fam := 0x40 }) .reserved ∧
    rejects (.st { sf with a := .v 2, b := .v 0, ty := .b32, fam := 0x20 }) .reserved ∧
    rejects (.fence sf) .reserved := by unfold rejects; decide +kernel

theorem smoke_own : rejects (.cmp { sf with ty := .n32, dst := .p 0, fam := 6 }) .reserved ∧
    rejects (.pset { sf with ty := .b32, dst := .p 0, fam := 3 }) .reserved ∧
    rejects (.pbitsGet { sf with dst := .v 0, a := .p 1 }) .reserved ∧
    rejects (.vgrow { mf with imm13 := 7 }) .reserved ∧ rejects (.vgrow { mf with imm13 := 8, fam := 8 }) .reserved ∧
    rejects (.sgrow { mf with imm13 := 24 }) .reserved ∧ rejects (.rgn { mf with imm13 := 1 }) .reserved ∧
    rejects (.srd { mf with dst := .v 0, imm13 := 0x14 }) .reserved ∧ rejects (.srd { mf with dst := .v 0, imm13 := 0, fam := 8 }) .reserved ∧
    rejects (.cvt { mf with ty := .f32, fam := 0x100, imm13 := 2 }) .reserved ∧
    rejects (.tfr { mf with dst := .s 0, fam := 1, imm13 := 0 }) .reserved ∧ rejects (.srw { mf with imm13 := 16 }) .reserved ∧
    rejects (.mloop { lf with imm32 := 2 }) .reserved ∧ rejects (.lmask { mf with dst := .v 0, imm13 := 7 }) .reserved := by
  unfold rejects; decide +kernel

theorem smoke_scalar_of_lanes : rejects (.add { sf with ty := .n32, dst := .s 0, a := .v 0 }) .laneToScalar ∧
    rejects (.rng { sf with ty := .n32, dst := .s 0 }) .laneToScalar ∧ rejects (.srd { mf with dst := .s 0, imm13 := 0 }) .laneToScalar := by
  unfold rejects; decide +kernel

/-- Decode's own refusals: an unassigned opcode, an opcode of the other stream, a header there, an instruction that is cut off. -/
theorem smoke_decode : decodeWord .group (0x0001FFFFFFFDF800 + 4 * 0x1FF) = .error .unassigned ∧
    decodeWord .group 0x4C41E0100001FF00 = .error .wrongStream ∧ decodeWord .matrix 0x0001FFFFFFFDFA80 = .error .wrongStream ∧
    decodeWord .matrix 0x0000000003084027 = .error .wrongStream ∧ decode .group [0x80, 0xFA, 0xFD] = .error .truncated := by
  refine ⟨rfl, rfl, rfl, rfl, rfl⟩

/-! ### Decoding: words written out from R37 to R43, R55, R56 -/

/-- The low 64 bits from their fields: LEN, OPCODE, GUARD_A, DST, SRCA, SRCB, FLAG, FAM, TYPE. -/
def low (len op g d a b flag fam ty : Nat) : Nat :=
  len + op * 2 ^ 2 + g * 2 ^ 11 + d * 2 ^ 18 + a * 2 ^ 27 + b * 2 ^ 36 + flag * 2 ^ 45 + fam * 2 ^ 49 + ty * 2 ^ 58

/-- The bits from 64 up: SRCC, IMM13, IMM32, with guard B at 63. -/
def high (c imm13 imm32 : Nat) : Nat := c * 2 ^ 64 + 63 * 2 ^ 73 + imm13 * 2 ^ 83 + imm32 * 2 ^ 96

theorem decode_integer : decodeWord .group (low 0 0x001 63 5 6 7 15 4 7) = .ok (.add { sf with dst := .v 5, a := .v 6, b := .v 7, ty := .n32, fam := 4 }, 8) ∧
    decodeWord .group (low 1 0x012 63 1 2 3 15 3 11 + high 4 0 0) =
      .ok (.shf { mf with dst := .v 1, a := .v 2, b := .v 3, c := .v 4, ty := .b32, fam := 3 }, 12) ∧
    decodeWord .group (low 0 0x018 63 2 4 256 15 3 3) = .ok (.lea { sf with dst := .v 2, a := .v 4, b := .s 0, ty := .s32, fam := 3 }, 8) := ⟨rfl, rfl, rfl⟩

theorem decode_float : decodeWord .group (0x4401FD802811F90D + 2 ^ 64 * 0x00007E04) =
      .ok (.ffma { mf with dst := .v 4, a := .v 5, b := .c 40, c := .v 4, ty := .f16x2 }, 12) ∧
    decodeWord .group (0x3801E1404029F959 + 2 ^ 64 * 0x00007E16) = .ok (.osmUpd { mf with dst := .v 10, a := .v 8, b := .v 20, c := .v 22, ty := .f32 }, 12) ∧
    decodeWord .group (low 1 0x054 63 0 1 511 15 0xE0 19 + high 511 3 0) =
      .ok (.cvt { mf with dst := .v 0, a := .v 1, ty := .e4m3, fam := 0xE0, imm13 := 3 }, 12) := ⟨rfl, rfl, rfl⟩

theorem decode_predicates : decodeWord .group (low 1 0x080 63 384 385 386 15 0 0 + high 387 0xC0 0) =
      .ok (.plop { mf with dst := .p 0, a := .p 1, b := .p 2, c := .p 3, imm13 := 0xC0 }, 12) ∧
    decodeWord .group (low 0 0x082 63 416 1 2 15 8 0) = .ok (.pbitsSet { sf with dst := .p 32, a := .v 1, b := .v 2, fam := 8 }, 8) := ⟨rfl, rfl⟩

theorem decode_cross_lane : decodeWord .group (low 0 0x088 63 258 3 511 15 3 0) = .ok (.vote { sf with dst := .s 2, a := .v 3, fam := 3 }, 8) ∧
    decodeWord .group (low 1 0x08A 63 1 2 511 15 1 11 + high 384 5 0) =
      .ok (.shfl { mf with dst := .v 1, a := .v 2, c := .p 0, ty := .b32, fam := 1, imm13 := 5 }, 12) := ⟨rfl, rfl⟩

theorem decode_control : decodeWord .group (0x0001FFFFFFFC1289 + 2 ^ 64 * 0x00807FFF) =
      .ok (.br { mf with guardA := ⟨some 2, false⟩, imm13 := 16 }, 12) ∧
    decodeWord .group (low 1 0x0A9 63 511 511 511 15 0 0 + high 511 7 0) = .ok (.trap { mf with imm13 := 7 }, 12) := ⟨rfl, rfl⟩

theorem decode_memory : decodeWord .group (low 1 0x0C0 63 4 2 511 3 0x100 11 + 2 ^ 81 + high 511 0x1FFF 0) =
      .ok (.ld { mf with dst := .v 4, a := .v 2, flag := some 3, ty := .b32, fam := 0x100, hint := .stream, imm13 := 0x1FFF }, 12) ∧
    decodeWord .group 0x1C0BE0D077FC0B08 =
      .ok (.atom { sf with guardA := ⟨some 1, false⟩, a := .v 14, b := .v 13, ty := .n32, fam := 5 }, 8) := ⟨rfl, rfl⟩

theorem decode_images : decodeWord .group (low 0 0x0D2 63 8 4 258 2 0 14) =
    .ok (.smp { sf with dst := .v 8, a := .v 4, b := .s 2, flag := some 2, ty := .f32 }, 8) := rfl

theorem decode_team : decodeWord .group (low 1 0x107 63 257 511 511 15 1 0 + high 511 2 0) =
      .ok (.bclArr { mf with dst := .s 1, fam := 1, imm13 := 2 }, 12) ∧
    decodeWord .group (low 1 0x109 63 257 511 511 15 0 0 + high 511 0x0B 0) = .ok (.srd { mf with dst := .s 1, imm13 := 0x0B }, 12) := ⟨rfl, rfl⟩

theorem decode_engines : decodeWord .group (0x0001E05027FDFCAA + 2 ^ 64 * 0x0000000400087FFF) =
      .ok (.crdPut { lf with a := .v 4, b := .v 5, imm13 := 1, imm32 := 4 }, 16) ∧
    decodeWord .group (low 1 0x120 63 511 258 511 15 1 0 + high 511 3 0) = .ok (.reelGo { mf with a := .s 2, fam := 1, imm13 := 3 }, 12) ∧
    decodeWord .spindle (low 0 0x180 63 511 9 511 15 0 0) = .ok (.qpush { sf with a := .v 9 }, 8) ∧
    decodeWord .group (0x0001FFF82409FDAD + 2 ^ 64 * 0x00187FFF) = .ok (.venc { mf with dst := .s 2, a := .s 4, imm13 := 3 }, 12) := ⟨rfl, rfl, rfl, rfl⟩

theorem decode_supervisor : decodeWord .group (0x0003FFFFF80DFD85 + 2 ^ 64 * 0x00607FFF) = .ok (.tfr { mf with dst := .v 3, fam := 1, imm13 := 12 }, 12) ∧
    decodeWord .group 0x0001F0883411FD98 = .ok (.tierPin { sf with dst := .s 4, a := .s 6, b := .s 8 }, 8) ∧
    decodeWord .group 0x0003FFFFFFFDFD90 = .ok (.ctxGateOut { sf with fam := 1 }, 8) := ⟨rfl, rfl, rfl⟩

theorem decode_matrix : decodeWord .matrix 0x4C01E0100001FF00 = .ok (.mma { sf with dst := .v 0, a := .v 0, b := .v 1, ty := .e4m3 }, 8) ∧
    decodeWord .matrix 0x0011FFFFF801FF30 = .ok (.rowCon { sf with dst := .v 0, fam := 8 }, 8) ∧
    decodeWord .matrix (0x0001FFFFFFFDFF2A + 2 ^ 64 * 0xFFFFFFFE00207FFF) = .ok (.mloop { lf with imm13 := 4, imm32 := 0xFFFFFFFE }, 16) := ⟨rfl, rfl, rfl⟩

/-! ### One instruction at a time -/

/-- A group of 32 lanes on core 0, number 3, that is to issue a `nop` at 0x20000; 256 vector and 128 scalar registers, all 0. The page
there is mapped, for everything, from 0x240000 on; in `plain` nothing is. -/
def paged : State := { State.reset.withFetchWord 64 0x0001FFFFFFFDFA80 with issuer := some 3, agenda := [] }
def plain : State := { loadParts State.reset .group 0x0001FFFFFFFDFA80 with issuer := some 3, agenda := [] }

/-- `s` with `f` applied to the registers of the group. -/
def regs (f : Thread → Thread) (s : State) : State := s.modGroup 3 fun g => g.setThread (f g.thread)
/-- `s` with the value `x` of `w` registers in v`n` of lane 0. -/
def v0 (n w x : Nat) : State → State := regs fun t => setVwide t n 0 w x
/-- `s` with the value `x` of `w` registers in s`n`. -/
def s0 (n w x : Nat) : State → State := regs fun t => setSwide t n w x
/-- The same state inside a handler, whose registers the group uses then. -/
def handled (s : State) : State := s.modGroup 3 fun g =>
  { g with handler := some { thread := g.main, store := 0, info := { cause := .software }, pc := 0x20000, pc0 := 0x20000, live := 0xFFFFFFFF, ctime := 0 } }

/-- What a test reads of a next state. -/
def after {α : Type} (o : Host.Outcome State Fault Refusal) (f : State → α) : Option α := match o with
  | .next t => some (f t)
  | _ => none
/-- The registers after. -/
def thread (s : State) : Thread := ((s.group 3).map Group.thread).getD {}

/-- `i` with A in v8, B in v16 and C in v40 of lane 0, and predicates p1 and p2 set there: the value in v0 and FSTAT of lane 0. -/
def alu (i : Instr) (a b c : Nat) : Option (Nat × Nat) :=
  after (exec i (plain |> v0 8 8 a |> v0 16 24 b |> v0 40 4 c |> regs fun t => setPred (setPred t 1 0 true) 2 0 true)) fun t =>
    (vwide (thread t) 0 0 4, (fstatOf (thread t) 0).toNat)
/-- The fields of such an instruction. -/
def op (ty : Ty) (fam : BitVec 9) : Fields := { mf with dst := .v 0, a := .v 8, b := .v 16, c := .v 40, ty := ty, fam := fam }

-- R100, its examples; R110
theorem test_add : alu (.add (op .n8 4)) 0xF0 0x20 0 = some (0xFF, fSAT) ∧ alu (.add (op .n32 0)) 0xFFFFFFFF 2 0 = some (1, 0) := by decide +kernel
theorem test_sub : alu (.sub (op .n32 4)) 3 5 0 = some (0, fSAT) ∧ alu (.sub (op .s16 0)) 0 1 0 = some (0xFFFFFFFF, 0) := by decide +kernel
theorem test_mul : alu (.mul (op .s16 0)) 0x4000 4 0 = some (0, 0) ∧ alu (.mul (op .n32 4)) 0x10000 0x10000 0 = some (0xFFFFFFFF, fSAT) := by decide +kernel
theorem test_mad : alu (.mad (op .s32 0)) 3 4 5 = some (17, 0) ∧ alu (.mad (op .s8 0)) 0x80 1 0xFF = some (0x7F, 0) := by decide +kernel
theorem test_min_max : alu (.min (op .s32 0)) 0xFFFFFFFF 1 0 = some (0xFFFFFFFF, 0) ∧ alu (.max (op .n32 0)) 0xFFFFFFFF 1 0 = some (0xFFFFFFFF, 0) ∧
    alu (.min (op .n32 0)) 0xFFFFFFFF 1 0 = some (1, 0) := by decide +kernel
theorem test_dp4 : alu (.dp4 (op .s8 0x10)) 0x01FF02FE 0x01010101 5 = some (5, 0) ∧ alu (.dp4 (op .n8 0x54)) 1 1 0x7FFFFFFF = some (0x7FFFFFFF, fSAT) := by decide +kernel
-- R101, R102
theorem test_addc : after (exec (.addc { op .n32 0 with c := .p 1 }) (plain |> v0 8 1 0xFFFFFFFF |> regs fun t => setPred t 1 0 true)) (fun t =>
    (vwide (thread t) 0 0 1, predBit (thread t) 1 0)) = some (0, true) := by decide +kernel
theorem test_subb : after (exec (.subb { op .n32 0 with c := .p 1 }) (plain |> regs fun t => setPred t 1 0 true)) (fun t =>
    (vwide (thread t) 0 0 1, predBit (thread t) 1 0)) = some (0xFFFFFFFF, true) := by decide +kernel
theorem test_mulhi : alu (.mulhi (op .n32 0)) 0xFFFFFFFF 0xFFFFFFFF 0 = some (0xFFFFFFFE, 0) ∧ alu (.mulhi (op .s32 0)) 0xFFFFFFFF 1 0 = some (0xFFFFFFFF, 0) := by decide +kernel
theorem test_madw : alu (.madw (op .s32 0)) 0xFFFFFFFF 2 1 = some (0xFFFFFFFFFFFFFFFF, 0) := by decide +kernel
-- R103 to R106
theorem test_bitwise : alu (.and (op .b16 0)) 0xF0F0 0xFF00 0 = some (0xF000, 0) ∧ alu (.or (op .b16 0)) 0xF0F0 0xFF00 0 = some (0xFFF0, 0) ∧
    alu (.xor (op .b64 0)) 0xF0F000000000 0xFF0000000000 0 = some (0x0FF000000000, 0) ∧ alu (.not (op .b8 0)) 0x0F 0 0 = some (0xF0, 0) := by decide +kernel
theorem test_shl : alu (.shl (op .b32 0)) 1 32 0 = some (0, 0) ∧ alu (.shl (op .b32 1)) 1 33 0 = some (2, 0) := by decide +kernel
theorem test_shr_sar : alu (.shr (op .b64 0)) 0x8000000000000000 63 0 = some (1, 0) ∧ alu (.sar (op .s32 0)) 0x80000000 40 0 = some (0xFFFFFFFF, 0) := by decide +kernel
theorem test_shf : alu (.shf (op .b32 0)) 0x89ABCDEF 0x01234567 8 = some (0x6789ABCD, 0) ∧ alu (.shf (op .b32 2)) 0x89ABCDEF 0x01234567 40 = some (0x89ABCDEF, 0) := by decide +kernel
theorem test_bfx_bfi : alu (.bfx (op .s32 0)) 0x0000F800 0x0808 0 = some (0xFFFFFFF8, 0) ∧ alu (.bfi (op .b32 0)) 0xFF 0x081C 0 = some (0xF0000000, 0) := by decide +kernel
theorem test_counts : alu (.popc (op .b32 0)) 0xFFFF0001 0 0 = some (17, 0) ∧ alu (.clz (op .b64 0)) 1 0 0 = some (63, 0) ∧ alu (.clz (op .b32 0)) 0 0 0 = some (32, 0) ∧
    alu (.brev (op .b32 0)) 1 0 0 = some (0x80000000, 0) := by decide +kernel
-- R107 to R109
theorem test_lea : alu (.lea (op .n32 3)) 0x100000000 0x10 0 = some (0x100000080, 0) ∧
    alu (.lea { op .s64 8 with a := .zero, b := .zero, bimm := true, imm13 := 0x1FF0 }) 0 0 0 = some (0x1FFF0, 0) := by decide +kernel
theorem test_sel_mov : alu (.sel (op .b32 0)) 7 9 0 = some (9, 0) ∧ alu (.sel (op .b32 0)) 7 9 2 = some (7, 0) ∧ alu (.mov (op .b64 0)) 0x123456789A 0 0 = some (0x123456789A, 0) ∧
    alu (.movi { op .f32 0 with a := .zero, b := .zero, bimm := true, imm13 := 0x07F8 }) 0 0 0 = some (0x3FC00000, 0) := by decide +kernel
theorem test_cmp : alu (.cmp (op .s32 2)) 0xFFFFFFFF 1 0 = some (1, 0) ∧ alu (.cmp (op .n32 2)) 0xFFFFFFFF 1 0 = some (0, 0) := by decide +kernel
-- R111 to R116
theorem test_fadd : alu (.fadd (op .f32 0)) 0x3F800000 0x40000000 0 = some (0x40400000, 0) ∧ alu (.fsub (op .f32 0)) 0x7F800000 0x7F800000 0 = some (0x7FC00000, fNV) := by decide +kernel
theorem test_fmul : alu (.fmul (op .f16x2 0)) 0x3C004200 0x40003800 0 = some (0x40003E00, 0) ∧ alu (.ffma (op .f32 0)) 0x40000000 0x40400000 0x3F800000 = some (0x40E00000, 0) := by decide +kernel
theorem test_fmin_fmax : alu (.fmax (op .f32 0)) 0x80000000 0 0 = some (0, 0) ∧ alu (.fmin (op .f32 0)) 0x7FC00000 0x40000000 0 = some (0x40000000, 0) ∧
    alu (.fmin (op .f32 8)) 0x7FC00000 0x40000000 0 = some (0x7FC00000, 0) := by decide +kernel
theorem test_fcmp : alu (.fcmp (op .f32 0)) 0x80000000 0 0 = some (1, 0) ∧ alu (.fcmp (op .f32 1)) 0x7FC00000 0 0 = some (1, 0) ∧ alu (.fcmp (op .f32 7)) 0x7F800001 0 0 = some (1, fNV) := by decide +kernel
theorem test_frnd : alu (.frnd (op .f32 0)) 0x40200000 0 0 = some (0x40000000, 0) ∧ alu (.ffrac (op .f32 0)) 0xB0800000 0 0 = some (0x3F800000, fNX) := by decide +kernel
theorem test_fclass : alu (.fclass (op .f32 0)) 0 0 0 = some (0x40, 0) ∧ alu (.fclass (op .f32 0)) 0x7F800001 0 0 = some (1, 0) := by decide +kernel
theorem test_fldexp : alu (.fldexp (op .f32 0)) 0x3F800000 3 0 = some (0x41000000, 0) := by decide +kernel
-- R117, R118
theorem test_reciprocals : alu (.frcp (op .f32 0)) 0 0 0 = some (0x7F800000, fDZ) ∧ alu (.frsq (op .f16 0)) 0x8000 0 0 = some (0xFC00, fDZ) ∧
    alu (.fsqrt (op .f32 0)) 0xBF800000 0 0 = some (0x7FC00000, fNV) := by decide +kernel
theorem test_transcendentals : alu (.fexp2 (op .f32 0)) 0xFF800000 0 0 = some (0, 0) ∧ alu (.flog2 (op .f32 0)) 0 0 0 = some (0xFF800000, fDZ) ∧
    alu (.fsin (op .f32 0)) 0x80000000 0 0 = some (0x80000000, 0) ∧ alu (.fcos (op .f32 0)) 0 0 0 = some (0x3F800000, 0) ∧ alu (.ftanh (op .f32 0)) 0xC1200000 0 0 = some (0xBF800000, 0) := by decide +kernel
-- R119 to R124, R21
theorem test_fdp2 : alu (.fdp2 (op .f16x2 0)) 0x40003C00 0x44004200 0 = some (0x41300000, 0) := by decide +kernel
theorem test_cvt : alu (.cvt (op .s32 0xE1)) 0xC0600000 0 0 = some (0xFFFFFFFD, fNX) ∧ alu (.cvt (op .f32 0x30)) 0xFFFFFFFF 0 0 = some (0xBF800000, 0) ∧
    alu (.cvt { op .e4m3 0xE0 with imm13 := 2 }) 0x43960000 0x11223344 0 = some (0x11793344, fNX) := by decide +kernel
theorem test_osm : alu (.osmUpd (op .f32 0)) 0x3FC0000040400000 0x40A00000 0x40680000 = some (0x4080000040A00000, 0) ∧
    alu (.osmFin (op .f32 0)) 0x3FC0000040400000 0x4080000040A00000 0 = some (0x3E800000, 0) ∧
    alu (.osmFinNorm (op .f32 8)) 0x4080000040A00000 0 0 = some (0x3E800000, 0) := by decide +kernel
theorem test_rng : alu (.rng (op .n32 0)) 0 0 0 = some (0x78D8BE8C, 0) := by decide +kernel
-- R125 to R128, R131
theorem test_plop : after (exec (.plop { mf with dst := .p 0, a := .p 1, b := .p 2, c := .p 3, imm13 := 0xC0 })
    (plain |> regs fun t => setPred (setPred t 1 0 true) 2 0 true)) (fun t => predBit (thread t) 0 0) = some true := by decide +kernel
theorem test_pmov_pset : after (exec (.pmov { op .un 0 with dst := .p 5 }) (plain |> v0 8 1 0x80000000)) (fun t => predBit (thread t) 5 0) = some true ∧
    after (exec (.pset { op .b32 1 with dst := .p 5 }) (plain |> v0 8 1 6 |> v0 16 1 5)) (fun t => predBit (thread t) 5 0) = some false := by decide +kernel
theorem test_pbits : alu (.pbitsGet { op .un 0 with a := .p 0 }) 0 0 0 = some (6, 0) ∧
    after (exec (.pbitsSet { op .un 8 with dst := .p 32 }) (plain |> v0 8 1 0xFFFFFFFF |> v0 16 1 0x18004)) (fun t =>
      (predBit (thread t) 34 0, predBit (thread t) 47 0, predBit (thread t) 33 0)) = some (true, true, false) := by decide +kernel
theorem test_rays : alu (.xtri (op .f32 0)) 0 0 0 = some (0x7F800000, 0) := by decide +kernel

/-! ### Witnesses: states that meet the hypotheses of the statements -/

/-- The instruction issues with nothing in its way, and what it runs with passes `p`. -/
def issued (s : State) (i : Instr) (f : Fields) (p : Ctx → Bool) : Bool := match issuerOf s with
  | none => false
  | some (gid, g, e) =>
    let c := ctxOf i f gid g e
    !flagForbidden c.e f && (!supervisorOnly i || c.g.priv) && !boundsBad c.t i f c.sp && !interlocked s c.gid c.g.priv (regsOf i f c.sp) &&
      (match f.flag with
        | none => true
        | some k => decide (c.exec = 0) || decide (flagCount c.t k.val < 63)) && p c

theorem of_issued {s : State} {i : Instr} {f : Fields} {p : Ctx → Bool} (h : issued s i f p = true) : ∃ c, Issues s i f c ∧ p c = true := by
  unfold issued at h
  cases hi : issuerOf s with
  | none => rw [hi] at h; simp at h
  | some x =>
    obtain ⟨gid, g, e⟩ := x
    rw [hi] at h
    simp only [Bool.and_eq_true, Bool.not_eq_true', Bool.or_eq_true] at h
    obtain ⟨⟨⟨⟨⟨h1, h2⟩, h3⟩, h4⟩, h5⟩, h6⟩ := h
    refine ⟨ctxOf i f gid g e, ⟨⟨gid, g, e, hi, rfl⟩, h1, fun hs => ?_, h3, h4, fun k hk => ?_⟩, h6⟩
    · rcases h2 with h2 | h2
      · rw [hs] at h2; cases h2
      · exact h2
    · rw [hk] at h5
      simpa using h5

theorem of_all {s : State} {f : Fields} {p : Ctx → Bool} {l : List Instr} (h : (l.all fun i => issued s i f p) = true) :
    ∀ i ∈ l, ∃ c, Issues s i f c ∧ p c = true := fun i hi => of_issued (List.all_eq_true.mp h i hi)

/-- Some lane executes. -/
def runs (c : Ctx) : Bool := decide (c.exec ≠ 0)

/-- `i` issues with some lane in `exec`. -/
abbrev Issued (s : State) (f : Fields) (l : List Instr) : Prop := ∀ i ∈ l, ∃ c, Issues s i f c ∧ runs c = true

/-- Each of v8, v16 and v40 reads 0; the fields of arithmetic instructions. -/
theorem witness_IntegerArithmetic : (let f := op .n32 0;
    Issued plain f [.add f, .sub f, .mul f, .mad f, .min f, .max f, .dp4 f, .mulhi f, .madw f]) ∧
    (let f := { op .n32 0 with c := .p 1 }; Issued plain f [.addc f, .subb f] ∧ WellFormed (.addc f) ∧ WellFormed (.subb f)) := by
  refine ⟨of_all (by decide +kernel), of_all (by decide +kernel), ?_⟩; decide +kernel
theorem witness_BitwiseAndShifts : let f := op .b32 0; Issued plain f [.and f, .or f, .xor f, .not f, .shl f, .shr f, .sar f, .shf f] :=
  of_all (by decide +kernel)
theorem witness_BitFieldsAndCounts : let f := op .s64 0; Issued plain f [.bfx f, .bfi f, .popc f, .clz f, .brev f] := of_all (by decide +kernel)
theorem witness_MovesAndComparisons : (let f := op .s32 0; f.cc < 6 ∧ Issued plain f [.lea f, .sel f, .mov f, .movi f, .cmp f]) ∧
    (let f := op .f32 7; f.cc < 8 ∧ Issued plain f [.fcmp f]) := by
  refine ⟨⟨?_, of_all (by decide +kernel)⟩, ?_, of_all (by decide +kernel)⟩ <;> decide
theorem witness_FloatOperations : let f := op .f32 0; ArithTy f.ty ∧ elemCount f.ty = 1 ∧
    Issued plain f [.fadd f, .fsub f, .fmul f, .ffma f, .fdp2 f, .fmin f, .fmax f, .frnd f, .ffrac f, .fclass f, .fldexp f] :=
  ⟨.inl rfl, rfl, of_all (by decide +kernel)⟩
theorem witness_SpecialFunctionCases : let f := op .f16 0; (f.ty = .f32 ∨ f.ty = .f16) ∧
    Issued plain f [.frcp f, .frsq f, .fsqrt f, .fexp2 f, .flog2 f, .fsin f, .fcos f, .ftanh f] := ⟨.inr rfl, of_all (by decide +kernel)⟩
theorem witness_ConversionsAndDraws : (let f := op .s32 0x70; fmtOf (f.ty2.getD .f32) = none ∧ fmtOf f.ty = none ∧ narrowElems f.ty = 0 ∧ Issued plain f [.cvt f]) ∧
    (let f := op .s32 0xE0; fmtOf (f.ty2.getD .f32) = some fmtF32 ∧ fmtOf f.ty = none ∧ Issued plain f [.cvt f]) ∧
    (let f := op .e4m3 0xE0; fmtOf f.ty = some fmtE4M3 ∧ fmtOf (f.ty2.getD .f32) = some fmtF32 ∧ narrowElems f.ty ≠ 0 ∧ Issued plain f [.cvt f, .cvts f]) ∧
    (let f := op .n32 0; Issued plain f [.rng f]) :=
  ⟨⟨by decide, by decide, by decide, of_all (by decide +kernel)⟩, ⟨by decide, by decide, of_all (by decide +kernel)⟩,
    ⟨by decide, by decide, by decide, of_all (by decide +kernel)⟩, of_all (by decide +kernel)⟩
theorem witness_SoftmaxAndRays : let f := op .f32 0; Issued plain f [.osmUpd f, .osmFin f, .osmFinNorm f, .xbox f, .xtri f] := of_all (by decide +kernel)
theorem witness_PredicateInstructions : (let f := op .b32 0; Issued plain f [.plop f, .pmov f, .pset f]) ∧
    (let f := { op .un 0 with a := .p 16 }; Issued plain f [.pbitsGet f]) ∧ (let f := { op .un 8 with dst := .p 32 }; Issued plain f [.pbitsSet f]) :=
  ⟨of_all (by decide +kernel), of_all (by decide +kernel), of_all (by decide +kernel)⟩

/-! ### Cross-lane -/

/-- Lane l holds l in v8. -/
def numbered : State := plain |> regs fun t => { t with vregs := (fromTo 1 31).map fun l => (64 * 8 + l, BitVec.ofNat 32 l) }

-- R194, R195, R200, R201
theorem test_vote : after (exec (.vote { mf with dst := .s 2, a := .v 8, fam := 3 }) numbered) (fun t => swide (thread t) 2 2) = some 0xFFFFFFFE ∧
    after (exec (.vote { mf with dst := .p 0, a := .v 8, fam := 0 }) numbered) (fun t => predBit (thread t) 0 5) = some false := by decide +kernel
theorem test_match : after (exec (.matchLanes { op .b32 0 with a := .s 1 }) numbered) (fun t => vwide (thread t) 0 5 2) = some 0xFFFFFFFF ∧
    after (exec (.matchLanes { op .b32 0 with dst := .v 0 }) numbered) (fun t => vwide (thread t) 0 5 2) = some 32 := by decide +kernel
theorem test_lmask : after (exec (.lmask { op .un 0 with a := .zero, imm13 := 3 }) numbered) (fun t => vwide (thread t) 0 5 2) = some 0x1F ∧
    after (exec (.lmap { op .un 0 with dst := .s 0 }) numbered) (fun t => swide (thread t) 0 2) = some 0xFFFFFFFF := by decide +kernel
-- R196
theorem test_shfl : after (exec (.shfl { op .b32 1 with b := .zero, c := .p 0, imm13 := 1 }) numbered) (fun t =>
    (vwide (thread t) 0 5 1, predBit (thread t) 0 5, vwide (thread t) 0 0 1, predBit (thread t) 0 0)) = some (4, true, 0, false) := by decide +kernel
-- R197 to R199: the sum and the prefix sums of 0 to 31
theorem test_redux : after (exec (.redux { op .s32 0 with dst := .s 0, imm13 := 0 }) numbered) (fun t => swide (thread t) 0 1) = some 496 := by decide +kernel
theorem test_scan : after (exec (.scan { op .s32 0 with imm13 := 0 }) numbered) (fun t => vwide (thread t) 0 4 1) = some 10 ∧
    after (exec (.scan { op .s32 4 with imm13 := 0 }) numbered) (fun t => vwide (thread t) 0 4 1) = some 6 := by decide +kernel

theorem witness_CrossLaneMoves : (let f := { op .un 0 with dst := .s 0, imm13 := 6 }; f.imm13.toNat < 7 ∧
      (∀ i ∈ [Instr.vote f, .lmask f, .lmap f], ∃ c, Issues plain i f c ∧ (decide (c.g.width ≤ 64) && decide (c.lanes ≠ [])) = true)) ∧
    (let f := { op .b32 1 with c := .p 0 }; Issued plain f [.matchLanes f, .shfl f] ∧ f.dst = .v 0) :=
  ⟨⟨by decide, of_all (by decide +kernel)⟩, of_all (by decide +kernel), rfl⟩
theorem witness_ReductionsAndScans : let f := { op .s32 0 with imm13 := 0 }; Issued plain f [.redux f, .scan f] ∧ f.dst = .v 0 :=
  ⟨of_all (by decide +kernel), rfl⟩

/-! ### Control and traps -/

/-- Where the lanes stand. -/
def pcs (s : State) (ls : List Nat) : List (Option Nat) := ls.map fun l => (pcOf (thread s).frontier l).map BitVec.toNat
/-- The handler of the group. -/
def frame (s : State) : Option Handler := (s.group 3).bind Group.handler
/-- Guard A names p0, which is set in lanes 0 to 3 of `some4`. -/
def some4 (s : State) : State := s |> regs fun t => { t with preds := tput 0 t.preds 0 15 }
def ga (f : Fields) : Fields := { f with guardA := ⟨some 0, false⟩ }

-- R29
theorem test_header : after (exec (.clauseHeader ⟨1, some 0, none, 7, false, false⟩) (plain |> regs fun t => setFlagCount t 0 1)) (fun t => (t.group 3).map Group.park) =
      some (some (some (.stall .issue))) ∧
    after (exec (.clauseHeader ⟨2, some 0, none, 7, false, false⟩) (plain |> regs fun t => setFlagCount t 0 1)) (fun t => pcs t [0]) = some [some 0x20008] := by decide +kernel
-- R57, R135, R137, R180: A is 0x20000, a medium form takes 12 bytes, an offset counts 4 bytes
theorem test_nop_br : after (exec (.nop sf) plain) (fun t => pcs t [0, 31]) = some [some 0x20008, some 0x20008] ∧
    after (exec (.br { ga mf with imm13 := 16 }) (some4 plain)) (fun t => pcs t [0, 3, 4]) = some [some 0x20040, some 0x20040, some 0x2000C] := by decide +kernel
theorem test_bru : after (exec (.bru { mf with imm13 := 0x1FFF }) plain) (fun t => pcs t [0, 31]) = some [some 0x1FFFC, some 0x1FFFC] ∧
    after (exec (.bru { ga mf with imm13 := 16 }) (some4 plain)) (fun t => (frame t).map fun h => h.info.cause) = some (some .nonUniform) := by decide +kernel
theorem test_brx_calx : after (exec (.brx { sf with a := .v 8 }) (plain |> v0 8 2 0x20100)) (fun t => pcs t [0, 1]) = some [some 0x20100, some 0] ∧
    after (exec (.calx { sf with dst := .v 0, a := .s 8 }) (plain |> s0 8 2 0x20100)) (fun t => (pcs t [0], vwide (thread t) 0 31 2)) = some ([some 0x20100], 0x20008) := by decide +kernel
theorem test_call_ret : after (exec (.call { mf with dst := .v 0, imm13 := 2 }) plain) (fun t => (pcs t [0], vwide (thread t) 0 0 2)) = some ([some 0x20008], 0x2000C) ∧
    after (exec (.ret { sf with a := .v 8 }) (plain |> v0 8 2 2)) (fun t => (frame t).map fun h => (h.info.cause, h.info.lane)) = some (some (.misaligned, some 0)) := by decide +kernel
-- R138, R139
theorem test_exit_yld : after (exec (.exit (ga sf)) (some4 plain)) (fun t => pcs t [0, 3, 4]) = some [none, none, some 0x20008] ∧
    after (exec (.yld sf) plain) (fun t => pcs t [0]) = some [some 0x20008] := by decide +kernel
-- R140, R413
theorem test_trap : after (exec (.trap { ga mf with imm13 := 7 }) (some4 plain)) (fun t => (frame t).map fun h => (h.info.cause, [h.info.code, h.info.aux.toNat, h.pc.toNat, h.entries.length])) =
      some (some (.software, [7, 15, 0x2000C, 0])) ∧
    after (exec (.brk { mf with imm13 := 9 }) plain) (fun t => (frame t).map fun h => (h.info.cause, [h.info.code, h.info.addr.toNat, h.info.aux.toNat])) =
      some (some (.breakpoint, [9, 0x20000, 0xFFFFFFFF])) := by decide +kernel
-- R416
theorem test_tfr_tinj : after (exec (.tfr { mf with dst := .s 0, imm13 := 1 }) (handled plain)) (fun t => swide (thread t) 0 2) = some 0x20000 ∧
    after (exec (.tinj { mf with a := .v 8, fam := 1, imm13 := 12 }) (handled plain |> v0 8 1 77)) (fun t => (t.group 3).map fun g => (vreg g.main 12 0).toNat) = some (some 77) := by decide +kernel
-- R417
theorem test_tret : after (exec (.tret sf) (handled plain)) (fun t => (t.group 3).map fun g => (g.handler.isNone, g.main.frontier.length)) = some (some (true, 1)) := by decide +kernel

/-- The context has one call slot, in the page of code, which can be written, at 0x30000 (0x250000 in memory). -/
def ringed (s : State) : State := s.modCtx 1 fun x => { x with callBase := 0x30000, callSlots := 1 }
/-- Its group has called, and waits. -/
def called : State := (ringed paged).modGroup 3 fun g => { g with park := some (.call 0 (.v 4) 0xFFFFFFFF) }
-- R418, R419: DONE is the word at 24 of the slot, the results at 0x1040
theorem test_vcall : after (exec (.vcall { mf with dst := .v 4, a := .v 8, imm13 := 5 }) (ringed paged)) (fun t => (t.group 3).map Group.park) =
      some (some (some (.call 0 (.v 4) 0xFFFFFFFF))) ∧
    after (exec (.callReplyPoll 3) (writeNat (writeNat called 0x250018 8 1) 0x251040 4 99)) (fun t => ((t.group 3).map Group.park, (vreg (thread t) 4 0).toNat)) =
      some (some none, 99) := by decide +kernel

/-- A write to the highest lane of the group is on its way, under no flag or under flag 11. -/
def owing (b : Bool) : State := { plain with pends := [(9, { gid := 3, inHandler := false, writes := [{ scalar := false, reg := 4, lane := 31, value := 7 }], flag := if b then none else some 11, due := 10 })] }

theorem witness_HeadersWaitAndLanesLeave : (∃ c, Issues plain (.clauseHeader ⟨1, none, none, 0, false, false⟩) noFields c ∧ (decide (flagCount c.t 0 = 0)) = true) ∧
    (∃ c, Issues (plain |> regs fun t => setFlagCount t 11 1) (.clauseHeader ⟨0x800, none, none, 0, false, false⟩) noFields c ∧ (decide (flagCount c.t 11 ≠ 0)) = true) ∧
    Issued plain sf [.nop sf, .exit sf, .yld sf] ∧ (∃ c, Issues plain (.exit (ga sf)) (ga sf) c ∧ (!runs c) = true) ∧
    (∀ b ∈ [true, false], ∃ c, Issues (owing b) (.exit sf) sf c ∧ (runs c && writesTo (owing b) c.gid c.g.priv c.exec == b) = true) := by
  refine ⟨of_issued (by decide +kernel), of_issued (by decide +kernel), of_all (by decide +kernel), of_issued (by decide +kernel), fun b _ => ?_⟩
  cases b <;> exact of_issued (by decide +kernel)

/-- A target at one end of what is legal, and at the other. -/
theorem witness_ControlTransfers : (let f := { sf with a := .v 8 }; (∀ i ∈ [Instr.br f, .brx f, .call f, .calx f, .ret f, .bru f],
      ∃ c, Issues (plain |> v0 8 2 (2 ^ 56 - 4)) i f c ∧ (decide (c.g.kind ≠ .spindle ∧ c.exec = c.e.mask ∧ c.exec ≠ 0) && c.lanes.all fun l =>
        decide (c.srcA l % 4 = 0 ∧ c.srcA l < 2 ^ 56)) = true)) ∧
    (∀ i ∈ [Instr.br (ga sf), .brx (ga sf), .call (ga sf), .calx (ga sf), .ret (ga sf), .bru (ga sf)], ∃ c, Issues plain i (ga sf) c ∧ (!runs c) = true) ∧
    (∃ c, Issues (some4 plain) (.bru (ga sf)) (ga sf) c ∧ (decide (c.exec ≠ 0 ∧ c.exec ≠ c.e.mask)) = true) ∧
    (∀ x ∈ [1, 2 ^ 56], let f := { sf with a := .v 8 }; ∀ i ∈ [Instr.brx f, .calx f, .ret f], ∃ c, Issues (plain |> v0 8 2 x) i f c ∧
      (decide (0 ∈ c.lanes ∧ (c.srcA 0 % 4 ≠ 0 ∨ c.srcA 0 ≥ 2 ^ 56))) = true) ∧
    (let f := { lf with imm32 := 0x80000000 }; ∀ i ∈ [Instr.br f, .call f, .bru f], ∃ c, Issues plain i f c ∧
      (decide (c.exec = c.e.mask ∧ 2 ^ 56 ≤ (c.pc + 4#64 * (sext13 f.imm13 + sext32 f.imm32)).toNat)) = true) := by
  refine ⟨of_all (by decide +kernel), of_all (by decide +kernel), of_issued (by decide +kernel), ?_, of_all (by decide +kernel)⟩
  intro x hx
  simp only [List.mem_cons, List.not_mem_nil, or_false] at hx
  rcases hx with rfl | rfl <;> exact of_all (by decide +kernel)

/-- Two entries apart, the second at the header the first comes to, with its priority. -/
def twoEntries : List Entry := [{ pc := 0x20000, prio := 3, mask := 15, fresh := false }, { pc := 0x20000, prio := 7, mask := 0xF0, fresh := false, passed := true }]
theorem witness_LanesStayInOneEntry : LanesApart twoEntries ∧ (∀ e ∈ twoEntries.head?, e ∈ twoEntries ∧ e.passed = false ∧ (5 : LaneMask) &&& e.mask = 5 ∧
    ∃ o ∈ twoEntries, o ≠ e ∧ o.pc = e.pc ∧ o.prio = 7 ∧ o.passed = true) := by
  refine ⟨⟨by decide, by decide⟩, ?_⟩
  intro e he
  simp only [twoEntries, List.head?_cons, Option.mem_def, Option.some.injEq] at he
  subst he
  decide

/-- A group whose trap can be taken: not a Spindle job, its slice with a free store, its flags clear; and one in a handler. -/
def canTrap (d : State) : Bool := match d.group 3 with
  | some g => decide (g.kind = .launched) && !g.priv && (freeStoreOf d g.core g.slice).isSome && !flagsPending g.main && (d.ctx g.ctx).isSome
  | none => false
theorem witness_TakingATrap : (∀ i ∈ [Instr.trap sf, .brk sf], ∃ c, Issues plain i sf c ∧ (runs c && !c.g.priv && decide (c.g.kind = .launched) &&
      canTrap (drainGroup (advance c (plain.modGroup c.gid fun g => { g with cur := none, replays := g.replays.drop (if g.cur.isSome then 1 else 0) })) c.gid)) = true) ∧
    (∀ i ∈ [Instr.trap (ga sf), .brk (ga sf)], ∃ c, Issues plain i (ga sf) c ∧ (!runs c) = true) ∧
    canTrap (drainGroup plain 3) = true ∧ ((drainGroup (handled plain) 3).group 3).map (fun g => (g.priv, decide (g.kind = .launched))) = some (true, true) :=
  ⟨of_all (by decide +kernel), of_all (by decide +kernel), by decide +kernel, by decide +kernel⟩

theorem witness_ChecksBeforeExecution : (issuerOf plain).isSome = true ∧
    (issuerOf plain).any (fun x => x.2.2.flagX != some 5 && x.2.2.flagY != some 5) = true ∧ (issuerOf plain).any (fun x => !x.2.1.priv) = true ∧
    (issuerOf (plain |> regs fun t => { t with nv := 8, ns := 16 })).any (fun x => decide (x.2.1.thread.nv < 7 + 2 ∧ x.2.1.thread.ns < 16 + 1)) = true := by decide +kernel

/-- A handler that is to return with `a` and `es`; a replay entry is held from before. -/
def returning (a : Nat) (es : List Replay) : State := (handled plain).modGroup 3 fun g => { g with
  heldReplays := [{ iaddr := 0x20008, exec := 2, lanes := 2 }], handler := g.handler.map fun h => { h with action := a, entries := es } }

theorem witness_HandlerInstructions : Issued (handled plain) mf [.tfr mf, .tinj mf, .tret mf] ∧
    (∀ k ∈ [0, 1, 2, 5], ∃ c, Issues (handled plain) (.tfr { mf with fam := BitVec.ofNat 9 k, imm13 := 2 }) { mf with fam := BitVec.ofNat 9 k, imm13 := 2 } c ∧
      (decide (c.g.handler.isSome ∧ c.f.low3 = k ∧ 2 < c.g.main.nv ∧ 2 < c.g.main.ns)) = true) ∧
    (∀ a ∈ [0, 1, 2, 3], ∀ es ∈ [[], [{ iaddr := 0x20000, exec := 1, lanes := 1 }], [{ iaddr := 0x20000, exec := 1, lanes := 1, skip := true }]],
      let s := returning a es
      (∃ c, Issues s (.tret sf) sf c ∧ decide (c.gid = 3) = true) ∧ (drainGroup s 3).group 3 = s.group 3 ∧ ((s.group 3).bind fun g => g.handler.map fun h =>
        !flagsPending h.thread && !frontierChanged g h && decide (h.action = a ∧ h.entries = es ∧ h.pc = h.pc0 ∧ g.heldReplays ≠ [])) = some true) ∧
    (let s := regs (fun t => setFlagCount t 11 1) (returning 0 []);
      (∃ c, Issues s (.tret sf) sf c ∧ decide (c.gid = 3) = true) ∧ ((drainGroup s 3).group 3).any (fun g => g.handler.any fun h => flagsPending h.thread) = true) := by
  refine ⟨of_all (by decide +kernel), ?_, ?_, of_issued (by decide +kernel), by decide +kernel⟩
  · intro k hk
    simp only [List.mem_cons, List.not_mem_nil, or_false] at hk
    rcases hk with rfl | rfl | rfl | rfl <;> exact of_issued (by decide +kernel)
  · have h : ([0, 1, 2, 3].all fun a => [[], [{ iaddr := 0x20000, exec := 1, lanes := 1 }], [{ iaddr := 0x20000, exec := 1, lanes := 1, skip := true }]].all fun es =>
        let s := returning a es
        issued s (.tret sf) sf (fun c => decide (c.gid = 3)) && decide ((drainGroup s 3).group 3 = s.group 3) && ((s.group 3).bind fun g => g.handler.map fun h =>
          !flagsPending h.thread && !frontierChanged g h && decide (h.action = a ∧ h.entries = es ∧ h.pc = h.pc0 ∧ g.heldReplays ≠ [])) == some true) = true := by
      decide +kernel
    intro a ha es he
    have h := List.all_eq_true.mp (List.all_eq_true.mp h a ha) es he
    simp only [Bool.and_eq_true, decide_eq_true_eq, beq_iff_eq] at h
    exact ⟨of_issued h.1.1, h.1.2, h.2⟩

def okReach : Reach → Bool
  | .ok _ _ => true
  | _ => false

theorem witness_SupervisorCalls : (let f := { mf with dst := .v 4, a := .v 8 }; (∃ c, Issues (ringed paged) (.vcall f) f c ∧ (runs c && ((ringed paged).ctx c.g.ctx).any fun x =>
        (freeCallSlot x == some 0) && okReach (reachGlobal (ringed paged) c.core c.g.ctx .write true (callReqs c.low x.callBase (callHeader c (x.callCount + 1) ++ callArgs c).length))) = true) ∧
      (∃ c, Issues paged (.vcall f) f c ∧ (runs c && (paged.ctx c.g.ctx).any fun x => freeCallSlot x == none) = true)) ∧
    (∀ s ∈ [called, writeNat called 0x250018 8 1], ((s.group 3).bind Group.park == some (.call 0 (.v 4) 0xFFFFFFFF) && (s.ctx 1).any fun x =>
      okReach (reachGlobal s 0 1 .read true [{ lane := 0, addr := x.callBase, n := 4096 }, { lane := 0, addr := x.callBase + 4096#64, n := 4096 }])) = true) :=
  ⟨⟨of_issued (by decide +kernel), of_issued (by decide +kernel)⟩, by decide +kernel⟩

/-! ### Memory -/

/-- Lane 0 alone has p0, and its v8 names the address 0x30000, which is 0x250000 in memory; the byte v stands at 0x250000 + v, v below 8. -/
def data : State := writeMem (paged |> (regs fun t => { t with preds := [(0, 1)] }) |> v0 8 2 0x30000) 0x250000 [0, 1, 2, 3, 4, 5, 6, 7]
/-- An access by lane 0: destination v0, address v8, data v16, compared value v16 and new value v40. -/
def acc (ty : Ty) (fam : BitVec 9) : Fields := ga { mf with dst := .v 0, a := .v 8, b := .v 16, c := .v 40, ty := ty, fam := fam }
/-- The register writes on their way. -/
def onTheWay (s : State) : List (Nat × Nat × Nat) := s.pends.flatMap fun p => p.2.writes.map fun w => (w.reg, w.lane, w.value.toNat)
/-- `s` at a later clock. -/
def later (n : Nat) (s : State) : State := { s with clock := s.clock + n }

-- R144, R71; R26
theorem test_ld : after (exec (.ld { acc .b32 0 with b := .zero, imm13 := 4 }) data) onTheWay = some [(0, 0, 0x07060504)] ∧
    after (exec (.ld { acc .s8 0 with b := .zero, imm13 := 3 }) (writeMem data 0x250003 [0x80])) onTheWay = some [(0, 0, 0xFFFFFF80)] := by decide +kernel
theorem test_ld_misaligned : after (exec (.ld { acc .b64 0 with imm13 := 2 }) data) (fun t => (frame t).map fun h => (h.info.cause, h.info.addr.toNat, h.info.lane)) =
    some (some (.misaligned, 0x30002, some 0)) := by decide +kernel
-- R146: the store path, and the store performed
theorem test_st : after (exec (.st { acc .b32 0 with dst := .zero }) (data |> v0 16 1 0xAABBCCDD)) (fun t => (t.stores.flatMap fun p => p.2.writes.map fun w => (w.place, w.bytes), readNat t 0x250000 4)) =
    some ([(.mem 0x250000, [0xDD, 0xCC, 0xBB, 0xAA])], 0x03020100) := by decide +kernel
def stored : State := { later 10 data with stores := [(9, { gid := 3, core := 0, ctx := 1, inHandler := false, writes := [{ place := .mem 0x250001, bytes := [0xDD, 0xCC] }], flag := some 2, due := 10 })] }
theorem test_store_performs : after (exec (.storePerform 9) stored) (fun t => (t.stores.length, readNat t 0x250000 4)) = some (0, 0x03CCDD00) := by decide +kernel
-- R149 to R152
theorem test_atomics : after (exec (.atom { acc .n32 0 with imm13 := 0 }) (data |> v0 16 1 1)) (fun t => (onTheWay t, readNat t 0x250000 4)) = some ([(0, 0, 0x03020100)], 0x03020101) ∧
    after (exec (.cas (acc .b32 0)) (data |> v0 16 1 0x03020100 |> v0 40 1 9)) (fun t => (onTheWay t, readNat t 0x250000 4)) = some ([(0, 0, 0x03020100)], 9) ∧
    after (exec (.red { acc .n32 0 with dst := .zero, imm13 := 7 }) (data |> v0 16 1 5)) (fun t => (onTheWay t, readNat t 0x250000 4)) = some ([], 0) := by decide +kernel
-- R153 to R155
theorem test_fence : after (exec (.fence { acc .un 0xD4 with a := .zero }) stored) (fun t => (t.stores.length, readNat t 0x250000 4)) = some (0, 0x03CCDD00) ∧
    after (exec (.cinvAll { acc .un 1 with a := .zero }) (data.modCore 0 fun k => { k with l1 := [(0x12800, [1])] })) (fun t => (t.core 0).l1.length) = some 0 ∧
    after (exec (.cinvLine (acc .un 0)) (data.modCore 0 fun k => { k with l1 := [(0x12800, [1]), (0x12803, [1]), (0x12804, [1])] })) (fun t => (t.core 0).l1.map (·.1)) = some [0x12804] ∧
    after (exec (.pf (acc .un 0)) data) (fun t => pcs t [0]) = some [some 0x2000C] := by decide +kernel
/-- The grid's parameter block stands at the start of the page of code, as it did when the grid began. -/
def params : State := { data with grids := data.grids.map fun x => (x.1, { x.2 with param := .leaf (BitVec.ofNat 64 (mkPte 0x240000 true false false false false false true 0 0)) 0 false }) }
-- R156, R223
theorem test_ldk : after (exec (.ldk { acc .b32 0 with dst := .s 0, a := .s 8, imm13 := 0 }) params) onTheWay = some [(0, 0, 0xFFFDFA80)] := by decide +kernel
-- R234
theorem test_lpq : after (exec (.lpq { acc .un 0 with dst := .p 1 }) (data |> v0 8 2 0x80)) (fun t => predBit (thread t) 1 0) = some true ∧
    after (exec (.lpq { acc .un 0 with dst := .p 1 }) (data.modCore 0 (fun k => { k with absent := [(1, 1)] }) |> v0 8 2 0x80)) (fun t => predBit (thread t) 1 0) = some false := by decide +kernel

/-- At 0x30040 stands the descriptor of a writable 4 by 2 image of UI32X1 texels at 0x30080, and v12 names it; v16 is a coordinate block. -/
def image (format : Nat) : State := writeNat (data |> v0 12 2 0x30040) 0x250040 64
  (0x30080 + 3 * 2 ^ 64 + 1 * 2 ^ 80 + format * 2 ^ 144 + 1 * 2 ^ 152 + 2 ^ 160)
def img (ty : Ty) : Fields := ga { mf with dst := .v 0, a := .v 16, b := .v 12, ty := ty }
-- R158 to R167: texel (2, 1) stands at 0x30080 + 128 + 8
theorem test_ldi : after (exec (.ldi (img .n32)) (writeNat (image 9) 0x250108 4 77 |> v0 16 4 (2 + 2 ^ 32))) onTheWay =
    some [(0, 0, 77), (1, 0, 0), (2, 0, 0), (3, 0, 1)] := by decide +kernel
theorem test_sti : after (exec (.sti { img .n32 with dst := .zero, b := .v 40, c := .v 12 }) (image 9 |> v0 16 4 (2 + 2 ^ 32) |> v0 40 4 5)) (fun t =>
    t.stores.flatMap fun p => p.2.writes.map fun w => (w.place, w.bytes)) = some [(.mem 0x250108, [5, 0, 0, 0])] := by decide +kernel
theorem test_smp : after (exec (.smp (img .f32)) (writeNat (image 7) 0x250080 4 0x40400000)) onTheWay = some [(0, 0, 0x40400000), (1, 0, 0), (2, 0, 0), (3, 0, 0x3F800000)] ∧
    after (exec (.smpg (img .f32)) (image 9)) (fun t => (frame t).map fun h => (h.info.cause, h.info.aux.toNat)) = some (some (.protection, 5)) := by decide +kernel
theorem test_txq : after (exec (.txq { img .n32 with a := .zero, imm13 := 1 }) (image 9)) onTheWay = some [(0, 0, 2)] := by decide +kernel

/-! #### Witnesses -/

/-- Plain reads that nothing stops, of descriptors (`desc`) or not. -/
def plainGo (c : Ctx) (s : State) (desc : Bool) (rs : List Req) : Option (State × List (Nat × DWord × Nat)) :=
  match addrCauses s c.g .g rs, reachGlobal s c.core c.g.ctx .read c.g.priv rs with
  | none, .ok s1 hits =>
    if absentHit (settleStores c s1 hits) hits = none ∧ dataCause (settleStores c s1 hits) hits = none then
      let d := if desc then hits.foldl (fun s h => l1Renew s c.core h.place h.n) (touchHits (settleStores c s1 hits) c.core c.g.ctx .read hits)
        else touchHits (settleStores c s1 hits) c.core c.g.ctx .read hits
      some (l1After d c.core true hits, hits.map fun h => (h.lane, h.addr, loadValue d c.core true h))
    else none
  | _, _ => none

theorem of_plainGo {c : Ctx} {s : State} {desc : Bool} {rs : List Req} {x : State × List (Nat × DWord × Nat)} (h : plainGo c s desc rs = some x) :
    PlainReads c s desc rs x.1 x.2 := by
  unfold plainGo at h
  split at h
  · rename_i s1 hits ha hr
    split at h
    · rename_i hd
      cases h
      exact ⟨s1, hits, _, ha, hr, hd.1, hd.2, rfl, rfl, rfl⟩
    · cases h
  · cases h

/-- An access of lane 0 whose place is reached, in order, in module memory or a scratchpad. -/
def reached (s : State) (a : Access) (c : Ctx) : Bool := match reach c s a (requests c (tyBits c.f.ty / 8)) with
  | .ok s1 hits =>
    let d := settleStores c s1 hits
    decide (absentHit d hits = none ∧ dataCause d hits = none ∧ absentHit s1 hits = none) && peerRoom s1 c.gid hits && peerRoom d c.gid hits &&
      hits.all fun h => bankOf h.place == none
  | _ => false

/-- The page's entry is changed, and its companion is `comp`. -/
def repage (f : Nat → Nat) (s : State) (comp : Nat := 0) : State := match leafAt s 1 0x20000 with
  | some l => putLeaf s l.at' (f l.pte) comp
  | none => s
def remap (f : Nat → Nat) (comp : Nat) : State := repage f paged comp

/-- The page is not resident. -/
def outside (s : State) : State := repage (fun p => setBits (setBit1 p 10 false) 12 11 2) s
/-- The second page of the context is mapped, to no frame of the module. -/
def second (s : State) : State := match leafAt s 1 0x20000 with
  | some l => putLeaf s (l.at' + 8) (setBits (setBit1 l.pte 10 false) 12 11 2) 0
  | none => s

theorem witness_AddressChecks : (∀ i ∈ [Instr.ld { acc .b32 0 with imm32 := 1, form := .long }, .st { acc .b32 0 with imm32 := 1, form := .long }, .atom { acc .b32 0 with imm32 := 1, form := .long },
      .cas { acc .b32 0 with imm32 := 1, form := .long }, .red { acc .b32 0 with imm32 := 1, form := .long }],
      ∃ c, Issues data i { acc .b32 0 with imm32 := 1, form := .long } c ∧ (decide (c.runLanes = [0] ∧ c.srcA 0 % 4 = 0)) = true) ∧
    (∃ c, Issues (data |> v0 8 2 (2 ^ 56)) (.ld (acc .b32 0)) (acc .b32 0) c ∧ (decide (c.runLanes = [0] ∧ c.srcA 0 = 2 ^ 56)) = true) ∧
    (∃ c, Issues (data |> v0 8 2 0x40000) (.ld (acc .b32 1)) (acc .b32 1) c ∧ (decide (c.runLanes = [0]) && (localAt data c.g (c.srcA 0) 4).isNone) = true) ∧
    (∀ e ∈ [(fun p => p, 0), (fun p => setBit1 p 15 true, 0), (fun p => setBit1 p 2 false, 0), (fun p => setBit1 p 3 false, 0), (fun p => setBit1 p 4 false, 0), (fun p => setBit1 p 10 false, 0),
        (fun p => setBit1 p 8 true, 0), (fun p => setBit1 p 8 true, 2 ^ 63 + 18), (fun p => setBits p 61 48 5, 0)], ((remap e.1 e.2).ctx 1).any (fun x => !x.forking &&
      match leafFor (remap e.1 e.2) 0 1 x .write 0x3FFFF with | .leaf _ => true | _ => false) = true) := by
  refine ⟨of_all (by decide +kernel), of_issued (by decide +kernel), of_issued (by decide +kernel), ?_⟩
  simp only [List.forall_mem_cons, List.not_mem_nil, false_implies, implies_true, and_true]
  decide +kernel

theorem witness_LoadsPostTheirBytes : (∃ c, Issues data (.ld (acc .b32 0)) (acc .b32 0) c ∧ (runs c && reached data .read c) = true) ∧
    (∃ c, Issues data (.ld { acc .b32 0 with guardA := ⟨some 1, false⟩ }) { acc .b32 0 with guardA := ⟨some 1, false⟩ } c ∧ (!runs c) = true) ∧
    (let f := acc .b32 2; ∃ c, Issues (params |> v0 8 2 0xFFFC) (.ld f) f c ∧ (runs c && decide (f.space = .k ∧ c.srcA 0 + 4 = 65536) && (gridOf params c.g).any fun g =>
      decide (paramPlace params g 15 = some (.mem 0x24F000) ∧ placeCause params 4 (.mem 0x24FFFC) = none)) = true) ∧
    (let f := { acc .b32 0 with dst := .s 0, a := .s 8 }; ∃ c, Issues (params |> s0 8 1 0xFFFC) (.ldk f) f c ∧ (runs c && decide (c.srcA c.low % 2 ^ 32 + 4 = 65536)) = true) :=
  ⟨of_issued (by decide +kernel), of_issued (by decide +kernel), of_issued (by decide +kernel), of_issued (by decide +kernel)⟩

def landing : Pend := { gid := 3, inHandler := false, writes := [{ scalar := false, reg := 4, lane := 63, value := 7 }], flag := some 11, due := 10 }
/-- One clock after the free time of part `k`, an access that began at 0 still has parts to come. -/
def soon (k : Nat) : Nat := Config.freeChoice 0 (4 * k + 3) + 1
theorem partDue_soon (k : Nat) : partDue 0 0 (soon k + 1) k = soon k := by
  unfold partDue soon
  rw [if_neg (by omega), Nat.mod_eq_of_lt (by omega)]
  omega
theorem witness_ResultsLandWhenDue : (let s := { plain with pends := [(9, landing)] }; tfind s.pends 9 = some landing ∧ s.clock < landing.due) ∧
    (let p := { landing with due := soon 63 + 1 }; let s := { plain with clock := soon 63, pends := [(9, p)] }; tfind s.pends 9 = some p ∧ s.clock < p.due ∧
      p.laneDue 63 ≤ s.clock ∧ (s.group 3).map Group.priv = some p.inHandler) ∧
    (let p := { landing with flag := none, late := [{ place := .mem 0x250000, n := 4, lane := 63, sext := 0 }] };
      let s := { later 10 plain with pends := [(9, p)] }; tfind s.pends 9 = some p ∧ p.due ≤ s.clock ∧ (s.group 3).map Group.priv = some p.inHandler) ∧
    after (exec (.asyncWriteLand 9) { later 10 (plain |> regs fun t => setFlagCount t 11 2) with pends := [(9, landing)] }) (fun t =>
      ((vreg (thread t) 4 63).toNat, flagCount (thread t) 11, t.pends.length)) = some (7, 1, 0) := by
  refine ⟨by decide +kernel, ⟨rfl, Nat.lt_succ_self _, Nat.le_of_eq (partDue_soon 63), by decide +kernel⟩, by decide +kernel, by decide +kernel⟩

/-- Team 7 is of the group's cluster, on core 1; lane 0's v8 names the start of its scratchpad; the group has `n` peer operations on their way. -/
def peered (n : Nat) : State := ({ data with teams := tins data.teams 7 { cluster := 1, rank := 1, core := 1, groups := 1, width := 32, nv := 8, ns := 16, tiles := 0, accum := 0, granule := 0, granules := 1 } }.modGroup 3
  fun g => { g with ops := (fromTo 0 n).map fun i => { cls := 3, id := i } }) |> v0 8 2 0x2000000
/-- One peer access of lane 0 is reached, with room for it or not. -/
def atPeer (s : State) (a : Access) (room : Bool) (c : Ctx) : Bool := match reach c s a (requests c (tyBits c.f.ty / 8)) with
  | .ok s1 hits => decide (absentHit s1 hits = none ∧ peerCount hits = 1) && peerRoom s1 c.gid hits == room
  | _ => false
/-- A release store of core 0 to module memory of another die. -/
def crossing : PendStore := { gid := 3, core := 0, ctx := 1, inHandler := false, writes := [{ place := .mem 25769803776, bytes := [1] }], flag := none, due := 10, release := true }

theorem witness_StoresAndTheirPath : (∃ c, Issues data (.st (acc .b32 0)) (acc .b32 0) c ∧ (runs c && reached data .write c && !isRelease (acc .b32 0).order) = true) ∧
    (∀ x ∈ [(62, true), (63, false)], ∃ c, Issues (peered x.1) (.st (acc .b32 1)) (acc .b32 1) c ∧ (runs c && atPeer (peered x.1) .write x.2 c) = true) ∧
    (tfind stored.stores 9).any (fun p => decide (p.due ≤ stored.clock) && !mustHold stored p && !(tget [] stored.heldRel p.core).contains 9 &&
      stored.stores.all (fun q => !decide (q.1 < 9)) && decide (p.writes.filter (writeStale stored) = [])) = true ∧
    (let s := { later 10 data with stores := [(9, crossing)], fences := [(0, 1)] }; (tfind s.stores 9).any (fun p => decide (p.due ≤ s.clock) && mustHold s p && crosses p &&
      !(tget [] s.heldRel p.core).contains 9) = true ∧ (let s := { s with heldRel := [(0, [9])] }; (tget [] s.heldRel 0).contains 9 = true)) ∧
    (let p : PendStore := { crossing with writes := [{ place := .mem 0x250000, bytes := [1] }], release := false, due := soon 0x94000 + 1 }; let s := { data with clock := soon 0x94000, stores := [(9, p)] };
      s.clock < p.due ∧ (∃ w ∈ p.writes, p.pieceDue w ≤ s.clock) ∧ (tget [] s.heldRel p.core).contains 9 = false ∧ mustHold s p = false) ∧
    (let s := { data with clock := 0, stores := [(9, crossing)] }; s.clock < crossing.due ∧ ∀ w ∈ crossing.writes, s.clock < crossing.pieceDue w) ∧
    (let w : StoreWrite := { place := .scratch 0 64, bytes := [1], gen := some 5 }; writeStale stored w) = true ∧
    (let w : StoreWrite := { place := .scratch 0 64, bytes := [1] }; !writeStale stored w) = true := by
  refine ⟨of_issued (by decide +kernel), ?_, by decide +kernel, by decide +kernel, ⟨Nat.lt_succ_self _, ⟨_, List.mem_singleton.mpr rfl, Nat.le_of_eq (partDue_soon 0x94000)⟩, by decide +kernel, by decide +kernel⟩,
    ⟨by decide, fun w _ => ?_⟩, by decide +kernel, by decide +kernel⟩
  · simp only [List.forall_mem_cons, List.not_mem_nil, false_implies, implies_true, and_true]
    exact ⟨of_issued (by decide +kernel), of_issued (by decide +kernel)⟩
  · show 0 < partDue _ _ _ _
    unfold partDue
    split
    · decide
    · exact Nat.lt_of_lt_of_le (Nat.succ_pos _) (Nat.le_add_right _ _)

theorem witness_AtomicsReadModifyWrite : (∀ i ∈ [Instr.atom (acc .n32 0x20), .red (acc .n32 0x20), .cas (acc .n32 0x20)],
      ∃ c, Issues data i (acc .n32 0x20) c ∧ (runs c && reached data .write c) = true) ∧
    (∀ i ∈ [Instr.atom (acc .n32 0x6C), .red (acc .n32 0x6C), .cas (acc .n32 0x6C)], let s := { data with fences := [(0, 1)] };
      ∃ c, Issues s i (acc .n32 0x6C) c ∧ (runs c && reached s .write c && isRelease c.f.order && decide (tget 0 s.fences c.core = 1 ∧ effScope c.f = 3)) = true) ∧
    (∀ i ∈ [Instr.atom (acc .n32 1), .red (acc .n32 1), .cas (acc .n32 1)], ∃ c, Issues (peered 63) i (acc .n32 1) c ∧ (runs c && atPeer (peered 63) .write false c) = true) :=
  ⟨of_all (by decide +kernel), of_all (by decide +kernel), of_all (by decide +kernel)⟩

theorem witness_FencesCachesAndPresence : (let f := { acc .un 0x2C with a := .v 8 }; f.order = .acq ∧ f.scopeCode = 3 ∧ Issued data f [.fence f, .cinvAll f, .cinvLine f, .pf f]) ∧
    (let f := { acc .un 0x4C with a := .v 8 }; let s := { stored with fences := [(0, 1)] }; f.order = .rel ∧ f.scopeCode = 3 ∧ Issued s f [.fence f] ∧ tget 0 (performStoresOf s 3).fences 0 = 1) ∧
    (let f := { acc .un 0x64 with a := .v 8 }; f.order = .ar ∧ f.scopeCode = 1 ∧ Issued stored f [.fence f]) ∧
    (∃ c, Issues data (.cinvLine (acc .un 0)) (acc .un 0) c ∧ (decide (0 ∈ c.lanes) && (quietPlace c data 0).any fun x => decide (x.2.1.offset < 2 ^ 48)) = true) ∧
    (let f := { acc .un 0 with dst := .p 1 }; ∃ c, Issues (data |> v0 8 2 0x3FFFF) (.lpq f) f c ∧ (runs c && decide (c.runLanes = [0]) &&
      decide (localAt (data |> v0 8 2 0x3FFFF) c.g 0x3FFFF 1 = some (.scratch 0 0x3FFFF, none))) = true) ∧
    (let f := { acc .un 0 with dst := .p 1 }; ∃ c, Issues (data |> v0 8 2 0x40000) (.lpq f) f c ∧ (decide (c.runLanes = [0]) && (localAt (data |> v0 8 2 0x40000) c.g 0x40000 1).isNone) = true) ∧
    ((paged.modGroup 3 fun g => { g with park := some (.presence 0 5) }).group 3).map Group.park = some (some (.presence 0 5)) :=
  ⟨⟨by decide, by decide, of_all (by decide +kernel)⟩, ⟨by decide, by decide, of_all (by decide +kernel), by decide +kernel⟩, ⟨by decide, by decide, of_all (by decide +kernel)⟩,
    of_issued (by decide +kernel), of_issued (by decide +kernel), of_issued (by decide +kernel), by decide +kernel⟩

/-- The descriptor of lane 0 and the texels it asks for are read plainly. -/
def imaged (s : State) (unfit : Nat → Bool) (taps : Nat → Nat → List Tap) (c : Ctx) : Bool :=
  match plainGo c s true (c.runLanes.map fun l => { lane := l, addr := BitVec.ofNat 64 (c.srcB l), n := 64 }) with
  | some (s1, ds) => (ds.all fun v => !imInvalid v.2.2 && !unfit v.2.2) && !ds.isEmpty &&
      (plainGo c s1 false (ds.flatMap fun x => tapReqs x.1 x.2.2 (taps x.2.2 (c.srcA x.1)))).isSome
  | none => false

/-- The descriptors are read, and one is unfit. -/
def unfitted (s : State) (unfit : Nat → Bool) (at' : Nat → Nat) (c : Ctx) : Bool :=
  (plainGo c s true (c.runLanes.map fun l => { lane := l, addr := BitVec.ofNat 64 (at' l), n := 64 })).any fun x => x.2.any fun v => unfit v.2.2

theorem witness_ImageAccesses : (∃ c, Issues (image 7) (.smp (img .f32)) (img .f32) c ∧ (runs c && imaged (image 7) (fun d => formatInt (imFormat d)) sampleTaps c) = true) ∧
    (∃ c, Issues (image 7) (.smpg (img .f32)) (img .f32) c ∧ (runs c && imaged (image 7) (fun d => formatInt (imFormat d) || imDim d == 0 || imDim d == 2) gatherTaps c) = true) ∧
    (∃ c, Issues (image 9) (.ldi (img .n32)) (img .n32) c ∧ (runs c && imaged (image 9) (fun d => !formatInt (imFormat d)) plainTap c) = true) ∧
    (∃ c, Issues (image 9) (.txq (img .n32)) (img .n32) c ∧ (runs c && imaged (image 9) (fun _ => false) (fun _ _ => []) c) = true) ∧
    (let f := { img .n32 with b := .v 40, c := .v 12 }; ∃ c, Issues (image 9) (.sti f) f c ∧ (runs c &&
      (match plainGo c (image 9) true (c.runLanes.map fun l => { lane := l, addr := BitVec.ofNat 64 (c.srcC l), n := 64 }) with
        | some (s1, ds) =>
          let rs := ds.flatMap fun x => tapReqs x.1 x.2.2 (plainTap x.2.2 (c.srcA x.1))
          !ds.isEmpty && (ds.all fun v => !imInvalid v.2.2 && formatInt (imFormat v.2.2) && bit v.2.2 160) && (addrCauses s1 c.g .g rs).isNone &&
            okReach (reachGlobal s1 c.core c.g.ctx .write c.g.priv rs)
        | none => false)) = true) ∧
    (∀ i ∈ [Instr.smp (img .f32), .smpg (img .f32)], ∃ c, Issues (image 9) i (img .f32) c ∧ (runs c && unfitted (image 9) (fun d => formatInt (imFormat d)) c.srcB c) = true) ∧
    (∃ c, Issues (image 7) (.ldi (img .n32)) (img .n32) c ∧ (runs c && unfitted (image 7) (fun d => !formatInt (imFormat d)) c.srcB c) = true) ∧
    (∃ c, Issues (image 255) (.txq (img .n32)) (img .n32) c ∧ (runs c && unfitted (image 255) imInvalid c.srcB c) = true) ∧
    (let f := { img .n32 with b := .v 40, c := .v 12 }; ∃ c, Issues (image 7) (.sti f) f c ∧ (runs c && unfitted (image 7) (fun d => !formatInt (imFormat d)) c.srcC c) = true) := by
  refine ⟨?_, ?_, ?_, ?_, ?_, of_all (by decide +kernel), of_issued (by decide +kernel), of_issued (by decide +kernel), of_issued (by decide +kernel)⟩
  all_goals exact of_issued (by decide +kernel)
/-! ### Barriers, registers, launches -/

def team (s : State) : Option Team := s.team 2

-- R203 to R206
theorem test_bta : after (exec (.bta { mf with dst := .s 0, b := .s 4, imm13 := 3 }) (plain |> s0 4 1 2)) (fun t =>
      ((team t).map fun x => ((x.barrier 3).phase, (x.barrier 3).count, (x.barrier 3).expected), swide (thread t) 0 1)) = some (some (false, 1, some 2), 0) ∧
    after (exec (.bt { mf with imm13 := 3 }) plain) (fun t => ((team t).map fun x => ((x.barrier 3).phase, (x.barrier 3).count), pcs t [0])) = some (some (true, 0), [some 0x2000C]) := by decide +kernel
theorem test_btw : after (exec (.btw { mf with a := .s 4, imm13 := 3 }) (plain |> s0 4 1 1)) (fun t => ((t.group 3).map Group.park, pcs t [0])) = some (some none, [some 0x2000C]) ∧
    after (exec (.btw { mf with a := .s 4, imm13 := 3 }) plain) (fun t => (t.group 3).map Group.park) = some (some (some (.token 0 3 false))) := by decide +kernel
theorem test_bcl : after (exec (.bclArr { mf with dst := .s 0, b := .s 4, fam := 1, imm13 := 1 }) (plain |> s0 4 1 2)) (fun t => (t.cluster 1).map fun x => (x.barrier 1).count) = some (some 1) ∧
    after (exec (.bcl { mf with b := .s 4, imm13 := 1 }) (plain |> s0 4 1 2)) (fun t => (t.group 3).map Group.park) = some (some (some (.arrived 1 1 false .zero))) := by decide +kernel
theorem test_msync : after (exec (.msyncArr { mf with dst := .s 0, b := .s 4, fam := 1, imm13 := 15 }) (plain |> s0 4 1 2)) (fun t => (team t).map fun x => (x.matBarrier 15).count) = some (some 1) ∧
    after (exec (.msync { mf with dst := .s 0, imm13 := 15 }) plain) (fun t => swide (thread t) 0 1) = some 0xFF ∧
    after (exec (.msyncWait { mf with a := .s 4, fam := 2, imm13 := 15 }) plain) (fun t => (t.group 3).map Group.park) = some (some (some (.token 2 15 false))) := by decide +kernel
-- R207 to R210
def few : State := plain |> regs fun t => { t with nv := 16, ns := 32 }
theorem test_vgrow : after (exec (.vgrow { mf with imm13 := 24 }) few) (fun t => (thread t).nv) = some 24 ∧
    after (exec (.sgrow { mf with dst := .p 0, fam := 8, imm13 := 48 }) few) (fun t => ((thread t).ns, predBit (thread t) 0 31)) = some (48, true) := by decide +kernel
theorem test_vshrink_rgn : after (exec (.vshrink { mf with imm13 := 8 }) (few |> v0 8 1 5)) (fun t => ((thread t).nv, (vreg (thread t) 8 0).toNat)) = some (8, 0) ∧
    after (exec (.rgn { mf with a := .v 2, imm13 := 3 }) plain) (fun t => (thread t).staged) = some [2, 3, 4] := by decide +kernel
-- R212, R213
theorem test_srd : after (exec (.srd { mf with dst := .v 0, imm13 := 0 }) plain) (fun t => vwide (thread t) 0 17 1) = some 17 ∧
    after (exec (.srd { mf with dst := .s 0, imm13 := 0x0E }) plain) (fun t => swide (thread t) 0 1) = some 1 := by decide +kernel
-- R211
theorem test_lnch : after (exec (.lnch { acc .un 0 with b := .zero, c := .zero, imm13 := 2 }) data) (fun t => ((t.queue 0 10).posts.map fun p => (p.1, p.2.take 3), vwide (thread t) 0 0 1)) =
    some ([(1, [0, 1, 2])], 0) := by decide +kernel

theorem witness_BarrierArrivalsAndWaits : (plain.team 2).isSome = true ∧
    (∀ i ∈ [Instr.bta mf, .bclArr mf, .msyncArr mf, .bt mf, .bcl mf, .msync mf, .btw mf, .bclWait mf, .msyncWait mf], ∃ c, Issues plain i mf c ∧
      (decide (c.g.team = 2 ∧ counterOf c.g 1 < 63) && (plain.team 2).any fun t => (plain.cluster t.cluster).isSome && (t.matBarrier 0).expected.isNone) = true) ∧
    (let s := plain.modGroup 3 fun g => { g with park := some (.token 1 2 false) }; (s.group 3).map (fun g => (g.park, (barrierOf s g 1 2).phase)) = some (some (.token 1 2 false), false)) ∧
    (let s := plain.modTeam 2 fun t => t.setMatBarrier 0 { expected := some 2, count := 2 }; ∀ i ∈ [Instr.msync mf, .msyncArr mf], ∃ c, Issues s i mf c ∧
      (decide (c.g.team = 2 ∧ ((barrierOf s c.g 2 0).expected.getD 0) = 2 ∧ (barrierOf s c.g 2 0).count = 2)) = true) ∧
    (let s := plain.modGroup 3 fun g => { g with ops := (fromTo 0 63).map fun i => { cls := 1, id := i } }; ∀ i ∈ [Instr.msync mf, .msyncArr mf], ∃ c, Issues s i mf c ∧
      (decide (counterOf c.g 1 = 63) && (barrierOf s c.g 2 0).expected.isNone) = true) ∧
    (let s := plain.modTeam 2 fun t => t.setMatBarrier 0 { expected := some 2, count := 1 }; ∀ i ∈ [Instr.msync mf, .msyncArr mf], ∃ c, Issues s i mf c ∧
      (decide (counterOf c.g 1 < 63 ∧ (barrierOf s c.g 2 0).expected = some 2 ∧ (barrierOf s c.g 2 0).count < 2)) = true) :=
  ⟨by decide +kernel, of_all (by decide +kernel), by decide +kernel, of_all (by decide +kernel), of_all (by decide +kernel), of_all (by decide +kernel)⟩

/-- Group 9 of the slice waits for registers with request 5; group 3, whose own request is `r`, shares the slice with `n` others of 248 registers. -/
def rival (n : Nat) (r : Option Nat) : State := (List.range n).foldl (fun s i => match s.group 3 with
    | some g => { s with groups := tins s.groups (20 + i) { g with main := { g.main with nv := 240, ns := 256 } } }
    | none => s)
  (match few.group 3 with
  | some g => { few with groups := tins (tins few.groups 3 { g with request := r }) 9 { g with park := some (.grow false 24 5) } }
  | none => few)

theorem witness_RegisterCounts : (let f := { mf with imm13 := 24 }; ∀ i ∈ [Instr.vgrow f, .vshrink f, .rgn f], ∃ c, Issues few i f c ∧
      (decide (c.t.nv < 24 ∧ c.g.priv = false ∧ growQueue few c.core c.g.slice c.g.ctx = [] ∧
        linesOf c.g + 8 ≤ lineLimit few c.core c.g.ctx ∧ 8 ≤ freeLines few c.core c.g.slice c.g.ctx)) = true) ∧
    (let f := { mf with imm13 := 8 }; ∀ i ∈ [Instr.vgrow f, .vshrink f, .sgrow f], ∃ c, Issues few i f c ∧ (decide (8 < c.t.nv) && !writesAbove few c.gid c.g.priv 8) = true) ∧
    (let s := { few with pends := [(9, landing)] }; let f := { mf with imm13 := 1 }; ∃ c, Issues s (.vshrink f) f c ∧ (decide (1 < c.t.nv) && writesAbove s c.gid c.g.priv 1) = true) ∧
    (let s := few.modCore 0 fun k => { k with residents := [] }; let f := { mf with imm13 := 128 }; ∀ i ∈ [Instr.vgrow f, .sgrow f], ∃ c, Issues s i f c ∧
      (decide (c.t.nv < 128 ∧ c.t.ns < 128 ∧ lineLimit s c.core c.g.ctx < linesOf c.g)) = true) ∧
    (let s := few.modGroup 3 fun g => { g with park := some (.grow false 24 0) }; growQueue s 0 0 1 = [(3, 0)] ∧ gatedOn s 0 1 = false ∧ (s.group 3).map causeDue = some false) ∧
    (∀ x ∈ [(0, some 2, true), (2, none, false), (8, some 2, false)], let f := { mf with imm13 := 64 }; ∀ i ∈ [Instr.vgrow f, .sgrow f], ∃ c, Issues (rival x.1 x.2.1) i f c ∧
      (decide (c.g.priv = false ∧ growQueue (rival x.1 x.2.1) c.core c.g.slice c.g.ctx = [(9, 5)] ∧ linesOf c.g + 48 ≤ lineLimit (rival x.1 x.2.1) c.core c.g.ctx) &&
        (growFirst (rival x.1 x.2.1) c && decide (1 ≤ freeLines (rival x.1 x.2.1) c.core c.g.slice c.g.ctx)) == x.2.2) = true) := by
  refine ⟨of_all (by decide +kernel), of_all (by decide +kernel), of_issued (by decide +kernel), of_all (by decide +kernel), by decide +kernel, ?_⟩
  simp only [List.forall_mem_cons, List.not_mem_nil, false_implies, implies_true, and_true]
  exact ⟨⟨of_issued (by decide +kernel), of_issued (by decide +kernel)⟩, ⟨of_issued (by decide +kernel), of_issued (by decide +kernel)⟩,
    of_issued (by decide +kernel), of_issued (by decide +kernel)⟩

theorem witness_LaunchesAndSpecialRegisters : Issued data mf [.lnch mf, .srd mf] ∧
    (∃ c, Issues data (.lnch (acc .un 0)) (acc .un 0) c ∧ (runs c &&
      (plainGo c data false (c.runLanes.map fun l => { lane := l, addr := BitVec.ofNat 64 (c.srcA l), n := 64 })).isSome) = true) :=
  ⟨of_all (by decide +kernel), of_issued (by decide +kernel)⟩

/-! ### Rows -/

/-- A core whose context 1 has one object, handle 5: rows 0 to 3 of bank 0 of layer 0, which are in column space; the bank is in `phase`. -/
def column (phase : Option RowPhase) : State := paged.modCore 0 fun k => { k with
  colsplit := 8, objects := [(64 + 5, { desc := BitVec.ofNat 64 (2 ^ 63 + 2 ^ 56 + 2 ^ 40 + 4 * 2 ^ 15) })]
  banks := [(0, { phase := phase, owner := some 1, lastOwner := some 1, actAt := 100 })] }
def rowF : Fields := { mf with a := .s 10, b := .s 12, imm13 := 5 }
/-- s10 names row 3, s12 the scratchpad address `a`; the clock is 1,000. -/
def atRow (phase : Option RowPhase) (a : Nat) : State := later 1000 (column phase) |> s0 10 1 3 |> s0 12 2 a

-- R270 to R275, R276
theorem test_row_act : after (exec (.rowAct { rowF with b := .zero }) (atRow none 0)) (fun t => (t.bank 0 0).phase) = some (some (.opening 3 1020)) ∧
    after (exec (.rowAct { rowF with b := .zero }) (atRow (some (.open 2)) 0)) (fun t => (frame t).map fun h => (h.info.cause, h.info.aux.toNat)) = some (some (.rowBusy, 5 + 256 * 3)) := by decide +kernel
theorem test_row_rd : after (exec (.rowRd { rowF with dst := .p 5, fam := 8 }) (atRow (some (.open 3)) 0x80)) (fun t =>
      ((t.core 0).rowOps.map fun o => (o.2.bank, o.2.row, o.2.write, o.2.off), predBit (thread t) 5 0, (t.core 0).absent.map (·.1))) = some ([(0, 3, false, 0x80)], true, fromTo 1 16) ∧
    after (exec (.rowRd { rowF with dst := .p 5, fam := 8 }) (atRow none 0x80)) (fun t => ((t.core 0).rowOps.length, predBit (thread t) 5 0)) = some (0, false) := by decide +kernel
theorem test_row_wr : after (exec (.rowWr rowF) (atRow (some (.opening 3 1010)) 0x80)) (fun t => (t.group 3).map Group.park) = some (some (some (.row 0 0))) ∧
    after (exec (.rowWr rowF) (atRow (some (.open 2)) 0x80)) (fun t => (frame t).map fun h => h.info.cause) = some (some .rowLost) := by decide +kernel
theorem test_row_cls : after (exec (.rowCls { rowF with b := .zero }) (atRow (some (.open 3)) 0)) (fun t => (t.bank 0 0).closeWanted) = some true ∧
    after (exec (.rowSt { rowF with dst := .s 0, b := .zero }) (atRow (some (.open 3)) 0)) (fun t => swide (thread t) 0 2 % 2 ^ 32) = some (2 + 900 * 2 ^ 16) := by decide +kernel
theorem test_bank_steps : after (exec (.rowReady 0 0) (atRow (some (.opening 3 1000)) 0)) (fun t => (t.bank 0 0).phase) = some (some (.open 3)) ∧
    after (exec (.rowForcedClose 0 0) (later 48000 (atRow (some (.open 3)) 0))) (fun t => (t.bank 0 0).closeWanted) = some true ∧
    after (exec (.closeStart 0 0) ((atRow (some (.open 3)) 0).modBank 0 0 fun b => { b with closeWanted := true })) (fun t => (t.bank 0 0).phase) = some (some (.closing 3 1014)) ∧
    after (exec (.bankFree 0 0) (atRow (some (.closing 3 1000)) 0)) (fun t => (t.bank 0 0).phase) = some none := by decide +kernel
/-- A row operation: started 10 clocks before 1,000. -/
def moving (write : Bool) : RowOp := { bank := 0, row := 3, write := write, gid := 3, op := 9, team := 2, off := 0x80, started := some 990, snap := List.replicate 2048 7 }
theorem test_cobj_map : after (exec (.cobjMap { rowF with dst := .s 0, a := .s 10, b := .zero, imm13 := 6 }) (handled (column none) |> s0 10 2 (2 ^ 63 + 2 ^ 56 + 2 ^ 41 + 2 ^ 15))) (fun t =>
      (swide (thread t) 0 1, (objectOf t 0 1 6).map fun o => o.desc.toNat)) = some (0, some (2 ^ 63 + 2 ^ 56 + 2 ^ 41 + 2 ^ 15)) ∧
    after (exec (.cobjMap { rowF with dst := .s 0, a := .s 10, b := .zero, imm13 := 6 }) (handled (column none) |> s0 10 2 (2 ^ 63 + 1))) (fun t => swide (thread t) 0 1) = some 1 := by decide +kernel
theorem test_relocate : after (exec (.columnRelocate 0 1 5 (BitVec.ofNat 64 (2 ^ 63 + 2 ^ 56 + 2 ^ 40 + 4 * 2 ^ 28 + 4 * 2 ^ 15))) (column none)) (fun t =>
    (objectOf t 0 1 5).map fun o => o.desc.toNat) = some (some (2 ^ 63 + 2 ^ 56 + 2 ^ 40 + 4 * 2 ^ 28 + 4 * 2 ^ 15)) := by decide +kernel

/-- The group has `n` row operations on their way. -/
def accepting (phase : Option RowPhase) (n : Nat) : State := (atRow phase 0x80).modGroup 3 fun g => { g with ops := (fromTo 0 n).map fun i => { cls := 2, id := i } }
/-- The object moves. -/
def away : State := (atRow none 0).modCore 0 fun k => { k with objects := k.objects.map fun x => (x.1, { x.2 with moving := true }) }

theorem witness_RowsAndTheirData : (let f := rowF; (∀ i ∈ [Instr.rowAct f, .rowRd f, .rowWr f, .rowCls f, .rowSt f], ∃ c, Issues (atRow (some (.open 3)) (262144 - 2048)) i f c ∧ (runs c &&
        (rowAtOf (atRow (some (.open 3)) 0) c.core c.g.ctx 5 (c.srcA c.low % 2 ^ 32)).any (fun x => x.row == 3 && !x.obj.moving) &&
        decide (localAt (atRow (some (.open 3)) 0) c.g (c.srcB c.low) 2048 = some (.scratch 0 (262144 - 2048), none)) && decide (counterOf c.g 2 < 63)) = true) ∧
      (∀ i ∈ [Instr.rowAct (ga f), .rowRd (ga f), .rowWr (ga f), .rowCls (ga f), .rowSt (ga f)], ∃ c, Issues (column none) i (ga f) c ∧ (!runs c) = true) ∧
      (∀ i ∈ [Instr.rowAct f, .rowRd f, .rowWr f, .rowCls f, .rowSt f], ∃ c, Issues (column none |> s0 10 1 4) i f c ∧ (runs c && (rowAtOf (column none) c.core c.g.ctx 5 (c.srcA c.low % 2 ^ 32)).isNone) = true)) ∧
    canActivate (atRow none 0) 3 0 0 = true ∧ canActivate (atRow (some (.refreshing 1010)) 0) 3 0 0 = false ∧
    (let s := (atRow (some (.open 3)) 0).modCore 0 fun k => { k with rowOps := [(9, { moving false with started := none })] };
      oldestOn s 0 0 = some 9 ∧ delivering s 0 < 4 ∧ linesPresent s 0 0x80 = true) ∧
    (let s := (atRow (some (.open 3)) 0).modCore 0 fun k => { k with rowOps := [(9, moving true)] };
      oldestOn s 0 0 = some 9 ∧ (moving true).started.all (fun t => t + 10 ≤ s.clock) ∧ genAt s 0 0x80 = (moving true).gen) ∧ (moving true).snap.length = 2048 ∧
    (∀ i ∈ [Instr.rowRd rowF, .rowWr rowF], (∃ c, Issues (accepting (some (.open 3)) 63) i rowF c ∧ (runs c && decide (counterOf c.g 2 = 63)) = true) ∧
      (∃ c, Issues (accepting (some (.opening 3 1010)) 0) i rowF c ∧ (runs c && decide (((atRow (some (.opening 3 1010)) 0).bank c.core 0).view = .opening 3)) = true) ∧
      (∃ c, Issues (accepting none 62) i rowF c ∧ (runs c && decide (counterOf c.g 2 = 62)) = true)) ∧
    (∀ i ∈ [Instr.rowAct rowF, .rowSt rowF], ∃ c, Issues away i rowF c ∧ (runs c &&
      (rowAtOf away c.core c.g.ctx 5 (c.srcA c.low % 2 ^ 32)).any fun x => x.obj.moving && decide ((away.bank c.core x.bank).view.held = none)) = true) ∧
    (let s := (atRow (some (.open 3)) 0).modCore 0 fun k => { k with rowOps := [(8, moving true), (9, { moving false with started := none })] };
      writeBefore s 0 0 9 = true ∧ writeBefore s 0 0 8 = false ∧ delivering s 0 = 0) ∧
    (let s := (atRow (some (.open 3)) 0).modCore 0 fun k => { k with rowOps := (fromTo 0 4).map fun i => (i, { moving false with started := some 997 }) }; delivering s 0 = 4) := by
  refine ⟨⟨of_all (by decide +kernel), of_all (by decide +kernel), of_all (by decide +kernel)⟩, by decide +kernel, by decide +kernel, by decide +kernel, by decide +kernel, List.length_replicate, ?_,
    of_all (by decide +kernel), by decide +kernel, by decide +kernel⟩
  simp only [List.forall_mem_cons, List.not_mem_nil, false_implies, implies_true, and_true]
  exact ⟨⟨of_issued (by decide +kernel), of_issued (by decide +kernel), of_issued (by decide +kernel)⟩, of_issued (by decide +kernel), of_issued (by decide +kernel), of_issued (by decide +kernel)⟩

theorem witness_BanksAndUpkeep : (let s := (atRow none 0).modGroup 3 fun g => { g with park := some (.activate 0 0 3) };
      waitingActivate s 0 0 = some (3, 3) ∧ (s.group 3).map causeDue = some false ∧ canActivate s 3 0 0 = true ∧ (s.core 0).movingBank 1 0 = false) ∧
    (let s := later (nextRefresh {} 0) (column none); nextRefresh (s.core 0) 0 ≤ s.clock ∧ (s.bank 0 0).phase = none) ∧
    (let s := later 67108864 (column none); (s.core 0).retrainAt ≤ s.clock ∧ (s.core 0).retrainEnd = none ∧ rowDataPending s 0 = false ∧ delivering s 0 = 0 ∧
      waitingActivate s 0 5 = none ∧ ((s.core 0).layer 3).interval = 64) ∧
    (let s := later 70108864 ((column none).modCore 0 fun k => { k with rowOps := [(9, moving false)] }); (s.core 0).retrainAt + 3000000 ≤ s.clock ∧ rowDataPending s 0 = true ∧ delivering s 0 = 0) ∧
    (let s := later 70108863 ((column none).modCore 0 fun k => { k with rowOps := [(9, moving false)] }); (s.core 0).retrainAt ≤ s.clock ∧ s.clock < (s.core 0).retrainAt + 3000000 ∧ rowDataPending s 0 = true) ∧
    (let s := (column none).modCore 0 fun k => { k with retrainEnd := some 7 }; (s.core 0).retrainEnd = some 7 ∧ s.clock < 7 ∧ 7 ≤ (later 7 s).clock) ∧
    (let s := (column none).modCore 0 fun k => { (k.setLayer 0 { corrected := 64, interval := 128 }) with flips := [(96, 1), (127, 5)] }; (s.bank 0 0).phase = none ∧ activateAsked s 0 0 = false ∧
      ((s.core 0).flips.filter fun x => decide (rowKey 0 3 / 64 ≤ x.1 ∧ x.1 < rowKey 0 3 / 64 + 32)) = [(96, 1), (127, 5)] ∧ ((s.core 0).layer 0).corrected = 64) ∧
    activateAsked ((column none).modGroup 3 fun g => { g with park := some (.activate 0 0 3) }) 0 0 = true := by decide +kernel

theorem witness_ColumnObjects : (let s := handled (column none) |> s0 10 2 (2 ^ 63 + 2 ^ 56 + 2 ^ 40 + 4 * 2 ^ 15); let f := { rowF with dst := .s 0 }
      (∃ c, Issues s (.cobjMap f) f c ∧ (runs c && decide (mapStatus (s.core c.core) c.g.ctx (BitVec.ofNat 64 (c.srcA c.low)) = 0) &&
        (objectOf s c.core c.g.ctx 5).any fun o => !objectRowsHeld s c.core o.desc) = true)) ∧
    (let s := handled (column (some (.open 3))); let f := { rowF with dst := .s 0 }; ∃ c, Issues s (.cobjMap f) f c ∧ (runs c && decide (mapStatus (s.core c.core) c.g.ctx (BitVec.ofNat 64 (c.srcA c.low)) = 0) &&
        (objectOf s c.core c.g.ctx 5).any fun o => objectRowsHeld s c.core o.desc) = true) ∧
    (∃ c, Issues (handled (column none)) (.cobjMap (ga rowF)) (ga rowF) c ∧ (!runs c) = true) ∧
    (let s := column none; let d := BitVec.ofNat 64 (2 ^ 63 + 2 ^ 56 + 2 ^ 40 + 4092 * 2 ^ 28 + 4 * 2 ^ 15); (objectOf s 0 1 5).any (fun o => relocationFits s 0 1 5 o.desc d && !objectRowsHeld s 0 o.desc &&
      !descBad o.desc && (objUnits o.desc).all fun b => decide (((s.core 0).bank b).owner = some 1)) && !objectRowsHeld s 0 d) = true :=
  ⟨of_issued (by decide +kernel), of_issued (by decide +kernel), of_issued (by decide +kernel), by decide +kernel⟩

/-! ### Engines -/

/-- The group's scratchpad holds `bs` from `off` on. -/
def local' (off : Nat) (bs : List Byte) (s : State) : State := writeScratch s 0 off bs
/-- s4 names 0x40, where a barrier object with the low word `w` stands, and s8 holds `b`. -/
def atObject (w b : Nat) : State := plain |> local' 0x40 (toBytes 16 w) |> s0 4 2 0x40 |> s0 8 1 b
def objF : Fields := { mf with dst := .s 0, a := .s 4, b := .s 8 }
def object (s : State) : Nat := ofBytes (scratchBytes s 0 0x40 16)

-- R322, R326 to R330; the object of the example of R331
theorem test_bo_init : after (exec (.boInit objF) (atObject 7 3)) object = some 0x30003 ∧ after (exec (.boInit objF) (atObject 7 0)) object = some 0x10001 := by decide +kernel
theorem test_bo_exp : after (exec (.boExp objF) (atObject 0x10001 512)) object = some (512 * 2 ^ 64 + 0x10001) ∧
    after (exec (.boExp objF) (atObject (512 * 2 ^ 64 + 0x00000001) (2 ^ 32 - 512))) object = some 0x8000000000010001 := by decide +kernel
theorem test_bo_arr : after (exec (.boArr { objF with b := .zero }) (atObject 0x10001 5)) (fun t => (object t, swide (thread t) 0 1)) = some (0x8000000000010001, 0) ∧
    after (exec (.boArr objF) (atObject 0x8000000000010001 512)) (fun t => (object t, swide (thread t) 0 1)) = some (512 * 2 ^ 64 + 0x8000000000000001, 1) := by decide +kernel
theorem test_bo_wait : after (exec (.boWait objF) (atObject 0x10001 0)) (fun t => (t.group 3).map Group.park) = some (some (some (.object 0 0x40 false))) ∧
    after (exec (.boWait objF) (atObject 0x10001 1)) (fun t => pcs t [0]) = some [some 0x2000C] := by decide +kernel
theorem test_bo_try : after (exec (.boTry objF) (atObject 0x10001 1)) (fun t => swide (thread t) 0 1) = some 1 ∧
    after (exec (.boTry objF) (atObject 0x10001 0 |> s0 4 2 0x48)) (fun t => (frame t).map fun h => h.info.cause) = some (some .misaligned) := by decide +kernel
theorem test_wcnt : (let s := plain.modGroup 3 fun g => { g with ops := [{ cls := 0, id := 9 }] };
    after (exec (.wcnt mf) s) (fun t => (t.group 3).map Group.park) = some (some (some (.counter 0 0))) ∧
    after (exec (.wcnt { mf with imm13 := 1 }) s) (fun t => (t.group 3).map Group.park) = some (some none)) := by decide +kernel

/-- s4 names an object of team 7, which is away or not; the group has `n` peer operations on their way. -/
def peerObject (away : Bool) (n : Nat) : State := (peered n).modTeam 7 (fun t => { t with saved := away }) |> s0 4 2 0x2000040

theorem witness_BarrierObjects : (∀ i ∈ [Instr.boInit objF, .boExp objF, .boArr objF, .boWait objF, .boTry objF],
      ∃ c, Issues (atObject 0x10001 1 |> s0 4 2 (262144 - 16)) i objF c ∧ (runs c && decide (c.srcA c.low % 16 = 0 ∧ counterOf c.g 3 < 63 ∧
        localAt (atObject 0x10001 1) c.g (c.srcA c.low) 16 = some (.scratch 0 (262144 - 16), none))) = true) ∧
    (∀ i ∈ [Instr.boInit objF, .boExp objF, .boArr objF, .boWait objF, .boTry objF],
      ∃ c, Issues (atObject 0x10001 1 |> s0 4 2 262144) i objF c ∧ (runs c && decide (c.srcA c.low % 16 = 0 ∧
        localAt (atObject 0x10001 1) c.g (c.srcA c.low) 16 = none)) = true) ∧
    (∀ i ∈ [Instr.boInit (ga objF), .boExp (ga objF), .boArr (ga objF), .boWait (ga objF), .boTry (ga objF)], ∃ c, Issues (atObject 0x10001 1) i (ga objF) c ∧ (!runs c) = true) ∧
    (∃ c, Issues plain (.wcnt mf) mf c ∧ (runs c && decide (counterOf c.g 0 = 0)) = true) ∧
    (∀ i ∈ [Instr.boInit objF, .boExp objF, .boArr objF, .boWait objF, .boTry objF], ∃ c, Issues (atObject 0 0 |> s0 4 2 0x48) i objF c ∧ (runs c && decide (c.srcA c.low % 16 = 8)) = true) ∧
    (∀ x ∈ [(false, 62), (false, 63), (true, 0)], ∀ i ∈ [Instr.boExp objF, .boArr objF, .boWait objF], ∃ c, Issues (peerObject x.1 x.2) i objF c ∧ (runs c && decide (counterOf c.g 3 = x.2 ∧
      localAt (peerObject x.1 x.2) c.g (c.srcA c.low) 16 = some (.scratch 1 0x40, some 7) ∧ peerAway (peerObject x.1 x.2) (some 7) = if x.1 then some 7 else none)) = true) := by
  refine ⟨of_all (by decide +kernel), of_all (by decide +kernel), of_all (by decide +kernel), of_issued (by decide +kernel), of_all (by decide +kernel), ?_⟩
  simp only [List.forall_mem_cons, List.not_mem_nil, false_implies, implies_true, and_true]
  exact ⟨⟨of_issued (by decide +kernel), of_issued (by decide +kernel), of_issued (by decide +kernel)⟩, ⟨of_issued (by decide +kernel), of_issued (by decide +kernel), of_issued (by decide +kernel)⟩,
    of_issued (by decide +kernel), of_issued (by decide +kernel), of_issued (by decide +kernel)⟩

/-- A linear record (R331, R340) at 0x40 of the scratchpad: the word 0 is `w`; it moves bytes from 0x100 to 0x200. -/
def linear (w : Nat) : List Byte := toBytes 64 (w + 0x100 * 2 ^ 128 + 0x200 * 2 ^ 192)
/-- OWN, SSP and DSP, and a SIZE of 8. -/
def own8 : Nat := 2 ^ 63 + 2 ^ 41 + 2 ^ 40 + 8
def chain : Chain := { team := 2, ctx := 1, gid := 3, op := 9, own := { core := 0, base := 0, size := 262144, gen := 0 }, rank := 0, prio := 0, head := 0x40, local' := true }
/-- The chain `c` heads channel 1, the record stands at 0x40, and the bytes 1 to 8 at 0x100. -/
def posted (w : Nat) (c : Chain) : State := (later 1000 plain |> local' 0x40 (linear w) |> local' 0x100 [1, 2, 3, 4, 5, 6, 7, 8]).modGroup 3
  (fun g => { g with ops := [{ cls := 0, id := 9 }] }) |>.modCore 0 fun k => k.setChannel 1 [c]
def head (s : State) : Option Chain := ((s.core 0).channel 1).head?
/-- The record of `posted own8` as it runs, and when all its bytes have moved. -/
def halfway : Chain := { chain with running := true, begun := true, record := linear own8, cleared := [(0, 4)] }
def moved : Chain := { halfway with pos := 8, done := 8, moved := true }
/-- The lane of an access alone; s4 names 0x40 and s8 0x80. -/
def posting (s : State) : State := s |> (regs fun t => { t with preds := [(0, 1)] }) |> s0 4 2 0x40 |> s0 8 2 0x80
def reelF : Fields := ga { mf with dst := .v 0, a := .s 4, b := .s 8, fam := 1, imm13 := 1 }

-- R336, R337, R339
theorem test_reel_go : after (exec (.reelGo { reelF with dst := .zero, b := .zero }) (posting plain)) (fun t => (((t.core 0).channel 1).map fun c => (c.head, c.local', c.running),
    (t.group 3).map fun g => counterOf g 0)) = some ([(0x40, true, false)], some 1) := by decide +kernel
theorem test_reel_add : after (exec (.reelAdd reelF) (posting (plain |> local' 0x40 (linear own8)))) (fun t => (vwide (thread t) 0 0 1, ofBytes (scratchBytes t 0 0x48 8), ((t.core 0).channel 1).length)) = some (0, 0x80, 0) ∧
    after (exec (.reelAdd reelF) (posting (plain |> local' 0x40 (linear 8)))) (fun t => (vwide (thread t) 0 0 1, ofBytes (scratchBytes t 0 0x48 8), ((t.core 0).channel 1).map Chain.head)) = some (1, 0, [0x80]) := by decide +kernel
theorem test_reel_st : after (exec (.reelSt { mf with dst := .s 0, imm13 := 1 }) (posted own8 halfway)) (fun t => swide (thread t) 0 2) = some 0x101 ∧
    after (exec (.reelSt { mf with dst := .s 0, imm13 := 0 }) (posted own8 halfway)) (fun t => swide (thread t) 0 2) = some 0 := by decide +kernel
-- R334, its steps: the record starts, its bytes move, it ends; R332: a reserved field, an alignment; R336: a record not owned
theorem test_record_starts : after (exec (.reelRecord 0 1) (posted own8 chain)) (fun t => ((head t).map fun c => (c.running, c.moved), (t.core 0).absent.map (·.1))) = some (some (true, false), [4]) ∧
    after (exec (.reelRecord 0 1) (posted (own8 + 2 ^ 37) chain)) (fun t => (head t).map fun c => (c.err, c.moved)) = some (some (2, true)) := by decide +kernel
theorem test_chunk : after (exec (.reelChunk 0) (posted own8 halfway)) (fun t => ((head t).map fun c => (c.done, c.moved), ofBytes (scratchBytes t 0 0x200 8))) = some (some (8, true), 0x0807060504030201) ∧
    after (exec (.reelRecord 0 1) (posted own8 moved)) (fun t => ((head t).isSome, ofBytes (scratchBytes t 0 0x40 8), ofBytes (scratchBytes t 0 0x78 8), (t.group 3).map fun g => counterOf g 0)) =
      some (false, own8 - 2 ^ 63, 8, some 0) := by decide +kernel
theorem test_layout_record : (let c : Chain := { chain with aux := toBytes 32 (2 + 4 * 2 + 100 * 2 ^ 32 + 50 * 2 ^ 64 + 400 * 2 ^ 128 + 31 * 2 ^ 208 + 3 * 2 ^ 216 + 128 * 2 ^ 232) };
    (boxW c, boxH c, boxD c, elemSize c, tileBytes c) = (32, 4, 1, 4, 512) ∧ layoutBad { c with record := linear own8 } = false) := by decide +kernel

/-- The group has `n` Reel operations on their way, and channel 1 holds `m` chains. -/
def busyReel (n m : Nat) : State := (plain.modGroup 3 fun g => { g with ops := (fromTo 0 n).map fun i => { cls := 0, id := i } }).modCore 0 fun k => k.setChannel 1 (List.replicate m chain)

theorem witness_ReelInstructions : (∀ i ∈ [Instr.reelGo reelF, .reelAdd reelF, .reelSt reelF], ∃ c, Issues (posting (plain |> local' 0x40 (linear own8))) i reelF c ∧
      (runs c && decide (c.g.team = 2 ∧ counterOf c.g 0 + c.runLanes.length ≤ 63 ∧ ((plain.core c.core).channel 1).length + c.runLanes.length ≤ 64)) = true) ∧
    (∃ c, Issues (posting (plain |> local' 0x40 (linear own8))) (.reelAdd reelF) reelF c ∧ (let s := posting (plain |> local' 0x40 (linear own8))
      let rs : List Req := c.runLanes.map fun l => { lane := l, addr := BitVec.ofNat 64 (c.srcA l), n := 16 };
      decide (addrCauses s c.g .l rs = none) && match reachLocal s c.g rs with
        | .ok s1 hits => decide (absentHit s1 hits = none ∧ dataCause s1 hits = none) && hits.all fun h => h.peer == none && bankOf h.place == none
        | _ => false) = true) ∧
    (plain.team 2).isSome = true ∧
    (∀ i ∈ [Instr.reelGo (ga reelF), .reelAdd (ga reelF)], ∃ c, Issues plain i (ga reelF) c ∧ (!runs c) = true) ∧
    (∀ i ∈ [Instr.reelGo reelF, .reelAdd reelF], ∃ c, Issues (posting (busyReel 63 0)) i reelF c ∧ (runs c && decide (counterOf c.g 0 = 63)) = true) ∧
    (∀ x ∈ [(62, 64), (62, 63)], ∃ c, Issues (posting (busyReel x.1 x.2)) (.reelGo reelF) reelF c ∧
      (runs c && decide (counterOf c.g 0 = x.1 ∧ (((busyReel x.1 x.2).core c.core).channel 1).length = x.2)) = true) ∧
    (∃ c, Issues (posting plain |> s0 4 2 0x44) (.reelAdd reelF) reelF c ∧ (runs c && decide (c.srcA 0 = 0x44)) = true) ∧
    (∃ c, Issues (peered 0 |> s0 4 2 0x2000000) (.reelAdd reelF) reelF c ∧ (runs c && (match reachLocal (peered 0) c.g [{ lane := 0, addr := 0x2000000, n := 16 }] with
      | .ok _ [h] => h.peer == some 7
      | _ => false)) = true) ∧
    (∀ w ∈ [own8, 8], let s := posting (plain |> local' 0x40 (linear w)); ofBytes (scratchBytes s 0 0x40 8) / 2 ^ 63 % 2 = w / 2 ^ 63 ∧ ofBytes (scratchBytes s 0 0x48 8) = 0) := by
  refine ⟨of_all (by decide +kernel), of_issued (by decide +kernel), by decide +kernel, of_all (by decide +kernel), of_all (by decide +kernel), ?_, of_issued (by decide +kernel), of_issued (by decide +kernel),
    by decide +kernel⟩
  simp only [List.forall_mem_cons, List.not_mem_nil, false_implies, implies_true, and_true]
  exact ⟨of_issued (by decide +kernel), of_issued (by decide +kernel)⟩

/-- The record at the head of channel 1 can be read, and its bytes pass `p`. -/
def recordRead (s : State) (c : Chain) (p : List Byte → Bool) : Bool := recordDue s 0 1 && !teamLeft s c.team &&
  match engineRead c c.local' 8 s c.head 64 with
  | .ok _ bs => p bs
  | _ => false
/-- The chain heads channel 1. -/
def onReel (c : Chain) (s : State) : State := (later 1000 s).modCore 0 fun k => k.setChannel 1 [c]

theorem witness_ReelTransfers : (let started (bs : List Byte) : Chain := { (chain.at' chain.head chain.local') with running := true, record := bs };
      head (posted own8 chain) = some chain ∧ recordRead (posted 8 chain) chain (fun bs => !(ofBytes bs).testBit 63) = true ∧
      recordRead (posted (own8 + 2 ^ 37) chain) chain (fun bs => (ofBytes bs).testBit 63 && recordBad (started bs)) = true ∧
      recordRead (posted (own8 + 2) chain) chain (fun bs => (ofBytes bs).testBit 63 && !recordBad (started bs) && recordMisaligned (started bs)) = true ∧
      recordRead (posted (own8 - 2 ^ 40) chain) chain (fun bs => (ofBytes bs).testBit 63 && !recordBad (started bs) && !recordMisaligned (started bs) &&
        decide (recKind (started bs) = 0) && !recDsp (started bs)) = true) ∧
    (head (posted own8 moved) = some moved ∧ recordDue (posted own8 moved) 0 1 = true ∧ moved.running = true ∧
      (match writeStatus (posted own8 moved) moved (finalErr (posted own8 moved) moved) with | .ok _ () => true | _ => false) = true) ∧
    (ownOff moved (moved.head + 4) 4 = some 0x44 ∧ ownOff moved (moved.head + 56) 8 = some 0x78 ∧ moved.local' = true ∧ genAt (posted own8 moved) 0 0 = moved.own.gen) ∧
    (recKind halfway = 0 ∧ recSsp halfway = true ∧ recDsp halfway = true ∧ halfway.pos < recSize halfway ∧ ownOff halfway 0x100 8 = some 0x100 ∧ ownOff halfway 0x200 8 = some 0x200 ∧
      placeCause (posted own8 halfway) 8 (.scratch 0 0x100) = none) ∧
    (chunkDue (posted own8 halfway) 0 1 = true ∧ ((posted own8 halfway).core 0).reelFree ≤ (posted own8 halfway).clock ∧
      [0, 2, 3].all (fun ch => !chunkDue (posted own8 halfway) 0 ch) = true ∧ ((posted own8 chain).core 0).reelFree ≤ 1000 ∧ chunkDue (posted own8 chain) 0 1 = false) ∧
    (∀ x ∈ [(outside paged, 0x30000, 1), (paged, 0x8000000, 2)], let c : Chain := { chain with local' := false, head := x.2.1 }; let s := onReel c x.1
      head s = some c ∧ recordDue s 0 1 = true ∧ teamLeft s 2 = false ∧ (match engineRead c false 8 s x.2.1 64 with | .wait _ _ => 1 | .err _ _ => 2 | .ok _ _ => 3) = x.2.2) ∧
    (let c : Chain := { halfway with clearing := [(0, 4), (0, 5)] }; c.clears = true ∧ head (onReel c plain) = some c ∧ recordDue (onReel c plain) 0 1 = true) ∧
    (let c : Chain := { moved with told := true }; c.clears = false ∧ c.running = true ∧ head (onReel c plain) = some c ∧ recordDue (onReel c plain) 0 1 = true) ∧
    (∀ x ∈ [(outside paged, 0x30000, 1), (paged, 0x8000000, 2)], let c : Chain := { moved with local' := false, head := x.2.1 }; let s := onReel c x.1
      head s = some c ∧ recordDue s 0 1 = true ∧ (match writeStatus s c (finalErr s c) with | .wait _ _ => 1 | .err _ _ => 2 | .ok _ _ => 3) = x.2.2) ∧
    (let s := (posted own8 halfway).modCore 0 fun k => { k with reelFree := 1001 }; s.clock < (s.core 0).reelFree) := by
  refine ⟨by decide +kernel, by decide +kernel, by decide +kernel, by decide +kernel, by decide +kernel, ?_, by decide +kernel, by decide +kernel, ?_, by decide +kernel⟩
  all_goals
    simp only [List.forall_mem_cons, List.not_mem_nil, false_implies, implies_true, and_true]
    decide +kernel

/-- Queue 1 of the Spindle is bound to context 1 and is `q` otherwise. -/
def spindle (q : SpQueue) : State := plain.modCore 0 fun k => k.setSpq 1 { q with ctx := some 1 }
def entry (p : Bool) : QEntry := { words := (fromTo 0 16).map fun i => BitVec.ofNat 32 (100 + i), poison := p }
def popF : Fields := { mf with dst := .v 0, imm13 := 1 }
-- R357
theorem test_qpop : after (exec (.qpop popF) (spindle { entries := [entry false] })) (fun t => (vwide (thread t) 0 17 1, ((t.core 0).spq 1).entries.length)) = some (101, 0) ∧
    after (exec (.qpop popF) (spindle { running := true })) (fun t => (t.group 3).map Group.park) = some (some (some (.room (.entry 1)))) := by decide +kernel
theorem test_qtry : after (exec (.qtry { popF with c := .p 5 }) (spindle { entries := [entry false] })) (fun t => (vwide (thread t) 0 31 1, predBit (thread t) 5 31)) = some (115, true) ∧
    after (exec (.qtry { popF with c := .p 5 }) (spindle { entries := [entry true] })) (fun t => ((frame t).map fun h => h.info.cause, ((t.core 0).spq 1).entries.length)) = some (some .poison, 0) := by decide +kernel
/-- Group 3 is the job of queue 1, of width 16. -/
def job (q : SpQueue) (s : State := paged) : State := (s.modGroup 3 fun g => { g with kind := .spindle, slice := 16, slot := 1, g := 1, width := 16, main := { g.main with nv := 32, ns := 32, preds := [(0, 5)], frontier := g.main.frontier.map fun e => { e with mask := 0xFFFF } } }).modCore 0
  fun k => k.setSpq 1 { q with ctx := some 1, running := true, team := 2, gid := 3, prog := 0x20000, progEnd := 0x2000C }
-- R356: the lanes 0 and 2 push
theorem test_qpush : after (exec (.qpush (ga { mf with a := .v 8 })) (job { limit := 1 } |> v0 8 1 7)) (fun t => (((t.core 0).spq 1).done, ((t.core 0).spq 1).entries.map fun e => e.words.take 3)) = some (1, [[7, 0, 0]]) ∧
    after (exec (.qpush (ga { mf with a := .v 8 })) (job { limit := 0 })) (fun t => ((t.core 0).spq 1).ending) = some (some (0x0E, 0)) := by decide +kernel
/-- At 0x30000 a descriptor (R352): one instruction at 0x20000, a stream of 5 bytes at 0x1234, 7 entries; `w` is added. -/
def described (w : Nat) : State := posting (writeNat paged 0x250000 64 (0x20000 + 2 ^ 64 + 0x1234 * 2 ^ 128 + 5 * 2 ^ 192 + 7 * 2 ^ 224 + w)) |> s0 10 2 0x30000
def goF : Fields := { mf with dst := .s 0, a := .s 10, imm13 := 1 }
-- R353, R354, R358
theorem test_sp_go : after (exec (.spGo goF) (described 0)) (fun t => (swide (thread t) 0 1, ((t.core 0).spq 1).running, ((t.core 0).spq 1).limit)) = some (0, true, 7) ∧
    after (exec (.spGo goF) (described (2 ^ 56))) (fun t => swide (thread t) 0 1) = some 3 := by decide +kernel
theorem test_sp_stop : after (exec (.spStop { mf with imm13 := 1 }) (spindle { entries := [entry false] })) (fun t => (((t.core 0).spq 1).ctx, ((t.core 0).spq 1).entries.length)) = some (none, 0) := by decide +kernel
-- R351, R354, R359
theorem test_spindle_issue : after (exec (.spindleIssue 0) (job {})) (fun t => (t.agenda, (t.core 0).spLast)) = some ([.issue 3], 1) ∧
    after (exec (.spindleIssue 0) ((job {}).modGroup 3 fun g => { g with main := { g.main with frontier := g.main.frontier.map fun e => { e with pc := 0x2000C } } })) (fun t => ((t.core 0).spq 1).ending) =
      some (some (0x0E, 0)) := by decide +kernel
theorem test_job_end : after (exec (.spindleJobEnd 0 1) (spindle { ending := some (5, 9), poison := 2, done := 4 })) (fun t => (((t.core 0).spq 1).entries.map QEntry.poison,
    ((t.core 0).spq 1).reports.map fun r => (r.err, r.foff, r.done))) = some ([true, true], [(5, 9, 4)]) := by decide +kernel

/-- What `sp.go` comes to: 1 a program that passes its check, 2 one that cannot be read, 3 a bad descriptor, 4 a page to wait for, 5 a program that fails its check. -/
def goes (s : State) (c : Ctx) : Nat := match plainGo c s false [{ lane := c.low, addr := BitVec.ofNat 64 (c.srcA c.low), n := 64 }] with
  | some (s1, [(_, _, d)]) => if jobBad d then 3 else match readProgram s1 (jobGroup c 1 d) (bits d 72 64) (bits d 55 0) [] with
    | .ok is _ => if programOk is (jobLimits d) then 1 else 5
    | .wait _ => 4
    | .bad => 2
  | _ => 0

theorem witness_SpindleWork : (∀ i ∈ [Instr.qpop popF, .qtry popF], ∃ c, Issues (spindle { entries := [entry false, entry true] }) i popF c ∧ runs c = true) ∧
    (∃ c, Issues (spindle {}) (.qtry { popF with c := .p 5 }) { popF with c := .p 5 } c ∧ runs c = true) ∧ ((spindle { entries := [entry true] }).core 0).spq 1 = { ctx := some 1, entries := [entry true] } ∧
    (∀ i ∈ [Instr.qpop popF, .qtry popF], ∃ c, Issues plain i popF c ∧ (runs c && decide (((plain.core 0).spq 1).ctx ≠ some c.g.ctx)) = true) ∧
    (∃ c, Issues (job { limit := 1 }) (.qpush (ga mf)) (ga mf) c ∧ (runs c && decide (c.g.g = 1)) = true) ∧
    (∃ c, Issues (described 0) (.spGo goF) goF c ∧ (runs c && (match plainGo c (described 0) false [{ lane := c.low, addr := BitVec.ofNat 64 (c.srcA c.low), n := 64 }] with
      | some (s1, [(_, _, d)]) => !jobBad d && decide (((s1.core c.core).spq 1).running = false) && (match readProgram s1 (jobGroup c 1 d) (bits d 72 64) (bits d 55 0) [] with
          | .ok is _ => programOk is (jobLimits d)
          | _ => false) && (match reachGlobal s1 c.core c.g.ctx .write c.g.priv [{ lane := c.low, addr := BitVec.ofNat 64 (c.srcA c.low), n := 64 }] with
          | .ok _ [_] => true
          | _ => false)
      | _ => false)) = true) ∧
    (∀ s ∈ [plain, spindle { entries := [entry false] }], ∃ c, Issues s (.spStop popF) popF c ∧ runs c = true) ∧
    (((drainGroup (job {}) 3).group 3).map Group.kind = some .spindle ∧ jobReady (job {}) 0 1 = true ∧ jobReady plain 0 1 = false) ∧
    (((spindle { ending := some (5, 9), poison := 65 }).core 0).spq 1).ending = some (5, 9) ∧
    (let s := job { reports := [{ ctx := 1, desc := 0x30000, err := 5, foff := 9, done := 4 }] }; (writeReport s 0 { ctx := 1, desc := 0x30000, err := 5, foff := 9, done := 4 }).1.isSome = true) ∧
    (∀ x ∈ [(spindle { running := true }, true), (spindle { ending := some (5, 0) }, true), (spindle {}, false)], ∃ c, Issues x.1 (.qpop popF) popF c ∧
      (runs c && decide (((x.1.core c.core).spq 1).entries = []) && (((x.1.core c.core).spq 1).running || ((x.1.core c.core).spq 1).ending.isSome) == x.2) = true) ∧
    (∀ q ∈ [({ limit := 9, entries := List.replicate 64 (entry false) } : SpQueue), { limit := 9, done := 9, entries := List.replicate 63 (entry false) }, { limit := 9, done := 8, entries := List.replicate 63 (entry true) }],
      ∃ c, Issues (job q) (.qpush (ga mf)) (ga mf) c ∧ (runs c && decide (((job q).core c.core).spq c.g.g = { q with ctx := some 1, running := true, team := 2, gid := 3, prog := 0x20000, progEnd := 0x2000C })) = true) ∧
    (∀ x ∈ [(described 0, 1), (described (2 ^ 56), 3), (described 8, 2), (second (described 0x20000), 4), (writeNat (described 0) 0x240000 8 (low 0 0x001 63 32 6 7 15 0 7), 5)], ∃ c, Issues x.1 (.spGo goF) goF c ∧ (runs c && goes x.1 c == x.2) = true) ∧
    (let s := spindle { halts := [{ ctx := 1, team := 2, desc := 0x30000, foff := 9 }] }; ((s.core 0).spq 1).halts = [{ ctx := 1, team := 2, desc := 0x30000, foff := 9 }]) ∧
    (passedEnd (job {}) (((job {}).core 0).spq 1) = false) := by
  refine ⟨of_all (by decide +kernel), of_issued (by decide +kernel), by decide +kernel, of_all (by decide +kernel), of_issued (by decide +kernel), of_issued (by decide +kernel), ?_, by decide +kernel, by decide +kernel, by decide +kernel,
    ?_, ?_, ?_, by decide +kernel, by decide +kernel⟩
  all_goals simp only [List.forall_mem_cons, List.not_mem_nil, false_implies, implies_true, and_true]
  · exact ⟨of_issued (by decide +kernel), of_issued (by decide +kernel)⟩
  · exact ⟨of_issued (by decide +kernel), of_issued (by decide +kernel), of_issued (by decide +kernel)⟩
  · exact ⟨of_issued (by decide +kernel), of_issued (by decide +kernel), of_issued (by decide +kernel)⟩
  · exact ⟨of_issued (by decide +kernel), of_issued (by decide +kernel), of_issued (by decide +kernel), of_issued (by decide +kernel), of_issued (by decide +kernel)⟩

/-- A deposit of team 2 for 0x20000. -/
def deposit (key : Word) : Deposit := { team := 2, target := 0x20000, key := key, words := [key + 1] }
def deposits (ks : List Word) : State := paged.modCore 0 fun k => { k with deposits := ks.map deposit }
def putF : Fields := ga { lf with a := .v 8, b := .v 16, imm13 := 1, imm32 := 2 }
-- R360 to R363, the last its example
theorem test_crd_put : after (exec (.crdPut putF) (posting plain |> v0 8 1 7 |> v0 16 1 9)) (fun t => ((t.core 0).deposits, (thread t).frontier.map fun e => e.mask)) =
    some ([{ team := 2, target := 0x20008, key := 7, words := [9] }], [0xFFFFFFFE]) := by decide +kernel
theorem test_crd_flush : after (exec (.crdFlush mf) (deposits [7, 3, 7])) (fun t => ((t.core 0).deposits.length, (t.core 0).ready.map fun r => (r.key, r.entries.length))) = some (0, [(3, 1), (7, 2)]) := by decide +kernel
def readyOne (n : Nat) : Ready := { clock := 0, team := 2, target := 0x20000, key := 7, entries := List.replicate n (deposit 7) }
/-- The team may have a second group, and a bin of it is ready. -/
def binReady : State := (paged.modTeam 2 fun t => { t with groups := 2, nv := 8, ns := 8 }).modCore 0 fun k => { k with ready := [readyOne 2] }
theorem test_carder_launch : after (exec (.carderLaunch 0) binReady) (fun t => ((t.core 0).ready.length, (t.groups.filter fun x => x.2.kind == .continuation).map fun x =>
    [x.2.g, (x.2.main.frontier.map fun e => e.pc.toNat + e.mask.toNat).getD 0 0, (vreg x.2.main 0 1).toNat, (vreg x.2.main 1 1).toNat])) = some (0, [[1, 0x20003, 7, 8]]) := by decide +kernel
theorem test_auto_flush : after (exec (.carderAutoFlush 2) (dropGroup (deposits [7]) 3)) (fun t => (t.core 0).ready.map fun r => r.key) = some [7] := by decide +kernel

theorem carderCount_full : carderCount ((deposits (List.replicate 16384 7)).core 0) = 16384 := by
  have h (l : List Word) : (((deposits l).core 0).deposits, ((deposits l).core 0).ready) = (l.map deposit, []) := rfl
  have h := h (List.replicate 16384 7)
  simp only [Prod.mk.injEq] at h
  unfold carderCount
  rw [h.1, h.2, List.length_map, List.length_replicate]
  rfl
theorem witness_CarderDeposits : (∃ c, Issues (posting plain) (.crdPut putF) putF c ∧ (runs c && decide (carderCount (plain.core c.core) + c.lanes.length ≤ 16384)) = true) ∧
    (∃ c, Issues plain (.crdPut (ga putF)) (ga putF) c ∧ (!runs c) = true) ∧ Issued (deposits [7]) mf [.crdFlush mf] ∧
    ((dropGroup (deposits [7]) 3).team 2).isSome = true ∧ liveGroups (dropGroup (deposits [7]) 3) 2 = 0 ∧ ((dropGroup (deposits [7]) 3).core 0).ready = [] ∧
    firstReady (binReady.core 0).ready = [readyOne 2] ∧ mayBind binReady 0 (readyOne 2) = true ∧ (bindReady binReady 0 (readyOne 2)).isSome = true ∧ (readyOne 64).entries.length = 64 ∧
    (∃ c, Issues (owing true) (.crdPut { putF with guardA := guardAlways }) { putF with guardA := guardAlways } c ∧ (runs c && writesTo (owing true) c.gid c.g.priv c.exec) = true) ∧
    (∃ c, Issues (posting (deposits (List.replicate 16384 7))) (.crdPut putF) putF c ∧ (runs c && !writesTo paged c.gid c.g.priv c.exec && decide (c.core = 0)) = true) ∧
    carderCount ((deposits (List.replicate 16384 7)).core 0) = 16384 ∧ (∀ r ∈ (plain.core 0).ready, mayBind plain 0 r = false) :=
  ⟨of_issued (by decide +kernel), of_issued (by decide +kernel), of_all (by decide +kernel), by decide +kernel, by decide +kernel, by decide +kernel, by decide +kernel, by decide +kernel, by decide +kernel, by decide +kernel,
    of_issued (by decide +kernel), of_issued (by decide +kernel), carderCount_full, by decide +kernel⟩

/-- A job whose trap ends it; one whose `bru`, at 0x20000, is numbered and has been taken `n` times of 5. -/
def looping (n : Nat) : State := job { loops := [(0x20000, 5, n)] }
theorem witness_JobsBranchAndTrap : ((drainGroup (job {}) 3).group 3).map Group.kind = some .spindle ∧
    (∀ x ∈ [0, 4, 5], ∀ f ∈ [mf, ga { mf with a := .zero }, { ga mf with guardA := ⟨some 9, false⟩ }], ∃ c, Issues (looping x) (.bru f) f c ∧
      (((((looping x).core c.g.core).spq c.g.g).loops.find? fun y => y.1 == c.pc.toNat) == some (0x20000, 5, x) && decide (c.g.kind = .spindle)) = true) ∧
    (∃ c, Issues (looping 0) (.bru mf) mf c ∧ (decide (c.exec ≠ 0 ∧ c.exec = c.e.mask)) = true) ∧
    (let f := { mf with guardA := ⟨some 9, false⟩ }; ∃ c, Issues (looping 0) (.bru f) f c ∧ (!runs c) = true) := by
  refine ⟨by decide +kernel, ?_, of_issued (by decide +kernel), of_issued (by decide +kernel)⟩
  simp only [List.forall_mem_cons, List.not_mem_nil, false_implies, implies_true, and_true]
  refine ⟨⟨of_issued ?_, of_issued ?_, of_issued ?_⟩, ⟨of_issued ?_, of_issued ?_, of_issued ?_⟩, of_issued ?_, of_issued ?_, of_issued ?_⟩
  all_goals decide +kernel
/-! ### The matrix stream -/

/-- Team 2 has the sequencer `q`, with four descriptors and tiles, which is to issue the instruction at 0x20000. -/
def stream (q : Sequencer) (s : State := plain) : State := { s.modTeam 2 (fun t => { t with tiles := 4, accum := 4, seq := some q }) with seqIssuer := some 2 }
/-- A kind-1 descriptor: BASE and PITCH. -/
def at1 (base pitch : Nat) : QWord := BitVec.ofNat 128 (2 ^ 124 + pitch * 2 ^ 21 + base)
/-- t0 at 0x1000 and t1 at 0x2000, lines 32 bytes apart; t2 at 0x3000, lines 64 bytes apart. -/
def seq0 : Sequencer := { pc := 0x20000, tdesc := [(0, at1 0x1000 32), (1, at1 0x2000 32), (2, at1 0x3000 64)] }
def sq (s : State) : Sequencer := (((s.team 2).bind Team.seq).getD { pc := 0 })
/-- Elements (0, 0), (0, 1) and (1, 0) of tile 0. -/
def corner (s : State) : List Nat := [tget 0 (sq s).acc 0, tget 0 (sq s).acc 1, tget 0 (sq s).acc 64].map BitVec.toNat
/-- Fields of a stream instruction: tile or descriptor 0, then t0, t1 or what is given. -/
def ms (ty : Ty) : Fields := { sf with dst := .v 0, a := .v 0, b := .v 1, ty := ty }

-- R374, R378, R379, R90: the corner of the example of R393; a product of integers; XOR and AND of bits
theorem test_mma : fpElem 32 0x4200000000 (fpLine (.fp fmtE4M3) 32 (2 ^ 256 / 255 * 0x38)) (fpLine (.fp fmtE4M3) 32 (2 ^ 256 / 255 * 0x38)) [] [] = (0x4280000000, 0) ∧
    fpElem 32 0 (fpLine (.fp fmtE4M3) 32 (2 ^ 256 / 255 * 0x38)) (fpLine (.fp fmtE4M3) 32 (2 ^ 256 / 255 * 0xB0)) [] [] = (0xC180000000, 0) ∧
    after (exec (.mma (ms .s8)) (stream { seq0 with acc := [(0, 0x7FFFFFFFFF), (64, 5)] } (plain |> local' 0x1000 [1, 0xFF] |> local' 0x2000 [3, 2]))) (fun t => (corner t, (sq t).status)) = some ([0x7FFFFFFFFF, 0, 5], 0x20) := by decide +kernel
theorem test_mmb : intElem 256 0 (fun a b => if a = b then 0 else 1) (intLine .bin 256 0xFF) (intLine .bin 256 0x0F) = (4, 0) ∧
    after (exec (.mmb (ms .un)) (stream seq0)) (fun t => (sq t).pc) = some 0x20008 := by decide +kernel
-- R380
theorem test_tdef_tld : after (exec (.tdef { lf with dst := .v 3, imm13 := 3, imm32 := 0x18000000 }) (stream seq0)) (fun t => ((tget 0 (sq t).tdesc 3).toNat, (sq t).pc)) = some (0x18000000 * 2 ^ 96, 0x20010) ∧
    after (exec (.tld { lf with dst := .v 0, imm32 := 0x1010 }) (stream seq0 (plain |> local' 0x1010 [5, 6]))) (fun t => (tget 0 (sq t).tdesc 0).toNat) = some 0x605 := by decide +kernel
-- R381
theorem test_azero_ald : after (exec (.azero { ms .un with a := .zero, b := .zero }) (stream { seq0 with acc := [(0, 1), (4095, 2), (4096, 3)] })) (fun t => (sq t).acc) = some [(4096, 3)] ∧
    after (exec (.ald { ms .s32 with a := .v 2, b := .zero }) (stream { seq0 with acc := [(1, 9)] } (plain |> local' 0x3000 [0xFF, 0xFF, 0xFF, 0xFF]))) corner = some [0xFFFFFFFFFF, 0, 0] ∧
    after (exec (.ald { ms .f32 with a := .v 2, b := .zero }) (stream seq0 (plain |> local' 0x3002 [0x80, 0x3F]))) corner = some [0x3F80000000, 0, 0] := by decide +kernel
-- R382, R383
theorem test_ast : after (exec (.ast { ms .s32 with dst := .v 2, b := .zero, fam := 8 }) (stream { seq0 with acc := [(0, 0x7FFFFFFFFF), (64, 5)] })) (fun t => (ofBytes (scratchBytes t 0 0x3000 8), ofBytes (scratchBytes t 0 0x3040 4), (sq t).status)) =
      some (0x7FFFFFFF, 5, 0x20) ∧
    after (exec (.astStat { ms .un with dst := .v 2, a := .zero, b := .zero }) (stream { seq0 with status := 0x300000021 })) (fun t => (ofBytes (scratchBytes t 0 0x3000 8), (sq t).status)) = some (0x300000021, 0) := by decide +kernel
-- R384: the zeros of row 1 times −∞ are invalid
theorem test_ascl : after (exec (.ascl { ms .un with a := .v 2, b := .zero }) (stream { seq0 with acc := [(0, 0x4200000000), (64, 0x4200000000)] } (plain |> local' 0x3002 [0, 0x3F, 0, 0, 0x80, 0xFF]))) (fun t => (corner t, (sq t).status)) =
    some ([0x4180000000, 0, 0xFF80000000], 1) := by decide +kernel
-- R386, the example's loop; R387, R388
theorem test_mloop : after (exec (.mloop { lf with imm13 := 4, imm32 := 0xFFFFFFFE }) (stream seq0)) (fun t => ((sq t).pc, (tget {} (sq t).loops 0).rem, (tget {} (sq t).loops 0).it)) = some (0x1FFF8, 1, 1) ∧
    after (exec (.mloop { lf with imm13 := 4, imm32 := 0xFFFFFFFE }) (stream { seq0 with loops := [(0, { active := true, rem := 1, it := 1 })] })) (fun t => ((sq t).pc, (sq t).loops.length)) = some (0x20010, 0) := by decide +kernel
theorem test_msig_mwait : after (exec (.msig { mf with dst := .v 1, imm13 := 9 }) (stream seq0)) (fun t => (t.team 2).map fun x => ((x.matBarrier 1).seqArrived, (x.matBarrier 1).seqCode)) = some (some (true, 9)) ∧
    after (exec (.mwait { mf with dst := .v 1 }) (stream seq0)) (fun t => (sq t).state) = some (.waitPhase 1 false) := by decide +kernel
theorem test_mend : after (exec (.mend sf) (stream seq0)) (fun t => (sq t).state) = some .ended := by decide +kernel
-- R385
def conSeq (row : Nat) : Sequencer := { pc := 0x20000, tdesc := [(0, BitVec.ofNat 128 (3 * 2 ^ 124 + row * 2 ^ 21 + 5))] }
def conF (chk : Bool) : Fields := { sf with dst := .v 0, fam := if chk then 8 else 0 }
theorem test_row_con : after (exec (.rowCon (conF false)) (stream (conSeq 3) (atRow (some (.open 3)) 0))) (fun t => ((t.core 0).rowOps.map fun o => (o.2.row, o.2.latch), (sq t).pc)) = some ([(3, some 0)], 0x20008) ∧
    after (exec (.rowCon (conF true)) (stream (conSeq 3) (atRow none 0))) (fun t => (bits (sq t).status.toNat 47 32, (sq t).conOpen)) = some (1, true) := by decide +kernel

/-- The sequencer issues `i`, and what it runs with passes `p`. -/
def streaming (s : State) (i : Instr) (f : Fields) (p : MCtx → Bool) : Bool := match s.seqIssuer with
  | none => false
  | some tid => match s.team tid with
    | none => false
    | some t => match t.seq with
      | none => false
      | some q => decide (matNumbers ⟨tid, t, q, i, f⟩ = none) && p ⟨tid, t, q, i, f⟩
theorem of_streaming {s : State} {i : Instr} {f : Fields} {p : MCtx → Bool} (h : streaming s i f p = true) : ∃ c, Streams s i f c ∧ p c = true := by
  unfold streaming at h
  split at h
  · cases h
  · rename_i tid h1
    split at h
    · cases h
    · rename_i t h2
      split at h
      · cases h
      · rename_i q h3
        simp only [Bool.and_eq_true, decide_eq_true_eq] at h
        exact ⟨_, ⟨h1, h2, h3, rfl, rfl, h.1⟩, h.2⟩
/-- What an instruction reads through `us` is in order. -/
def clean (s : State) (us : List MUse) (c : MCtx) : Bool := decide (useCause c s us = none) && !useWaits c s us && !us.any (c.poisoned s)

/-- What stops it: 1 a cause, 2 something that has not arrived, 3 poison. -/
def stops (s : State) (us : List MUse) (c : MCtx) : Nat :=
  if (useCause c s us).isSome then 1 else if useWaits c s us then 2 else if us.any (c.poisoned s) then 3 else 0
/-- BASE of t0 and t2 is no multiple of 16; the lines 0x1000 and 0x3000 are absent; they are poisoned; a word was read while the instruction waited. -/
def crooked : State := stream { seq0 with tdesc := [(0, at1 0x1008 32), (1, at1 0x2000 32), (2, at1 0x3008 64)] }
def lacking : State := (stream seq0).modCore 0 fun k => { k with absent := [(32, 1), (96, 1)] }
def spoilt : State := (stream seq0).modCore 0 fun k => { k with scratchBad := [32, 96] }
def keeping : State := stream { seq0 with held := [(0x1000, 7)] }

theorem witness_MatrixProducts : (∃ c, Streams (stream seq0) (.mma (ms .e4m3)) (ms .e4m3) c ∧ (!mmaShapeBad (ms .e4m3) (mmaElem (ms .e4m3)) &&
      clean (stream seq0) (productUses c 16 16 32 (mmaElem (ms .e4m3)) (mmaElem (ms .e4m3))) c) = true) ∧
    (∃ c, Streams (stream seq0) (.mma (ms .s8)) (ms .s8) c ∧ (!mmaShapeBad (ms .s8) (mmaElem (ms .s8)) && clean (stream seq0) (productUses c 16 16 32 (mmaElem (ms .s8)) (mmaElem (ms .s8))) c) = true) ∧
    (∃ c, Streams (stream seq0) (.mma { ms .f16 with fam := 4 }) { ms .f16 with fam := 4 } c ∧ mmaShapeBad { ms .f16 with fam := 4 } (mmaElem (ms .f16)) = true) ∧
    (∃ c, Streams (stream seq0) (.mmb (ms .un)) (ms .un) c ∧ clean (stream seq0) (productUses c 16 16 256 .bin .bin) c = true) ∧
    shapeM (ms .un) = 16 ∧ shapeN (ms .un) = 16 ∧ (sumF .rne (List.zipWith mulF [FVal.ofInt 3] [FVal.ofInt 5])).isNan = false ∧
    (∀ x ∈ [(crooked, 1), (lacking, 2), (spoilt, 3), (keeping, 0)],
      (∃ c, Streams x.1 (.mma (ms .e4m3)) (ms .e4m3) c ∧ decide (stops x.1 (productUses c 16 16 32 (mmaElem (ms .e4m3)) (mmaElem (ms .e4m3))) c = x.2) = true) ∧
      (∃ c, Streams x.1 (.mmb (ms .un)) (ms .un) c ∧ decide (stops x.1 (productUses c 16 16 256 .bin .bin) c = x.2) = true)) := by
  refine ⟨of_streaming (by decide +kernel), of_streaming (by decide +kernel), of_streaming (by decide +kernel), of_streaming (by decide +kernel), by decide, by decide, by decide +kernel, ?_⟩
  simp only [List.forall_mem_cons, List.not_mem_nil, false_implies, implies_true, and_true]
  exact ⟨⟨of_streaming (by decide +kernel), of_streaming (by decide +kernel)⟩, ⟨of_streaming (by decide +kernel), of_streaming (by decide +kernel)⟩,
    ⟨of_streaming (by decide +kernel), of_streaming (by decide +kernel)⟩, of_streaming (by decide +kernel), of_streaming (by decide +kernel)⟩

/-- A row is on its way to latch 0 of the stream. -/
def latching : State := (stream (conSeq 3) (atRow (some (.open 3)) 0)).modCore 0 fun k => { k with rowOps := [(9, { moving false with gid := 0, latch := some 0 })] }

theorem witness_MatrixData : (let f := { lf with dst := .v 3, imm32 := 262144 - 16 }; ∀ i ∈ [Instr.tdef f, .azero f], ∃ c, Streams (stream seq0) i f c ∧ decide (opNumD f.dst < c.t.accum) = true) ∧
    (let f := { lf with dst := .v 3, imm32 := 262144 - 16 }; ∃ c, Streams (stream seq0) (.tld f) f c ∧ (decide (f.imm32.toNat + 16 = c.t.scratchSize ∧ (plain.core 0).absent = [])) = true) ∧
    (let f := { ms .f40 with a := .v 3, b := .zero }; let s := stream { seq0 with tdesc := [(3, at1 0x1000 128)] }; ∃ c, Streams s (.ald f) f c ∧
      clean s [{ t := 3, kinds := [1], lines := 16, lineBytes := 16 * elemBytes .f40 }] c = true) ∧
    (let f := { ms .f32 with dst := .v 2, b := .zero }; ∃ c, Streams (stream seq0) (.ast f) f c ∧ clean (stream seq0) [{ t := 2, kinds := [1], lines := 16, lineBytes := 64 }] c = true) ∧
    (let f := { ms .un with dst := .v 2, a := .zero, b := .zero }; ∃ c, Streams (stream seq0) (.astStat f) f c ∧
      (clean (stream seq0) [{ t := 2, kinds := [1], lines := 1, lineBytes := 8, pitched := false }] c && !anyLatchPending (stream seq0) c) = true) ∧
    (let f := { ms .un with a := .v 2, b := .zero }; ∃ c, Streams (stream seq0) (.ascl f) f c ∧ clean (stream seq0) [{ t := 2, kinds := [1], lines := 1, lineBytes := 64, pitched := false }] c = true) ∧
    (let f := { ms .s32 with a := .v 2, b := .zero }; ∀ x ∈ [(crooked, 1), (lacking, 2), (spoilt, 3)], (∃ c, Streams x.1 (.ald f) f c ∧ decide (stops x.1 [{ t := 2, kinds := [1], lines := 16, lineBytes := 64 }] c = x.2) = true)) ∧
    (let f := { ms .un with b := .zero }; ∀ x ∈ [(crooked, 1), (lacking, 2), (spoilt, 3)], (∃ c, Streams x.1 (.ascl f) f c ∧ decide (stops x.1 [{ t := 0, kinds := [1], lines := 1, lineBytes := 64, pitched := false }] c = x.2) = true)) ∧
    (∀ o ∈ [8, 262144], let f := { lf with dst := .v 3, imm32 := BitVec.ofNat 32 o }; ∃ c, Streams (stream seq0) (.tld f) f c ∧ decide (f.imm32.toNat = o) = true) ∧
    (let f := { ms .un with dst := .v 2, a := .zero, b := .zero }; ∃ c, Streams latching (.astStat f) f c ∧ anyLatchPending latching c = true) := by
  refine ⟨?_, of_streaming (by decide +kernel), of_streaming (by decide +kernel), of_streaming (by decide +kernel), of_streaming (by decide +kernel), of_streaming (by decide +kernel), ?_, ?_, ?_,
    of_streaming (by decide +kernel)⟩
  all_goals simp only [List.forall_mem_cons, List.not_mem_nil, false_implies, implies_true, and_true]
  · exact ⟨of_streaming (by decide +kernel), of_streaming (by decide +kernel)⟩
  · exact ⟨of_streaming (by decide +kernel), of_streaming (by decide +kernel), of_streaming (by decide +kernel)⟩
  · exact ⟨of_streaming (by decide +kernel), of_streaming (by decide +kernel), of_streaming (by decide +kernel)⟩
  · exact ⟨of_streaming (by decide +kernel), of_streaming (by decide +kernel)⟩

theorem witness_MatrixControl : (let f := { mf with dst := .v 1, imm13 := 9 }; (∃ c, Streams (stream seq0) (.msig f) f c ∧ (c.q.state == .running && !(anyLatchPending (stream seq0) c || (c.t.matBarrier 1).seqArrived)) = true) ∧
      (∃ c, Streams (stream seq0) (.mwait f) f c ∧ (c.q.state == .running && !(anyLatchPending (stream seq0) c || (c.t.matBarrier 1).seqArrived)) = true)) ∧
    (let f := { mf with dst := .v 1 }; let s := (stream seq0).modTeam 2 fun t => t.setMatBarrier 1 { seqArrived := true }; ∃ c, Streams s (.msig f) f c ∧ (c.t.matBarrier 1).seqArrived = true) ∧
    (let f := { lf with imm13 := 4, imm32 := 0xFFFFFFFE }; ∃ c, Streams (stream seq0) (.mloop f) f c ∧ (c.q.loops == []) = true) ∧
    (∃ c, Streams (stream seq0) (.mend sf) sf c ∧ (!anyLatchPending (stream seq0) c) = true) ∧
    (let s := stream (conSeq 3) (atRow (some (.open 3)) 0); ∃ c, Streams s (.rowCon (conF false)) (conF false) c ∧ (decide (useCause c s [{ t := 0, kinds := [3], lines := 1, lineBytes := 2048 }] = none) &&
      (conRow c s 0).any fun x => decide (consumeAt s 0 x = .ready) && !latchPending s c 0 && !c.q.conOpen) = true) ∧
    (let s := stream (conSeq 3) (atRow (some (.opening 3 1010)) 0); ∃ c, Streams s (.rowCon (conF false)) (conF false) c ∧ ((conRow c s 0).any fun x => decide (consumeAt s 0 x = .wait)) = true) ∧
    (let s := stream (conSeq 3) (atRow none 0); ∃ c, Streams s (.rowCon (conF true)) (conF true) c ∧ ((conRow c s 0).any fun x => decide (consumeAt s 0 x = .lost) && decide (c.q.conMiss < 4)) = true) ∧
    (let s := stream (conSeq 4) (atRow none 0); ∃ c, Streams s (.rowCon (conF true)) (conF true) c ∧ (conRow c s 0).isNone = true) ∧
    (∀ i ∈ [Instr.msig (conF true), .mwait (conF true), .mend (conF true), .rowCon (conF true)], ∃ c, Streams latching i (conF true) c ∧ (anyLatchPending latching c && latchPending latching c 0) = true) ∧
    (∀ x ∈ [(none, none), (some (.open 3), some 3), (some (.opening 2 1010), some 2)], let s := stream { (conSeq 3) with conOpen := true } (atRow x.1 0); ∃ c, Streams s (.rowCon (conF true)) (conF true) c ∧
      (c.q.conOpen && (conRow c s 0).any fun r => decide (((s.bank 0 r.bank).view).held = x.2 ∧ r.row = 3) && canActivate s s.fresh 0 r.bank == x.1.isNone) = true) ∧
    (let s := stream (conSeq 3) (atRow none 0); ∃ c, Streams s (.rowCon (conF false)) (conF false) c ∧ ((conRow c s 0).any fun x => decide (consumeAt s 0 x = .lost)) = true) ∧
    (tfind (latching.core 0).rowOps 9).any (fun o => decide (o.latch = some 0 ∧ o.started = some 990 ∧ 990 + 10 ≤ latching.clock) && !writeBefore latching 0 o.bank 9 && (latching.team o.team).any fun t => t.seq.isSome) = true := by
  refine ⟨⟨of_streaming (by decide +kernel), of_streaming (by decide +kernel)⟩, of_streaming (by decide +kernel), of_streaming (by decide +kernel), of_streaming (by decide +kernel),
   of_streaming (by decide +kernel), of_streaming (by decide +kernel), of_streaming (by decide +kernel), of_streaming (by decide +kernel), ?_, ?_, of_streaming (by decide +kernel), by decide +kernel⟩
  all_goals simp only [List.forall_mem_cons, List.not_mem_nil, false_implies, implies_true, and_true]
  · exact ⟨of_streaming (by decide +kernel), of_streaming (by decide +kernel), of_streaming (by decide +kernel), of_streaming (by decide +kernel)⟩
  · exact ⟨of_streaming (by decide +kernel), of_streaming (by decide +kernel), of_streaming (by decide +kernel)⟩

/-! ### Contexts and saving -/

/-- In a handler, with s4 naming `a` and s8 the count `n`; the registers of `srw` that are not 0 are set. -/
def kept (a n : Nat) : State := handled paged |> s0 4 2 a |> s0 8 1 n
def supF : Fields := { mf with dst := .s 0, a := .s 4, b := .s 8 }
def ctx1 (s : State) : Option Context := s.ctx 1

-- R461, R430, R431
theorem test_srw : after (exec (.srw { supF with b := .zero, imm13 := 2 }) ((kept 0x1234 0).modCtx 1 fun x => { x with handler := 0x99 })) (fun t => ((ctx1 t).map fun x => x.handler.toNat, swide (thread t) 0 2)) = some (some 0x1234, 0x99) ∧
    after (exec (.srw { supF with b := .zero, imm13 := 3 }) (kept 0x20001 0)) (fun t => (ctx1 t).map fun x => x.saveBase.toNat) = some (some 0) := by decide +kernel
theorem test_srw_rd : after (exec (.srwRd { supF with a := .zero, b := .zero, imm13 := 0 }) ((kept 0 0).modCtx 1 fun x => { x with part := 5, state := 2 })) (fun t => swide (thread t) 0 2) = some (1 + 2 ^ 25 + 5 * 2 ^ 28) ∧
    after (exec (.srwRd { supF with a := .zero, b := .zero, imm13 := 32 }) ((kept 0 0).modCore 0 fun k => k.modResident 1 fun r => { r with balance := -2 })) (fun t => swide (thread t) 0 2) = some (2 ^ 64 - 2) := by decide +kernel
-- R464
theorem test_gate : after (exec (.ctxGateYield mf) (kept 0 0)) (fun t => (gatedOn t 0 1, gatedOn { t with cores := tickCores t } 0 1)) = some (false, true) ∧
    after (exec (.ctxGateOut mf) (kept 0 0)) (fun t => (t.cluster 1).isSome) = some false := by decide +kernel
/-- Core 0 and die 0 hold translations of pages 1 and 2, and walk-cache entries of level 1 and 2 for page 1 and of level 2 for another. -/
def cached (a : Nat) : State := let x : CachedLeaf := ⟨0x208008, 6, 0, false⟩;
  ((kept a 0).modCtx 1 fun c => { c with tlb := [(1, x), (2, x)], walks := [(0, 5), (2 ^ 26, 5), (2 ^ 26 + 1, 5)] }).modCore 0 fun k => { k with tlb := [(2 ^ 39 + 1, x), (2 ^ 39 + 2, x)] }
-- R465
theorem test_tlb_inv : after (exec (.tlbInvPage { supF with dst := .zero, b := .zero }) (cached 0x3FFFF)) (fun t => ((ctx1 t).map fun x => (x.tlb.map (·.1), x.walks.map (·.1)), (t.core 0).tlb.map (·.1))) = some (some ([2], [2 ^ 26 + 1]), [2 ^ 39 + 2]) ∧
    after (exec (.tlbInvAll mf) (cached 0)) (fun t => ((ctx1 t).map fun x => (x.tlb.map (·.1), x.walks.map (·.1)), (t.core 0).tlb.map (·.1))) = some (some ([], []), []) := by decide +kernel
/-- Context 1 is of a dedup key domain, part 3 takes forks, no frame is in use; at 0x30000 a parameter block (R452). -/
def forkable (w : Nat) : State := { writeNat ((kept 0x30000 0).modCtx 1 fun x => { x with keys := BitVec.ofNat 64 (2 ^ 30 + 65536 * 7 + 6) }) 0x250000 64 w with forkPolicy := 8, frames := [] }
-- R452: a field that is to be 0; an ID in use
theorem test_ctx_fork : after (exec (.ctxFork { supF with b := .zero }) (forkable (2 ^ 20))) (fun t => swide (thread t) 0 1) = some 0x50000 ∧
    after (exec (.ctxFork { supF with b := .zero }) (forkable 1)) (fun t => swide (thread t) 0 1) = some 0x10000 := by decide +kernel
/-- The working-set list stands at 0x30000 and holds `n` entries of 0x40000. -/
def listed (a n k : Nat) : State := (writeNat (kept a k) 0x250000 8 0x40001).modCtx 1 fun x => { x with wsBase := 0x30000, wsLen := n }
-- R462, R448
theorem test_tier_rec : after (exec (.tierRecAdd supF) (listed 0x20000 1 3)) (fun t => (swide (thread t) 0 1, readNat t 0x250008 8, readNat t 0x250010 8)) = some (3, 0x20001, 0x60001) ∧
    after (exec (.tierRecClr { supF with a := .zero, b := .zero }) (listed 0 1 0)) (fun t => (swide (thread t) 0 1, readNat t 0x250000 8, (ctx1 t).map Context.wsLen)) = some (0, 0, some 0) := by decide +kernel
-- R463
theorem test_tier_pin : after (exec (.tierPin supF) (kept 0x20000 2)) (fun t => (swide (thread t) 0 1, (leafAt t 1 0x20000).map fun l => ptePIN l.pte)) = some (1, some true) ∧
    after (exec (.tierUnpin supF) (kept 0x20000 2)) (fun t => swide (thread t) 0 1) = some 0 := by decide +kernel

theorem witness_ContextRegisters : ((∃ x, (kept 0 0).ctx 1 = some x) ∧ (∃ x, ((kept 0 0).core 0).residentOf 1 = some x)) ∧
    (∀ n ∈ [0, 2, 6, 15, 32, 33, 34, 35], let f := { supF with b := .zero, imm13 := BitVec.ofNat 13 n }; ∀ i ∈ [Instr.srw f, .srwRd f],
      ∃ c, Issues (kept (2 ^ 64 - 4) 0) i f c ∧ (runs c && decide (c.g.ctx = 1 ∧ c.core = 0)) = true) ∧
    Issued (kept 0x3FFFF 0) supF [.ctxGateYield supF, .tlbInvPage supF, .tlbInvAll supF] ∧
    (∀ i ∈ [Instr.srw (ga supF), .tlbInvPage (ga supF), .tlbInvAll (ga supF)], ∃ c, Issues (kept 0 0) i (ga supF) c ∧ (!runs c) = true) := by
  refine ⟨⟨⟨_, rfl⟩, ⟨_, rfl⟩⟩, ?_, of_all (by decide +kernel), of_all (by decide +kernel)⟩
  have h : ([0, 2, 6, 15, 32, 33, 34, 35].all fun n => let f := { supF with b := .zero, imm13 := BitVec.ofNat 13 n }; [Instr.srw f, .srwRd f].all fun i =>
    issued (kept (2 ^ 64 - 4) 0) i f fun c => runs c && decide (c.g.ctx = 1 ∧ c.core = 0)) = true := by decide +kernel
  exact fun n hn => of_all (List.all_eq_true.mp h n hn)

/-- A fork as context 5 into partition 3. -/
def fork5 : Nat := 5 + 3 * 2 ^ 44
/-- No colour is any partition's, so no frame can be had. -/
def frameless (s : State) : State := { s with fronts := (fromTo 0 16).map fun p => (p, { s.front p with colours := 0 }) }

theorem witness_ContextForks : (∃ c, Issues (forkable fork5) (.ctxFork supF) supF c ∧ (runs c && (match plainGo c (forkable fork5) false [{ lane := c.low, addr := BitVec.ofNat 64 (c.srcA c.low), n := 64 }] with
      | some (s1, [(_, _, x)]) => decide (x = fork5 ∧ (s1.ctx 1).map Context.forking = some false ∧ s1.ctx 5 = none ∧ bits x 511 128 = 0 ∧ bits x 95 48 = 0 ∧ bits x 43 13 = 0 ∧
          (s1.ctx 1).any (fun t => t.keys.getLsbD 30) = true ∧ (leavesOf s1 1).any (fun l => l.2.giB) = false ∧ s1.forkPolicy.testBit 3 = true ∧ tfind s1.keyDoms 9 = none)
      | _ => false)) = true) ∧
    (∃ t u, (forkable fork5).ctx 1 = some t ∧ (forkable fork5).ctx 5 = none ∧ makeFork (forkable fork5) 1 fork5 t 5 = some u) ∧
    (freeDomain (forkable fork5)).isSome = true ∧
    (∃ c, Issues (forkable 0) (.ctxFork (ga supF)) (ga supF) c ∧ (!runs c) = true) ∧
    (let s := (forkable fork5).modCtx 1 fun x => { x with forking := true }; (s.ctx 1).map Context.forking = some true ∧ ∃ c, Issues s (.ctxFork supF) supF c ∧
      (runs c && (plainGo c s false [{ lane := c.low, addr := BitVec.ofNat 64 (c.srcA c.low), n := 64 }]).isSome) = true) ∧
    (∀ x : Context, makeFork (frameless (forkable fork5)) 1 fork5 x 5 = none) := by
  refine ⟨of_issued (by decide +kernel), ?_, freeDomain_isSome 9 (by omega) (by decide +kernel), of_issued (by decide +kernel), ⟨by decide +kernel, of_issued (by decide +kernel)⟩, fun x => makeFork_none _ _ x _ (by decide +kernel)⟩
  have h : ((forkable fork5).ctx 1).isSome = true := by decide +kernel
  obtain ⟨t, ht⟩ := Option.isSome_iff_exists.mp h
  obtain ⟨u, hu⟩ := Option.isSome_iff_exists.mp (makeFork_isSome (s := forkable fork5) 1 fork5 t 5 9 (by omega) (by decide +kernel) (by decide +kernel) (by decide +kernel) (by decide +kernel))
  exact ⟨t, u, ht, by decide +kernel, hu⟩

theorem witness_TierLists : (∃ x, (listed 0x20000 1 3).ctx 1 = some x ∧ (wsList (listed 0x20000 1 3) x).isSome = true ∧ x.forking = false) ∧
    Issued (listed 0x20000 1 3) supF [.tierRecAdd supF, .tierRecClr supF, .tierPin supF, .tierUnpin supF] ∧
    (∀ i ∈ [Instr.tierRecAdd supF, .tierPin supF, .tierUnpin supF], ∃ c, Issues (kept 0x20001 1) i supF c ∧ (runs c && decide (c.srcA c.low % 131072 ≠ 0)) = true) ∧
    (∀ i ∈ [Instr.tierRecAdd (ga supF), .tierRecClr (ga supF), .tierPin (ga supF), .tierUnpin (ga supF)], ∃ c, Issues (kept 0 1) i (ga supF) c ∧ (!runs c) = true) ∧
    (∃ c, Issues (listed 0x20000 1 3) (.tierRecAdd supF) supF c ∧ (let rs := (fromTo 1 2).map fun k => ({ lane := c.low, addr := 0x30000#64 + BitVec.ofNat 64 (8 * k), n := 8 } : Req)
      decide (addrCauses (listed 0x20000 1 3) c.g .g rs = none) && match reachGlobal (listed 0x20000 1 3) c.core c.g.ctx .write true rs with
        | .ok _ hits => hits.length == 2
        | _ => false) = true) ∧
    (let s := kept 0x20000 2; (leafAt s 1 0x20000).any (fun l => pteRES l.pte) = true ∧ leafAt s 1 0x40000 = none ∧ pinnedCount s 1 = 0) ∧
    (let s := outside (listed 0x20000 1 3); (∃ c, Issues s (.tierRecAdd supF) supF c ∧ (runs c && (s.ctx c.g.ctx).any fun x => (wsList s x).isNone) = true) ∧
      (∃ c, Issues s (.tierPin supF) supF c ∧ (runs c && decide (c.srcA c.low = 0x20000)) = true) ∧ (leafAt s 1 0x20000).any (fun l => !pteRES l.pte && !ptePIN l.pte) = true) ∧
    (let s := (kept 0x20000 2).modCtx 1 fun x => { x with forking := true, isNew := true, pendingRegions := [0] }; (s.ctx 1).any (fun x => x.forking && x.isNew && x.pendingRegions.contains (0x20000 / 2 ^ 43)) = true) :=
  ⟨⟨_, rfl, by decide +kernel, by decide +kernel⟩, of_all (by decide +kernel), of_all (by decide +kernel), of_all (by decide +kernel), of_issued (by decide +kernel), by decide +kernel,
    ⟨of_issued (by decide +kernel), of_issued (by decide +kernel), by decide +kernel⟩, by decide +kernel⟩

/-- The group's handler was asked to leave; its block is to stand at 0x30000. -/
def asked : State := (handled paged).modGroup 3 fun g => { g with handler := g.handler.map fun h => { h with swreq := 1, saveAddr := 0x30000 } }
/-- The one group of a team without scratchpad, tiles or descriptors has left its core; one slot of 2 MiB stands at 0x20000. -/
def left : State := ((((paged.modGroup 3 fun g => { g with out := true }).modCluster 1 fun c => { c with leaving := 1 }).modTeam 2
  fun t => { t with granules := 0, tiles := 0, accum := 0 }).modCtx 1 fun x => { x with saveBase := 0x20000, saveSz := BitVec.ofNat 64 (2 ^ 32 + 0x200000) })
/-- A saved cluster whose slot holds `bs` from 0x30000 on, as the device wrote or not. -/
def savedAs (bs : List Byte) : State := (writeMem paged 0x250000 [1, 2, 3]).modCluster 1 fun c => { c with saved := some { teams := [{ tid := 2 }], written := [(0x30000, bs)] } }

-- R443, R444: no slot; R447: what stands in the slot, and what does not
theorem test_team_save : after (exec (.teamSave 2) (left.modCtx 1 fun x => { x with saveSz := 0 })) (fun t => ((t.cluster 1).isSome, (ctx1 t).map fun x => x.faultLog.toNat % 2 ^ 16)) = some (false, some 0x30B) ∧
    after (exec (.teamSave 2) paged) (fun t => (t.team 2).map Team.saved) = some (some false) := by decide +kernel
theorem test_cluster_resume : after (exec (.clusterResume 1) (savedAs [1, 2, 3])) (fun t => (t.cluster 1).map fun c => c.saved) = some (some none) ∧
    after (exec (.clusterResume 1) (savedAs [1, 2, 4])) (fun t => ((t.cluster 1).isSome, (ctx1 t).map fun x => x.faultLog.toNat % 2 ^ 16)) = some (false, some 0x407) := by decide +kernel

theorem witness_SavingAndResuming : (∃ c, Issues asked (.ctxGateOut mf) mf c ∧ (c.g.handler.any (fun h => decide (h.swreq ≠ 0)) && decide (clusterOf (drainGroup asked 3) c.g = some 1)) = true) ∧
    (∃ c, Issues (kept 0 0) (.ctxGateOut mf) mf c ∧ (c.g.handler.any fun h => decide (h.swreq = 0)) = true) ∧
    (∃ g, (drainGroup asked 3).group 3 = some g ∧ flagsPending g.thread = false) ∧
    (∀ h : Handler, h.saveAddr = 0x30000 → ∃ s1 hits, reachPieces (drainGroup asked 3) 0 1 .write (splitRuns [(h.saveAddr.toNat, groupRun (drainGroup asked 3) h)]) = .ok s1 hits) ∧
    ((∃ t, left.team 2 = some t ∧ t.saved = false ∧ teamBusy left t 2 = false) ∧ teamLeft left 2 = true ∧ (takeSlot (drainTeam (left.modCtx 1 fun x => { x with saveSz := 0 }) 2) 1).isNone = true) ∧
    (teamLeft paged 2 = false ∧ (left.team 2).any (fun t => teamBusy (left.modCore 0 fun k => k.setChannel 1 [halfway]) t 2) = true) ∧
    (∀ q t, takeSlot (drainTeam left 2) 1 = some q → left.team 2 = some t → ∃ s1 hits, reachPieces q 0 1 .write (splitRuns (teamRun q t 2 :: clusterRun q t)) = .ok s1 hits) ∧
    (∃ k x, (savedAs [1, 2, 3]).cluster 1 = some k ∧ k.saved = some x ∧ k.cores = [0] ∧ resumes (savedAs [1, 2, 3]) 1 = true ∧ (x.teams.all fun st => enginesFit (savedAs [1, 2, 3]) 0 st) = true) ∧
    (∃ s1 hits, reachPieces (savedAs [1, 2, 3]) 0 1 .read (splitRuns [(0x30000, [1, 2, 3])]) = .ok s1 hits) := by
  have reach {s : State} {w : Access} {ps : List (Nat × List Byte)} {sh : List (Nat × Nat)} (h1 : ps.map (fun p => (p.1, p.2.length)) = sh)
      (h2 : sh.all (fun p => decide (p.1 + p.2 ≤ 2 ^ 56)) = true)
      (h3 : (match reachGlobal s 0 1 w true (sh.map fun p => { lane := 0, addr := BitVec.ofNat 64 p.1, n := p.2 }) with | .ok _ _ => true | _ => false) = true) :
      ∃ s1 hits, reachPieces s 0 1 w ps = .ok s1 hits := by
    split at h3
    · rename_i h4; exact ⟨_, _, reachPieces_of_shape h1 h2 h4⟩
    · cases h3
  refine ⟨of_issued (by decide +kernel), of_issued (by decide +kernel), ⟨_, rfl, by decide +kernel⟩, ?_, ⟨⟨_, rfl, by decide +kernel, by decide +kernel⟩, by decide +kernel, by decide +kernel⟩, by decide +kernel, ?_,
    ⟨_, _, rfl, rfl, by decide +kernel, by decide +kernel, by decide +kernel⟩, ?_⟩
  · intro h ha
    refine reach (sh := runsShape [(0x30000, 25088)]) ?_ (by decide +kernel) (by decide +kernel)
    rw [splitRuns_shape, List.map_cons, List.map_nil, groupRun_length, ha]
    rfl
  · intro q t hq ht
    have hk : (match takeSlot (drainTeam left 2) 1, left.team 2 with
        | some q, some t => decide (t.tiles = 0 ∧ t.accum = 0 ∧ t.scratchSize = 0 ∧ carderEntries q t 2 = 0 ∧ teamBlock q t = 0x21000 ∧ t.rank = 0 ∧ t.cluster = 1 ∧
            ((teamsOf q 1).all fun k => ((q.team k).map fun u => u.saved || u.rank == 0).getD true) = true) &&
          (match reachGlobal q 0 1 .write true ((runsShape [(0x21000, 65536), (0x20000, 4096)]).map fun p => { lane := 0, addr := BitVec.ofNat 64 p.1, n := p.2 }) with | .ok _ _ => true | _ => false)
        | _, _ => false) = true := by decide +kernel
    rw [hq, ht] at hk
    simp only [Bool.and_eq_true, decide_eq_true_eq] at hk
    obtain ⟨⟨h1, h2, h3, h4, h5, h6, h7, h8⟩, h9⟩ := hk
    refine reach (sh := runsShape [(0x21000, 65536), (0x20000, 4096)]) ?_ (by decide +kernel) h9
    rw [splitRuns_shape]
    congr 1
    have hl := teamRun_length q t 2 (by omega)
    rw [h1, h2, h3, h4] at hl
    rw [List.map_cons, hl]
    simp only [teamRun, clusterRun, h5, h6, h7, h8, if_true, List.map_cons, List.map_nil, deviceBytes_length]
    simp
  · exact reach (sh := [(0x30000, 3)]) (by decide +kernel) (by decide +kernel) (by decide +kernel)

/-! ### The steps of groups -/

/-- The group is to issue `add.n32 v5, v6, v7`, or `frcp.f32 v5, v6`. -/
def adding : State := { State.reset.withFetchWord 64 (low 0 0x001 63 5 6 7 15 0 7) with issuer := some 3, agenda := [] }
def dividing : State := { State.reset.withFetchWord 64 (low 0 0x04B 63 5 6 511 15 0 14) with issuer := some 3, agenda := [] }
def gone : State := plain.modGroup 3 fun g => { g with main := { g.main with frontier := [] } }
def timed : State := plain.modGroup 3 fun g => { g with pending := [{ cause := .timer, source := 3 }, { cause := .watchdog, source := 3 }] }
/-- Both frame stores of the slice are others'. -/
def stalled (taken : Bool) : State := (plain.modGroup 3 fun g => { g with stalled := some ({ cause := .software, code := 7 }, [], 0x2000C) }).modCore 0 fun k =>
  k.setSlice 0 { (k.slice 0) with stores := (some 90, if taken then some 91 else none) }

-- R138; R441; R429; R409; R422: the spare takes the position of datapath 0; R423
theorem test_group_retires : after (exec (.groupRetire 3) gone) (fun t => (t.group 3).isSome) = some false ∧
    after (exec (.groupRetire 3) plain) (fun t => (t.group 3).isSome) = some true := by decide +kernel
theorem test_trap_entry : after (exec (.trapEntry 3) timed) (fun t => ((frame t).map fun h => (h.info.cause, h.pc.toNat), (t.group 3).map fun g => g.pending.map TrapInfo.cause)) =
    some (some (.watchdog, 0x20000), some [.timer]) := by decide +kernel
theorem test_step_trap : after (exec (.stepTrap 3) (plain.modGroup 3 fun g => { g with step := 2 })) (fun t => (frame t).map fun h => (h.info.cause, h.info.source)) = some (some (.breakpoint, 4)) := by decide +kernel
theorem test_frame_store : after (exec (.frameStoreGrant 3) (stalled false)) (fun t => (frame t).map fun h => [h.info.code, h.store, h.pc.toNat]) = some (some [7, 1, 0x2000C]) ∧
    after (exec (.frameStoreGrant 3) (stalled true)) (fun t => (frame t).isSome) = some false := by decide +kernel
theorem test_lane_fault : after (exec (.laneFault 3 0) adding) (fun t => ((frame t).map fun h => (h.info.cause, h.info.aux.toNat), ((t.core 0).slice 0).pos.take 2, ((t.core 0).slice 0).failed.toNat)) =
    some (some (.laneFault, 2 ^ 16), [32, 1], 1) := by decide +kernel
theorem test_sfu_mismatch : after (exec (.sfuMismatch 3) dividing) (fun t => (((t.core 0).slice 0).sfuMiss, ((t.core 0).slice 0).out)) = some (1, false) ∧
    after (exec (.sfuMismatch 3) (dividing.modCore 0 fun k => k.setSlice 0 { (k.slice 0) with sfuMiss := 1 })) (fun t => ((t.core 0).slice 0).out) = some true := by decide +kernel

/-- Group 3 is asked to leave; the context has one slot, or none. -/
def asking (sz : Nat) : State := (plain.modGroup 3 fun g => { g with pending := [{ cause := .budget, source := 3 }] }).modCtx 1 fun x => { x with saveSz := BitVec.ofNat 64 sz }

theorem witness_GroupEvents : (let g := gone.group 3; g.any (fun g => decide (g.main.frontier = [] ∧ g.handler = none ∧ g.stalled = none ∧ g.restore = none ∧ g.out = false ∧ flagsPending g.main = false ∧ g.ops = [] ∧
      g.kind ≠ .spindle)) = true ∧ gone.pends = [] ∧ gone.stores = []) ∧
    (timed.group 3).any (fun g => decide (g.pending ≠ [] ∧ g.priv = false ∧ g.replays = [] ∧ g.cur = none ∧ g.stalled = none ∧ g.restore = none ∧ g.out = false ∧ g.main.frontier ≠ [] ∧ g.step ≠ 2)) = true ∧
    gatedOn timed 0 1 = false ∧ (plain.group 3).any (fun g => decide (g.pending = [] ∧ g.step ≠ 2 ∧ g.priv = false)) = true ∧
    (freeStoreOf (stalled false) 0 0 = some 1 ∧ freeStoreOf (stalled true) 0 0 = none ∧ ((stalled false).group 3).any (fun g => !flagsPending g.main && g.stalled.isSome) = true) ∧
    (let s := plain.modGroup 3 fun g => { g with restore := some { thread := {}, store := 0, info := { cause := .budget }, pc := 0x20000, pc0 := 0x20000, live := 1, ctime := 0 } };
      freeStoreOf s 0 0 = some 0 ∧ (s.group 3).any (fun g => g.restore.isSome && g.stalled.isNone && !g.out && teamRestored s g) = true) ∧
    ((adding.group 3).any (fun g => (lanesIssue adding 3 g (fun r => decide (r ≤ 1))).isSome) = true ∧ ((adding.core 0).slice 0).failed.getLsbD 0 = false ∧ ((adding.core 0).slice 0).pos.Nodup) ∧
    (dividing.group 3).any (fun g => (lanesIssue dividing 3 g (fun r => r == 2)).isSome) = true ∧
    ((timed.modGroup 3 fun g => { g with park := some (.away 7), replays := [{ iaddr := 0x20000, exec := 1, lanes := 1 }] }).group 3).any (fun g => g.park.isSome && !g.replays.isEmpty && !g.pending.isEmpty) = true ∧
    (let s := asking (2 ^ 32 + 0x400000); (s.group 3).any (fun g => g.pending.all (fun p => p.cause == .budget) && decide (clusterOf s g = some 1)) = true ∧ (takeSlot s 1).isSome = true ∧
      (takeSlot (asking 0) 1).isNone = true) ∧
    ((adding.modGroup 3 fun g => { g with handler := (handled plain).group 3 |>.bind Group.handler }).group 3).any (fun g => g.priv) = true ∧
    (let x := { (adding.core 0).slice 0 with failed := 0x1FFFE }; (healthyPaths (Machine.remap x 0).1).length = 16 ∧ (healthyPaths (Machine.remap { x with failed := 0x3FFFE } 0).1).length = 15 ∧ x.failed.getLsbD 0 = false) := by decide +kernel

/-! ### Encoders and front ends -/

/-- Slot 4 of encoder 3 is context 1's; s4 names a frame descriptor at 0x30000 with its record at 0x30040; `w` is added to it. -/
def frameWord' (w : Nat) : Nat := 0x8000000 * 2 ^ 64 + 0x30040 * 2 ^ 160 + 4 * 2 ^ 224 + 7 * 2 ^ 288 + w
def filming (w : Nat) : State := (writeNat (paged |> s0 4 2 0x30000) 0x250000 64 (frameWord' w)).setEncoder 3 { slots := [(4, { ctx := some 1 })] }
def vencF : Fields := { mf with dst := .s 0, a := .s 4, imm13 := 3 }
/-- The frame is queued; `w` is added. -/
def filmed (w : Nat) (s : State := filming 0) : State := s.setEncoder 3 { (s.encoder 3) with queue := [(1, toBytes 64 (frameWord' w))] }

-- R513; R514: a reserved bit, an unbound slot, a source that is not mapped
theorem test_venc : after (exec (.venc vencF) (filming 0)) (fun t => (swide (thread t) 0 1, (t.encoder 3).queue.length)) = some (0, 1) ∧
    after (exec (.venc vencF) (filming (2 ^ 224))) (fun t => (swide (thread t) 0 1, (t.encoder 3).queue.length)) = some (2, 0) := by decide +kernel
theorem test_encode_frame : after (exec (.encodeFrame 3) (filmed (2 ^ 320))) (fun t => (readNat t 0x250040 8, readNat t 0x250048 8, (t.encoder 3).queue.length)) = some (0x102, 7, 0) ∧
    after (exec (.encodeFrame 3) (filmed (2 ^ 224))) (fun t => readNat t 0x250040 8) = some 0x104 ∧
    after (exec (.encodeFrame 3) (filmed 0x8000000)) (fun t => readNat t 0x250040 8) = some 0x103 := by decide +kernel

theorem witness_Encoders : (∃ c, Issues (filming 0) (.venc vencF) vencF c ∧ (runs c && (plainGo c (filming 0) false [{ lane := c.low, addr := BitVec.ofNat 64 (c.srcA c.low), n := 64 }]).isSome) = true) ∧
    (∃ c, Issues (filming 0) (.venc (ga vencF)) (ga vencF) c ∧ (!runs c) = true) ∧
    (∀ w ∈ [2 ^ 224, 2 ^ 320, 0x8000000], ((filmed w).encoder 3).queue = [(1, toBytes 64 (frameWord' w))] ∧
      (match encReach (filmed w) 1 .write [(0x30040, 64)] with | .ok _ _ => true | _ => false) = true) ∧
    frameBad (ofBytes (toBytes 64 (frameWord' (2 ^ 320)))) = true ∧ frameBad (ofBytes (toBytes 64 (frameWord' 0x8000000))) = false ∧
    (match codeSource (filmed 0x8000000) 211 1 (ofBytes (toBytes 64 (frameWord' 0x8000000))) { ctx := some 1 } with
      | .ok t r => r.status == 3 && (match encReach t 1 .write [(0x30040, 64)] with | .ok _ _ => true | _ => false)
      | _ => false) = true ∧
    (∃ t r, codeFrame (filming 0) 211 1 (frameWord' 0) 0 {} = .ok t r) := by
  refine ⟨of_issued (by decide +kernel), of_issued (by decide +kernel), ?_, by decide +kernel, by decide +kernel, by decide +kernel, ?_⟩
  · simp only [List.forall_mem_cons, List.not_mem_nil, false_implies, implies_true, and_true]
    exact ⟨⟨rfl, by decide +kernel⟩, ⟨rfl, by decide +kernel⟩, ⟨rfl, by decide +kernel⟩⟩
  · unfold codeFrame
    dsimp only
    split
    · exact ⟨_, _, rfl⟩
    · generalize Config.freeChoice (filming 0).free 10 % 2 ^ 32 = n
      by_cases h : n = 0
      · subst h; exact ⟨_, _, rfl⟩
      · have he : ∃ t, encReach (filming 0) 1 .write (cutRun (n / 4096 + 2) (bits (frameWord' 0) 119 64) n) = .err t 5 := by
          rw [cutRun, if_neg h]
          have hg : (match engineGlobal (filming 0) 0 1 (bits (frameWord' 0) 119 64) .write with | .err _ m => m == 5 | _ => false) = true := by decide +kernel
          dsimp only [encReach]
          cases hx : engineGlobal (filming 0) 0 1 (bits (frameWord' 0) 119 64) .write with
          | ok t p => rw [hx] at hg; simp at hg
          | wait t p => rw [hx] at hg; simp at hg
          | err t m =>
            rw [hx] at hg
            have hm : m = 5 := by simpa using hg
            subst hm
            exact ⟨t, rfl⟩
        obtain ⟨t, he⟩ := he
        rw [he]
        exact ⟨_, _, rfl⟩

/-- Queue 0 of front end 0 has a ring of 16 packets of context 1 at 0x30000 and a completion word at 0x31000; one packet is in it. -/
def ring : Queue := { setUp := true, halted := false, ctx := 1, space := true, base := 0x30000, log2n := 4, cpl := 0x31000, producer := 1 }
/-- One cluster of one group of 32 lanes at 0x20000 (R220); `w` is added. -/
def packet (w : Nat) : Nat := 0x20000 + 2 ^ 192 + 2 ^ 224 + 2 ^ 256 + 2 ^ 288 + w
/-- Front end 0 has the cores 0 to 7. -/
def front (x : Queue) (w : Nat) : State := ((writeNat paged 0x250000 64 (packet w)).setQueue 0 0 x).modFront 0 fun f => { f with base := 0, limit := 7 }
/-- The page is pinned. -/
def pinned (s : State) : State := repage (fun p => setBit1 p 9 true) s
/-- A second grid. -/
def grid (g : Grid) (x : Queue := ring) (s : State := front x 0) : State := { s with grids := tins s.grids 50 g }
def waiting : Grid := { fe := 0, ctx := 1, queue := 0, seqNo := 1, pkt := Packet.ofNat (packet 0) }
def begun : Grid := { waiting with state := .begun }

-- R219: the last index that may be written, one too many, another function's window
theorem test_doorbell : after (exec (.doorbell 0 0 0 16) (front ring 0)) (fun t => (t.queue 0 0).producer) = some 16 ∧
    after (exec (.doorbell 0 0 0 17) (front ring 0)) (fun t => ((t.queue 0 0).producer, (t.queue 0 0).halted, (t.queue 0 0).rejection)) = some (1, true, 6) ∧
    after (exec (.doorbell 5 0 0 16) (front ring 0)) (fun t => ((t.queue 0 0).producer, (t.function 5).logged)) = some (1, 1) := by decide +kernel
-- R9, R219: the words of queue 1's window of front end 2, and of another function's; the doorbell word itself reads 0
theorem test_bar_words : (let s := plain.setQueue 2 1 { ring with fn := 3, consumed := 9, halted := true, rejection := 6 }; [0x22000, 0x22008, 0x22010, 0x23FF8].map (barWord s 3) = [0, 9, 0x601, 0] ∧
    barWord s 4 0x22008 = 0 ∧ (barPut s 3 0x22008 5).queue 2 1 = s.queue 2 1) := by decide +kernel
-- R216, R221, R222
theorem test_packet_accept : after (exec (.packetAccept 0 0) (front ring 0)) (fun t => ((t.queue 0 0).consumed, (t.queue 0 0).accepted, t.grids.length)) = some (1, 1, 2) ∧
    after (exec (.packetAccept 0 0) (front ring (2 ^ 61))) (fun t => ((t.queue 0 0).halted, (t.queue 0 0).rejection, readNat t 0x251000 8)) = some (true, 1, 1 + 2 ^ 48) := by decide +kernel
-- R217, R218
theorem test_ring_slot_read : after (exec (.ringSlotRead 0 0) (front { ring with space := false, fn := 5, cpl := 0x40, finished := [(1, 2, 1)] } 0)) (fun t =>
      ofBytes ((fromTo (5 * 2 ^ 64 + 0x40) 8).map (tget 0 t.hostMem))) = some (1 + 2 * 2 ^ 48) ∧
    after (exec (.ringSlotRead 0 0) (front { ring with base := 0x8000000 } 0)) (fun t => ((t.queue 0 0).halted, (t.queue 0 0).rejection)) = some (true, 7) := by decide +kernel
-- R224, R225
theorem test_grid_begin : after (exec (.gridBegin 50) (grid waiting)) (fun t => (t.grid 50).map Grid.state) = some (some .begun) ∧
    after (exec (.dependencePoll 50) (grid { waiting with pkt := { waiting.pkt with dep := 1, depaddr := 0x30000, depcmp := 1, depval := 0x20000 } })) (fun t => (t.grid 50).map Grid.depMet) = some (some true) := by
  decide +kernel
theorem test_grid_blocking : after (exec (.gridBlocking 50) (later 1048576 (grid { begun with failedAt := some 0 }))) (fun t => (t.grid 50).map Grid.blocking) = some (some true) ∧
    after (exec (.gridComplete 50) (grid { begun with begun := 1, retired := 1 })) (fun t => ((t.grid 50).isSome, readNat t 0x251000 8)) = some (false, 1) := by decide +kernel
-- R15, R225, R228
theorem test_cluster_place : after (exec (.clusterPlace 0) (grid { begun with pkt := { begun.pkt with params := 0x30000 } })) (fun t => ((t.grid 50).map Grid.begun, (t.front 0).freeAt, (t.groups.filter fun x => x.1 != 3).map fun x =>
      [x.2.core, x.2.slice, swide x.2.main 0 2, x.2.main.frontier.length])) = some (some 1, 4, [[0, 1, 0x30000, 1]]) ∧
    after (exec (.coresidentPlace 0) (grid begun)) (fun t => (t.grid 50).map Grid.begun) = some (some 0) := by decide +kernel
theorem test_coresident_place : after (exec (.coresidentPlace 0) (grid { begun with pkt := { begun.pkt with cores := true } })) (fun t => ((t.grid 50).map Grid.begun, (t.front 0).freeAt)) = some (some 1, 4) := by decide +kernel

theorem witness_LaunchQueues : (let s := front ring 0; (s.queue 0 0).setUp = true ∧ (16 + 2 ^ 32 - (s.queue 0 0).consumed) % 2 ^ 32 ≤ 2 ^ (s.queue 0 0).log2n ∧ (s.queue 0 0).finished = [] ∧ ringPending (s.queue 0 0) = true ∧
      (match engineGlobal s (s.front 0).base 1 0x30000 .read with | .ok _ _ => true | _ => false) = true) ∧
    (match engineGlobal (front ring 0) 0 1 0x8000000 .read with | .err _ _ => true | _ => false) = true ∧
    (match engineGlobal (outside (front ring 0)) 0 1 0x30000 .read with | .wait _ _ => true | _ => false) = true ∧
    (let s := front { ring with space := false, finished := [(1, 2, 1)] } 0; (s.function 0).tdi ≠ 3 ∧ (s.queue 0 0).finished.find? (fun c => c.1 == (s.queue 0 0).written + 1) = some (1, 2, 1)) ∧
    (nextPacket (front ring 0) 0 1).isNone = true ∧
    (match nextPacket (front ring 0) 0 0 with | some (s1, ctx, w) => rejection (consumePacket s1 0 0) 0 ctx w == 0 | _ => false) = true ∧
    (match nextPacket (front ring (2 ^ 61)) 0 0 with | some (s1, ctx, w) => rejection (consumePacket s1 0 0) 0 ctx w == 1 | _ => false) = true ∧
    ((front ring 0).grid 50 = none ∧ depsHold (grid waiting) waiting = true ∧ waiting.state = .waiting ∧ (grid waiting).grid 50 = some waiting) ∧
    (let g := { waiting with pkt := { waiting.pkt with dep := 1, depaddr := 0x30000 } }; depsHold (grid g) g = false ∧ (match engineGlobal (grid g) ((grid g).front 0).base 1 0x30000 .read with
      | .ok u p => placeCause u 8 p == none | _ => false) = true) ∧
    (gridDone (grid begun) 50 begun = false ∧ (let g := { begun with begun := 1, retired := 1 }; gridDone (grid g) 50 g) = true) := by decide +kernel

theorem witness_Placement : (findRectangle { base := 0, limit := 12 } 2 2 (fun c => c != 0) = some [1, 2, 9, 10]) ∧ (let s := (front ring 0).modFront 0 fun f => { f with freeAt := 9 }; s.clock < (s.front 0).freeAt) ∧
    ((front ring 0).front 0).freeAt ≤ (front ring 0).clock ∧ (unblocked (readyGrids (front ring 0) 0)).isEmpty = true ∧
    ((unblocked (readyGrids (grid begun) 0)).map (·.1) = [50] ∧ nextOf (grid begun) 50 begun = some (.fresh 0) ∧ fitFor (grid begun) begun (.fresh 0) = some [0] ∧ begun.pkt.cores = false) ∧
    (let g := { begun with pkt := { begun.pkt with cores := true } }; (placeWhole placeSaved (g.pkt.clusters + 1) (grid g) 50 0).isSome) = true := by decide +kernel

/-! ### The tier engine and slices -/

/-- The group waits for its page, which is not resident; it and a page that nothing maps have been asked for. -/
def faulting : State := ({ (outside paged) with frames := [] }.modGroup 3 fun g => { g with park := some (.pages [1]) }).modCore 0 fun k => { k with faults := [(1, 9)] }
/-- Contexts 1 and 9 are a fork pair; regions 0 and 5 are to be built. -/
def forking' (s : State) : State := { (s.modCtx 1 fun x => { x with forking := true, forkPeer := some 9, pendingRegions := [0, 5] }) with
  ctxs := tins (s.modCtx 1 fun x => { x with forking := true, forkPeer := some 9, pendingRegions := [0, 5] }).ctxs 9 { forking := true, forkPeer := some 1, pendingRegions := [0, 5], isNew := true } }
/-- No colours, so no frame can be had. -/
def bare (s : State) : State := s.modFront 0 fun f => { f with colours := 0 }
/-- A grid of context 1 has not been placed. -/
def residing (r : Nat) (s : State) : State := grid { begun with pkt := { begun.pkt with resid := r } } {} s

-- R247: a fault of a page that is unmapped; R248: a pinned page stays; R454; R448, R450, R251
theorem test_page_moves : after (exec (.pageFaultService 0) faulting) (fun t => (t.core 0).faults.length) = some 0 ∧
    after (exec (.pageMove 1 0x20000 1) (pinned paged)) (fun t => t.frames.length) = some paged.frames.length := by decide +kernel
/-- The group waits for its page without a fault slot. -/
def slotless (s : State) : State := s.modGroup 3 fun g => { g with park := some (.faultSlot 0 [1]) }
-- R246, R247: a wait without a slot is recorded as soon as there is one, and its page stays meanwhile
theorem test_fault_slots : after (exec (.pageFaultService 0) (slotless (outside paged))) (fun t => ((t.core 0).faults, (t.group 3).map fun g => g.park)) = some ([(1, 1)], some (some (.pages [1]))) ∧
    after (exec (.pageMove 1 0x20000 2) (slotless paged)) (fun t => t.backing.length) = some paged.backing.length := by decide +kernel
theorem test_fork_region : after (exec (.forkRegionBuild 1 5) (forking' paged)) (fun t => ((t.ctx 1).map Context.pendingRegions, (t.ctx 9).map Context.pendingRegions)) = some (some [0], some [0]) := by decide +kernel
theorem test_tier_pass : after (exec (.tierPass 1) ((listed 0x20000 1 0).modCtx 1 fun x => { x with state := 2 })) (fun t => (t.ctx 1).map Context.wsLen) = some (some 1) ∧
    after (exec (.incomingMove 1) paged) (fun t => t.frames.length) = some paged.frames.length ∧ after (exec (.contentMerge 1 0x20000) paged) (fun t => t.shared.length) = some 0 := by decide +kernel

theorem witness_TierSteps : (bare faulting).ctx 1 ≠ none ∧ serveFault (bare faulting) (1, 1) = none ∧
    (∃ u, serveFault faulting (1, 9) = some u ∧ (faulting.core 0).faults = [] ++ (1, 9) :: []) ∧
    ((leafAt (pinned paged) 1 0x20000).any fun l => ptePIN l.pte) = true ∧
    (∃ l fr, leafAt { paged with frames := [] } 1 0x20000 = some l ∧ ptePIN l.pte = false ∧ l.giB = false ∧ pteRES l.pte = true ∧ pteSH l.pte = false ∧ pteTier l.pte = 0 ∧
      pickFrame { paged with frames := [] } 1 [1] = some fr) ∧
    Memory.wf (settleFrame paged 18).mem = true ∧
    buildRegion (bare (forking' faulting)) 1 0 = none ∧
    ((buildRegion (forking' paged) 1 5).isSome = true ∧ forkPair (forking' paged) 1 = some (1, 9)) ∧
    (let s := (repage (fun p => setBit1 (setBit1 p 7 true) 6 false) paged).modCtx 1 fun x => { x with keys := BitVec.ofNat 64 (2 ^ 30), clean := [(1, 4)] };
      (leafAt s 1 0x20000).any fun l => mergeable l && !pteD l.pte && decide (s.mergeN ≤ 4) && frameClean s (pteAddr l.pte / 131072)) = true ∧
    ((paged.ctx 1).map Context.inDedup = some false ∧ paged.ctx 7 = none) ∧
    (let s := residing 255 (((second (writeNat paged 0x250000 8 0x40001))).modCtx 1 fun x => { x with wsBase := 0x30000, wsLen := 1, state := 2 });
      waitsResid s 1 = true ∧ (s.ctx 1).any (fun c => (wsList s c).isSome) = true) ∧
    ((paged.groups.all fun x => x.2.park.isNone) = true ∧ (paged.ctx 1).map (·.wsFound) = some [] ∧ waitsResid paged 1 = false) ∧
    ((leafAt (slotless paged) 1 0x20000).any fun l => !ptePIN l.pte && !l.giB && pteRES l.pte && !pteSH l.pte) = true ∧ wanted (slotless paged) 1 0x20000 = true ∧
    wanted paged 1 0x20000 = false := by
  refine ⟨by decide +kernel, ?_, ⟨_, rfl, rfl⟩, by decide +kernel, ?_, by decide +kernel, ?_, by decide +kernel, by decide +kernel, by decide +kernel, by decide +kernel, by decide +kernel, by decide +kernel, by decide +kernel, by decide +kernel⟩
  · have hl : ∃ l, leafAt (bare faulting) 1 (1 * frameBytes) = some l ∧ pteRES l.pte = false ∧ pteTier l.pte = 2 := ⟨_, rfl, by decide +kernel, by decide +kernel⟩
    obtain ⟨l, h1, h2, h3⟩ := hl
    simp only [serveFault, h1]
    exact bringOrRoom_none _ h2 h3 (by decide +kernel) fun c hc => by
      have : ((bare faulting).ctx 1).map (fun c => ((bare faulting).front c.part).colours) = some 0 := by decide +kernel
      rw [hc] at this; simpa using this
  · obtain ⟨fr, hfr⟩ := Option.isSome_iff_exists.mp (pickFrame_far (s := { paged with frames := [] }) (ctx := 1) rfl (by decide +kernel) (by decide +kernel) rfl (by decide +kernel))
    exact ⟨_, fr, rfl, by decide +kernel, by decide +kernel, by decide +kernel, by decide +kernel, by decide +kernel, hfr⟩
  · have hv : (match forkPair (bare (forking' faulting)) 1, (bare (forking' faulting)).ctx 1, (bare (forking' faulting)).ctx 9 with
        | some (1, 9), some t, some _ => t.pendingRegions.contains 0 && decide ((leavesAt (bare (forking' faulting)) t (regionVas (bare (forking' faulting)) 0 (readNat (bare (forking' faulting)) (t.root + 8 * 0) 8))).map (fun x => x.1) = [0x20000])
        | _, _, _ => false) = true := by decide +kernel
    have hl : ∃ l, leafAt (bare (forking' faulting)) 1 0x20000 = some l ∧ pteRES l.pte = false ∧ pteTier l.pte = 2 := ⟨_, rfl, by decide +kernel, by decide +kernel⟩
    obtain ⟨l, h1, h2, h3⟩ := hl
    unfold buildRegion
    split at hv
    · rename_i t n e1 e2 e3
      simp only [Bool.and_eq_true, decide_eq_true_eq] at hv
      simp only [e1, e2, hv.1, hv.2, Bool.not_true, Bool.false_eq_true, if_false, List.foldl_cons, List.foldl_nil]
      have hb := bringOrRoom_none (s := bare (forking' faulting)) (ctx := 1) (va := 0x20000) (l := l) (anyTier (bare (forking' faulting))) h2 h3 (by decide +kernel) fun c hc => by
        have : ((bare (forking' faulting)).ctx 1).map (fun c => ((bare (forking' faulting)).front c.part).colours) = some 0 := by decide +kernel
        rw [hc] at this; simpa using this
      simp only [shareLeaf, h1, e3, hb, Option.map_none]
    · cases hv

-- R436 to R439
def sliced (b : Int) : State := later 1048576 plain |>.modCore 0 fun k => k.modResident 1 fun r => { r with balance := b }
theorem test_slice_boundary : after (exec (.sliceBoundary 0) ((sliced (-5)).modCtx 1 fun x => { x with budget := 1000 })) (fun t => ((t.front 0).nextSlice, ((t.core 0).residentOf 1).map fun r => r.2.balance)) = some (2097152, some 995) ∧
    after (exec (.sliceBoundary 0) plain) (fun t => (t.front 0).nextSlice) = some 1048576 := by decide +kernel
theorem test_budget : after (exec (.budgetExhausted 0 0) (sliced 0)) (fun t => gatedOn t 0 1) = some true ∧ after (exec (.budgetExhausted 0 0) (sliced 1)) (fun t => gatedOn t 0 1) = some false := by decide +kernel
theorem test_watchdog : after (exec (.watchdog 3) (plain.modGroup 3 fun g => { g with idle := 2097152 })) (fun t => (t.group 3).map fun g => g.pending.map fun p => (p.cause, p.source)) = some (some [(.watchdog, 3)]) ∧
    after (exec (.watchdog 3) (plain.modGroup 3 fun g => { g with idle := 2097151 })) (fun t => (t.group 3).map fun g => g.pending.length) = some (some 0) := by decide +kernel
theorem test_timer : after (exec (.timer 1) (plain.modCtx 1 fun x => { x with timerCmp := 5, ctime := 5 })) (fun t => ((ctx1 t).map Context.timerCmp, (t.group 3).map fun g => g.pending.map fun p => (p.cause, p.source))) =
    some (some 0, some [(.timer, 3)]) := by decide +kernel

theorem witness_TimeSlices : (plain.clock < (plain.front 0).nextSlice ∧ ((sliced 0).front 0).nextSlice ≤ (sliced 0).clock) ∧
    (∃ r, tfind ((sliced 0).core 0).residents 0 = some r ∧ (sliced 0).ctx r.ctx ≠ none) ∧
    (plain.group 9 = none ∧ (∃ g, plain.group 3 = some g ∧ g.kind ≠ .spindle ∧ g.priv = false ∧ g.idle < 2 * sliceLen plain 1)) ∧
    (let s := handled (plain.modGroup 3 fun g => { g with idle := 2097152 }); (s.group 3).any (fun g => decide (2 * sliceLen s g.ctx ≤ g.idle) && g.priv) = true) ∧
    (plain.ctx 7 = none ∧ (∃ c, plain.ctx 1 = some c ∧ c.timerCmp = 0)) ∧
    ((plain.modCtx 1 fun x => { x with timerCmp := 5, ctime := 5 }).ctx 1).any (fun c => decide (c.timerCmp ≠ 0 ∧ c.timerCmp ≤ c.ctime)) = true :=
  ⟨by decide +kernel, ⟨_, rfl, by decide +kernel⟩, ⟨by decide +kernel, _, rfl, by decide +kernel, by decide +kernel, by decide +kernel⟩, by decide +kernel, ⟨by decide +kernel, _, rfl, by decide +kernel⟩, by decide +kernel⟩


/-! ### The fabric and what comes from outside -/

/-- Core 0 has a counted write to die 1 in flight, number 7, and its store 9 is held at the switch. -/
def held (release : Bool) : State := { stored with
  stores := stored.stores.map fun p => (p.1, { p.2 with release := release }), crossings := [(7, { agent := 0, home := 1 })], fences := [(0, 1)], heldRel := [(0, [9])] }
/-- Function 5 reaches context 1; the bytes 0 to 7 stand at 0x30000. -/
def bound (fn : Function := { ctxs := [1] }) : State := data.setFunction 5 fn

-- R304, R486
theorem test_switch : after (exec (.releaseForward 0 0) (held true)) (fun t => tget [] t.heldRel 0) = some [9] ∧
    after (exec (.releaseForward 0 0) (held false)) (fun t => (tget [] t.heldRel 0, readNat t 0x250000 4)) = some ([], 0x03CCDD00) ∧
    after (exec (.writeAck 0 0) (held true)) (fun t => (tget 0 t.fences 0, t.crossings.length)) = some (0, 0) := by decide +kernel
-- R483, R485
theorem test_links : after (exec (.linkDetour 2 1) plain) (fun t => t.linksDown) = some [7] ∧
    after (exec (.flitReplay 0 4) plain) (fun t => t.replayed) = some 1 ∧ after (exec (.flitReplay 4 4) plain) (fun t => t.replayed) = some 0 := by decide +kernel
-- R494, R498
theorem test_ports : after (exec (.portTraining 3 true) plain) (fun t => t.port 3) = some { trained := true, encoded := true } ∧
    after (exec (.portAuthFail 3) (plain.setPort 3 { trained := true })) (fun t => (t.port 3).down) = some true := by decide +kernel
-- R496, R502
theorem test_host_ingress : after (exec (.hostIngress false 5 1 0x30002 [] 4) bound) (fun t => t.reply) = some [2, 3, 4, 5] ∧
    after (exec (.hostIngress false 5 1 0x30002 [9, 8] 0) bound) (fun t => readNat t 0x250000 4) = some 0x08090100 ∧
    after (exec (.hostIngress false 5 2 0x30002 [] 4) bound) (fun t => (t.reply, (t.function 5).logged)) = some ([], 1) := by decide +kernel
-- R219, R502: a function reads CONSUMED of its own queue through BAR 2, and rings its doorbell
theorem test_bar_window : (let s := data.setQueue 0 1 { setUp := true, halted := false, fn := 5, consumed := 0x1234, producer := 0x1234, log2n := 4 };
    after (exec (.hostIngress false 5 4096 0x2008 [] 4) s) (fun t => t.reply) = some [0x34, 0x12, 0, 0] ∧
    after (exec (.hostIngress false 6 4096 0x2008 [] 2) s) (fun t => t.reply) = some [0, 0] ∧
    after (exec (.hostIngress false 5 4096 0x2000 [0x35, 0x12, 0, 0] 0) s) (fun t => (t.queue 0 1).producer) = some 0x1235) := by decide +kernel
-- R510: the mailbox in BAR 0 is function 0's
theorem test_mailbox : (∃ u, exec (.hostIngress false 0 4097 0xFFE [7, 8] 0) plain = .next u ∧
    after (exec (.hostIngress false 0 4097 0xFFD [] 3) u) (fun t => t.reply) = some [0, 7, 8] ∧
    after (exec (.hostIngress false 1 4097 0xFFE [] 2) u) (fun t => t.reply) = some []) ∧ 0xFFE + [7, 8].length ≤ 4096 :=
  ⟨⟨_, rfl, by decide +kernel⟩, by decide⟩
-- R149, R501: FetchAdd, and a compare that does not hold
theorem test_pcie_atomic : after (exec (.pcieAtomic 5 1 0x30000 0 4 0xFFFFFFFF 0) bound) (fun t => (t.reply, readNat t 0x250000 8)) = some ([0, 1, 2, 3], 0x07060504030200FF) ∧
    after (exec (.pcieAtomic 5 1 0x30000 2 8 1 7) bound) (fun t => (t.reply, readNat t 0x250000 8)) = some ([0, 1, 2, 3, 4, 5, 6, 7], 0x0706050403020100) := by decide +kernel
-- R503
theorem test_tdisp : after (exec (.tdispRequest 5 1) bound) (fun t => (t.function 5).tdi) = some 1 ∧ after (exec (.tdispRequest 5 2) bound) (fun t => (t.function 5).tdi) = some 0 ∧
    after (exec (.ideFailure 5) (bound.setQueue 0 0 { setUp := true, halted := false, fn := 5 })) (fun t => ((t.function 5).tdi, (t.queue 0 0).halted)) = some (3, true) := by decide +kernel
-- R501, R505
theorem test_key_slots : after (exec (.keySlotLoad 9 77 1) bound) (fun t => t.keySlots.length) = some 0 ∧
    after (exec (.keySlotLoad 9 77 1) (bound { ctxs := [1], sessions := [5] })) (fun t => t.keySlots) = some [(9, { key := 77, ctx := 1 })] ∧
    after (exec (.keySlotFree 9) { bound { ctxs := [1], sessions := [5] } with keySlots := [(9, { key := 77, ctx := 1 })] }) (fun t => t.keySlots) = some [] ∧
    after (exec (.spdmKeyExchange 5 3) (bound { sessions := [5] })) (fun t => (t.function 5).sessions) = some [3, 5] := by decide +kernel

theorem witness_SwitchesLinksAndPorts : agentAt 4 29 = none ∧ agentAt 4 28 = some 220 ∧ agentAt 3 47 = some 191 ∧ agentAt 0 0 = some 0 ∧
    (let s := held true; (s.crossings.find? fun x => x.2.agent == 0) = some (7, { agent := 0, home := 1 }) ∧ (s.crossings.find? fun x => x.2.agent == 1) = none ∧
      tget [] s.heldRel 1 = [] ∧ tget [] s.heldRel 0 = [9] ∧ (tfind s.stores 9).any (fun p => p.release) = true ∧ tget 0 s.fences 0 ≠ 0) ∧
    ((tfind { held true with fences := [] }.stores 9).any (fun p => p.release) = true ∧ (tfind (held false).stores 9).any (fun p => !p.release) = true ∧ tget 0 (held false).fences 0 < 1023 ∧
      ¬ tget 0 { held false with fences := [(0, 1023)] }.fences 0 < 1023) ∧
    (5 * min 2 1 + max 2 1 ∉ plain.linksDown ∧ 5 * min 2 1 + max 2 1 ∈ { plain with linksDown := [7] }.linksDown) ∧
    (let s := { plain with ring := { plain.ring with set := true, base := 0x100, count := 16 } }; s.ring.set = true ∧ s.ring.write - ringRead s < s.ring.count ∧ s.ring.lost = 0) := by
  decide +kernel

theorem witness_OutsideAgents : (1 ∈ (bound.function 5).ctxs ∧ 2 ∉ (bound.function 5).ctxs) ∧
    (match ingressPlaces bound (functionCore bound 5) 1 .write (subpages 3 0x30002 [9, 8]) with | .ok _ xs => decide (xs.length = 1) | _ => false) = true ∧
    (match ingressPlaces bound (functionCore bound 5) 1 .read (subpages 3 0x30FFE (List.replicate 4 0)) with | .ok s1 xs => xs.all fun x => placeCause s1 x.2.length x.1 == none | _ => false) = true ∧
    (match ingressPlaces (outside bound) (functionCore bound 5) 1 .write (subpages 3 0x30002 [9, 8]) with | .wait _ _ => true | _ => false) = true ∧
    (plain.port 3).trained = false ∧ ((plain.setPort 3 { trained := true, down := true }).port 3).down = true ∧
    (match engineGlobal bound (functionCore bound 5) 1 0x30000 .write with | .ok s1 p => placeCause s1 8 p == none | _ => false) = true ∧
    (let s := bound.setQueue 0 7 { setUp := true, fn := 5 }; (s.queue 0 7).setUp = true ∧ (s.queue 0 7).fn = 5) ∧
    (tfind bound.keySlots 9 = none ∧ tfind { bound with keySlots := [(9, { key := 77, ctx := 1 })] }.keySlots 9 = some { key := 77, ctx := 1 } ∧
      sessionFor bound 1 = false ∧ sessionFor (bound { ctxs := [1], sessions := [5] }) 1 = true) := by decide +kernel

/-! ### Boot, power, temperature -/

-- R506 to R508
theorem test_boot : after (exec (.boot [] [] false true []) State.reset) (fun t => t.boot) = some .halted ∧
    after (exec (.boot [] [] true true []) { plain with boot := .running }) (fun t => (t.boot, t.fwStarts)) = some (.running, plain.fwStarts) ∧
    after (exec .firmwareRestart { plain with boot := .running }) (fun t => t.fwStarts) = some (plain.fwStarts + 1) := by decide +kernel
theorem test_measurements : after (exec (.getMeasurements 3) { plain with mrs := [(2, 0x1234)] }) (fun t => t.reply.take 3) = some [0, 0, 0] ∧
    after (exec (.getMeasurements 3) { plain with mrs := [(2, 0x1234)] }) (fun t => (t.reply.take 32).drop 30) = some [0x12, 0x34] ∧
    after (exec (.getMeasurements 9) plain) (fun t => t.reply) = some [] := by decide +kernel
-- R516, R517
theorem test_power : after (exec (.powerControl [(4, 500), (9, 501)]) plain) (fun t => [(t.island 4).duty, (t.island 9).duty]) = some [16, 15] := by decide +kernel
theorem test_heat : after (exec (.thermalThrottle 1 2 101 0) plain) (fun t => (t.island 14).duty) = some 15 ∧
    after (exec (.thermalThrottle 1 2 100 95) { plain with hot := [(15, 0)] }) (fun t => ((t.island 14).duty, t.hot)) = some (16, []) ∧
    after (exec (.thermalTrip 111 0) { later 750000 plain with hot := [(0, 0)], hostMem := [(5, 9)] }) (fun t => ((t.group 3).isSome, tget 0 t.hostMem 5)) = some (false, 9) ∧
    after (exec (.thermalTrip 110 106) { later 749999 plain with hot := [(0, 0)] }) (fun t => (t.group 3).isSome) = some true := by decide +kernel
-- R518
theorem test_islands : after (exec (.island 3 11 0) plain) (fun t => (t.callA0, (t.island 47).on)) = some (0, false) ∧
    after (exec (.island 0 0 0) plain) (fun t => t.callA0) = some 1 ∧
    after (exec (.island 3 11 1) (plain.setIsland 47 { on := false })) (fun t => (t.callA0, (t.island 47).upAt)) = some (3, some 1500000) ∧
    after (exec (.islandPowerUpDone 3 11) ((later 5 plain).setIsland 47 { upAt := some 5 } |>.modCore 191 fun k => { k with scratch := [(3, 4)] })) (fun t => ((t.island 47).upAt, (t.core 191).scratch)) =
      some (none, []) := by decide +kernel

theorem witness_BootPowerAndHeat : State.reset.boot = .reset ∧ { plain with boot := .running }.boot ≠ .reset ∧ (∀ n, 1 ≤ (plain.island n).duty ∧ (plain.island n).duty ≤ 16) ∧
    (([(4, 500), (9, 500)] : List (Nat × Nat)).map fun p => p.2).foldl (· + ·) 0 ≤ plain.profile ∧
    plain.profile < (([(4, 500), (9, 501)] : List (Nat × Nat)).map fun p => p.2).foldl (· + ·) 0 ∧ (∀ p ∈ ([(4, 500), (9, 501)] : List (Nat × Nat)), p.1 ≠ 9 → p.2 < 501) ∧
    tfind { later 750000 plain with hot := [(0, 0)] }.hot 0 = some 0 ∧ tfind plain.hot 0 = none ∧ (later 750000 plain).clock = 0 + 750000 ∧ (later 5 plain).clock < 0 + 750000 ∧
    (∀ c, 48 * 3 + 4 * 11 ≤ c → c < 48 * 3 + 4 * 11 + 4 → coreVacated plain c = true) ∧ coreVacated plain 0 = false ∧ (plain.island 47).upAt = none ∧ (plain.island 47).on = true ∧
    (let s := (later 5 plain).setIsland 47 { upAt := some 5 }; (s.island 47).upAt = some 5 ∧ 5 ≤ s.clock) ∧ ((plain.setIsland 47 { on := false }).island 47).on = false := by
  refine ⟨rfl, by decide +kernel, fun n => by rw [show plain.island n = {} from rfl]; decide, by decide +kernel, by decide +kernel, by decide, by decide +kernel, rfl, by decide +kernel, by decide +kernel, ?_, by decide +kernel,
    by decide +kernel, by decide +kernel, by decide +kernel, by decide +kernel⟩
  intro c h1 h2
  have : c = 188 ∨ c = 189 ∨ c = 190 ∨ c = 191 := by omega
  rcases this with rfl | rfl | rfl | rfl <;> decide +kernel

/-! ### Monitor calls -/

/-- The status of a call. -/
def status (o : Host.Outcome State Fault Refusal) : Option Nat := after o fun t => t.callA0
/-- The firmware's memory holds `w` in 32 bytes at 0x40: a set of cores, or a settings block. -/
def told (w : Nat) (s : State := plain) : State := { s with fwMem := putBytes s.fwMem 0x40 (toBytes 32 w) }
/-- A settings block of a ring of 16 packets of context 1 at 0x30000 of the device's space, completion word at 0x31000. -/
def block : Nat := 1 + 2 ^ 24 + 4 * 2 ^ 32 + 0x30000 * 2 ^ 64 + 0x31000 * 2 ^ 128

-- R215, R456: an empty core; a core that another partition has; a core that is in use
theorem test_part_set : status (exec (.partSet 1 8 15) (front {} 0)) = some 0 ∧ status (exec (.partSet 1 7 15) (front {} 0)) = some 1 ∧
    status (exec (.partSet 0 1 7) (front {} 0)) = some 1 ∧ status (exec (.partSet 0 0 192) (front {} 0)) = some 2 := by decide +kernel
-- R237, R436, R251, R453
theorem test_settings : status (exec (.colourSet 0 0) plain) = some 1 ∧ after (exec (.colourSet 0 0xFF) plain) (fun t => (t.front 0).colours) = some 0xFF ∧
    after (exec (.sliceSet 0 (2 ^ 24)) plain) (fun t => (t.front 0).slNext) = some (2 ^ 24) ∧ status (exec (.sliceSet 0 (2 ^ 25)) plain) = some 2 ∧
    after (exec (.mergeN 255) plain) (fun t => t.mergeN) = some 255 ∧ status (exec (.mergeN 0) plain) = some 2 ∧
    after (exec (.forkPolicy 0xFFFF) plain) (fun t => t.forkPolicy) = some 0xFFFF ∧ status (exec (.forkPolicy 65536) plain) = some 2 := by decide +kernel
-- R218, R219, R221: a size below 4, a queue that is in use
theorem test_queue_calls : after (exec (.queueSet 0 0 0x40) (told block)) (fun t => (t.callA0, (t.queue 0 0).base, (t.queue 0 0).cpl, (t.queue 0 0).log2n)) = some (0, 0x30000, 0x31000, 4) ∧
    status (exec (.queueSet 0 0 0x40) (told (block - 2 ^ 32))) = some 2 ∧ status (exec (.queueSet 0 0 0x40) (told block (front ring 0))) = some 1 ∧
    after (exec (.queueResume 0 0) (front { ring with halted := true } 0)) (fun t => (t.callA0, (t.queue 0 0).halted)) = some (0, false) ∧ status (exec (.queueResume 0 1) plain) = some 1 := by
  decide +kernel
-- R502, R503, R511, R516, R509
theorem test_bindings : after (exec (.vfBind 5 2 0x0F [1, 7]) plain) (fun t => (t.callA0, (t.function 5).ctxs, (t.function 5).fe)) = some (0, [1, 7], some 2) ∧
    status (exec (.vfBind 5 2 0x0F [1]) (bound { tdi := 2 })) = some 1 ∧
    after (exec (.encBind 7 11 1) plain) (fun t => (t.callA0, ((t.encoder 7).slot 11).ctx)) = some (0, some 1) ∧ status (exec (.encBind 7 12 1) plain) = some 2 := by decide +kernel
theorem test_other_settings : status (exec (.profile 800) plain) = some 0 ∧ status (exec (.profile 700) plain) = some 2 ∧
    status (exec (.events 0x100 8) plain) = some 2 ∧ after (exec (.events 0x100 16) (told (2 ^ 256 - 1))) (fun t => (t.callA0, t.ring.count)) = some (0, 16) ∧
    status (exec (.unknownCall 0x1A) plain) = some 2 ∧ status (exec (.unknownCall 0x19) plain) = some plain.callA0 := by decide +kernel

theorem witness_SetupCalls : (let s := front {} 0; (∃ c, ((s.front 0).base ≤ c ∧ c ≤ (s.front 0).limit) ∧ 7 ≤ c ∧ c ≤ 15) ∧ (∀ f < 16, f ≠ 1 → ∀ c ∈ (s.front f).cores, ¬ (8 ≤ c ∧ c ≤ 15)) ∧
      coreVacated s 0 = false ∧ coreVacated s 1 = true ∧ s.functions = []) ∧
    ((bound { fe := some 0, tdi := 2 }).functions.any fun x => x.2.fe == some 0 && x.2.tdi == 2) = true ∧
    (blockBad 0 block = false ∧ blockBad 8 block = false ∧ blockBad 0 (block - 2 ^ 32) = true ∧ ofBytes ((fromTo 0x40 32).map (tget 0 (told block).fwMem)) = block) ∧
    ((plain.queue 0 0).setUp = false ∧ ((front { ring with halted := true, consumed := 1 } 0).queue 0 0).setUp = true ∧
      (let q := (front { ring with halted := true, consumed := 1 } 0).queue 0 0; q.halted = true ∧ q.consumed = q.producer ∧ q.posts = []) ∧ ((front ring 0).queue 0 0).halted = false) ∧
    ((bound { tdi := 1 }).function 5).tdi = 1 ∧ (bound.function 5).tdi = 0 ∧ (calledCtx plain 2 = none ∧ (calledCtx plain 1).isSome = true) := by
  refine ⟨⟨⟨7, by decide +kernel⟩, by decide +kernel, by decide +kernel, by decide +kernel, by decide +kernel⟩, ?_⟩; decide +kernel

-- R430, R504, R509
theorem test_context_calls : status (exec (.ctxCreate 1 0 0 0xFFFF) plain) = some 1 ∧ status (exec (.ctxCreate 2 16 0 0xFFFF) plain) = some 2 ∧
    after (exec (.ctxDestroy 1) plain) (fun t => (t.callA0, (t.ctx 1).map Context.state, (t.cluster 1).isSome)) = some (3, some 3, false) ∧
    after (exec (.ctxWord 1 9 7) plain) (fun t => (t.callA0, (t.ctx 1).map Context.budget)) = some (0, some 7) ∧ status (exec (.ctxWord 1 1 7) plain) = some 1 := by decide +kernel
-- R256, R259
theorem test_unmap : after (exec (.unmap 1 0x20000 1) paged) (fun t => (t.callA0, (leafAt t 1 0x20000).isSome)) = some (0, false) ∧ status (exec (.unmap 1 0x20000 0) paged) = some 2 ∧
    status (exec (.map 1 0x20000 1 4 0) paged) = some 1 ∧ status (exec (.map 1 0x40000 1 2 0) paged) = some 2 := by decide +kernel
-- R432, R433
theorem test_resident : after (exec (.resident 1 5 7 3) plain) (fun t => (t.callA0, (tfind (t.core 5).residents 7).map fun r => (r.ctx, r.banks))) = some (0, some (1, 7)) ∧
    status (exec (.resident 1 0 0 0) plain) = some 1 ∧ status (exec (.resident 1 0 1 1) plain) = some 1 ∧
    after (exec (.gate 1 0x40 1) (told 1)) (fun t => ((t.core 0).residentOf 1).map fun x => (x.2.gated, gatedOn t 0 1)) = some (some (true, false)) := by decide +kernel
-- R440, R456
theorem test_leave : after (exec (.leave 1 0x40 2) (told 1)) (fun t => (t.callA0, t.laters)) = some (3, [.leave 1 [1]]) ∧ status (exec (.leave 1 0x40 0) (told 1)) = some 2 ∧
    after (exec (.vacate 0 0x40) (told 1 (front {} 0))) (fun t => (t.callA0, (t.front 0).vacating)) = some (3, [0]) ∧ status (exec (.vacate 0 0x40) (told 0x100 (front {} 0))) = some 2 := by
  decide +kernel
-- R490, R348, R261, R451
theorem test_migrate : status (exec (.migrate 1 2) plain) = some 1 ∧ status (exec (.migrate 1 2) { plain with clusters := [] }) = some 3 ∧
    status (exec (.engineResume 1 0) plain) = some 1 ∧
    after (exec (.engineResume 1 0) (gone.modCore 0 fun k => k.modResident 1 fun r => { r with halted := true })) (fun t => (t.callA0, ((t.core 0).residentOf 1).map fun x => x.2.halted)) =
      some (0, some false) := by decide +kernel
theorem test_colsplit : after (exec (.colsplitSet 3 8) plain) (fun t => (t.callA0, (t.core 3).colsplit)) = some (0, 8) ∧ status (exec (.colsplitSet 3 9) plain) = some 2 ∧
    status (exec (.compact 3 2) plain) = some 3 := by decide +kernel

/-- A page that is not mapped, in a context of which a frame can be taken. -/
theorem pages_map : (mapPages 1 ((ctx1 paged).getD {}) 4 1 { paged with frames := [(16, 0), (17, 0), (18, 0)] } 0x40000 0).isSome = true := by
  generalize hk : (ctx1 paged).getD {} = c
  generalize hs : ({ paged with frames := [(16, 0), (17, 0), (18, 0)] } : State) = s
  have hc : s.ctx 1 = some c := by rw [← hs, ← hk]; decide +kernel
  obtain ⟨fr, hfr⟩ := Option.isSome_iff_exists.mp (pickFrame_any hc (by rw [← hk]; decide +kernel) (by rw [← hs, ← hk]; decide +kernel) (by rw [← hs]; decide) (by rw [← hs]; decide +kernel))
  have hm : ∀ c ∈ s.mem, (tfind s.frames (c.1 / frameBytes)).isSome = true := by rw [← hs]; decide +kernel
  have hu := pickFrame_unused hfr
  have hz : (zeroMem s (fr * frameBytes) frameBytes).mem = s.mem := zeroMem_mem fr fun x hx he => by
    have := hm x hx
    rw [he, hu] at this
    exact absurd this (by decide)
  obtain ⟨x, hn, hxm, hxc⟩ : ∃ x, newFrame s 1 c.privDom (anyTier s) = some x ∧ x.2.mem = s.mem ∧ x.2.ctx 1 = s.ctx 1 :=
    ⟨_, by unfold newFrame; rw [hfr, Option.map_some], hz, rfl⟩
  have hr (a n : Nat) : readNat x.2 a n = readNat s a n := by
    unfold readNat readMem readByte
    rw [hxm]
  have h0 : c.root = 0x200000 := by rw [← hk]; decide +kernel
  have h1 : tableOk (readNat s (0x200000 + 8 * bits 0x40000 55 43) 8) = true := by rw [← hs]; decide +kernel
  have h2 : tableOk (readNat s (pteAddr (readNat s (0x200000 + 8 * bits 0x40000 55 43) 8) + 8 * bits 0x40000 42 30) 8) = true := by rw [← hs]; decide +kernel
  have hl : (leafSlot x.2 1 0x40000).isSome = true := by
    unfold leafSlot
    rw [hxc, hc]
    simp only [tableAt, hr, h0, if_pos h1, if_pos h2, Option.isSome_some]
  obtain ⟨y, hy⟩ := Option.isSome_iff_exists.mp hl
  have hp : (mapPage s 1 c 0x40000 4 0).isSome = true := by
    unfold mapPage
    rw [hn, Option.bind_some, hy]
    rfl
  obtain ⟨z, hz'⟩ := Option.isSome_iff_exists.mp hp
  simp only [mapPages, hz', Option.bind_some, Option.isSome_some]

theorem makeContext_isSome : (makeContext { plain with frames := [] } 2 0 0 0xFFFF).isSome = true :=
  newContext_isSome _ _ _ 0 (by omega) (by decide +kernel) (by decide +kernel) rfl (by decide +kernel)
theorem makeContext_none : makeContext (bare plain) 2 0 0 0xFFFF = none := newContext_none _ _ _ (by decide +kernel)

/-- An object of more rows than a bank has finds no place. -/
theorem compactPlaces_nil (k : Core) (ctx value : Nat) (old : DWord) (taken : List DWord) (h : 4096 < objCount old) : compactPlaces k ctx value old taken = [] := by
  unfold compactPlaces
  refine List.flatMap_eq_nil_iff.mpr fun layers _ => List.flatMap_eq_nil_iff.mpr fun banks _ => ?_
  split
  · rfl
  · dsimp only
    split
    · rfl
    · rw [List.filter_eq_nil_iff.mpr fun f _ => by simp; omega]; rfl
theorem compactPlan_nil (k : Core) (value : Nat) (o : Nat × ColObject) (os : List (Nat × ColObject)) (plan : List (Nat × DWord)) (h : 4096 < objCount o.2.desc) :
    compactPlan k value (o :: os) plan = none := by
  unfold compactPlan
  dsimp only
  rw [compactPlaces_nil _ _ _ _ _ h]
  rfl
def wide : Core := { objects := [(64 + 5, { desc := BitVec.ofNat 64 (2 ^ 63 + 2 ^ 56 + 2 ^ 40 + 4097 * 2 ^ 15) })] }
theorem wide_leaves : objectsLeave wide 0 = wide.objects := by decide +kernel
theorem compactPlan_none : compactPlan wide 0 (objectsLeave wide 0) [] = none := by
  rw [wide_leaves]
  exact compactPlan_nil wide 0 (64 + 5, _) [] [] (by decide +kernel)

theorem witness_ContextCalls : (plain.ctx 1 ≠ none ∧ plain.ctx 2 = none ∧ plain.keyDoms = [] ∧ (plain.ctx 1).any (fun c => decide (c.state ≠ 3)) = true) ∧
    ((leafAt paged 1 0x20000).isSome = true ∧ (leafAt paged 1 0x40000).isNone = true ∧ (buildRange paged 1 [0x40000]).isSome = true ∧
      (buildRange { paged with frames := [(16, 0), (17, 0), (18, 0)] } 1 [0x40000]).any (fun t => decide (t = { paged with frames := [(16, 0), (17, 0), (18, 0)] })) = true ∧
      (0x40000 % 131072 = 0 ∧ 0x40000 + 1 * 131072 ≤ 2 ^ 56 ∧ attrsOk 4 = true ∧ attrsOk 2 = false)) ∧
    (let s := plain.modCore 5 fun k => { k with residents := [(7, { ctx := 1, banks := 7 })] };
      (tfind (s.core 5).residents 7).any (fun r => decide (r.ctx = 1)) = true ∧ ctxOn s 1 5 = false ∧ ctxOn plain 1 0 = true ∧ tfind (plain.core 5).residents 0 = none ∧ (plain.core 5).residentOf 1 = none ∧
      ((fromTo 0 8).filter fun b => (plain.core 5).residents.all fun r => !bit r.2.banks b).length = 8 ∧
      ((fromTo 0 8).filter fun b => (plain.core 0).residents.all fun r => !bit r.2.banks b).length < 1) ∧
    (coreSet (told 1) 0x40 = some [0] ∧ coreSet (told (2 ^ 192)) 0x40 = none ∧ coreSet (told 0x100 (front {} 0)) 0x40 = some [8] ∧ ((plain.core 0).residentOf 1).isSome = true ∧
      ((front {} 0).front 0).base ≤ 0 ∧ ((front {} 0).front 0).limit < 8) ∧
    (placedOrSaving plain 1 = true ∧ placedOrSaving { plain with clusters := [] } 1 = false ∧ (plain.ctx 1).any (fun c => !c.forking) = true) ∧
    ((plain.group 3).any (fun g => decide (g.core = 0 ∧ g.ctx = 1 ∧ g.kind ≠ .spindle ∧ g.out = false ∧ hasLane g = true)) = true ∧ (gone.group 3).any hasLane = false ∧ ((gone.core 0).residentOf 1).isSome = true) ∧
    (let s := { plain with laters := [.colsplit 0 8] }; Later.colsplit 0 8 ∈ s.laters ∧ plain.laters = [] ∧ objectsLeave ((column none).core 0) 0 ≠ [] ∧ objectsLeave ((column none).core 0) 8 = [] ∧
      stepFrames plain 0 0 8 = [] ∧ (let s := { plain with frames := [(16, 3)] }; stepFrames s 0 0 8 = [16] ∧ framePinned s 16 = false) ∧
      (let s := { plain with frames := [(16, lentMark)] }; ∃ fr ∈ stepFrames s 0 0 8, framePinned s fr = true)) ∧
    compactPlan (plain.core 0) 0 (objectsLeave (plain.core 0) 0) [] = some [] := by
  refine ⟨by decide +kernel, by decide +kernel, by decide +kernel, by decide +kernel, by decide +kernel, by decide +kernel, ?_, by decide +kernel⟩
  refine ⟨by decide +kernel, by decide +kernel, by decide +kernel, by decide +kernel, by decide +kernel, by decide +kernel, 16, by decide +kernel, by decide +kernel⟩

/-! ### The machine -/

/-- A step over a code page: the `nop` at 0x20000 is decoded and run. -/
def ready : State := State.reset.withFetchWord 64 0x0001FFFFFFFDFA80
theorem test_step : after (step ready) (fun t => ((pcs t [0, 31]), t.agenda)) = some ([some 0x20008, some 0x20008], []) := by decide +kernel
/-- R341: a matrix instruction that is decoded and run. -/
theorem test_step_matrix : after (step (State.reset.withFetchWord 64 (low 0 0x1C4 63 0 511 511 15 0 0))) (fun t => ((t.team 2).bind Team.seq).map fun q => q.pc.toNat) = some (some 0x20008) := by decide +kernel
theorem test_step_clock : after (step State.reset) (fun t => t.clock) = some 1 := by decide +kernel

theorem witness_StepRunsDecoded : (ready.agenda = [.issue 3] ∧ (ready.group 3).any (fun g => g.stalled.isNone && g.restore.isNone && !g.out && !gatedOn ready g.core g.ctx && (owedTo ready g).isNone && !causeDue g &&
      g.park.isNone && g.replays.isEmpty && g.cur.isNone && g.thread.frontier.head?.any (fun e => !e.must && decide (e.pc = 0x20000)) &&
      (match translate ready g.core g.ctx 0x20000 .fetch g.priv with
        | .ok p _ => (p.units 1 32).all (fun u => (tfind (ready.core g.core).icache u).isNone) && placeCause ready 32 p.sector == none && decide (p.offset % 32 + 8 ≤ 32) &&
          (match decodeWord g.kind.stream (ofBytes (((readPlace ready 32 p.sector).drop (p.offset % 32)).take 8)) with | .ok (i, n) => decide (i = .nop sf ∧ n = 8) | _ => false)
        | _ => false)) = true) ∧
    (let s := State.reset.withFetchWord 64 (low 0 0x1C4 63 0 511 511 15 0 0); s.agenda = [.matrix 2] ∧ (s.team 2).any (fun t => !t.saved && !teamRestoring s 2 && !teamLeft s 2 && !resumes s t.cluster && !gatedOn s t.core (ctxOfTeam s t) &&
      t.seq.any (fun q => decide (q.state = .running ∧ q.pc = 0x20000)) &&
      (match translate s t.core (ctxOfTeam s t) 0x20000 .fetch false, translate s t.core (ctxOfTeam s t) 0x20004 .fetch false with
        | .ok p _, .ok p' _ => placeCause s 4 p == none && placeCause s 4 p' == none && decide ((decodeWord .matrix (ofBytes (readPlace s 4 p ++ readPlace s 4 p'))).toOption.map (fun x => x.2) = some 8)
        | _, _ => false)) = true) ∧
    { plain with agenda := [.event (.nop sf)] }.agenda = .event (.nop sf) :: [] ∧ (let s := { State.reset with inputs := [(0, .firmwareRestart)] }; s.agenda = [] ∧ s.inputs = (0, .firmwareRestart) :: [] ∧ 0 ≤ s.clock) ∧
    (State.reset.agenda = [] ∧ ∀ p ∈ State.reset.inputs.head?, State.reset.clock < p.1) := by
  refine ⟨by decide +kernel, by decide +kernel, rfl, by decide +kernel, by decide +kernel⟩
/-- Three lengths; an operand whose encoding has the register in the dropped bits is none of them. -/
theorem witness_DecodeEncode : (let f := { op .n32 0 with c := .zero }; WellFormed (.add f) ∧ (encodeWord (.add f)).isSome = true) ∧ (WellFormed (.nop sf) ∧ encodeWord (.nop sf) = some (0x0001FFFFFFFDFA80, 8)) ∧
    (WellFormed (.crdPut putF) ∧ (encodeWord (.crdPut putF)).any (fun x => x.2 == 16) = true) := by decide +kernel
theorem witness_MemoryKept : Memory.wf ready.mem = true ∧ (∃ t, step ready = .next t) := by
  refine ⟨by decide +kernel, ?_⟩
  have ht := test_step
  cases h : step ready with
  | next t => exact ⟨t, rfl⟩
  | fault f => rw [h] at ht; exact absurd ht (by simp [after])
  | refused r => rw [h] at ht; exact absurd ht (by simp [after])
/-- A product that overflows, one that is exact, one that is not. -/
theorem witness_RoundingOncePerResult : fmtF16 ∈ [fmtF32, fmtF16, fmtBF16, fmtE4M3, fmtE5M2, fmtE2M1, fmtF40] ∧ (roundRat fmtF16 .rne false 65520 1).2 &&& fOF ≠ 0 ∧ (roundRat fmtF16 .rd true 1 3).2 &&& fOF = 0 ∧
    (roundRat fmtF16 .rz false 1 (2 ^ 30)).2 &&& fUF ≠ 0 ∧ (roundRat fmtF16 .ru false 3 4).2 &&& fNX = 0 := by decide +kernel

/-! ### The assembler and the loader -/

-- R62: the manual's example; R61; R63
theorem test_layout : (layOut [.code 0 8, .code (0x8000000000000005 + 1000 * 2 ^ 83) 12, .code 4 8, .code 6 16]).length = 48 ∧
    ((layOut [.code 0 8, .code (0x8000000000000005 + 1000 * 2 ^ 83) 12, .code 4 8, .code 6 16]).drop 20).take 2 = [0xE8, 0x03] ∧
    (layOut [.code 0 8, .code 0 16, .code 0 16]).drop 24 = toBytes 8 0x0001FFFFFFFDFA80 ++ toBytes 16 0 := by decide +kernel
theorem test_literals : placeLiteral .n32 true false false 1000 = some (.imm13 1000) ∧ placeLiteral .n32 true false false 0x10000 = some (.imm32 0x10000) ∧
    placeLiteral .n32 true false false 0xFF = some (.const 9) ∧ placeLiteral .f16 true false true 0x1234 = some (.imm32 0x1234) ∧
    literalBits fmtF16 true false 1 1 = 0x3C003C00 := by decide +kernel
theorem test_expressions : (Expr.bin .div (.lit (-7)) (.lit 2)).eval (fun _ => none) = some (-3) ∧ (Expr.bin .shl (.lit 1) (.lit 64)).eval (fun _ => none) = some 0 ∧
    (Expr.bin .shr (.un .neg (.lit 8)) (.lit 1)).eval (fun _ => none) = some (-4) ∧ (Expr.bin .rem (.lit 7) (.lit 0)).eval (fun _ => none) = none := by decide +kernel
/-- R67 to R69: a header, one section record at 0x40, one relocation record at 0x60. -/
def imageBytes (version : Nat) : List Byte :=
  toBytes 64 (0x34564553 + version * 2 ^ 32 + 2 ^ 64 + 0x40 * 2 ^ 128 + 0x60 * 2 ^ 256 + 2 ^ 320) ++ toBytes 32 (8 * 2 ^ 64 + 3 * 2 ^ 128) ++ toBytes 16 (0x40 + 2 ^ 64)
theorem test_load : (loadImage 0x40000 (imageBytes 1)).map (fun ps => ps.map fun p => [p.va, p.pages, p.attrs, p.bytes.length]) = some [[0x40000, 1, 0x8004, 8]] ∧
    loadImage 0x40000 (imageBytes 2) = none ∧ imageNat (relocate 0x40000 (imageBytes 1) [0x40]) 0x40 8 = 0x40000 := by decide +kernel
-- R52, R57: the worked header; R59, R60: worked statements
theorem test_header_text : (readHeaderLine "ch wait=f0,f3 set=f1,f2 prio=12".toList).map Machine.headerWord = some 0x03084027 ∧
    readHeaderLine "ch prio=65536".toList = none := by decide +kernel
theorem test_statement_text : (let st := readStatement (fun _ _ => false) "(p3 & !p5) add.s32 v10, v10, -7, set f2".toList
      st.map (fun st => st.guard.1.pred) = some (some 3) ∧ st.map (fun st => st.guard.2) = some (({ pred := some 5, neg := true } : Guard), false) ∧
      st.map (fun st => st.operands.map operandField) = some [some (.v 10), some (.v 10), none] ∧ st.map (fun st => st.flag) = some (some 2) ∧
      st.map (fun st => (st.slot, st.suffixes)) = some (1, [Suffix.ty .s32])) ∧
    (readStatement (fun _ t => t == "add".toList) "atom.add.l.rlx.team.n32 zero, v14, v13".toList).map (fun st => suffixBits false st.suffixes) =
      some 0x1C0A000000000000 ∧
    readStatement (fun _ _ => false) "ld.b32.g v1, v2".toList = none := by decide +kernel
theorem test_expression_text : ((readExpr "2+3*(4-1)<<1|1".toList).bind fun e => e.eval fun _ => none) = some 23 ∧
    ((readExpr "-7/2 - 0x1_0".toList).bind fun e => e.eval fun _ => none) = some (-19) ∧
    floatLiteral fmtF16 true "1.0".toList = some 0x3C003C00 ∧ emitInt 8 (-129) = none ∧ reservedName (fun _ _ => true) "add.n32".toList = true ∧
    reservedName (fun _ _ => true) "loop".toList = false ∧ sectionsOk [".kernel".toList, ".matrix".toList, ".end".toList, ".end".toList] = true := by decide +kernel

/-! ### 1 GiB pages, mapped tables, lines -/

/-- A 1 GiB page at 0x4000_0000; the last-level table mapped at 0x4_0000. -/
def giant : State := writeNat paged 0x210008 8 (0x40000000 + 0x407)
def selfMapped : State := writeNat paged 0x220010 8 (0x220000 + 0x407)

-- R490: a leaf that maps a table follows it, also where its own entry moves
theorem test_move_table : (let t := moveTable selfMapped 1 0 (some 0x210000) 0x220000 50; ((leafAt t 1 0x40000).map fun l => pteAddr l.pte, (leafAt t 1 0x20000).map fun l => pteAddr l.pte, readNat t 0x220000 8)) = (some (50 * frameBytes), some 0x240000, 0) := by decide +kernel
-- R509: MAP refuses a range that a 1 GiB page maps until UNMAP has been used
theorem test_unmap_giant : ((leafAt (unmapPage 1 giant 0x40000000) 1 0x40000000).isSome, (leafAt (unmapPage 1 giant 0x40020000) 1 0x40000000).isSome) = (false, true) := by decide +kernel
def lineOf (f : Nat → Nat) : List Byte := (fromTo 0 32).flatMap fun i => toBytes 4 (f i)
-- R492, R493: the lines of R495, steps of one, and steps too wide for bytes
theorem test_code_line : (let x := lineOf fun i => 0x3F800000 + i; let y := lineOf fun i => (0xFFFFFFF8 + i % 16) % 2 ^ 32; let z := lineOf fun i => 2113 * i
    (codeLine false x).1 = 2 ∧ expandLine 2 (codeLine false x).2 = x ∧ (codeLine false y).1 = 4 ∧ expandLine 4 (codeLine false y).2 = y ∧
    (codeLine false z).1 = 3 ∧ expandLine 3 (codeLine false z).2 = z ∧ [x, y, z].map (storedSectors false) = [2, 1, 3] ∧ storedSectors true y = 4) := by decide +kernel
-- R496: the check value of the nine digits that public descriptions of CRC-32C give
theorem test_crc : crc32c [0x31, 0x32, 0x33, 0x34, 0x35, 0x36, 0x37, 0x38, 0x39] = 0xE3069283 := by decide +kernel
-- R494: the three paths of the rule, and a port whose peer holds encoded lines
theorem test_decoding_hop : [[Hop.slice, .switch, .link, .switch, .l1], [.slice, .l1], [.slice, .switch, .link, .switch, .pcie], [.slice, .switch, .external 3, .l1]].map
    (decodingHop (plain.setPort 3 { trained := true, encoded := true })) = [some .switch, some .slice, some .switch, some (.external 3)] := by decide +kernel

end Sys2Proof.Tests
end

section
/-!
PROOFS. Integer arithmetic (R71, R72, R100 to R102, R110): values read and narrowed by type, carry chains, wide products.
-/
namespace Sys2Proof.Machine
open Sys2Proof

/-! ### Integers of `n` bits -/

theorem ofInt_eq_toNat (n : Nat) (x : Int) : ofInt n x = (BitVec.ofInt n x).toNat := (BitVec.toNat_ofInt x).symm

theorem ofInt_lt (n : Nat) (x : Int) : ofInt n x < 2 ^ n := ofInt_eq_toNat n x ▸ BitVec.isLt _

theorem natCast_ofInt (n : Nat) (x : Int) : (ofInt n x : Int) = x % (2 ^ n : Nat) :=
  Int.toNat_of_nonneg (Int.emod_nonneg x (by have := Nat.two_pow_pos n; omega))

/-- `toSigned` is the balanced remainder. -/
theorem toSigned_eq_bmod (n x : Nat) : toSigned n x = (x : Int).bmod (2 ^ n) := by
  cases n with
  | zero => simp [toSigned, Int.bmod]
  | succ n =>
    have hp : (2 : Nat) ^ (n + 1) = 2 * 2 ^ n := by rw [Nat.pow_succ, Nat.mul_comm]
    have hh : ((2 : Nat) ^ (n + 1) + 1) / 2 = 2 ^ n := by omega
    have hc : ((((2 : Nat) ^ (n + 1) : Nat) : Int) + 1) / 2 = (2 ^ n : Nat) := by omega
    simp only [toSigned, Int.bmod_def, hc, Nat.add_sub_cancel, Nat.add_eq_zero_iff, Nat.one_ne_zero, and_false, if_false]
    norm_cast

/-- Agreeing modulo `n` is transitive. -/
theorem dvd_sub_trans {n a b c : Int} (hab : n ∣ a - b) (hbc : n ∣ b - c) : n ∣ a - c := by
  have h := Int.dvd_add hab hbc
  rwa [show a - b + (b - c) = a - c by omega] at h

/-- Agreeing modulo `n` with the same number. -/
theorem dvd_sub_of_common {n a b c : Int} (hac : n ∣ a - c) (hbc : n ∣ b - c) : n ∣ a - b := by
  have h := Int.dvd_sub hac hbc
  rwa [show a - c - (b - c) = a - b by omega] at h

theorem toSigned_of_lt {n x : Nat} (h : 2 * x < 2 ^ n) : toSigned n x = x := by
  rw [toSigned_eq_bmod, Int.bmod_eq_of_le_mul_two] <;> omega

/-! ### Integers by type (R71, R72) -/

theorem tyBits_pos (t : Ty) : 0 < tyBits t := by cases t <;> decide

theorem two_pow_tyBits (t : Ty) : 2 ^ tyBits t = 2 * 2 ^ (tyBits t - 1) := by
  rw [← Nat.pow_succ', Nat.succ_eq_add_one, Nat.sub_one_add_one (Nat.ne_of_gt (tyBits_pos t))]

theorem readInt_of_signed {t : Ty} (h : tySigned t = true) (x : Nat) : readInt t x = (x : Int).bmod (2 ^ tyBits t) := by
  rw [readInt, if_pos h, toSigned_eq_bmod]

theorem readInt_of_unsigned {t : Ty} (h : tySigned t = false) (x : Nat) : readInt t x = (x : Int) % (2 ^ tyBits t : Nat) := by
  simp [readInt, h]

/-- Reading as a type keeps the value modulo 2^n. -/
theorem dvd_readInt_sub (t : Ty) (x : Nat) : ((2 ^ tyBits t : Nat) : Int) ∣ readInt t x - x := by
  cases h : tySigned t with
  | true => rw [readInt_of_signed h]; exact Int.dvd_bmod_sub_self
  | false => rw [readInt_of_unsigned h]; exact Int.dvd_emod_sub_self

/-- A value read as a type lies in the type's range. -/
theorem readInt_mem_range (t : Ty) (x : Nat) : tyMin t ≤ readInt t x ∧ readInt t x ≤ tyMax t := by
  have hp := two_pow_tyBits t
  have hq : 0 < 2 ^ (tyBits t - 1) := Nat.two_pow_pos _
  cases h : tySigned t with
  | true =>
    have h1 := Int.le_bmod (x := x) (Nat.two_pow_pos (tyBits t))
    have h2 := Int.bmod_lt (x := x) (Nat.two_pow_pos (tyBits t))
    rw [readInt_of_signed h]; simp only [tyMin, tyMax, h, if_true]; omega
  | false =>
    have h1 := Int.emod_nonneg (x : Int) (b := (2 ^ tyBits t : Nat)) (by omega)
    have h2 := Int.emod_lt_of_pos (x : Int) (b := (2 ^ tyBits t : Nat)) (by omega)
    rw [readInt_of_unsigned h]; simp only [tyMin, tyMax, h, Bool.false_eq_true, if_false]; omega

/-- Two values of a type's range that agree modulo 2^n are equal. -/
theorem eq_of_mem_range {t : Ty} {x y : Int} (hx : tyMin t ≤ x ∧ x ≤ tyMax t) (hy : tyMin t ≤ y ∧ y ≤ tyMax t)
    (h : ((2 ^ tyBits t : Nat) : Int) ∣ x - y) : x = y := by
  have hp := two_pow_tyBits t
  have hq : 0 < 2 ^ (tyBits t - 1) := Nat.two_pow_pos _
  have hwidth : tyMax t - tyMin t < (2 ^ tyBits t : Nat) := by
    cases hs : tySigned t with
    | true => simp only [tyMin, tyMax, hs, if_true]; omega
    | false => simp only [tyMin, tyMax, hs, Bool.false_eq_true, if_false]; omega
  exact Int.sub_eq_zero.mp (Int.eq_zero_of_dvd_of_natAbs_lt_natAbs h (by omega))

theorem dvd_ofInt_sub (n : Nat) (x : Int) : ((2 ^ n : Nat) : Int) ∣ (ofInt n x : Int) - x :=
  natCast_ofInt n x ▸ Int.dvd_emod_sub_self

/-- A signed result below 32 bits is sign-extended to its register (R71). -/
theorem wrapInt_of_signExtended {t : Ty} (h : tySigned t = true ∧ tyBits t < 32) (x : Int) :
    wrapInt t x = ofInt 32 (readInt t (ofInt (tyBits t) x)) := by
  simp [wrapInt, readInt, h]

theorem wrapInt_of_not_signExtended {t : Ty} (h : ¬ (tySigned t = true ∧ tyBits t < 32)) (x : Int) :
    wrapInt t x = ofInt (tyBits t) x := by
  simp only [wrapInt, if_neg h]

/-- The result of a type is the integer modulo 2^n. -/
theorem dvd_wrapInt_sub (t : Ty) (x : Int) : ((2 ^ tyBits t : Nat) : Int) ∣ wrapInt t x - x := by
  by_cases h : tySigned t = true ∧ tyBits t < 32
  · have h32 : ((2 ^ tyBits t : Nat) : Int) ∣ (2 ^ 32 : Nat) := Int.natCast_dvd_natCast.mpr (Nat.pow_dvd_pow 2 (by omega))
    have h1 := Int.dvd_trans h32 (dvd_ofInt_sub 32 (readInt t (ofInt (tyBits t) x)))
    rw [wrapInt_of_signExtended h]
    exact dvd_sub_trans h1 (dvd_sub_trans (dvd_readInt_sub t _) (dvd_ofInt_sub (tyBits t) x))
  · exact wrapInt_of_not_signExtended h x ▸ dvd_ofInt_sub (tyBits t) x

theorem wrapInt_lt (t : Ty) (x : Int) : wrapInt t x < 2 ^ max 32 (tyBits t) := by
  by_cases h : tySigned t = true ∧ tyBits t < 32
  · rw [wrapInt_of_signExtended h]
    exact Nat.lt_of_lt_of_le (ofInt_lt 32 _) (Nat.pow_le_pow_right (by omega) (by omega))
  · rw [wrapInt_of_not_signExtended h]
    exact Nat.lt_of_lt_of_le (ofInt_lt _ x) (Nat.pow_le_pow_right (by omega) (by omega))

/-- What a result read as its type is: the integer modulo 2^n. -/
theorem dvd_readInt_wrapInt (t : Ty) (x : Int) : ((2 ^ tyBits t : Nat) : Int) ∣ readInt t (wrapInt t x) - x :=
  dvd_sub_trans (dvd_readInt_sub t _) (dvd_wrapInt_sub t x)

theorem readInt_wrapInt_of_mem {t : Ty} {x : Int} (h : tyMin t ≤ x ∧ x ≤ tyMax t) : readInt t (wrapInt t x) = x :=
  eq_of_mem_range (readInt_mem_range t _) h (dvd_readInt_wrapInt t x)

/-- A result below 32 bits fills its register by the type's rule: the register read as `.s32` is the value (R71). -/
theorem toSigned_wrapInt {t : Ty} (ht : tyBits t < 32) (x : Int) : toSigned 32 (wrapInt t x) = readInt t (wrapInt t x) := by
  have hle : 2 ^ (tyBits t - 1) ≤ 2 ^ 30 := Nat.pow_le_pow_right (by omega) (by omega)
  cases h : tySigned t with
  | true =>
    have hw := wrapInt_of_signExtended ⟨h, ht⟩ x
    have hm := readInt_mem_range t (ofInt (tyBits t) x)
    simp only [tyMin, tyMax, h, if_true] at hm
    have hr : readInt t (wrapInt t x) = readInt t (ofInt (tyBits t) x) :=
      eq_of_mem_range (readInt_mem_range t _) (readInt_mem_range t _) <|
        dvd_sub_of_common (dvd_readInt_wrapInt t x) (dvd_sub_trans (dvd_readInt_sub t _) (dvd_ofInt_sub (tyBits t) x))
    rw [hr, hw, toSigned_eq_bmod, natCast_ofInt, Int.emod_bmod, Int.bmod_eq_of_le_mul_two] <;> omega
  | false =>
    have hp := two_pow_tyBits t
    have hlt : wrapInt t x < 2 ^ tyBits t := by
      rw [wrapInt_of_not_signExtended (by simp [h])]; exact ofInt_lt _ x
    rw [readInt_of_unsigned h, toSigned_of_lt (by omega), Int.emod_eq_of_lt (by omega) (by omega)]

theorem clampInt_fst {lo hi : Int} (h : lo ≤ hi) (x : Int) : (clampInt lo hi x).1 = max lo (min hi x) := by
  by_cases hlo : x < lo
  · rw [clampInt, if_pos hlo]; dsimp only; omega
  · by_cases hhi : hi < x
    · rw [clampInt, if_neg hlo, if_pos hhi]; dsimp only; omega
    · rw [clampInt, if_neg hlo, if_neg hhi]; dsimp only; omega

theorem clampInt_snd (lo hi x : Int) : (clampInt lo hi x).2 = if lo ≤ x ∧ x ≤ hi then 0 else fSAT := by
  by_cases hlo : x < lo
  · rw [clampInt, if_pos hlo, if_neg (by omega)]
  · by_cases hhi : hi < x
    · rw [clampInt, if_neg hlo, if_pos hhi, if_neg (by omega)]
    · rw [clampInt, if_neg hlo, if_neg hhi, if_pos (by omega)]

theorem tyMin_le_tyMax (t : Ty) : tyMin t ≤ tyMax t :=
  Int.le_trans (readInt_mem_range t 0).1 (readInt_mem_range t 0).2

/-- Narrowing gives the result that R72 and R100 describe. -/
theorem intResult_narrowInt (t : Ty) (sat : Bool) (x : Int) :
    IntResult t sat x (narrowInt t sat x).1 (narrowInt t sat x).2 := by
  have hle := tyMin_le_tyMax t
  cases sat with
  | true =>
    refine ⟨wrapInt_lt t _, fun ht => toSigned_wrapInt ht _, ?_, clampInt_snd ..⟩
    simp only [narrowInt, if_true, clampInt_fst hle]
    exact readInt_wrapInt_of_mem (by omega)
  | false => exact ⟨wrapInt_lt t x, fun ht => toSigned_wrapInt ht x, dvd_readInt_wrapInt t x, rfl⟩

theorem min_eq_ite (a b : Int) : min a b = if b < a then b else a := by split <;> omega

theorem max_eq_ite (a b : Int) : max a b = if a < b then b else a := by split <;> omega

/-! ### Carry chains (R101) -/

/-- A word has been written to a vector or predicate destination in some lanes, and nothing else has changed. -/
structure WroteLanes (op : Operand) (ls : List Nat) (v : Nat → Nat) (t u : Thread) : Prop where
  vec  : ∀ d, op = .v d → ∀ l ∈ ls, (vreg u d.val l).toNat = v l % 2 ^ 32
  prd  : ∀ p, op = .p p → ∀ l ∈ ls, predBit u p.val l = (v l % 2 == 1)
  vecs : ∀ (n : Fin 256) l, l < 64 → op ≠ .v n ∨ l ∉ ls → vreg u n.val l = vreg t n.val l
  prds : ∀ (p : Fin 48) l, l < 64 → op ≠ .p p ∨ l ∉ ls → predBit u p.val l = predBit t p.val l
  rest : { u with vregs := t.vregs, preds := t.preds } = t

theorem wroteLanes_writeOperand (t : Thread) (v : Nat → Nat) {ls : List Nat} (hn : ls.Nodup) (hls : ∀ l ∈ ls, l < 64)
    {op : Operand} (ho : isScalar op = false) :
    WroteLanes op ls v t (ls.foldl (fun t l => writeOperand t l 1 (v l) op) t) := by
  cases op with
  | v d =>
    obtain ⟨hd, hvec, hrest⟩ := writeOperand_fold_vec t 1 d v ls hn hls
    refine ⟨?_, nofun, ?_, ?_, ?_⟩
    · rintro _ ⟨⟩ l hl; simpa [vwide] using hd l hl
    · intro n l hl h
      refine hvec n.val l hl fun hm => ?_
      have hne : n.val ≠ d.val := fun e => h.elim (fun hd => hd (Fin.ext e ▸ rfl)) (fun hk => hk hm)
      omega
    · intro p l _ _; exact (congrArg (fun y : Thread => predBit y p.val l) hrest :)
    · exact (congrArg (fun y : Thread => { y with preds := t.preds }) hrest :)
  | p p =>
    obtain ⟨hp, hprd, hrest⟩ := writeOperand_fold_pred t 1 p v ls hn hls
    refine ⟨nofun, ?_, ?_, ?_, ?_⟩
    · rintro _ ⟨⟩; exact hp
    · intro n l _ _; exact (congrArg (fun y : Thread => vreg y n.val l) hrest :)
    · intro q l hl h
      exact hprd q.val l hl fun hm e => h.elim (fun hd => hd (Fin.ext e ▸ rfl)) (fun hk => hk hm)
    · exact (congrArg (fun y : Thread => { y with vregs := t.vregs }) hrest :)
  | s d => cases ho
  | c k =>
    rw [writeOperand_fold_none t 1 v ls _ (.inl ⟨k, rfl⟩)]
    exact ⟨nofun, nofun, fun _ _ _ _ => rfl, fun _ _ _ _ => rfl, rfl⟩
  | zero =>
    rw [writeOperand_fold_none t 1 v ls _ (.inr rfl)]
    exact ⟨nofun, nofun, fun _ _ _ _ => rfl, fun _ _ _ _ => rfl, rfl⟩

/-- What a carry chain leaves (R101): `x` modulo 2^32 in the destination, then in predicate `p` whether `x` is out of range. -/
def CarryWrote (c : Ctx) (dst : Operand) (p : Fin 48) (x : Nat → Int) (r : Thread) : Prop :=
  (∀ l ∈ c.lanes, predBit r p.val l = decide (x l < 0 ∨ 2 ^ 32 ≤ x l)) ∧
  (∀ d, dst = .v d → ∀ l ∈ c.lanes, ((vreg r d.val l).toNat : Int) = x l % 2 ^ 32) ∧
  (∀ d, dst = .p d → d ≠ p → ∀ l ∈ c.lanes, predBit r d.val l = decide (x l % 2 = 1)) ∧
  (∀ (n : Fin 256) l, l < 64 → dst ≠ .v n ∨ l ∉ c.lanes → vreg r n.val l = vreg c.t n.val l) ∧
  (∀ (q : Fin 48) l, l < 64 → q ≠ p ∧ dst ≠ .p q ∨ l ∉ c.lanes → predBit r q.val l = predBit c.t q.val l) ∧
  { r with vregs := c.t.vregs, preds := c.t.preds } = c.t

/-- The destination is written first and the carry last. -/
theorem carryWrote_of {c : Ctx} {dst : Operand} {p : Fin 48} {x : Nat → Int} {v k : Nat → Nat} {u r : Thread}
    (hu : WroteLanes dst c.lanes v c.t u) (hr : WroteLanes (.p p) c.lanes k u r)
    (hv : ∀ l, (v l : Int) = x l % 2 ^ 32) (hk : ∀ l, (k l % 2 == 1) = decide (x l < 0 ∨ 2 ^ 32 ≤ x l)) :
    CarryWrote c dst p x r := by
  refine ⟨fun l hl => (hr.prd p rfl l hl).trans (hk l), ?_, ?_, ?_, ?_, ?_⟩
  · intro d hd l hl
    have h := hv l
    rw [hr.vecs d l (lt_of_mem_lanes hl) (.inl nofun), hu.vec d hd l hl]; omega
  · intro d hd hne l hl
    have h := hv l
    rw [hr.prds d l (lt_of_mem_lanes hl) (.inl fun e => hne (Operand.p.inj e).symm), hu.prd d hd l hl, Bool.eq_iff_iff]
    simp only [beq_iff_eq, decide_eq_true_eq]; omega
  · intro n l hl h
    rw [hr.vecs n l hl (.inl nofun), hu.vecs n l hl h]
  · intro q l hl h
    rw [hr.prds q l hl (h.imp_left fun h e => h.1 (Operand.p.inj e).symm), hu.prds q l hl (h.imp_left And.right)]
  · have h := congrArg (fun y : Thread => { y with vregs := c.t.vregs, preds := c.t.preds }) hr.rest
    exact h.trans hu.rest

theorem not_classBad_of_wellFormed {i : Instr} {r : Row} {f : Fields} (hr : rowOf i = some r) (hf : fieldsOf i = some f)
    (h : WellFormed i) : classBad i f = false := by
  cases hc : classBad i f with
  | false => rfl
  | true =>
    simp only [WellFormed, check, hr, hf, hc, if_true] at h
    split at h
    · cases h
    · split at h <;> cases h

/-- A carry chain that issues leaves what R101 says, where `fn` forms the word and the carry of `x`. -/
theorem carryOp_wrote {i : Instr} {f : Fields} {p : Fin 48} {fn : Nat → Nat → Nat → Nat × Bool} {x : Nat → Nat → Nat → Int}
    (he : ∀ s, exec i s = runGroup i f s fun c s => carryOp c s fn) (hsp : spansOf i f = {}) (hp : f.c = .p p)
    (hd : isScalar f.dst = false)
    (hfn : ∀ a b k, a < 2 ^ 32 →
      ((fn a b k).1 : Int) = x a b k % 2 ^ 32 ∧ (fn a b k).2 = decide (x a b k < 0 ∨ 2 ^ 32 ≤ x a b k))
    {s : State} {c : Ctx} (h : Issues s i f c) :
    ∃ r, exec i s = .next (ended c (setThreadOf s c.gid r)) ∧
      CarryWrote c f.dst p (fun l => x (c.srcA l % 2 ^ 32) (c.srcB l % 2 ^ 32) (c.srcC l % 2)) r := by
  have hf := h.fields
  have hspan : c.sp.d = 1 := by obtain ⟨_, _, _, _, rfl⟩ := h.group; exact congrArg Spans.d hsp
  have hrun : c.runLanes = c.lanes := by simp [Ctx.runLanes, hf, hd]
  have hlt : ∀ l ∈ c.lanes, l < 64 := fun l hl => lt_of_mem_lanes hl
  have hval := fun l => hfn (c.srcA l % 2 ^ 32) (c.srcB l % 2 ^ 32) (c.srcC l % 2) (Nat.mod_lt _ (by decide))
  refine ⟨_, (he s).trans (h.done rfl), ?_⟩
  simp only [hrun, Ctx.wr, hspan, hf, hp]
  refine carryWrote_of (wroteLanes_writeOperand _ _ (nodup_lanes c) hlt hd)
    (wroteLanes_writeOperand _ _ (nodup_lanes c) hlt rfl) (fun l => (hval l).1) fun l => ?_
  rw [b2n_mod_two, b2n_beq_one]; exact (hval l).2

theorem isScalar_eq_false_of_wellFormed_carry {f : Fields} {p : Fin 48} (hp : f.c = .p p)
    (h : WellFormed (.addc f) ∨ WellFormed (.subb f)) : isScalar f.dst = false := by
  have hc : classBad (.addc f) f = false ∨ classBad (.subb f) f = false :=
    h.imp (not_classBad_of_wellFormed rfl rfl) (not_classBad_of_wellFormed rfl rfl)
  cases hd : f.dst with
  | s d => simp [classBad, hd, hp, perLane, isCrossLane] at hc
  | _ => rfl

/-! ### Wide products (R102) -/

theorem ofNat_ofInt (n : Nat) (x : Int) : BitVec.ofNat n (ofInt n x) = BitVec.ofInt n x := by
  rw [ofInt_eq_toNat, BitVec.ofNat_toNat, BitVec.setWidth_eq]

theorem ofNat_high_word (x : Int) : BitVec.ofNat 32 (ofInt 64 x / 2 ^ 32) = (BitVec.ofInt 64 x).extractLsb 63 32 := by
  apply BitVec.eq_of_toNat_eq
  rw [BitVec.extractLsb_toNat, ofInt_eq_toNat, BitVec.toNat_ofNat, Nat.shiftRight_eq_div_pow]

/-- Settles O1: each lane function narrows the exact value, or forms the word and carry of the exact sum or difference. -/
theorem integerArithmetic : Obligations.IntegerArithmetic := by
  unfold Obligations.IntegerArithmetic
  refine ⟨fun f => ⟨?_, ?_, ?_, ?_, ?_, ?_, ?_⟩, fun f p hp => ⟨fun hw s c h => ?_, fun hw s c h => ?_⟩, fun f => ⟨?_, ?_⟩⟩
  · exact gives_alu (exec_add f) (fun _ => rfl) fun c l hf _ => by subst hf; exact intResult_narrowInt ..
  · exact gives_alu (exec_sub f) (fun _ => rfl) fun c l hf _ => by subst hf; exact intResult_narrowInt ..
  · exact gives_alu (exec_mul f) (fun _ => rfl) fun c l hf _ => by subst hf; exact intResult_narrowInt ..
  · exact gives_alu (exec_mad f) (fun _ => rfl) fun c l _ _ => intResult_narrowInt ..
  · refine gives_alu (exec_min f) (fun _ => rfl) fun c l hf _ => ?_
    subst hf; rw [min_eq_ite]; exact intResult_narrowInt ..
  · refine gives_alu (exec_max f) (fun _ => rfl) fun c l hf _ => ?_
    subst hf; rw [max_eq_ite]; exact intResult_narrowInt ..
  · exact gives_alu (exec_dp4 f) (fun _ => rfl) fun c l _ _ => intResult_narrowInt ..
  · refine carryOp_wrote (x := fun a b k => (a : Int) + b + k) (exec_addc f) rfl hp
      (isScalar_eq_false_of_wellFormed_carry hp (.inl hw)) (fun a b k _ => ?_) h
    refine ⟨by simp, ?_⟩
    rw [decide_eq_decide]; omega
  · refine carryOp_wrote (x := fun a b k => (a : Int) - b - k) (exec_subb f) rfl hp
      (isScalar_eq_false_of_wellFormed_carry hp (.inr hw)) (fun a b k _ => ?_) h
    refine ⟨natCast_ofInt 32 _, ?_⟩
    rw [decide_eq_decide]; omega
  · exact gives_alu (exec_mulhi f) (fun _ => rfl) fun c l _ _ => ⟨ofNat_high_word _, rfl⟩
  · refine gives_alu (exec_madw f) (fun _ => rfl) fun c l _ _ => ⟨?_, rfl⟩
    rw [ofNat_ofInt, BitVec.ofInt_add, BitVec.ofInt_natCast]

end Sys2Proof.Machine
end

section
/-!
PROOFS. Bitwise operations and shifts (R103, R104): integers bit by bit, and what each lane function gives for each bit.
-/
namespace Sys2Proof.Machine
open Sys2Proof

/-! ### Integers bit by bit (two's complement) -/

/-- Bit `k` of an integer in two's complement. -/
def intBit : Int → Nat → Bool
  | .ofNat m, k => m.testBit k
  | .negSucc m, k => !m.testBit k

theorem intBit_natCast (m k : Nat) : intBit (m : Int) k = m.testBit k := rfl

theorem intBit_negSucc (m k : Nat) : intBit (Int.negSucc m) k = !m.testBit k := rfl

/-- Division by 2^s moves bits down, the sign with them. -/
theorem intBit_div_two_pow (x : Int) (s k : Nat) : intBit (x / ((2 ^ s : Nat) : Int)) k = intBit x (k + s) := by
  rw [← Int.shiftRight_eq_div_pow]
  cases x with
  | ofNat m => exact (Nat.testBit_shiftRight m).trans (by rw [Nat.add_comm]; rfl)
  | negSucc m => exact congrArg (!·) ((Nat.testBit_shiftRight m).trans (by rw [Nat.add_comm]))

theorem testBit_ofInt (n : Nat) (x : Int) (k : Nat) : (ofInt n x).testBit k = (decide (k < n) && intBit x k) := by
  cases x with
  | ofNat m =>
    rw [show ofInt n (Int.ofNat m) = m % 2 ^ n by simp only [ofInt, Int.ofNat_eq_natCast]; omega, Nat.testBit_mod_two_pow]; rfl
  | negSucc m =>
    have hm : m % 2 ^ n < 2 ^ n := Nat.mod_lt _ (Nat.two_pow_pos n)
    have he : ofInt n (Int.negSucc m) = 2 ^ n - (m % 2 ^ n + 1) := by
      rw [ofInt, Int.negSucc_emod _ (by have := Nat.two_pow_pos n; omega)]; omega
    rw [he, Nat.testBit_two_pow_sub_succ hm, Nat.testBit_mod_two_pow, intBit_negSucc]
    cases decide (k < n) <;> simp

/-- A signed reading repeats bit n - 1 above it. -/
theorem intBit_toSigned {n : Nat} (hn : 0 < n) (x k : Nat) : intBit (toSigned n x) k = x.testBit (min k (n - 1)) := by
  have hy : x % 2 ^ n < 2 ^ n := Nat.mod_lt _ (Nat.two_pow_pos n)
  have hp : 2 ^ n = 2 * 2 ^ (n - 1) := by rw [← Nat.pow_succ', Nat.succ_eq_add_one, Nat.sub_one_add_one (Nat.ne_of_gt hn)]
  have htop : (x % 2 ^ n).testBit (n - 1) = x.testBit (n - 1) := by
    rw [Nat.testBit_mod_two_pow, decide_eq_true (by omega : n - 1 < n), Bool.true_and]
  have hlow : ∀ b : Bool, x.testBit (n - 1) = b → x.testBit (min k (n - 1)) = if k < n then x.testBit k else b := by
    rintro _ rfl
    split
    · rw [Nat.min_eq_left (by omega)]
    · rw [Nat.min_eq_right (by omega)]
  simp only [toSigned, if_neg (Nat.ne_of_gt hn)]
  split
  · rename_i hlt
    rw [hlow false (htop.symm.trans (Nat.testBit_lt_two_pow hlt)), intBit_natCast, Nat.testBit_mod_two_pow]
    by_cases hk : k < n <;> simp [hk]
  · rename_i hge
    have hneg : ((x % 2 ^ n : Nat) : Int) - (2 ^ n : Nat) = Int.negSucc (2 ^ n - (x % 2 ^ n + 1)) := by omega
    have hbit : x.testBit (n - 1) = true :=
      htop.symm.trans (Nat.testBit_of_two_pow_le_and_two_pow_add_one_gt (by omega) (by omega))
    rw [hlow true hbit, hneg, intBit_negSucc, Nat.testBit_two_pow_sub_succ hy, Nat.testBit_mod_two_pow]
    by_cases hk : k < n <;> simp [hk]

/-- A source read as a type, bit by bit: its low bits, then its sign or zeros (R71). -/
theorem intBit_readInt (t : Ty) (x k : Nat) : intBit (readInt t x) k =
    if k < tyBits t then x.testBit k else tySigned t && x.testBit (tyBits t - 1) := by
  have hn := tyBits_pos t
  cases h : tySigned t with
  | true =>
    simp only [readInt, h, if_true, intBit_toSigned hn, Bool.true_and]
    split
    · rw [Nat.min_eq_left (by omega)]
    · rw [Nat.min_eq_right (by omega)]
  | false =>
    simp only [readInt, h, Bool.false_eq_true, if_false, intBit_natCast, Nat.testBit_mod_two_pow, Bool.false_and]
    by_cases hk : k < tyBits t <;> simp [hk]

/-! ### Shifts (R103, R104) -/

/-- With `.wrap` the count is below the width; without it, a count beyond the width shifts as the width does. -/
theorem shiftCount_eq_min {n : Nat} (hn : 0 < n) (wrap : Bool) (b : Nat) :
    shiftCount wrap n b = min (if wrap then b % n else b) n := by
  cases wrap with
  | true => exact (Nat.min_eq_left (Nat.le_of_lt (Nat.mod_lt b hn))).symm
  | false => rfl

/-- The count of a funnel shift (R104). -/
theorem shiftCount_word (wrap : Bool) (x : Nat) :
    shiftCount wrap 32 (x % 2 ^ 32) = if wrap then x % 32 else min (x % 2 ^ 32) 32 := by
  cases wrap with
  | true => exact Nat.mod_mod_of_dvd x (by decide)
  | false => rfl

theorem testBit_shl (a sh n k : Nat) :
    (a * 2 ^ min sh n % 2 ^ n).testBit k = (decide (k < n) && (decide (sh ≤ k) && a.testBit (k - sh))) := by
  rw [Nat.testBit_mod_two_pow, Nat.testBit_mul_two_pow]
  by_cases hk : k < n
  · by_cases hs : sh ≤ n
    · rw [Nat.min_eq_left hs]
    · simp [show ¬ sh ≤ k by omega, show ¬ min sh n ≤ k by omega]
  · simp [hk]

theorem testBit_shr (a sh n k : Nat) :
    (a % 2 ^ n / 2 ^ min sh n).testBit k = (decide (k < n) && (decide (k + sh < n) && a.testBit (k + sh))) := by
  rw [Nat.testBit_div_two_pow, Nat.testBit_mod_two_pow]
  by_cases hk : k + sh < n
  · rw [Nat.min_eq_left (by omega), decide_eq_true (by omega : k < n), Bool.true_and]
  · simp [hk, show ¬ k + min sh n < n by omega]

/-- A signed shift right repeats the sign (R103). -/
theorem testBit_sar {n : Nat} (hn : 0 < n) (a sh k : Nat) :
    (ofInt n (toSigned n a / ((2 ^ min sh n : Nat) : Int))).testBit k =
      (decide (k < n) && a.testBit (min (k + sh) (n - 1))) := by
  rw [testBit_ofInt, intBit_div_two_pow, intBit_toSigned hn,
    show min (k + min sh n) (n - 1) = min (k + sh) (n - 1) by omega]

/-- The words b:a of a funnel shift, bit by bit (R104). -/
theorem testBit_pair (a b k : Nat) : (b % 2 ^ 32 * 2 ^ 32 + a % 2 ^ 32).testBit k =
    if k < 32 then a.testBit k else decide (k < 64) && b.testBit (k - 32) := by
  rw [Nat.mul_comm, Nat.testBit_two_pow_mul_add _ (Nat.mod_lt _ (by decide))]
  simp only [Nat.testBit_mod_two_pow]
  split
  · rename_i h; simp [h]
  · rename_i h; rw [decide_eq_decide.mpr (by omega : k - 32 < 32 ↔ k < 64)]

/-- The high word of b:a shifted left (R104). -/
theorem testBit_shf_left (a b k fs : Nat) :
    ((b % 2 ^ 32 * 2 ^ 32 + a % 2 ^ 32) * 2 ^ fs / 2 ^ 32 % 2 ^ 32).testBit k = (decide (k < 32) &&
      (decide (fs ≤ k + 32) && if k + 32 - fs < 32 then a.testBit (k + 32 - fs)
        else decide (k + 32 - fs < 64) && b.testBit (k + 32 - fs - 32))) := by
  rw [Nat.testBit_mod_two_pow, Nat.testBit_div_two_pow, Nat.testBit_mul_two_pow, testBit_pair]

/-- The low word of b:a shifted right (R104). -/
theorem testBit_shf_right (a b k fs : Nat) :
    ((b % 2 ^ 32 * 2 ^ 32 + a % 2 ^ 32) / 2 ^ fs % 2 ^ 32).testBit k = (decide (k < 32) &&
      if k + fs < 32 then a.testBit (k + fs) else decide (k + fs < 64) && b.testBit (k + fs - 32)) := by
  rw [Nat.testBit_mod_two_pow, Nat.testBit_div_two_pow, testBit_pair]

/-- The bits of the complement at a width (R103). -/
theorem testBit_not (a n k : Nat) : (2 ^ n - 1 - a % 2 ^ n).testBit k = (decide (k < n) && !a.testBit k) := by
  rw [Nat.sub_sub, Nat.add_comm, Nat.testBit_two_pow_sub_succ (Nat.mod_lt a (Nat.two_pow_pos n)), Nat.testBit_mod_two_pow]
  by_cases hk : k < n <;> simp [hk]

theorem bitResult_of {n v : Nat} {b : Nat → Bool} (h : ∀ k, v.testBit k = (decide (k < n) && b k)) : BitResult n b v 0 :=
  ⟨h, rfl⟩

/-- A bitwise operation of two sources at the type's width (R103). -/
theorem bitResult_bits2 {f : Fields} {c : Ctx} (hf : c.f = f) (l : Nat) {op : Nat → Nat → Nat} {g : Bool → Bool → Bool}
    (hop : ∀ x y k, (op x y).testBit k = g (x.testBit k) (y.testBit k)) :
    BitResult (tyBits f.ty) (fun k => g ((c.srcA l).testBit k) ((c.srcB l).testBit k)) (bits2 c op l).1 (bits2 c op l).2 := by
  subst hf
  refine bitResult_of fun k => ?_
  simp only [bits2, Nat.testBit_mod_two_pow, hop]
  by_cases hk : k < tyBits c.f.ty <;> simp [hk]

/-- Settles O2: each lane function, bit by bit. -/
theorem bitwiseAndShifts : Obligations.BitwiseAndShifts := by
  unfold Obligations.BitwiseAndShifts
  refine ⟨fun f => ⟨?_, ?_, ?_, ?_⟩, fun f => ?_⟩
  · exact gives_alu (exec_and f) (fun _ => rfl) fun c l hf _ => bitResult_bits2 hf l Nat.testBit_and
  · exact gives_alu (exec_or f) (fun _ => rfl) fun c l hf _ => bitResult_bits2 hf l Nat.testBit_or
  · exact gives_alu (exec_xor f) (fun _ => rfl) fun c l hf _ => bitResult_bits2 hf l Nat.testBit_xor
  · exact gives_alu (exec_not f) (fun _ => rfl) fun c l _ _ => bitResult_of fun k => testBit_not ..
  · have hn := tyBits_pos f.ty
    refine ⟨?_, ?_, ?_, ?_⟩
    · refine gives_alu (exec_shl f) (fun _ => rfl) fun c l _ _ => bitResult_of fun k => ?_
      simp only [Ctx.count, shiftCount_eq_min hn]; exact testBit_shl ..
    · refine gives_alu (exec_shr f) (fun _ => rfl) fun c l _ _ => bitResult_of fun k => ?_
      simp only [Ctx.count, shiftCount_eq_min hn]; exact testBit_shr ..
    · refine gives_alu (exec_sar f) (fun _ => rfl) fun c l _ _ => bitResult_of fun k => ?_
      simp only [Ctx.count, shiftCount_eq_min hn]; exact testBit_sar hn ..
    · refine gives_alu (exec_shf f) (fun _ => rfl) fun c l _ _ => bitResult_of fun k => ?_
      simp only [shiftCount_word]
      cases f.bit50 with
      | true => simp only [if_true]; exact testBit_shf_left ..
      | false => simp only [Bool.false_eq_true, if_false]; exact testBit_shf_right ..

end Sys2Proof.Machine
end

section
/-!
PROOFS. Bit fields and counts (R105, R106).
-/
namespace Sys2Proof.Machine
open Sys2Proof

/-! ### Bit fields (R105) -/

/-- The field of `bfx`: `len` bits of the source from position `pos`, extended by the type's sign or with zeros (R105). -/
theorem bitResult_bfx (t : Ty) (x pos len : Nat) :
    BitResult (tyBits t) (fun k => decide (0 < len) && (if k < len then intBit (readInt t x) (pos + k)
        else tySigned t && intBit (readInt t x) (pos + len - 1)))
      (let m := min len (tyBits t)
       let field := ofInt m (readInt t x / ((2 ^ pos : Nat) : Int))
       if m = 0 then 0 else if tySigned t then ofInt (tyBits t) (toSigned m field) else field) 0 := by
  have hn := tyBits_pos t
  refine bitResult_of fun k => ?_
  dsimp only
  split
  · simp [show len = 0 by omega]
  · rename_i h0
    have hlen : 0 < len := by omega
    by_cases hk : k < tyBits t
    · cases hs : tySigned t with
      | true =>
        simp only [if_true, hk, hlen, decide_true, Bool.true_and, testBit_ofInt, intBit_toSigned (Nat.pos_of_ne_zero h0),
          intBit_div_two_pow, show min k (min len (tyBits t) - 1) < min len (tyBits t) by omega]
        split
        · congr 1; omega
        · congr 1; omega
      | false =>
        simp only [Bool.false_eq_true, if_false, hk, hlen, decide_true, Bool.true_and, Bool.false_and, testBit_ofInt,
          intBit_div_two_pow]
        by_cases hkl : k < len
        · rw [decide_eq_true (by omega : k < min len (tyBits t)), if_pos hkl, Bool.true_and, Nat.add_comm]
        · rw [decide_eq_false (by omega : ¬ k < min len (tyBits t)), if_neg hkl, Bool.false_and]
    · rw [decide_eq_false hk, Bool.false_and]
      cases hs : tySigned t with
      | true => simp only [if_true, testBit_ofInt, decide_eq_false hk, Bool.false_and]
      | false =>
        simp only [Bool.false_eq_true, if_false, testBit_ofInt, Bool.false_and,
          decide_eq_false (by omega : ¬ k < min len (tyBits t))]

theorem testBit_setBits (y v pos : Nat) {len : Nat} (h : 0 < len) (k : Nat) :
    (setBits y (pos + len - 1) pos v).testBit k =
      if pos ≤ k ∧ k < pos + len then v.testBit (k - pos) else y.testBit k := by
  have hlow : y % 2 ^ pos < 2 ^ pos := Nat.mod_lt _ (Nat.two_pow_pos pos)
  have hfield : v % 2 ^ len < 2 ^ len := Nat.mod_lt _ (Nat.two_pow_pos len)
  have hlt : 2 ^ pos * (v % 2 ^ len) + y % 2 ^ pos < 2 ^ (pos + len) := by
    rw [Nat.pow_add]
    calc 2 ^ pos * (v % 2 ^ len) + y % 2 ^ pos < 2 ^ pos * (v % 2 ^ len) + 2 ^ pos := by omega
      _ = 2 ^ pos * (v % 2 ^ len + 1) := by rw [Nat.mul_add, Nat.mul_one]
      _ ≤ 2 ^ pos * 2 ^ len := Nat.mul_le_mul_left _ hfield
  have he : setBits y (pos + len - 1) pos v =
      2 ^ (pos + len) * (y / 2 ^ (pos + len)) + (2 ^ pos * (v % 2 ^ len) + y % 2 ^ pos) := by
    rw [setBits, Nat.sub_add_cancel (by omega), Nat.add_sub_cancel_left, Nat.add_comm, Nat.add_comm (y % 2 ^ pos)]
  rw [he, Nat.testBit_two_pow_mul_add _ hlt, Nat.testBit_two_pow_mul_add _ hlow, Nat.testBit_mod_two_pow,
    Nat.testBit_mod_two_pow, Nat.testBit_div_two_pow]
  by_cases h1 : k < pos
  · simp [h1, show k < pos + len by omega, show ¬ pos ≤ k by omega]
  · by_cases h2 : k < pos + len
    · simp [h1, h2, show k - pos < len by omega, show pos ≤ k by omega]
    · simp [h2, show k - (pos + len) + (pos + len) = k by omega]

/-- The field that `bfi` inserts, cut at the width. -/
theorem bitResult_bfi (n a c pos len : Nat) :
    BitResult n (fun k => if pos ≤ k ∧ k < pos + len then a.testBit (k - pos) else c.testBit k)
      (let m := if pos ≥ n then 0 else min len (n - pos)
       if m = 0 then c % 2 ^ n else setBits (c % 2 ^ n) (pos + m - 1) pos a) 0 := by
  refine bitResult_of fun k => ?_
  dsimp only
  generalize hm : (if pos ≥ n then 0 else min len (n - pos)) = m
  have hcut : k < n → (k < pos + m ↔ k < pos + len) ∨ k < pos := by split at hm <;> omega
  have hin : 0 < m → pos + m ≤ n := by split at hm <;> omega
  by_cases h0 : m = 0
  · rw [if_pos h0, Nat.testBit_mod_two_pow]
    by_cases hk : k < n
    · simp [hk, show ¬ (pos ≤ k ∧ k < pos + len) by have := hcut hk; omega]
    · simp [hk]
  · rw [if_neg h0, testBit_setBits _ _ _ (Nat.pos_of_ne_zero h0), Nat.testBit_mod_two_pow]
    have hn := hin (Nat.pos_of_ne_zero h0)
    by_cases hk : k < n
    · simp only [hk, decide_true, Bool.true_and, show (pos ≤ k ∧ k < pos + m) ↔ (pos ≤ k ∧ k < pos + len) by
        have := hcut hk; omega]
    · simp [hk, show ¬ k < pos + m by omega]

/-! ### Counts and reversal (R106) -/

theorem popNat_eq_length (n x : Nat) : popNat n x = ((List.range n).filter x.testBit).length := by
  induction n generalizing x with
  | zero => rfl
  | succ n ih =>
    have hs : x.testBit ∘ Nat.succ = (x / 2).testBit := funext fun k => Nat.testBit_succ x k
    rw [popNat, ih, List.range_succ_eq_map, List.filter_cons, List.filter_map, hs, Nat.testBit_zero]
    rcases Nat.mod_two_eq_zero_or_one x with h | h <;> simp [h, Nat.add_comm]

theorem reverseBits_lt (n x : Nat) : reverseBits n x < 2 ^ n := by
  induction n generalizing x with
  | zero => simp [reverseBits]
  | succ n ih =>
    have hlow := ih (x / 2)
    rw [reverseBits, Nat.pow_succ]
    rcases Nat.mod_two_eq_zero_or_one x with h | h <;> rw [h] <;> omega

theorem testBit_reverseBits (n x k : Nat) : (reverseBits n x).testBit k = (decide (k < n) && x.testBit (n - 1 - k)) := by
  induction n generalizing x with
  | zero => simp [reverseBits]
  | succ n ih =>
    rw [reverseBits, Nat.mul_comm, Nat.testBit_two_pow_mul_add _ (reverseBits_lt n _), ih]
    rcases Nat.lt_trichotomy k n with h | h | h
    · rw [← Nat.testBit_succ, show (n - 1 - k).succ = n + 1 - 1 - k by omega]
      simp [h, show k < n + 1 by omega]
    · subst h
      rcases Nat.mod_two_eq_zero_or_one x with h | h <;> simp [h]
    · have hz : x % 2 < 2 ^ (k - n) := Nat.lt_of_lt_of_le (Nat.mod_lt x (by decide)) (Nat.le_self_pow (by omega) 2)
      simp [show ¬ k < n by omega, show ¬ k < n + 1 by omega, Nat.testBit_lt_two_pow hz]

theorem bitLength_le_iff {n x : Nat} : bitLength x ≤ n ↔ x < 2 ^ n := by
  unfold bitLength
  split
  · rename_i h; rw [h]; exact ⟨fun _ => Nat.two_pow_pos n, fun _ => Nat.zero_le n⟩
  · rename_i h; exact Nat.log2_lt h

theorem testBit_bitLength_sub_one {x : Nat} (h : 0 < bitLength x) : x.testBit (bitLength x - 1) = true := by
  unfold bitLength at *
  split at h
  · exact absurd h (Nat.lt_irrefl 0)
  · rename_i h0; rw [if_neg h0]; exact Nat.testBit_log2 h0

/-- What `clz` counts: the zero bits above the highest set bit (R106). -/
theorem clz_eq (n a : Nat) : let v := n - bitLength (a % 2 ^ n)
    v ≤ n ∧ (∀ k, n - v ≤ k → k < n → a.testBit k = false) ∧ (v < n → a.testBit (n - 1 - v) = true) := by
  have hle : bitLength (a % 2 ^ n) ≤ n := bitLength_le_iff.mpr (Nat.mod_lt _ (Nat.two_pow_pos n))
  have hbit : ∀ k, k < n → a.testBit k = (a % 2 ^ n).testBit k := fun k hk => by simp [hk]
  refine ⟨Nat.sub_le .., fun k h1 hk => ?_, fun hv => ?_⟩
  · rw [hbit k hk]
    exact Nat.testBit_lt_two_pow (bitLength_le_iff.mp (by omega))
  · rw [hbit _ (by omega), show n - 1 - (n - bitLength (a % 2 ^ n)) = bitLength (a % 2 ^ n) - 1 by omega]
    exact testBit_bitLength_sub_one (by omega)

/-- Settles O3: the field of `bfx` and `bfi`, the counts and the reversal, bit by bit. -/
theorem bitFieldsAndCounts : Obligations.BitFieldsAndCounts := by
  unfold Obligations.BitFieldsAndCounts
  intro f
  refine ⟨?_, ?_, ?_, ?_, ?_⟩
  · refine gives_alu (exec_bfx f) (fun _ => rfl) fun c l _ _ => ?_
    simp only [← intBit_readInt]
    exact bitResult_bfx ..
  · exact gives_alu (exec_bfi f) (fun _ => rfl) fun c l _ _ => bitResult_bfi ..
  · exact gives_alu (exec_popc f) (fun _ => rfl) fun c l _ _ => ⟨popNat_eq_length .., rfl⟩
  · refine gives_alu (exec_clz f) (fun _ => rfl) fun c l _ _ => ?_
    obtain ⟨hle, hzero, htop⟩ := clz_eq (tyBits f.ty) (c.srcA l)
    exact ⟨hle, hzero, htop, rfl⟩
  · exact gives_alu (exec_brev f) (fun _ => rfl) fun c l _ _ => bitResult_of fun k => testBit_reverseBits ..

end Sys2Proof.Machine
end

section
/-!
PROOFS. Predicate instructions (R125 to R128).
-/
namespace Sys2Proof.Machine
open Sys2Proof

theorem bit_eq_testBit (x i : Nat) : bit x i = x.testBit i := by
  rw [bit, Nat.testBit_eq_decide_div_mod_eq]; rfl

theorem b2n_bit (x i : Nat) : b2n (bit x i) = x / 2 ^ i % 2 := by
  rcases Nat.mod_two_eq_zero_or_one (x / 2 ^ i) with h | h <;> simp [bit, h, b2n]

theorem b2n_eq_one_iff {b : Bool} {q : Prop} (h : b = true ↔ q) : (b2n b = 1 ↔ q) ∧ b2n b ≤ 1 :=
  ⟨Iff.trans (by cases b <;> decide) h, by cases b <;> decide⟩

/-! ### Words of predicates (R127) -/

/-- A power of two, added or not to a number below it, is the bit on top. -/
theorem testBit_ite_add_two_pow (p : Prop) [Decidable p] {x k i : Nat} (hx : x < 2 ^ k) (hi : i ≤ k) :
    (if p then x + 2 ^ k else x).testBit i = if i < k then x.testBit i else decide p := by
  by_cases hlt : i < k
  · rw [if_pos hlt]
    split
    · rw [Nat.add_comm, Nat.testBit_two_pow_add_gt hlt]
    · rfl
  · obtain rfl : i = k := by omega
    have hx0 := Nat.testBit_lt_two_pow hx
    by_cases hp : p <;> simp [hp, hx0, Nat.add_comm x, Nat.testBit_two_pow_add_eq]

/-- A sum of the powers of two that a test picks, from bit `k` up. -/
theorem testBit_sum_two_pow (p : Nat → Prop) [DecidablePred p] (n k x : Nat) (hx : x < 2 ^ k) (i : Nat) :
    ((fromTo k n).foldl (fun x i => if p i then x + 2 ^ i else x) x).testBit i =
      if i < k then x.testBit i else decide (i < k + n) && decide (p i) := by
  induction n generalizing k x with
  | zero =>
    simp only [fromTo, List.foldl_nil]
    split
    · rfl
    · have hxi : x < 2 ^ i := Nat.lt_of_lt_of_le hx (Nat.pow_le_pow_right (by decide) (by omega))
      simp [Nat.testBit_lt_two_pow hxi, show ¬ i < k by omega]
  | succ n ih =>
    have hlt : (if p k then x + 2 ^ k else x) < 2 ^ (k + 1) := by rw [Nat.pow_succ]; split <;> omega
    rw [fromTo, List.foldl_cons, ih (k + 1) _ hlt, show k + 1 + n = k + (n + 1) by omega]
    rcases Nat.lt_trichotomy i k with h | rfl | h
    · rw [if_pos (Nat.lt_succ_of_lt h), testBit_ite_add_two_pow _ hx (Nat.le_of_lt h), if_pos h, if_pos h]
    · rw [if_pos (Nat.lt_succ_self i), testBit_ite_add_two_pow _ hx (Nat.le_refl i), if_neg (Nat.lt_irrefl i),
        if_neg (Nat.lt_irrefl i), decide_eq_true (by omega : i < i + (n + 1)), Bool.true_and]
    · rw [if_neg (by omega), if_neg (by omega)]

theorem bitResult_predWord (t : Thread) (n l : Nat) :
    BitResult 32 (fun i => decide (n + i < 48) && predBit t (n + i) l) (predWord t n l) 0 := by
  refine bitResult_of fun i => ?_
  rw [predWord, testBit_sum_two_pow _ _ _ _ (by decide), if_neg (Nat.not_lt_zero i), Nat.zero_add, Bool.decide_and,
    Bool.decide_coe]

/-- Predicates n + i with `k ≤ i` and `i < k + m` take bit i of a word where the mask has it; nothing else changes. -/
theorem setPred_fold (n l x mask : Nat) (hl : l < 64) (m k : Nat) (t : Thread) :
    let u := (fromTo k m).foldl (fun t i => if n + i < 48 ∧ bit mask i then setPred t (n + i) l (bit x i) else t) t
    (∀ q, q < 48 → predBit u q l =
      if n + k ≤ q ∧ q < n + k + m ∧ mask.testBit (q - n) then x.testBit (q - n) else predBit t q l) ∧
    (∀ q j, j < 64 → j ≠ l → predBit u q j = predBit t q j) ∧ { u with preds := t.preds } = t := by
  induction m generalizing k t with
  | zero => exact ⟨fun q _ => by rw [if_neg (by omega)]; rfl, fun _ _ _ _ => rfl, rfl⟩
  | succ m ih =>
    obtain ⟨hsame, hother, hrest⟩ := ih (k + 1) (if n + k < 48 ∧ bit mask k then setPred t (n + k) l (bit x k) else t)
    refine ⟨fun q hq => ?_, fun q j hj hne => ?_, ?_⟩
    · rw [fromTo, List.foldl_cons, hsame q hq]
      by_cases he : q = n + k
      · subst he
        rw [if_neg (by omega), Nat.add_sub_cancel_left, bit_eq_testBit, bit_eq_testBit]
        split
        · rename_i h; rw [predBit_setPred_same _ _ _ hl, if_pos ⟨by omega, by omega, h.2⟩]
        · rename_i h; rw [if_neg fun h' => h ⟨hq, h'.2.2⟩]
      · have hkeep : predBit (if n + k < 48 ∧ bit mask k then setPred t (n + k) l (bit x k) else t) q l = predBit t q l := by
          split
          · exact predBit_setPred_other _ _ hl (.inl he)
          · rfl
        have hrange : n + (k + 1) ≤ q ∧ q < n + (k + 1) + m ↔ n + k ≤ q ∧ q < n + k + (m + 1) := by omega
        simp only [hkeep, ← and_assoc, hrange]
    · rw [fromTo, List.foldl_cons, hother q j hj hne]
      split
      · exact predBit_setPred_other _ _ hj (.inr hne)
      · rfl
    · refine (congrArg (fun y : Thread => { y with preds := t.preds }) hrest).trans ?_
      split <;> rfl

/-- `pbits.set` over a list of lanes (R127). -/
theorem setPredWord_fold (n : Nat) (a b : Nat → Nat) (ls : List Nat) (hn : ls.Nodup) (hls : ∀ l ∈ ls, l < 64) (t : Thread) :
    let u := ls.foldl (fun t l => setPredWord t n l (a l) (b l)) t
    (∀ l ∈ ls, ∀ q, q < 48 → predBit u q l =
      if n ≤ q ∧ q < n + 32 ∧ (b l).testBit (q - n) then (a l).testBit (q - n) else predBit t q l) ∧
    (∀ l, l < 64 → l ∉ ls → ∀ q, predBit u q l = predBit t q l) ∧ { u with preds := t.preds } = t := by
  induction ls generalizing t with
  | nil => exact ⟨fun _ h => absurd h List.not_mem_nil, fun _ _ _ _ => rfl, rfl⟩
  | cons k ls ih =>
    obtain ⟨hk, hn⟩ := List.nodup_cons.mp hn
    obtain ⟨hk64, hls⟩ := List.forall_mem_cons.mp hls
    obtain ⟨hin, hout, hrest⟩ := ih hn hls (setPredWord t n k (a k) (b k))
    obtain ⟨hset, hkeep, hparts⟩ := setPred_fold n k (a k) (b k) hk64 32 0 t
    refine ⟨fun l hl q hq => ?_, fun l hl hm q => ?_, ?_⟩
    · rw [List.foldl_cons]
      by_cases he : l = k
      · subst he
        exact (hout l hk64 hk q).trans (hset q hq)
      · have hm := (List.mem_cons.mp hl).resolve_left he
        rw [hin l hm q hq, setPredWord, hkeep q l (hls l hm) he]
    · obtain ⟨hne, hm⟩ := not_or.mp fun h => hm (List.mem_cons.mpr h)
      exact (hout l hl hm q).trans (hkeep q l hl hne)
    · exact (congrArg (fun y : Thread => { y with preds := t.preds }) hrest).trans hparts

/-! ### Set tests (R128) -/

theorem toNat_and_ofNat (n a b : Nat) : (BitVec.ofNat n a &&& BitVec.ofNat n b).toNat = (a % 2 ^ n) &&& (b % 2 ^ n) := by
  rw [BitVec.toNat_and, BitVec.toNat_ofNat, BitVec.toNat_ofNat]

/-- Settles O10: each lane function's value, and for the words of predicates each bit that they move. -/
theorem predicateInstructions : Obligations.PredicateInstructions := by
  unfold Obligations.PredicateInstructions
  intro f
  refine ⟨?_, ?_, ?_, fun n ha => ?_, fun n hd s c h => ?_⟩
  · exact gives_alu (exec_plop f) (fun _ => rfl) fun c l _ _ => ⟨rfl, b2n_bit ..⟩
  · refine gives_alu (exec_pmov f) (fun _ => rfl) fun c l _ _ => ⟨rfl, ?_⟩
    cases h : c.srcA l % 2 ^ 32 <;> rfl
  · refine gives_alu (exec_pset f) (fun _ => rfl) fun c l _ _ => ⟨rfl, ?_⟩
    have hand := toNat_and_ofNat 32 (c.srcA l) (c.srcB l)
    have hnone : (c.srcA l % 2 ^ 32) &&& (c.srcB l % 2 ^ 32) = 0 ↔
        BitVec.ofNat 32 (c.srcA l) &&& BitVec.ofNat 32 (c.srcB l) = 0 := by
      rw [← BitVec.toNat_inj, hand]; rfl
    have hall : (c.srcA l % 2 ^ 32) &&& (c.srcB l % 2 ^ 32) = c.srcB l % 2 ^ 32 ↔
        BitVec.ofNat 32 (c.srcA l) &&& BitVec.ofNat 32 (c.srcB l) = BitVec.ofNat 32 (c.srcB l) := by
      rw [← BitVec.toNat_inj, hand, BitVec.toNat_ofNat]
    refine ⟨fun h => ?_, fun h => ?_, fun h => ?_⟩
    · rw [h]; exact b2n_eq_one_iff (bne_iff_ne.trans (not_congr hnone))
    · rw [h]; exact b2n_eq_one_iff (beq_iff_eq.trans hall)
    · rw [h]; exact b2n_eq_one_iff (beq_iff_eq.trans hnone)
  · refine gives_alu (exec_pbitsGet f) (fun _ => rfl) fun c l _ _ => ?_
    rw [ha]
    exact bitResult_predWord c.t n.val l
  · obtain ⟨hin, hout, hrest⟩ := setPredWord_fold n.val c.srcA c.srcB c.lanes (nodup_lanes c) (fun _ => lt_of_mem_lanes) c.t
    refine ⟨_, (exec_pbitsSet f s).trans (h.done rfl), ?_⟩
    rw [hd]
    exact ⟨hin, hout, hrest⟩

end Sys2Proof.Machine
end
